-- ==== Sys2Proof/Word.lean ====
section
/-! DEFINITION. The word types of the block and the list of its endpoint identifiers
(spec 00_scope.md R5, R7; 20_memory.md R60). -/

namespace Sys2Proof

/-- One byte of memory or of a packet. -/
abbrev Byte := BitVec 8

/-- A 32-bit word: an address, a length, a cursor, a handle, a register (00_scope.md R5 `ADDR_W`). -/
abbrev Word := BitVec 32

/-- An endpoint identifier, `0 .. NUM_EP-1` with `NUM_EP = 16` (00_scope.md R5). -/
abbrev EpId := Fin 16

/-- Every endpoint, in the ascending order of `for e in 0 .. NUM_EP-1` (00_scope.md R8). -/
def epIds : List EpId := [0, 1, 2, 3, 4, 5, 6, 7, 8, 9, 10, 11, 12, 13, 14, 15]

end Sys2Proof
end

