-- ==== Sys2Proof/Config.lean ====
section
/-! DEFINITION. What an implementation fixes (00_scope.md R5) and the free values.

The parameters of R5, with one choice between two readings of the spec (log entry 24), are a structure of plain data that `State` carries and no rule writes, so that a
statement over every state quantifies over every value of every parameter (log entry 1). The two opaque
constants are the allocation oracle's draws once a state's own draws are used up (log entry 3). -/

namespace Sys2Proof

/-- What the injectable request handler answers (00_scope.md R5 `SETUP_OVERRIDE`; 43_control.md R181). -/
inductive OverrideResult where
  | declined
  | reply (bytes : List Byte)
  | ack
  | stall
deriving DecidableEq, Repr

/-- The parameters of 00_scope.md R5. `NUM_EP`, `BC_MAX` and `ADDR_W` are fixed by the types;
`EP0_HANDLER` is the built-in one, the only value the spec gives a meaning (43_control.md R195, log entry 13). -/
structure Params where
  /-- `BDT_BASE`, a multiple of 512. -/
  bdtBase : Word
  /-- `REG_BASE`, a multiple of 256. -/
  regBase : Word
  /-- `HEAP_BASE`. -/
  heapBase : Word
  /-- `HEAP_BYTES`, at least `2 * EP0_SIZE`. -/
  heapBytes : Word
  /-- `NODE_CAP`, at least 1. -/
  nodeCap : Word
  /-- `STAT_DEPTH`, at least 1. -/
  statDepth : Nat
  /-- `EP0_SIZE`: 8, 16, 32 or 64. -/
  ep0Size : BitVec 16
  /-- `RESOLVE`: the keys (value, index) that are found, each with its address and length;
  a key not listed is `NotFound`. -/
  resolve : List ((BitVec 16 × BitVec 16) × (Word × Word))
  /-- `SETUP_OVERRIDE`: the packets answered otherwise than `Declined`. -/
  setupOverride : List (BitVec 64 × OverrideResult)
  /-- `TXHOOK[e]`, 0 = none. -/
  txHook : Vector Word 16
  /-- `REBOOT_KEY`. -/
  rebootKey : BitVec 16
  /-- `FWUPD_KEY`. -/
  fwupdKey : BitVec 16
  /-- `FWUPD_SENTINEL`. -/
  sentinel : Byte
  /-- How the eight bytes of a Setup packet are read: two words (`true`: R8, 20_memory.md R63) or eight bytes
  (`false`: 42_dispatcher.md R166, 20_memory.md R76). The spec says both, so the model holds for both; no parameter of
  R5 (log entry 24). A packet whose address is no multiple of 4 is read byte by byte in both (20_memory.md R62). -/
  setupWords : Bool
deriving DecidableEq, Repr

/-- The values 95_test_vectors.md uses throughout ("each is a legal choice of an OPEN parameter, not a
source value"). DESIGN CHOICE, log entry 1: only `State.reset` uses them. -/
def Params.vectors : Params where
  bdtBase := 0x1FFF8000#32
  regBase := 0x40072000#32
  heapBase := 0x20000000#32
  heapBytes := 0x1000#32
  nodeCap := 32#32
  statDepth := 4
  ep0Size := 64#16
  resolve := []
  setupOverride := []
  txHook := Vector.replicate 16 0#32
  rebootKey := 0xAA40#16
  fwupdKey := 0xAA40#16
  sentinel := 0x86#8
  setupWords := true

/-- FREE VALUE (10_state.md R43): what the oracle answers to its `n`-th draw of a node handle, `none` = failure. -/
opaque Config.drawNode : Nat → Option Word

/-- FREE VALUE (10_state.md R44): what the oracle answers to its `n`-th draw of a heap block, `none` = failure. -/
opaque Config.drawBlock : Nat → Option Word

end Sys2Proof
end

