-- ==== Sys2Proof/Syntax.lean ====
section
/-! DEFINITION. The block's syntax: directions, slots, the steps of the peripheral, and one constructor of
`Instr` for every row of spec/opcode_table.json (00_scope.md R4). -/

namespace Sys2Proof

/-- A descriptor's direction (00_scope.md R8): `RX` = 0, `TX` = 1. -/
inductive Dir where
  | rx
  | tx
deriving DecidableEq, Repr

/-- A descriptor's slot (00_scope.md R8): `EVEN` = 0, `ODD` = 1. -/
inductive Slot where
  | even
  | odd
deriving DecidableEq, Repr

/-- The six kinds of word the block or its environment decodes (30_encoding.md R90); `host` stands for the
environment's lines (R111). -/
inductive Format where
  | cmd
  | istat
  | stat
  | bd
  | setup
  | host
deriving DecidableEq, Repr

/-- The steps of the peripheral (44_peripheral.md R200), with their operands. -/
inductive HostStep where
  | reset
  | sof
  | err (bits : BitVec 5)
  | sleep
  | resume
  | attach
  | setup (e : EpId) (bytes : List Byte)
  | inTok (e : EpId)
  | out (e : EpId) (toggle : Bool) (bytes : List Byte)
  | stalled (e : EpId)
deriving DecidableEq, Repr

/-- The operations that play the part of instructions: the rows of spec/opcode_table.json.
The `ARG` operands of a command are read from the command port (30_encoding.md R93), the fields of a
request from `LASTSETUP` (43_control.md, first paragraph). -/
inductive Instr where
  -- commands of the foreground client (30_encoding.md R92)
  | cfgep (ep : BitVec 8) (mps : BitVec 16)
  | prep
  | enq (ep : BitVec 8)
  | send (ep : BitVec 8)
  | trysend (ep : BitVec 8)
  | cancel (ep : BitVec 8)
  | qpend (ep : BitVec 8)
  | qbusy (ep : BitVec 8)
  -- interrupt routines (30_encoding.md R100)
  | iReset
  | iError
  | iSof
  | iTokdne (st : BitVec 8)
  | iSleep
  | iResume
  | iAttach
  | iStall
  -- token routines (30_encoding.md R102, R109)
  | tIn (e : EpId) (slot : Slot)
  | tSetup (e : EpId) (data1 : Bool) (payload : List Byte)
  | tOut (e : EpId) (data1 : Bool) (payload : List Byte)
  -- rows of the request table (30_encoding.md R108)
  | getStatus
  | setAddress
  | getDescriptor
  | getDescriptorIf
  | getConfiguration
  | setConfiguration
  | vendorReboot
  | stallDefault (key : BitVec 16)
  -- steps of the peripheral (44_peripheral.md R202 to R211)
  | pReset
  | pSof
  | pErr (bits : BitVec 5)
  | pSleep
  | pResume
  | pAttach
  | pSetup (e : EpId) (bytes : List Byte)
  | pIn (e : EpId)
  | pOut (e : EpId) (toggle : Bool) (bytes : List Byte)
  | pStalled (e : EpId)
deriving DecidableEq, Repr

end Sys2Proof
end

