-- ==== Sys2Proof/WellFormed.lean ====
section
/-! DEFINITION. Which terms of `Instr` stand for a word of the spec's encodings. `rk` is the parameter
`REBOOT_KEY`, on which two rows of the request table depend (30_encoding.md R108). -/

namespace Sys2Proof

/-- The keys of rows 1 to 6 of the request table (30_encoding.md R108). -/
def standardKeys : List (BitVec 16) := [0x0080#16, 0x0500#16, 0x0680#16, 0x0681#16, 0x0880#16, 0x0900#16]

/-- `i` is an instruction of the opcode table, every operand inside what its encoding admits. -/
def WellFormed (rk : BitVec 16) : Instr → Bool
  | .cfgep _ _ => true
  | .prep => true
  | .enq _ => true
  | .send _ => true
  | .trysend _ => true
  | .cancel _ => true
  | .qpend _ => true
  | .qbusy _ => true
  | .iReset => true
  | .iError => true
  | .iSof => true
  -- bits 1:0 of `STAT` are reserved and 0 (R102)
  | .iTokdne st => st.extractLsb' 0 2 == 0#2
  | .iSleep => true
  | .iResume => true
  | .iAttach => true
  | .iStall => true
  | .tIn _ _ => true
  -- the byte count is 10 bits (R97)
  | .tSetup _ _ payload => payload.length ≤ 1023
  | .tOut _ _ payload => payload.length ≤ 1023
  | .getStatus => true
  | .setAddress => true
  | .getDescriptor => true
  | .getDescriptorIf => true
  | .getConfiguration => true
  | .setConfiguration => true
  -- row 7's key differs from the keys of rows 1 to 6 (R108)
  | .vendorReboot => !(standardKeys.contains rk)
  -- the last row is selected when no earlier row matches (R108)
  | .stallDefault key => !(standardKeys.contains key) && key != rk
  | .pReset => true
  | .pSof => true
  -- a non-empty set of error flags (44_peripheral.md R204)
  | .pErr bits => bits != 0#5
  | .pSleep => true
  | .pResume => true
  | .pAttach => true
  -- eight bytes (R208)
  | .pSetup _ bytes => bytes.length == 8
  | .pIn _ => true
  -- the host's packet may be longer than any armed count (R212)
  | .pOut _ _ _ => true
  | .pStalled _ => true

end Sys2Proof
end

