-- ==== Sys2Proof/Decode.lean ====
section
/-! DEFINITION. The decoder, total on any bytes and rejecting by name, then the encoder, and the numbering of
spec/opcode_table.json. Bytes stand in the order the hardware stores them, lowest address first,
little-endian (20_memory.md R61). -/

namespace Sys2Proof

/-- Why some bytes are no instruction. -/
inductive Reject where
  /-- fewer bytes than the format has -/
  | truncated
  /-- `OP` = 0x00 or 0x09 .. 0xFF (30_encoding.md R96) -/
  | reservedOp
  /-- an `ISTAT` word with no bit set: no source is pending (R100) -/
  | noSource
  /-- a `STAT` word of a receive transaction: its token is in the descriptor (R102, 42_dispatcher.md R166) -/
  | receiveEntry
  /-- a control word whose `OWN` is 1: no token is written back in it (20_memory.md R67) -/
  | owned
  /-- a token identifier that is neither OUT nor SETUP in a receive descriptor (R109) -/
  | unknownToken
  /-- a line of R111 that names no step -/
  | unknownLine
  /-- an operand outside its range -/
  | badOperand
deriving DecidableEq, Repr

/-! ### Byte order and bit fields -/

/-- The word at four bytes, lowest address first (20_memory.md R61). -/
def wordOfBytes (b0 b1 b2 b3 : Byte) : Word := b3 ++ b2 ++ b1 ++ b0

/-- Byte `i` of a word, `i` = 0 the least significant. -/
def byteOfWord (w : Word) (i : Nat) : Byte := w.extractLsb' (8 * i) 8

/-- A word's four bytes, lowest address first. -/
def bytesOfWord (w : Word) : List Byte := [byteOfWord w 0, byteOfWord w 1, byteOfWord w 2, byteOfWord w 3]

/-- `payload[0] | payload[1] << 8 | ... | payload[7] << 56`, missing bytes 0 (42_dispatcher.md R168). -/
def packSetup (bytes : List Byte) : BitVec 64 :=
  bytes.getD 7 0#8 ++ bytes.getD 6 0#8 ++ bytes.getD 5 0#8 ++ bytes.getD 4 0#8 ++
    bytes.getD 3 0#8 ++ bytes.getD 2 0#8 ++ bytes.getD 1 0#8 ++ bytes.getD 0 0#8

/-- The eight bytes of a Setup packet in the layout of `LASTSETUP` (10_state.md R45). -/
def bytesOfSetup (v : BitVec 64) : List Byte :=
  [v.extractLsb' 0 8, v.extractLsb' 8 8, v.extractLsb' 16 8, v.extractLsb' 24 8,
   v.extractLsb' 32 8, v.extractLsb' 40 8, v.extractLsb' 48 8, v.extractLsb' 56 8]

/-- A direction's bit (00_scope.md R8). -/
def Dir.bit : Dir → BitVec 1
  | .rx => 0#1
  | .tx => 1#1

/-- A slot's bit (00_scope.md R8). -/
def Slot.bit : Slot → BitVec 1
  | .even => 0#1
  | .odd => 1#1

def Dir.ofBool (b : Bool) : Dir := if b then .tx else .rx

def Slot.ofBool (b : Bool) : Slot := if b then .odd else .even

/-- The other slot: `xor 1` on a slot number (41_txqueue.md R144). -/
def Slot.flip : Slot → Slot
  | .even => .odd
  | .odd => .even

/-- The endpoint a 4-bit field names. -/
def epOfBits (x : BitVec 4) : EpId := ⟨x.toNat, x.isLt⟩

/-- An endpoint's 4-bit field. -/
def bitsOfEp (e : EpId) : BitVec 4 := BitVec.ofNat 4 e.val

/-- The endpoint a command's 8-bit `EP` names, none when it is `>= NUM_EP` (30_encoding.md R91, R95). -/
def epOfByte (x : BitVec 8) : Option EpId := if h : x.toNat < 16 then some ⟨x.toNat, h⟩ else none

/-- The descriptor index `(e << 2) | (d << 1) | s` (30_encoding.md R99). -/
def bdIndex (e : EpId) (d : Dir) (s : Slot) : BitVec 6 := bitsOfEp e ++ d.bit ++ s.bit

/-- `STAT = index << 2` (30_encoding.md R102). -/
def statByte (e : EpId) (d : Dir) (s : Slot) : BitVec 8 := bdIndex e d s ++ 0#2

/-- `STAT[7:4]`. -/
def statEp (st : BitVec 8) : EpId := epOfBits (st.extractLsb' 4 4)

/-- `STAT[3]`. -/
def statDir (st : BitVec 8) : Dir := Dir.ofBool (st.getLsbD 3)

/-- `STAT[2]`. -/
def statSlot (st : BitVec 8) : Slot := Slot.ofBool (st.getLsbD 2)

/-- A control word from its fields, reserved bits 0 (30_encoding.md R97). -/
def ctlWord (bc : BitVec 10) (own data1 : Bool) (tok : BitVec 4) : Word :=
  0#6 ++ bc ++ 0#8 ++ BitVec.ofBool own ++ BitVec.ofBool data1 ++ tok ++ 0#2

/-- `BC`, bits 25:16 (30_encoding.md R97). -/
def ctlBc (w : Word) : BitVec 10 := w.extractLsb' 16 10

/-- `OWN`, bit 7. -/
def ctlOwn (w : Word) : Bool := w.getLsbD 7

/-- `DATA1`, bit 6. -/
def ctlData1 (w : Word) : Bool := w.getLsbD 6

/-- `TOK`, bits 5:2. -/
def ctlTok (w : Word) : BitVec 4 := w.extractLsb' 2 4

/-- The token identifiers of 30_encoding.md R109. -/
def tokOut : BitVec 4 := 0x1#4
def tokIn : BitVec 4 := 0x9#4
def tokSetup : BitVec 4 := 0xD#4

/-! ### The tables -/

/-- The eight interrupt sources, in dispatch order (30_encoding.md R100). -/
inductive Source where
  | usbrst
  | error
  | softok
  | tokdne
  | sleep
  | resume
  | attach
  | stall
deriving DecidableEq, Repr

/-- A source's bit number, which is also its rank (30_encoding.md R100). -/
def Source.bit : Source → Nat
  | .usbrst => 0
  | .error => 1
  | .softok => 2
  | .tokdne => 3
  | .sleep => 4
  | .resume => 5
  | .attach => 6
  | .stall => 7

/-- The sources in the fixed order of 42_dispatcher.md R162. -/
def sourceOrder : List Source := [.usbrst, .error, .softok, .tokdne, .sleep, .resume, .attach, .stall]

/-- The sources pending in a snapshot, in the order they are served (42_dispatcher.md R161). -/
def sourcesOf (snap : BitVec 8) : List Source := sourceOrder.filter fun x => snap.getLsbD x.bit

/-- The routine of a source (30_encoding.md R100); `st` is the `STAT` value captured with the snapshot. -/
def Source.routine (st : BitVec 8) : Source → Instr
  | .usbrst => .iReset
  | .error => .iError
  | .softok => .iSof
  | .tokdne => .iTokdne (st &&& 0xFC#8)
  | .sleep => .iSleep
  | .resume => .iResume
  | .attach => .iAttach
  | .stall => .iStall

/-- The routines one dispatcher invocation runs, in order (42_dispatcher.md R161). -/
def routinesOf (snap st : BitVec 8) : List Instr := (sourcesOf snap).map (Source.routine st)

/-- The token routines a receive descriptor can select (30_encoding.md R109; table mask 0x000000BC). -/
inductive Token where
  | setup
  | out
deriving DecidableEq, Repr

/-- The token of a written-back receive control word (42_dispatcher.md R166). -/
def tokenOf (w : Word) : Except Reject Token :=
  if ctlOwn w then .error .owned
  else if ctlTok w == tokSetup then .ok .setup
  else if ctlTok w == tokOut then .ok .out
  else .error .unknownToken

/-- The rows of the request table (30_encoding.md R108). -/
inductive Request where
  | getStatus
  | setAddress
  | getDescriptor
  | getDescriptorIf
  | getConfiguration
  | setConfiguration
  | vendorReboot
  | stall
deriving DecidableEq, Repr

/-- The request key, `LASTSETUP[15:0]` (30_encoding.md R107). -/
def requestKey (packet : BitVec 64) : BitVec 16 := packet.extractLsb' 0 16

/-- The first row whose key matches; the last row when none does (30_encoding.md R108). -/
def requestOf (rk key : BitVec 16) : Request :=
  if key == 0x0080#16 then .getStatus
  else if key == 0x0500#16 then .setAddress
  else if key == 0x0680#16 then .getDescriptor
  else if key == 0x0681#16 then .getDescriptorIf
  else if key == 0x0880#16 then .getConfiguration
  else if key == 0x0900#16 then .setConfiguration
  else if key == rk then .vendorReboot
  else .stall

/-- The instruction of a request row. -/
def Request.instr (key : BitVec 16) : Request → Instr
  | .getStatus => .getStatus
  | .setAddress => .setAddress
  | .getDescriptor => .getDescriptor
  | .getDescriptorIf => .getDescriptorIf
  | .getConfiguration => .getConfiguration
  | .setConfiguration => .setConfiguration
  | .vendorReboot => .vendorReboot
  | .stall => .stallDefault key

/-! ### The decoder -/

/-- A command word (30_encoding.md R91 to R93, R96). -/
def decodeCmd (w : Word) : Except Reject Instr :=
  let ep := w.extractLsb' 8 8
  let imm := w.extractLsb' 16 16
  match (w.extractLsb' 0 8).toNat with
  | 0x01 => .ok (.cfgep ep imm)
  | 0x02 => .ok .prep
  | 0x03 => .ok (.enq ep)
  | 0x04 => .ok (.send ep)
  | 0x05 => .ok (.trysend ep)
  | 0x06 => .ok (.cancel ep)
  | 0x07 => .ok (.qpend ep)
  | 0x08 => .ok (.qbusy ep)
  | _ => .error .reservedOp

/-- An `ISTAT` word with the `STAT` value captured beside it: the pending source served first (30_encoding.md R100). -/
def decodeIstat (snap st : BitVec 8) : Except Reject Instr :=
  match sourcesOf snap with
  | [] => .error .noSource
  | src :: _ => .ok (src.routine st)

/-- A `STAT` word (30_encoding.md R102): a transmit entry is `T.IN`. -/
def decodeStat (st : BitVec 8) : Except Reject Instr :=
  match statDir st with
  | .tx => .ok (.tIn (statEp st) (statSlot st))
  | .rx => .error .receiveEntry

/-- The control word of a receive descriptor of endpoint `e` with the payload it points at (30_encoding.md R97, R109). -/
def decodeBd (w : Word) (e : EpId) (payload : List Byte) : Except Reject Instr :=
  match tokenOf w with
  | .error r => .error r
  | .ok .setup => .ok (.tSetup e (ctlData1 w) payload)
  | .ok .out => .ok (.tOut e (ctlData1 w) payload)

/-- A Setup packet (30_encoding.md R107, R108). -/
def decodeSetup (rk : BitVec 16) (packet : BitVec 64) : Instr :=
  (requestOf rk (requestKey packet)).instr (requestKey packet)

/-- The endpoint a line's operand byte names. -/
def lineEp (b : Byte) : Except Reject EpId :=
  match epOfByte b with
  | some e => .ok e
  | none => .error .badOperand

/-- The code byte of a line. A token step has its token identifier (30_encoding.md R109), another step 0x10 plus the
number of the `ISTAT` bit it sets; the rest of an `OUT` line is the host's packet, of any length (a packet longer than the
armed count is a legal line and no step, 44_peripheral.md R212). DESIGN CHOICE, log entry 7: the spec writes these steps as text only (R111). -/
def decodeHost : List Byte → Except Reject Instr
  | [] => .error .truncated
  | code :: rest =>
    match code.toNat, rest with
    | 0x10, _ => .ok .pReset
    | 0x11, b :: _ =>
      if (b.extractLsb' 5 3 == 0#3) && (b.extractLsb' 0 5 != 0#5) then .ok (.pErr (b.extractLsb' 0 5))
      else .error .badOperand
    | 0x12, _ => .ok .pSof
    | 0x14, _ => .ok .pSleep
    | 0x15, _ => .ok .pResume
    | 0x16, _ => .ok .pAttach
    | 0x17, ep :: _ => (lineEp ep).map .pStalled
    | 0x0D, ep :: bytes =>
      if bytes.length < 8 then .error .truncated
      else (lineEp ep).map fun e => .pSetup e (bytes.take 8)
    | 0x09, ep :: _ => (lineEp ep).map .pIn
    | 0x01, ep :: t :: bytes =>
      if 1 < t.toNat then .error .badOperand else (lineEp ep).map fun e => .pOut e (t == 1#8) bytes
    | 0x11, [] => .error .truncated
    | 0x17, [] => .error .truncated
    | 0x0D, [] => .error .truncated
    | 0x09, [] => .error .truncated
    | 0x01, _ => .error .truncated
    | _, _ => .error .unknownLine

/-- The instruction some bytes of a format stand for. `rk` is `REBOOT_KEY`. A receive control word is followed by the
`STAT` byte that names its descriptor and by the payload. -/
def decode (rk : BitVec 16) (f : Format) (bytes : List Byte) : Except Reject Instr :=
  match f, bytes with
  | .cmd, b0 :: b1 :: b2 :: b3 :: _ => decodeCmd (wordOfBytes b0 b1 b2 b3)
  | .istat, snap :: st :: _ => decodeIstat snap st
  | .stat, st :: _ => decodeStat st
  | .bd, b0 :: b1 :: b2 :: b3 :: st :: payload =>
    let w := wordOfBytes b0 b1 b2 b3
    if payload.length < (ctlBc w).toNat then .error .truncated
    else decodeBd w (statEp st) (payload.take (ctlBc w).toNat)
  | .setup, b0 :: b1 :: b2 :: b3 :: b4 :: b5 :: b6 :: b7 :: _ =>
    .ok (decodeSetup rk (packSetup [b0, b1, b2, b3, b4, b5, b6, b7]))
  | .host, line => decodeHost line
  | _, _ => .error .truncated

/-! ### The encoder -/

/-- A command word from its fields (30_encoding.md R91). -/
def cmdWord (op ep : BitVec 8) (imm : BitVec 16) : Word := imm ++ ep ++ op

/-- A Setup packet with a given key, its other fields 0. -/
def setupBytes (key : BitVec 16) : List Byte :=
  [key.extractLsb' 0 8, key.extractLsb' 8 8, 0#8, 0#8, 0#8, 0#8, 0#8, 0#8]

/-- The byte of an endpoint. -/
def epByte (e : EpId) : Byte := BitVec.ofNat 8 e.val

/-- A receive control word written back for a payload, the descriptor's name and the payload. -/
def bdBytes (tok : BitVec 4) (e : EpId) (data1 : Bool) (payload : List Byte) : List Byte :=
  bytesOfWord (ctlWord (BitVec.ofNat 10 payload.length) false data1 tok) ++ statByte e .rx .even :: payload

/-- The format and the bytes of a well-formed instruction; a field its decoder ignores is 0. -/
def encode (rk : BitVec 16) : Instr → Format × List Byte
  | .cfgep ep mps => (.cmd, bytesOfWord (cmdWord 0x01#8 ep mps))
  | .prep => (.cmd, bytesOfWord (cmdWord 0x02#8 0#8 0#16))
  | .enq ep => (.cmd, bytesOfWord (cmdWord 0x03#8 ep 0#16))
  | .send ep => (.cmd, bytesOfWord (cmdWord 0x04#8 ep 0#16))
  | .trysend ep => (.cmd, bytesOfWord (cmdWord 0x05#8 ep 0#16))
  | .cancel ep => (.cmd, bytesOfWord (cmdWord 0x06#8 ep 0#16))
  | .qpend ep => (.cmd, bytesOfWord (cmdWord 0x07#8 ep 0#16))
  | .qbusy ep => (.cmd, bytesOfWord (cmdWord 0x08#8 ep 0#16))
  | .iReset => (.istat, [0x01#8, 0#8])
  | .iError => (.istat, [0x02#8, 0#8])
  | .iSof => (.istat, [0x04#8, 0#8])
  | .iTokdne st => (.istat, [0x08#8, st])
  | .iSleep => (.istat, [0x10#8, 0#8])
  | .iResume => (.istat, [0x20#8, 0#8])
  | .iAttach => (.istat, [0x40#8, 0#8])
  | .iStall => (.istat, [0x80#8, 0#8])
  | .tIn e slot => (.stat, [statByte e .tx slot])
  | .tSetup e data1 payload => (.bd, bdBytes tokSetup e data1 payload)
  | .tOut e data1 payload => (.bd, bdBytes tokOut e data1 payload)
  | .getStatus => (.setup, setupBytes 0x0080#16)
  | .setAddress => (.setup, setupBytes 0x0500#16)
  | .getDescriptor => (.setup, setupBytes 0x0680#16)
  | .getDescriptorIf => (.setup, setupBytes 0x0681#16)
  | .getConfiguration => (.setup, setupBytes 0x0880#16)
  | .setConfiguration => (.setup, setupBytes 0x0900#16)
  | .vendorReboot => (.setup, setupBytes rk)
  | .stallDefault key => (.setup, setupBytes key)
  | .pReset => (.host, [0x10#8])
  | .pSof => (.host, [0x12#8])
  | .pErr bits => (.host, [0x11#8, bits.setWidth 8])
  | .pSleep => (.host, [0x14#8])
  | .pResume => (.host, [0x15#8])
  | .pAttach => (.host, [0x16#8])
  | .pSetup e bytes => (.host, 0x0D#8 :: epByte e :: bytes)
  | .pIn e => (.host, [0x09#8, epByte e])
  | .pOut e t bytes =>
    (.host, 0x01#8 :: epByte e :: (if t then 1#8 else 0#8) :: bytes)
  | .pStalled e => (.host, [0x17#8, epByte e])

/-! ### The numbering of spec/opcode_table.json -/

/-- The lowest `n` bytes of a number, least significant first. -/
def bytesOfNat : Nat → Nat → List Byte
  | 0, _ => []
  | n + 1, w => BitVec.ofNat 8 w :: bytesOfNat n (w / 256)

/-- The format of a word the table numbers, with its bytes, the bits above `nbits` 0. The table numbers the words of
six formats from 0 alike, so one number can be a word of several of them; which one is taken is a
DESIGN CHOICE (log entry 8): with no bit at all the last row of the request table; up to 8 bits a command's `OP`, then a token identifier, then the endpoint of
`P.STALLED`, then a receive control word, then `ISTAT`, then `STAT`; up to 16 bits a request key; up to 32 bits a
command word, then a receive control word; above that a Setup packet. -/
def tableFetch (nbits w : Nat) : Format × List Byte :=
  let v := w % 2 ^ nbits
  let image := bytesOfNat 16 v
  let bdMatch := v &&& 0xBC = 0x34 ∨ v &&& 0xBC = 0x04
  if nbits = 0 then (.setup, image)
  else if nbits ≤ 8 then
    if 1 ≤ v ∧ v ≤ 8 then (.cmd, image)
    else if v = 0x09 ∨ v = 0x0D then (.host, image)
    else if v < 0x10 then (.host, 0x17#8 :: image)
    else if bdMatch then (.bd, image)
    else if v = 0x10 ∨ v = 0x20 ∨ v = 0x40 ∨ v = 0x80 then (.istat, image)
    else if v &&& 0x08 = 0x08 then (.stat, image)
    else (.istat, image)
  else if nbits ≤ 16 then (.setup, image)
  else if nbits ≤ 32 then
    if 1 ≤ v &&& 0xFF ∧ v &&& 0xFF ≤ 8 then (.cmd, image)
    else if bdMatch then (.bd, image)
    else (.cmd, image)
  else (.setup, image)

/-- The instruction the decoder reads from a word numbered as spec/opcode_table.json numbers it, with the
`REBOOT_KEY` of `State.reset`. -/
def decodeTableWord (nbits w : Nat) : Option Instr :=
  match decode Params.vectors.rebootKey (tableFetch nbits w).1 (tableFetch nbits w).2 with
  | .ok i => some i
  | .error _ => none

end Sys2Proof
end

