-- ==== Sys2Proof/Machine/State.lean ====
section
/-! DEFINITION. The block's state as plain data, in the groups of 10_state.md R20, with the environment state of R51
and the model's own schedule and draws (log entries 1, 3, 5, 6); why a step stops; power-on reset. -/

namespace Sys2Proof.Machine

/-- Why a step ends in a fault. -/
inductive Fault where
  /-- `REBOOT` = 1: no agent takes a step, the run is over (10_state.md R48, 43_control.md R196, 93 U17 "`stuck` by
  definition"). Raised by `step` on every input and by the eight commands. Safe: the machine stops. -/
  | runOver
deriving DecidableEq, Repr

/-- Why a step is refused. Every one is safe: the machine stops where the spec gives no meaning. -/
inductive Refusal where
  /-- an instruction with no meaning in this model (none is left) -/
  | notModelled (mnemonic : String)
  /-- a command while `STATUS` = `PENDING` (70_reset_and_hazards.md R254, 93 U23 "`refuse`"). Raised by the eight commands. -/
  | commandWhilePending
  /-- a client write into the descriptor table or a live heap block (R254, 93 U25 "`refuse`"). Raised by a client write. -/
  | clientWriteToOwned
  /-- a client word write inside the register block at an address that is no multiple of 4 (20_memory.md R62: registers
  "are accessed only as aligned 32-bit words"), or a client byte write there. Raised by a client write. -/
  | misalignedRegisterWrite
  /-- a `data` range that the peripheral may be writing: a byte of it is in the descriptor table, in a register the
  peripheral writes (`ISTAT`, `ERRSTAT`, `STAT`, `CTL`), or in the buffer of a receive descriptor that is the
  peripheral's (70_reset_and_hazards.md R254 "it does not hand `PREP` or `SEND` a `data` range that the peripheral may be
  writing ... a model refuses it", 93 U25 "`refuse`"). Raised by `PREP`, `SEND` and `TRYSEND` where they would copy the
  range. -/
  | dataMayBeWritten
deriving DecidableEq, Repr

/-! ### (a) The command port -/

/-- The operands of a `CFGEP` whose step A is done (10_state.md R22). -/
structure CfgLatch where
  id : EpId
  mps : BitVec 16
  flags : BitVec 3
  cb : Word
deriving DecidableEq, Repr

/-- The command port (10_state.md R21, R22). -/
structure Port where
  /-- the last word written to `CMD`; the client reads 0 there (30_encoding.md R110) -/
  cmd : Word
  arg0 : Word
  arg1 : Word
  arg2 : Word
  status : BitVec 8
  ret : Word
  /-- `CFGPEND` and what it latches; `none` is `CFGPEND = 0` -/
  cfgPend : Option CfgLatch
deriving DecidableEq, Repr

/-! ### (b) The peripheral-facing registers -/

/-- One completed transaction (10_state.md R26). -/
structure StatEntry where
  ep : EpId
  dir : Dir
  slot : Slot
deriving DecidableEq, Repr

/-- The peripheral-facing registers (10_state.md R23 to R29), implemented bits only. -/
structure Regs where
  istat : BitVec 8
  inten : BitVec 8
  errstat : BitVec 5
  /-- oldest first -/
  statq : List StatEntry
  addr : BitVec 7
  /-- bit 0 `USBEN`, bit 1 `HOLD` (30_encoding.md R104) -/
  ctl : BitVec 2
  /-- bit 0 `RXEN`, 1 `TXEN`, 2 `HSHK`, 3 `STALL` (30_encoding.md R103) -/
  epctl : Vector (BitVec 4) 16
deriving DecidableEq, Repr

/-! ### (c) The endpoint records -/

/-- An endpoint record (10_state.md R30 to R37). -/
structure EpRec where
  maxpkt : BitVec 16
  /-- bit 0 `RXEN`, 1 `TXEN`, 2 `HSHK` (30_encoding.md R94) -/
  flags : BitVec 3
  rxbuf : Option (Word × Word)
  /-- node handles, oldest first -/
  txq : List Word
  txtoggle : Bool
  txodd : Slot
  rxcb : Word
deriving DecidableEq, Repr

/-! ### (d) Memory -/

/-- The address space's bytes: address and byte, addresses strictly rising, no entry equal to what an unlisted
address reads as (`Memory.blank` of Machine/Mem.lean). It holds the descriptor table (10_state.md R39). -/
structure Memory where
  cells : List Host.Cell
deriving DecidableEq, Repr

/-! ### (e) The node pool and the heap -/

/-- A node that is not FREE is PREPARED or QUEUED (10_state.md R42). -/
inductive NodeState where
  | prepared
  | queued (e : EpId)
deriving DecidableEq, Repr

/-- A node that is not FREE (10_state.md R41). `NEXT` is a view of the queue it is in (R34). -/
structure Node where
  total : Word
  cursor : Word
  cb : Word
  owns : Bool
  buf : Word
  st : NodeState
deriving DecidableEq, Repr

/-- The nodes that are not FREE by handle, rising, and the live heap blocks as base and size,
in order of base and then of size (10_state.md R41 to R44). -/
structure Pool where
  nodes : List (Nat × Node)
  live : List (Nat × Nat)
deriving DecidableEq, Repr

/-! ### (f) Session, traces, environment -/

/-- Session state (10_state.md R45, R47, R48). -/
structure Session where
  lastSetup : BitVec 64
  config : BitVec 8
  /-- `FAULT.ISRALLOC`, the one implemented bit of `FAULT` -/
  isrAlloc : Bool
  reboot : Bool
deriving DecidableEq, Repr

/-- An event raised toward the client (10_state.md R46). -/
inductive Event where
  | complete (e : EpId) (cb : Word)
  | receive (e : EpId) (cb : Word) (pid : BitVec 4) (bytes : List Byte)
  | manualTx (e : EpId) (hook : Word)
  | override (setup : BitVec 64) (result : OverrideResult)
  | reboot
deriving DecidableEq, Repr

/-- An entry of the wire trace (44_peripheral.md R216). -/
inductive WireEntry where
  | reset
  | data (e : EpId) (toggle : Bool) (bytes : List Byte)
  | ack (e : EpId)
  | stall (e : EpId)
deriving DecidableEq, Repr

/-- The two traces, oldest entry first (00_scope.md R11). -/
structure Trace where
  evt : List Event
  wire : List WireEntry
deriving DecidableEq, Repr

/-- The peripheral's slot pointers (10_state.md R51, 44_peripheral.md R201). -/
structure Sie where
  txodd : Vector Slot 16
  rxodd : Vector Slot 16
deriving DecidableEq, Repr

/-- What an agent does next (log entry 6). -/
inductive Input where
  /-- the client writes a word: a register of the block (30_encoding.md R110) or its own memory -/
  | write (a v : Word)
  /-- the client writes a byte of its own memory -/
  | store (a : Word) (b : Byte)
  /-- the peripheral takes the step a line names (30_encoding.md R111, log entry 7) -/
  | host (line : List Byte)
  /-- a dispatcher invocation starts (42_dispatcher.md R160) -/
  | irq
  /-- the foreground takes step B of its held `CFGEP` (40_registry.md R124) -/
  | cont
deriving DecidableEq, Repr

/-- The model's own fields: the schedule of the agents and the draws of the oracle (log entries 3, 5, 6). -/
structure Env where
  /-- the inputs still to come, next first -/
  inbox : List Input
  /-- the peripheral steps that fall before each of the sequencer's next accesses -/
  between : List (List HostStep)
  /-- the oracle's next answers to `AllocNode`, `none` = failure -/
  nodeDraws : List (Option Word)
  /-- the oracle's next answers to `Alloc`, `none` = failure -/
  blockDraws : List (Option Word)
  /-- how many free values have been drawn -/
  drawCount : Nat
deriving DecidableEq, Repr

/-- The machine's state (10_state.md R20). -/
structure State where
  params : Params
  port : Port
  regs : Regs
  ep : Vector EpRec 16
  mem : Memory
  pool : Pool
  sess : Session
  trace : Trace
  sie : Sie
  env : Env
deriving DecidableEq, Repr

/-- The three outcomes of a step of this machine. -/
abbrev Result := Host.Outcome State Fault Refusal

/-! One update per group of state; Laws/State.lean has a lemma per group for each. -/

def State.withPort (s : State) (x : Port) : State := { s with port := x }
def State.withRegs (s : State) (x : Regs) : State := { s with regs := x }
def State.withEp (s : State) (x : Vector EpRec 16) : State := { s with ep := x }
def State.withMem (s : State) (x : Memory) : State := { s with mem := x }
def State.withPool (s : State) (x : Pool) : State := { s with pool := x }
def State.withSess (s : State) (x : Session) : State := { s with sess := x }
def State.withTrace (s : State) (x : Trace) : State := { s with trace := x }
def State.withSie (s : State) (x : Sie) : State := { s with sie := x }
def State.withEnv (s : State) (x : Env) : State := { s with env := x }

/-- An endpoint record after power-on reset (70_reset_and_hazards.md R250). -/
def EpRec.reset : EpRec where
  maxpkt := 0#16
  flags := 0#3
  rxbuf := none
  txq := []
  txtoggle := false
  txodd := .even
  rxcb := 0#32

/-- The address lies in the descriptor table, 512 bytes at `BDT_BASE` (20_memory.md R60). -/
def inTable (p : Params) (a : Word) : Bool := decide ((a - p.bdtBase).toNat < 512)

/-- The 128 words of the descriptor table written 0, in the canonical form that lists no byte of 0
(70_reset_and_hazards.md R250). -/
def Memory.zeroTable (p : Params) (m : Memory) : Memory :=
  { cells := m.cells.filter fun c => !inTable p (BitVec.ofNat 32 c.1) }

/-- Power-on reset with given parameters and the memory as it is drawn (70_reset_and_hazards.md R250): the table is
zeroed, and every byte outside it is unspecified, so it is the draw's (93 U13 "any value"). -/
def State.powerOn (p : Params) (drawn : Memory) : State where
  params := p
  port :=
    { cmd := 0#32, arg0 := 0#32, arg1 := 0#32, arg2 := 0#32, status := 0#8, ret := 0#32, cfgPend := none }
  regs :=
    { istat := 0x00#8, inten := 0x01#8, errstat := 0#5, statq := [], addr := 0#7, ctl := 0x3#2,
      epctl := Vector.replicate 16 0#4 }
  ep := Vector.replicate 16 EpRec.reset
  mem := drawn.zeroTable p
  pool := { nodes := [], live := [] }
  sess := { lastSetup := 0#64, config := 0#8, isrAlloc := false, reboot := false }
  trace := { evt := [], wire := [] }
  sie := { txodd := Vector.replicate 16 .even, rxodd := Vector.replicate 16 .even }
  env := { inbox := [], between := [], nodeDraws := [], blockDraws := [], drawCount := 0 }

/-- The machine right after power-on reset (70_reset_and_hazards.md R250), the parameters at the values of
95_test_vectors.md (log entry 1), the schedule empty (log entries 3, 5, 6) and one draw of the memory outside the table,
nothing listed (log entry 2). -/
def State.reset : State := State.powerOn Params.vectors { cells := [] }

end Sys2Proof.Machine
end

