-- ==== Sys2Proof/Machine/Mem.lean ====
section
/-! DEFINITION. The bytes of the address space: read and write of one byte and of a little-endian word
(20_memory.md R60, R61), and the canonical form of the list that holds them. -/

namespace Sys2Proof.Machine

/-- What an address that is not listed reads as: 0. The 512 bytes of the descriptor table are 0 at reset
(70_reset_and_hazards.md R250); for every other byte the spec gives no value, DESIGN CHOICE, log entry 2. -/
def Memory.blank : Byte := 0#8

/-- The byte a list of cells holds at an address. -/
def readCells (a : Nat) : List Host.Cell → Byte
  | [] => Memory.blank
  | (k, b) :: rest => if k = a then b else readCells a rest

/-- The list with the byte at an address replaced, in canonical form. -/
def writeCells (a : Nat) (b : Byte) : List Host.Cell → List Host.Cell
  | [] => if b = Memory.blank then [] else [(a, b)]
  | (k, v) :: rest =>
    if a < k then (if b = Memory.blank then (k, v) :: rest else (a, b) :: (k, v) :: rest)
    else if a = k then (if b = Memory.blank then rest else (a, b) :: rest)
    else (k, v) :: writeCells a b rest

/-- Addresses strictly above `low`, strictly rising and below `2^32`, no byte equal to `Memory.blank`. -/
def wfCells (low : Option Nat) : List Host.Cell → Bool
  | [] => true
  | (k, b) :: rest =>
    (match low with | none => true | some l => decide (l < k)) && decide (k < 2 ^ 32) && b != Memory.blank &&
      wfCells (some k) rest

/-- The byte at an address. -/
def Memory.read (m : Memory) (a : Word) : Byte := readCells a.toNat m.cells

/-- The memory with the byte at an address replaced. -/
def Memory.write (m : Memory) (a : Word) (b : Byte) : Memory := { cells := writeCells a.toNat b m.cells }

/-- The canonical form. -/
def Memory.wf (m : Memory) : Bool := wfCells none m.cells

/-- `MemRead(a, 4)`, little-endian (00_scope.md R8, 20_memory.md R61). -/
def Memory.read32 (m : Memory) (a : Word) : Word :=
  wordOfBytes (m.read a) (m.read (a + 1#32)) (m.read (a + 2#32)) (m.read (a + 3#32))

/-- `MemWrite(a, 4, v)`, little-endian (00_scope.md R8, 20_memory.md R61). -/
def Memory.write32 (m : Memory) (a v : Word) : Memory :=
  (((m.write a (byteOfWord v 0)).write (a + 1#32) (byteOfWord v 1)).write (a + 2#32) (byteOfWord v 2)).write
    (a + 3#32) (byteOfWord v 3)

end Sys2Proof.Machine
end

