-- ==== Sys2Proof/Machine/Flags.lean ====
section
/-! DEFINITION. The single-bit status flags of the block (10_state.md R52): their positions, and the writes of the
registers that hold them, write-one-to-clear included. -/

namespace Sys2Proof.Machine

/-! ### Bits of `EPCTL[e]`, of `FLAGS` and of the `flags` operand (30_encoding.md R94, R103) -/

def rxenBit : Nat := 0
def txenBit : Nat := 1
def hshkBit : Nat := 2
def stallBit : Nat := 3

/-- `RXEN` of a `flags` value. -/
def flagRx (f : BitVec 3) : Bool := f.getLsbD rxenBit
/-- `TXEN` of a `flags` value. -/
def flagTx (f : BitVec 3) : Bool := f.getLsbD txenBit

/-- `RXEN` of an `EPCTL` value. -/
def ctlRx (c : BitVec 4) : Bool := c.getLsbD rxenBit
/-- `TXEN` of an `EPCTL` value. -/
def ctlTx (c : BitVec 4) : Bool := c.getLsbD txenBit
/-- `HSHK` of an `EPCTL` value. -/
def ctlHshk (c : BitVec 4) : Bool := c.getLsbD hshkBit
/-- `STALL` of an `EPCTL` value. -/
def ctlStall (c : BitVec 4) : Bool := c.getLsbD stallBit

/-- The `RXEN` and `STALL` masks of `EPCTL`. -/
def rxenMask : BitVec 4 := 0x1#4
def stallMask : BitVec 4 := 0x8#4

/-! ### Per-endpoint entries -/

/-- `EPCTL[e]` (10_state.md R29). -/
def Regs.epc (r : Regs) (e : EpId) : BitVec 4 := r.epctl[e.val]
/-- `EPCTL[e] <- v`. -/
def Regs.setEpc (r : Regs) (e : EpId) (v : BitVec 4) : Regs := { r with epctl := r.epctl.set e.val v e.isLt }
/-- `SIE_TXODD[e]` (10_state.md R51). -/
def Sie.txAt (x : Sie) (e : EpId) : Slot := x.txodd[e.val]
/-- `SIE_TXODD[e] <- v`. -/
def Sie.setTx (x : Sie) (e : EpId) (v : Slot) : Sie := { x with txodd := x.txodd.set e.val v e.isLt }
/-- `SIE_RXODD[e]` (10_state.md R51). -/
def Sie.rxAt (x : Sie) (e : EpId) : Slot := x.rxodd[e.val]
/-- `SIE_RXODD[e] <- v`. -/
def Sie.setRx (x : Sie) (e : EpId) (v : Slot) : Sie := { x with rxodd := x.rxodd.set e.val v e.isLt }
/-- The endpoint record `EP[e]` (10_state.md R30). -/
def State.endpoint (s : State) (e : EpId) : EpRec := s.ep[e.val]
/-- One endpoint record changed. -/
def State.updEp (s : State) (e : EpId) (f : EpRec → EpRec) : State :=
  s.withEp (s.ep.set e.val (f (s.endpoint e)) e.isLt)
/-- `TXHOOK[e]` (10_state.md R38). -/
def hookOf (p : Params) (e : EpId) : Word := p.txHook[e.val]

/-! ### `CTL` (30_encoding.md R104) -/

/-- `CTL.USBEN`. -/
def Regs.usben (r : Regs) : Bool := r.ctl.getLsbD 0
/-- `CTL.HOLD`. -/
def Regs.hold (r : Regs) : Bool := r.ctl.getLsbD 1
/-- The `HOLD` mask. -/
def holdMask : BitVec 2 := 0x2#2

/-- A write of `CTL`: a write of 0 to `HOLD` while `ISTAT.USBRST` = 1 is ignored (10_state.md R28, 30_encoding.md R104). -/
def Regs.writeCtl (r : Regs) (v : BitVec 2) : Regs :=
  if r.istat.getLsbD 0 && !v.getLsbD 1 then { r with ctl := (v &&& ~~~holdMask) ||| (r.ctl &&& holdMask) }
  else { r with ctl := v }

/-! ### `ISTAT`, `INTEN`, `STAT` and `STATQ` (10_state.md R23, R24, R26) -/

/-- The mask of an interrupt source (30_encoding.md R100). -/
def sourceMask (x : Source) : BitVec 8 := BitVec.ofNat 8 (2 ^ x.bit)

/-- A source fires: its bit is set. -/
def Regs.setSource (r : Regs) (x : Source) : Regs := { r with istat := r.istat ||| sourceMask x }

/-- A source is pending. -/
def Regs.pending (r : Regs) (x : Source) : Bool := r.istat.getLsbD x.bit

/-- The interrupt request, `(ISTAT & INTEN) != 0` (42_dispatcher.md R160). -/
def Regs.request (r : Regs) : Bool := (r.istat &&& r.inten) != 0#8

/-- A read of `STAT`: the head of `STATQ`, `0x00` when it is empty (10_state.md R26). -/
def Regs.stat (r : Regs) : BitVec 8 :=
  match r.statq with
  | [] => 0x00#8
  | x :: _ => statByte x.ep x.dir x.slot

/-- A write of `ISTAT`: write-one-to-clear; clearing `TOKDNE` pops `STATQ` and sets `TOKDNE` again while an entry is
left (10_state.md R23, R26; 20_memory.md R64 a). -/
def Regs.writeIstat (r : Regs) (v : BitVec 8) : Regs :=
  let cleared := r.istat &&& ~~~v
  if v.getLsbD 3 then
    { r with
      statq := r.statq.tail
      istat := if r.statq.tail.isEmpty then cleared else cleared ||| sourceMask .tokdne }
  else { r with istat := cleared }

/-- A completed transaction: its entry is pushed and `TOKDNE` set (10_state.md R26). -/
def Regs.pushStat (r : Regs) (x : StatEntry) : Regs :=
  { r with statq := r.statq ++ [x], istat := r.istat ||| sourceMask .tokdne }

/-! ### `ERRSTAT` (10_state.md R25) -/

/-- A write of `ERRSTAT`: write-one-to-clear. -/
def Regs.writeErrstat (r : Regs) (v : BitVec 5) : Regs := { r with errstat := r.errstat &&& ~~~v }

/-! ### `FAULT` and `STATUS` -/

/-- `FAULT` as a byte (10_state.md R47, 30_encoding.md R105). -/
def Session.faultByte (x : Session) : BitVec 8 := if x.isrAlloc then 0x01#8 else 0x00#8

/-- The `STATUS` codes (30_encoding.md R95). -/
def statusOk : BitVec 8 := 0x00#8
def errRange : BitVec 8 := 0x01#8
def errNomem : BitVec 8 := 0x02#8
def errBusy : BitVec 8 := 0x03#8
def errBadop : BitVec 8 := 0x04#8
def errBadnode : BitVec 8 := 0x05#8
def statusPending : BitVec 8 := 0x80#8

/-- The handle that names the built-in control state machine (10_state.md R37). -/
def cbEp0 : Word := 0xFFFFFFFF#32

end Sys2Proof.Machine
end

