-- ==== Sys2Proof/Machine/Operands.lean ====
section
/-! DEFINITION. Operand assembly: the operands a command reads from the command port (30_encoding.md R93), the fields of
`LASTSETUP` (R106), and the sizes the operations compute (40_registry.md R122, 41_txqueue.md R144). -/

namespace Sys2Proof.Machine

/-- `CFGEP`'s `flags`: `ARG[0]` bits 2:0, the rest ignored. -/
def State.cfgFlags (s : State) : BitVec 3 := s.port.arg0.extractLsb' 0 3
/-- `CFGEP`'s `receiveCallback`: `ARG[1]`. -/
def State.cfgCallback (s : State) : Word := s.port.arg1
/-- The `data` address of `PREP`, `SEND` and `TRYSEND`: `ARG[0]`. -/
def State.dataAddr (s : State) : Word := s.port.arg0
/-- Their `length`: `ARG[1]`. -/
def State.dataLen (s : State) : Word := s.port.arg1
/-- Their completion callback: `ARG[2]`. -/
def State.dataCallback (s : State) : Word := s.port.arg2
/-- `ENQ`'s node handle: `ARG[0]`. -/
def State.nodeArg (s : State) : Word := s.port.arg0

/-- `wValue`, `LASTSETUP[31:16]` (30_encoding.md R106). -/
def Session.wValue (x : Session) : BitVec 16 := x.lastSetup.extractLsb' 16 16
/-- `wIndex`, `LASTSETUP[47:32]`. -/
def Session.wIndex (x : Session) : BitVec 16 := x.lastSetup.extractLsb' 32 16
/-- `wLength`, `LASTSETUP[63:48]`. -/
def Session.wLength (x : Session) : BitVec 16 := x.lastSetup.extractLsb' 48 16
/-- The request key, `LASTSETUP[15:0]` (30_encoding.md R107). -/
def Session.key (x : Session) : BitVec 16 := requestKey x.lastSetup
/-- The pending bus address, `LASTSETUP[22:16]`, when the last request was `SET_ADDRESS` (10_state.md R49). -/
def Session.pendingAddr (x : Session) : Option (BitVec 7) :=
  if x.key == 0x0500#16 then some (x.lastSetup.extractLsb' 16 7) else none

/-- The count a receive slot is armed with: `min(MAXPKT, 1023)` (40_registry.md R122). -/
def rxCount (mps : BitVec 16) : BitVec 10 := BitVec.ofNat 10 (min mps.toNat 1023)

/-- The size of a transmit chunk: `min(TOTAL - CURSOR, MAXPKT, 1023)` (41_txqueue.md R144 step 4). -/
def chunkSize (n : Node) (mps : BitVec 16) : BitVec 10 :=
  BitVec.ofNat 10 (min (n.total - n.cursor).toNat (min mps.toNat 1023))

/-- The address a chunk is armed with: 0 for an empty node (41_txqueue.md R144 step 4). -/
def chunkAddr (n : Node) : Word := if n.total = 0#32 then 0#32 else n.buf + n.cursor

/-- The control word `ARMBD` publishes: `(cnt << 16) | (1 << 7) | (tgl << 6)` (40_registry.md R120). -/
def armedWord (cnt : BitVec 10) (toggle : Bool) : Word := ctlWord cnt true toggle 0#4

/-- The second half of a receive pair: `p + mps` (10_state.md R33). -/
def secondHalf (p : Word) (mps : BitVec 16) : Word := p + mps.setWidth 32

/-- The size of a receive pair: `2 * mps`, at most 131070 (41_txqueue.md R148). -/
def pairSize (mps : BitVec 16) : Word := BitVec.ofNat 32 (2 * mps.toNat)

/-- The size of the block a receive pair was allocated as: its halves are one packet size apart (40_registry.md R124). -/
def pairBytes (b0 b1 : Word) : Nat := 2 * (b1 - b0).toNat

/-- The Descriptor Resolver (00_scope.md R5 `RESOLVE`). -/
def resolver (p : Params) (value index : BitVec 16) : Option (Word × Word) :=
  (p.resolve.find? fun x => x.1 == (value, index)).map (·.2)

/-- The injectable request handler (00_scope.md R5 `SETUP_OVERRIDE`), `Declined` for a packet not listed. -/
def overrideOf (p : Params) (packet : BitVec 64) : OverrideResult :=
  ((p.setupOverride.find? fun x => x.1 == packet).map (·.2)).getD .declined

end Sys2Proof.Machine
end

