-- ==== Sys2Proof/Machine/Bus.lean ====
section
/-! DEFINITION. Where things are in the one address space (20_memory.md R60, R65, R66) and what one access of it reads
or writes: descriptor words, register words, bytes. -/

namespace Sys2Proof.Machine

/-- `BDA(e,d,s) = BDT_BASE + 8 * index` (20_memory.md R66). -/
def bdAddr (p : Params) (e : EpId) (d : Dir) (x : Slot) : Word := p.bdtBase + 8#32 * (bdIndex e d x).setWidth 32

/-- `BD[e][d][s].ctl`, at offset 0 (20_memory.md R66). -/
def State.bdCtl (s : State) (e : EpId) (d : Dir) (x : Slot) : Word := s.mem.read32 (bdAddr s.params e d x)

/-- `BD[e][d][s].addr`, at offset 4. -/
def State.bdBuf (s : State) (e : EpId) (d : Dir) (x : Slot) : Word := s.mem.read32 (bdAddr s.params e d x + 4#32)

/-- The descriptor is HardwareOwned (10_state.md R40). -/
def State.bdOwn (s : State) (e : EpId) (d : Dir) (x : Slot) : Bool := ctlOwn (s.bdCtl e d x)

/-- One word write of a control word. -/
def State.setBdCtl (s : State) (e : EpId) (d : Dir) (x : Slot) (w : Word) : State :=
  s.withMem (s.mem.write32 (bdAddr s.params e d x) w)

/-- One word write of an address word. -/
def State.setBdBuf (s : State) (e : EpId) (d : Dir) (x : Slot) (a : Word) : State :=
  s.withMem (s.mem.write32 (bdAddr s.params e d x + 4#32) a)

/-- The address lies in the register block, 256 bytes at `REG_BASE` (20_memory.md R60). -/
def inRegs (p : Params) (a : Word) : Bool := decide ((a - p.regBase).toNat < 256)

/-- Two runs of bytes, `n` at `a` and `m` at `b`, have an address in common. Addresses wrap at `2^32` (log entry 12). -/
def runsMeet (a : Word) (n : Nat) (b : Word) (m : Nat) : Bool :=
  decide (n ≠ 0) && decide (m ≠ 0) && (decide ((b - a).toNat < n) || decide ((a - b).toNat < m))

/-- A receive descriptor is the peripheral's: its `OWN` is 1 and its direction is enabled (20_memory.md R67, R69).
That it counts so while `CTL.HOLD` = 1 as well is the model's (DESIGN CHOICE, log entry 29). -/
def State.armedRx (s : State) (e : EpId) (x : Slot) : Bool := ctlRx (s.regs.epc e) && s.bdOwn e .rx x

/-- The offsets of the registers the peripheral writes: `ISTAT`, `ERRSTAT`, `STAT` and `CTL` (30_encoding.md R110;
44_peripheral.md R202 to R211, R215; 60_exceptions.md R238). -/
def peripheralRegs : List Nat := [0x00, 0x08, 0x0C, 0x14]

/-- The address of the register word at an offset. -/
def regAddr (p : Params) (off : Nat) : Word := p.regBase + BitVec.ofNat 32 off

/-- The peripheral may be writing a byte of the `n` at `a`: one is in the table, whose control words it writes back, in the word
of a register it writes, or in the buffer of a receive descriptor it owns (44_peripheral.md R215;
70_reset_and_hazards.md R254; log entry 26). -/
def State.mayBeWritten (s : State) (a : Word) (n : Nat) : Bool :=
  runsMeet a n s.params.bdtBase 512 || (peripheralRegs.any fun off => runsMeet a n (regAddr s.params off) 4) ||
    epIds.any fun e => [Slot.even, Slot.odd].any fun x =>
      s.armedRx e x && runsMeet a n (s.bdBuf e .rx x) (ctlBc (s.bdCtl e .rx x)).toNat

/-- The address of `CMD` (30_encoding.md R110). -/
def cmdAddr (p : Params) : Word := p.regBase + 0x80#32

/-- What a read of the register at an offset gives, bits above its width 0 (30_encoding.md R110). No read has a side
effect (20_memory.md R64). -/
def State.regRead (s : State) (off : Nat) : Word :=
  match off with
  | 0x00 => s.regs.istat.setWidth 32
  | 0x04 => s.regs.inten.setWidth 32
  | 0x08 => s.regs.errstat.setWidth 32
  | 0x0C => s.regs.stat.setWidth 32
  | 0x10 => s.regs.addr.setWidth 32
  | 0x14 => s.regs.ctl.setWidth 32
  | 0x18 => s.sess.config.setWidth 32
  | 0x1C => s.sess.faultByte.setWidth 32
  | 0x20 => s.sess.lastSetup.extractLsb' 0 32
  | 0x24 => s.sess.lastSetup.extractLsb' 32 32
  | 0x28 => if s.sess.reboot then 1#32 else 0#32
  | 0x84 => s.port.arg0
  | 0x88 => s.port.arg1
  | 0x8C => s.port.arg2
  | 0x90 => s.port.status.setWidth 32
  | 0x94 => s.port.ret
  | off =>
    if h : 0x40 ≤ off ∧ off < 0x80 then (s.regs.epctl[(off - 0x40) / 4]'(by omega)).setWidth 32
    else 0#32

/-- The byte a one-byte read finds at an address. Inside the register block it is the byte of the register word there
(20_memory.md R61, log entry 11). -/
def State.readByte (s : State) (a : Word) : Byte :=
  if inRegs s.params a then
    byteOfWord (s.regRead ((a - s.params.regBase).toNat / 4 * 4)) ((a - s.params.regBase).toNat % 4)
  else s.mem.read a

/-- A one-byte write. Inside the register block it is dropped: registers are accessed only as aligned words
(20_memory.md R62, R63; DESIGN CHOICE, log entry 11). -/
def State.writeByte (s : State) (a : Word) (b : Byte) : State :=
  if inRegs s.params a then s else s.withMem (s.mem.write a b)

/-- The `n` bytes at `a .. a+n-1`, seen at one moment. Addresses wrap at `2^32` (log entry 12). -/
def State.peekBytes (s : State) (a : Word) : Nat → List Byte
  | 0 => []
  | n + 1 => s.readByte a :: s.peekBytes (a + 1#32) n

/-- Bytes written at `a` and up at one moment. -/
def State.pokeBytes (s : State) (a : Word) : List Byte → State
  | [] => s
  | b :: rest => (s.writeByte a b).pokeBytes (a + 1#32) rest

/-- The word a client's read of the register block or of memory gives (60_exceptions.md R235). -/
def State.clientRead (s : State) (a : Word) : Word :=
  wordOfBytes (s.readByte a) (s.readByte (a + 1#32)) (s.readByte (a + 2#32)) (s.readByte (a + 3#32))

end Sys2Proof.Machine
end

