-- ==== Sys2Proof/Machine/Peripheral.lean ====
section
/-! DEFINITION. The peripheral contract (44_peripheral.md): the ten steps of the serial-interface engine with the host
behind it. Each is atomic (R200). A step whose enabling condition does not hold is no step: it changes nothing (R212). -/

namespace Sys2Proof.Machine

/-- One wire entry appended (44_peripheral.md R216). -/
def State.wire (s : State) (x : WireEntry) : State := s.withTrace { s.trace with wire := s.trace.wire ++ [x] }

/-- No step is enabled while `REBOOT` = 1 or `CTL.USBEN` = 0 (R200). -/
def State.stepEnabled (s : State) : Bool := !s.sess.reboot && s.regs.usben

/-- The token-step conditions: `CTL.HOLD` = 0 (R200) and `STATQ` not full (R214). The token is addressed to the device
(R213). -/
def State.tokenEnabled (s : State) : Bool :=
  s.stepEnabled && !s.regs.hold && decide (s.regs.statq.length < s.params.statDepth)

/-- A source's bit is set (R203, R205 to R207). -/
def State.fire (s : State) (x : Source) : State := s.withRegs (s.regs.setSource x)

/-- `P.RESET` (R202). Each one the host drives is on the wire: the pseudocode says `WIRE += Reset`, where the corner case has a
second one before the first was served change nothing (DEDUCED, log entry 28). -/
def pReset (s : State) : State :=
  if s.stepEnabled then
    (((s.withRegs
      { s.regs with
        ctl := s.regs.ctl ||| holdMask
        statq := []
        istat := (s.regs.istat &&& ~~~(sourceMask .tokdne)) ||| sourceMask .usbrst }).withSie
      { txodd := Vector.replicate 16 .even, rxodd := Vector.replicate 16 .even }).wire .reset)
  else s

/-- `P.SOF` (R203). -/
def pSof (s : State) : State := if s.stepEnabled then s.fire .softok else s

/-- `P.ERR(bits)` (R204); an empty set of flags is no step. -/
def pErr (bits : BitVec 5) (s : State) : State :=
  if s.stepEnabled && bits != 0#5 then
    (s.withRegs { s.regs with errstat := s.regs.errstat ||| bits }).fire .error
  else s

/-- `P.SLEEP` (R205). -/
def pSleep (s : State) : State := if s.stepEnabled then s.fire .sleep else s

/-- `P.RESUME` (R206). -/
def pResume (s : State) : State := if s.stepEnabled then s.fire .resume else s

/-- `P.ATTACH` (R207). -/
def pAttach (s : State) : State := if s.stepEnabled then s.fire .attach else s

/-- A receive transaction completes on slot `x` of `e`: the bytes, the control word's write-back, the `STATQ` entry,
the pointer, the handshake, in that order (20_memory.md R72; R208, R210). -/
def State.rxDone (s : State) (e : EpId) (x : Slot) (tok : BitVec 4) (toggle : Bool) (bytes : List Byte) : State :=
  let s := s.pokeBytes (s.bdBuf e .rx x) bytes
  let s := s.setBdCtl e .rx x (ctlWord (BitVec.ofNat 10 bytes.length) false toggle tok)
  let s := s.withRegs (s.regs.pushStat { ep := e, dir := .rx, slot := x })
  let s := s.withSie (s.sie.setRx e (s.sie.rxAt e).flip)
  if ctlHshk (s.regs.epc e) then s.wire (.ack e) else s

/-- `P.SETUP(e, b[0..7])` is enabled (R208). `EPCTL[e].STALL` is not a condition. -/
def State.setupEnabled (s : State) (e : EpId) (bytes : List Byte) : Bool :=
  let w := s.bdCtl e .rx (s.sie.rxAt e)
  s.tokenEnabled && ctlRx (s.regs.epc e) && ctlOwn w && decide (8 ≤ (ctlBc w).toNat) && bytes.length == 8

/-- `P.SETUP(e, b[0..7])` (R208). -/
def pSetup (e : EpId) (bytes : List Byte) (s : State) : State :=
  if s.setupEnabled e bytes then s.rxDone e (s.sie.rxAt e) tokSetup false bytes else s

/-- `P.IN(e)` is enabled (R209). -/
def State.inEnabled (s : State) (e : EpId) : Bool :=
  s.tokenEnabled && ctlTx (s.regs.epc e) && !ctlStall (s.regs.epc e) && ctlOwn (s.bdCtl e .tx (s.sie.txAt e))

/-- `P.IN(e)` (R209). -/
def pIn (e : EpId) (s : State) : State :=
  if s.inEnabled e then
    let x := s.sie.txAt e
    let w := s.bdCtl e .tx x
    let bytes := s.peekBytes (s.bdBuf e .tx x) (ctlBc w).toNat
    let s := s.wire (.data e (ctlData1 w) bytes)
    let s := s.setBdCtl e .tx x (ctlWord (ctlBc w) false (ctlData1 w) tokIn)
    let s := s.withRegs (s.regs.pushStat { ep := e, dir := .tx, slot := x })
    s.withSie (s.sie.setTx e x.flip)
  else s

/-- `P.OUT(e, t, bytes)` is enabled (R210). The armed toggle is not compared. -/
def State.outEnabled (s : State) (e : EpId) (bytes : List Byte) : Bool :=
  let w := s.bdCtl e .rx (s.sie.rxAt e)
  s.tokenEnabled && ctlRx (s.regs.epc e) && !ctlStall (s.regs.epc e) && ctlOwn w &&
    decide (bytes.length ≤ (ctlBc w).toNat)

/-- `P.OUT(e, t, bytes)` (R210). -/
def pOut (e : EpId) (toggle : Bool) (bytes : List Byte) (s : State) : State :=
  if s.outEnabled e bytes then s.rxDone e (s.sie.rxAt e) tokOut toggle bytes else s

/-- `P.STALLED(e)` is enabled (R211; a token step, so `STATQ` is not full: R214, log entry 18). -/
def State.stalledEnabled (s : State) (e : EpId) : Bool :=
  s.tokenEnabled && ctlStall (s.regs.epc e) && (ctlRx (s.regs.epc e) || ctlTx (s.regs.epc e))

/-- `P.STALLED(e)` (R211). -/
def pStalled (e : EpId) (s : State) : State :=
  if s.stalledEnabled e then (s.wire (.stall e)).fire .stall else s

/-- A step of the peripheral. -/
def hostStep : HostStep → State → State
  | .reset, s => pReset s
  | .sof, s => pSof s
  | .err bits, s => pErr bits s
  | .sleep, s => pSleep s
  | .resume, s => pResume s
  | .attach, s => pAttach s
  | .setup e bytes, s => pSetup e bytes s
  | .inTok e, s => pIn e s
  | .out e t bytes, s => pOut e t bytes s
  | .stalled e, s => pStalled e s

/-! ### The meanings of the HOST rows -/

def execPReset (s : State) : Result := .next (pReset s)
def execPSof (s : State) : Result := .next (pSof s)
def execPErr (bits : BitVec 5) (s : State) : Result := .next (pErr bits s)
def execPSleep (s : State) : Result := .next (pSleep s)
def execPResume (s : State) : Result := .next (pResume s)
def execPAttach (s : State) : Result := .next (pAttach s)
def execPSetup (e : EpId) (bytes : List Byte) (s : State) : Result := .next (pSetup e bytes s)
def execPIn (e : EpId) (s : State) : Result := .next (pIn e s)
def execPOut (e : EpId) (toggle : Bool) (bytes : List Byte) (s : State) : Result := .next (pOut e toggle bytes s)
def execPStalled (e : EpId) (s : State) : Result := .next (pStalled e s)

end Sys2Proof.Machine
end

