-- ==== Sys2Proof/Machine/Pool.lean ====
section
/-! DEFINITION. The node pool, the heap and the allocation oracle (10_state.md R41 to R44). -/

namespace Sys2Proof.Machine

/-! ### Nodes by handle -/

/-- The entry of a key in a rising list. -/
def lookupKey {α : Type} (k : Nat) : List (Nat × α) → Option α
  | [] => none
  | (j, v) :: rest => if j = k then some v else lookupKey k rest

/-- The rising list with the entry of a key put or replaced. -/
def insertKey {α : Type} (k : Nat) (v : α) : List (Nat × α) → List (Nat × α)
  | [] => [(k, v)]
  | (j, w) :: rest =>
    if k < j then (k, v) :: (j, w) :: rest
    else if k = j then (k, v) :: rest
    else (j, w) :: insertKey k v rest

/-- The list without the first entry of a key. -/
def eraseKey {α : Type} (k : Nat) : List (Nat × α) → List (Nat × α)
  | [] => []
  | (j, w) :: rest => if j = k then rest else (j, w) :: eraseKey k rest

/-- What a FREE node reads as. A FREE node's fields are unspecified and never read (10_state.md R41): no queue of a
reachable state names a FREE node, and the value exists so that the operations are total (log entry 21). -/
def Node.blank : Node where
  total := 0#32
  cursor := 0#32
  cb := 0#32
  owns := false
  buf := 0#32
  st := .prepared

/-- The node of a handle, none when it is FREE. -/
def State.node? (s : State) (h : Word) : Option Node := lookupKey h.toNat s.pool.nodes

/-- The node of a handle. -/
def State.node (s : State) (h : Word) : Node := (s.node? h).getD Node.blank

/-- The node of a handle written. -/
def State.putNode (s : State) (h : Word) (n : Node) : State :=
  s.withPool { s.pool with nodes := insertKey h.toNat n s.pool.nodes }

/-- `FreeNode(h)` (10_state.md R43). -/
def State.freeNode (s : State) (h : Word) : State :=
  s.withPool { s.pool with nodes := eraseKey h.toNat s.pool.nodes }

/-- `NODE[h].NEXT`: the entry after `h` in the queue it is in, 0 when it is the last one or not queued (10_state.md R34). -/
def nextIn (h : Word) : List Word → Word
  | [] => 0#32
  | x :: rest => if x = h then rest.headD 0#32 else nextIn h rest

/-- `EP[e].HEAD`: 0 when the queue is empty (10_state.md R34). -/
def State.head (s : State) (e : EpId) : Word := (s.endpoint e).txq.headD 0#32

/-- `NODE[h].NEXT` (10_state.md R41). -/
def State.nextOf (s : State) (h : Word) : Word :=
  match s.node? h with
  | some { st := .queued e, .. } => nextIn h (s.endpoint e).txq
  | _ => 0#32

/-! ### The oracle -/

/-- The oracle's next answer to `AllocNode`: the next listed draw, else a free value (log entry 3). -/
def State.drawNode (s : State) : Option Word × State :=
  match s.env.nodeDraws with
  | d :: rest => (d, s.withEnv { s.env with nodeDraws := rest })
  | [] => (Config.drawNode s.env.drawCount, s.withEnv { s.env with drawCount := s.env.drawCount + 1 })

/-- The oracle's next answer to `Alloc`. -/
def State.drawBlock (s : State) : Option Word × State :=
  match s.env.blockDraws with
  | d :: rest => (d, s.withEnv { s.env with blockDraws := rest })
  | [] => (Config.drawBlock s.env.drawCount, s.withEnv { s.env with drawCount := s.env.drawCount + 1 })

/-- `AllocNode` may return this handle: it is one of `1 .. NODE_CAP` and its node is FREE (10_state.md R43). -/
def State.nodeGrantable (s : State) (h : Word) : Bool :=
  decide (1 ≤ h.toNat) && decide (h.toNat ≤ s.params.nodeCap.toNat) && (s.node? h).isNone

/-- `AllocNode()`: the handle, whose node becomes PREPARED, or failure (10_state.md R43). An answer the oracle may not
give counts as failure, which is always allowed (log entry 3). -/
def State.allocNode (s : State) : Option Word × State :=
  match s.drawNode with
  | (none, s) => (none, s)
  | (some h, s) => if s.nodeGrantable h then (some h, s.putNode h Node.blank) else (none, s)

/-- Two ranges of bytes have no byte in common. -/
def apart (p n q m : Nat) : Bool := decide (n = 0) || decide (m = 0) || decide (p + n ≤ q) || decide (q + m ≤ p)

/-- The live blocks with one more, in order of base and then of size. Empty blocks have no byte, so several blocks may have
one base (log entry 4). -/
def insertBlock (b : Nat × Nat) : List (Nat × Nat) → List (Nat × Nat)
  | [] => [b]
  | c :: rest =>
    if c.1 < b.1 ∨ c.1 = b.1 ∧ c.2 < b.2 then c :: insertBlock b rest else b :: c :: rest

/-- The bytes of the live blocks. -/
def liveBytes (live : List (Nat × Nat)) : Nat := (live.map (·.2)).sum

/-- `Alloc(n)` may return this address: the block lies in the heap, has no byte in common with a live block, the table or
the register block, and the live bytes fit (10_state.md R44). An empty block has no byte in common with any other. -/
def State.blockGrantable (s : State) (p n : Nat) : Bool :=
  decide (s.params.heapBase.toNat ≤ p) && decide (p + n ≤ s.params.heapBase.toNat + s.params.heapBytes.toNat) &&
    decide (liveBytes s.pool.live + n ≤ s.params.heapBytes.toNat) &&
    (s.pool.live.all fun b => apart p n b.1 b.2) &&
    apart p n s.params.bdtBase.toNat 512 && apart p n s.params.regBase.toNat 256

/-- `Alloc(n)`: the address of a block that becomes live, or failure (10_state.md R44). -/
def State.alloc (s : State) (n : Word) : Option Word × State :=
  match s.drawBlock with
  | (none, s) => (none, s)
  | (some p, s) =>
    if s.blockGrantable p.toNat n.toNat then
      (some p, s.withPool { s.pool with live := insertBlock (p.toNat, n.toNat) s.pool.live })
    else (none, s)

/-- `Free(p)`: the block that `Alloc(n)` returned at `p` becomes dead; its bytes keep their contents (10_state.md R44). The
caller says the size of the block it owns, which tells it from an empty block at the same base (log entry 4). -/
def State.freeBlock (s : State) (p : Word) (n : Nat) : State :=
  s.withPool { s.pool with live := s.pool.live.erase (p.toNat, n) }

/-- The address lies in a live heap block. -/
def State.inLive (s : State) (a : Word) : Bool :=
  s.pool.live.any fun b => decide (b.1 ≤ a.toNat) && decide (a.toNat < b.1 + b.2)

end Sys2Proof.Machine
end

