-- ==== Sys2Proof/Machine/Ops.lean ====
section
/-! DEFINITION. The sequencer's named operations over memory and registers. The peripheral may take steps between any
two accesses of the sequencer (44_peripheral.md R200): each operation first lets the steps that `env.between` puts
before that access happen (`tick`), then makes the access (log entries 5, 10). The entry of an interrupt and the
refusal of a command, the block's two kinds of exception (60_exceptions.md, first paragraph), are here too. -/

namespace Sys2Proof.Machine

/-- The peripheral steps that fall before the next access (44_peripheral.md R200). -/
def tick (s : State) : State :=
  match s.env.between with
  | [] => s
  | steps :: rest => steps.foldl (fun t h => hostStep h t) (s.withEnv { s.env with between := rest })

/-! ### Descriptor words -/

/-- `MemWrite(BDA(e,d,x), 4, w)`. -/
def writeCtl (e : EpId) (d : Dir) (x : Slot) (w : Word) (s : State) : State := (tick s).setBdCtl e d x w

/-- `MemWrite(BDA(e,d,x) + 4, 4, a)`. -/
def writeBuf (e : EpId) (d : Dir) (x : Slot) (a : Word) (s : State) : State := (tick s).setBdBuf e d x a

/-- `ARMBD(e, d, s, addr, cnt, tgl)`: the address word first, then ownership, toggle and count in one word
(40_registry.md R120, 20_memory.md R70). -/
def armBd (e : EpId) (d : Dir) (x : Slot) (addr : Word) (cnt : BitVec 10) (toggle : Bool) (s : State) : State :=
  writeCtl e d x (armedWord cnt toggle) (writeBuf e d x addr s)

/-- `RECLAIMBD(e, d, s)` (40_registry.md R121). -/
def reclaimBd (e : EpId) (d : Dir) (x : Slot) (s : State) : State := writeCtl e d x 0#32 s

/-! ### Bytes -/

/-- `for i in 0 .. n-1: MemWrite(dst + i, 1, MemRead(src + i, 1))`, ascending (41_txqueue.md R140). -/
def copyBytes : Nat → Word → Word → State → State
  | 0, _, _, s => s
  | n + 1, src, dst, s =>
    let s := tick s
    let b := s.readByte src
    copyBytes n (src + 1#32) (dst + 1#32) ((tick s).writeByte dst b)

/-- Literal bytes written at `dst` and up, one write each (41_txqueue.md R151). -/
def fillBytes : List Byte → Word → State → State
  | [], _, s => s
  | b :: rest, dst, s => fillBytes rest (dst + 1#32) ((tick s).writeByte dst b)

/-- `MemBytes(a, n)`: `n` single-byte reads in ascending order (00_scope.md R8). -/
def readBytes : Nat → Word → State → List Byte × State
  | 0, _, s => ([], s)
  | n + 1, a, s =>
    let s := tick s
    let r := readBytes n (a + 1#32) s
    (s.readByte a :: r.1, r.2)

/-- `MemRead(a, 4)` outside the table: one access, its bytes lowest address first (00_scope.md R8, 20_memory.md R63). -/
def readWord (a : Word) (s : State) : List Byte × State :=
  let s := tick s
  (s.peekBytes a 4, s)

/-- `MemRead(a, 8)`: two 4-byte reads, low word first (00_scope.md R8, 20_memory.md R63). -/
def readTwoWords (a : Word) (s : State) : List Byte × State :=
  let lo := readWord a s
  let hi := readWord (a + 4#32) lo.2
  (lo.1 ++ hi.1, hi.2)

/-- The eight bytes of a Setup packet at `a` are read as two words: its control word says so, the parameter does
(`Params.setupWords`, log entry 24), and the words are aligned, since no access is ever misaligned (20_memory.md R62, R63). -/
def State.readsSetupWords (s : State) (w a : Word) : Bool :=
  s.params.setupWords && ctlTok w == tokSetup && decide (8 ≤ (ctlBc w).toNat) && decide (a.toNat % 4 = 0)

/-- The bytes of the packet at `a` whose written-back control word is `w`: the eight bytes of a SETUP as two aligned words or
one by one, every other byte alone, ascending. -/
def readPacket (w a : Word) (s : State) : List Byte × State :=
  if s.readsSetupWords w a then
    let first := readTwoWords a s
    let rest := readBytes ((ctlBc w).toNat - 8) (a + 8#32) first.2
    (first.1 ++ rest.1, rest.2)
  else readBytes (ctlBc w).toNat a s

/-! ### Registers -/

/-- `EPCTL[e] <- v`. -/
def setEpctl (e : EpId) (v : BitVec 4) (s : State) : State :=
  let s := tick s
  s.withRegs (s.regs.setEpc e v)

/-- `EPCTL[e] <- EPCTL[e] & ~mask`: a read and a write. -/
def clearEpctl (e : EpId) (mask : BitVec 4) (s : State) : State :=
  let s := tick s
  setEpctl e ((s.regs.epc e) &&& ~~~mask) s

/-- `EPCTL[e] <- EPCTL[e] | mask`: a read and a write. -/
def raiseEpctl (e : EpId) (mask : BitVec 4) (s : State) : State :=
  let s := tick s
  setEpctl e ((s.regs.epc e) ||| mask) s

/-- `err <- ERRSTAT; ERRSTAT <- err` (42_dispatcher.md R164). -/
def acknowledgeErrors (s : State) : State :=
  let s := tick s
  let err := s.regs.errstat
  let s := tick s
  s.withRegs (s.regs.writeErrstat err)

/-- `CTL <- CTL & ~HOLD` (42_dispatcher.md R163). -/
def releaseHold (s : State) : State :=
  let s := tick s
  let v := s.regs.ctl &&& ~~~holdMask
  let s := tick s
  s.withRegs (s.regs.writeCtl v)

/-- `emit E(args)` (00_scope.md R8). -/
def State.emit (s : State) (x : Event) : State := s.withTrace { s.trace with evt := s.trace.evt ++ [x] }

/-! ### Exceptions -/

/-- `STATUS <- code`. -/
def State.setStatus (s : State) (code : BitVec 8) : State := s.withPort { s.port with status := code }

/-- `raise <Status>`: the command ends with its code in `STATUS` and no other state change (00_scope.md R8,
60_exceptions.md R222). -/
def raise (code : BitVec 8) (s : State) : State := s.setStatus code

/-- What an invocation has when its routines start: the snapshot of `ISTAT` and the captured `STAT`. -/
structure Entry where
  snap : BitVec 8
  st : BitVec 8
deriving DecidableEq, Repr

/-- Taking the interrupt: the accesses of `DISPATCH` before its first routine (42_dispatcher.md R161). Nothing is saved
(60_exceptions.md R230). -/
def takeInterrupt (s : State) : Entry × State :=
  let s := tick s
  let snap := s.regs.istat
  let s := if snap.getLsbD 3 then tick s else s
  let st := if snap.getLsbD 3 then s.regs.stat else 0x00#8
  let s := tick s
  ({ snap := snap, st := st }, s.withRegs (s.regs.writeIstat snap))

/-- The return from an invocation: nothing is restored (60_exceptions.md R231, 42_dispatcher.md R176). -/
def returnFromInterrupt (s : State) : State := s

/-- A command is taken: not while the run is over (10_state.md R48, 43_control.md R196) and not while a `CFGEP` is held
(70_reset_and_hazards.md R254, 93 U23). -/
def command (run : State → State) (s : State) : Result :=
  if s.sess.reboot then .fault .runOver
  else if s.port.cfgPend.isSome then .refused .commandWhilePending
  else .next (run s)

/-- A command that copies its `data` range, where it does so (`copies`): refused if the peripheral may be writing there
(70_reset_and_hazards.md R254, 93 U25). -/
def copyingCommand (copies : State → Bool) (run : State → State) (s : State) : Result :=
  match command run s with
  | .next t => if copies s && s.mayBeWritten s.dataAddr s.dataLen.toNat then .refused .dataMayBeWritten else .next t
  | .fault r => .fault r
  | .refused r => .refused r

/-- An endpoint command: `if EP >= NUM_EP: raise ERR_RANGE` (30_encoding.md R95, 60_exceptions.md R221). -/
def onEndpoint (ep : BitVec 8) (run : EpId → State → State) (s : State) : State :=
  match epOfByte ep with
  | none => raise errRange s
  | some e => run e s

end Sys2Proof.Machine
end

