-- ==== Sys2Proof/Machine/TxQueue.lean ====
section
/-! DEFINITION. The Transmission Queue Engine (41_txqueue.md): `PREP`, `ENQ`, `SEND`, `TRYSEND`, `CANCEL`, `QPEND`,
`QBUSY` and the internal `PUMP`, `COMPLETE`, `CANCELQ`, `ISEND`. -/

namespace Sys2Proof.Machine

/-! ### Building and queueing a node -/

/-- Where a node's bytes come from: client memory (R140) or a literal (R151). -/
inductive TxSource where
  | memory (a : Word)
  | literal (bytes : List Byte)
deriving DecidableEq, Repr

/-- The bytes put into a node's buffer, one access each. -/
def fillFrom (src : TxSource) (len dst : Word) (s : State) : State :=
  match src with
  | .memory a => copyBytes len.toNat a dst s
  | .literal bytes => fillBytes bytes dst s

/-- The body of `PREP` (R140): a PREPARED node of `len` bytes, or failure with nothing changed but the oracle's draws. -/
def prepNode (src : TxSource) (len cb : Word) (s : State) : Option Word × State :=
  match s.allocNode with
  | (none, s) => (none, s)
  | (some h, s) =>
    if len = 0#32 then
      (some h, s.putNode h { total := 0#32, cursor := 0#32, cb := cb, owns := false, buf := 0#32, st := .prepared })
    else
      match s.alloc len with
      | (none, s) => (none, s.freeNode h)
      | (some b, s) =>
        (some h, (fillFrom src len b s).putNode h
          { total := len, cursor := 0#32, cb := cb, owns := true, buf := b, st := .prepared })

/-- A node appended to the tail of a queue: it becomes QUEUED(e) (R141). -/
def appendNode (e : EpId) (h : Word) (s : State) : State :=
  (s.putNode h { s.node h with st := .queued e }).updEp e fun r => { r with txq := r.txq ++ [h] }

/-- The handle of a PREPARED node (R141). -/
def State.isPrepared (s : State) (h : Word) : Bool :=
  decide (h ≠ 0#32) && decide (h.toNat ≤ s.params.nodeCap.toNat) &&
    match s.node? h with
    | some n => n.st == .prepared
    | none => false

/-- `PREP data, len, cb` (R140). -/
def prep (s : State) : State :=
  match prepNode (.memory s.dataAddr) s.dataLen s.dataCallback s with
  | (none, s) => raise errNomem s
  | (some h, s) => s.withPort { s.port with ret := h, status := statusOk }

/-- `ENQ ep, node` (R141). -/
def enq (e : EpId) (s : State) : State :=
  if s.isPrepared s.nodeArg then (appendNode e s.nodeArg s).setStatus statusOk else raise errBadnode s

/-- `SEND ep, data, len, cb` (R142): `PREP`, then `ENQ`; `RET` is left unchanged. -/
def send (e : EpId) (s : State) : State :=
  match prepNode (.memory s.dataAddr) s.dataLen s.dataCallback s with
  | (none, s) => raise errNomem s
  | (some h, s) => (appendNode e h s).setStatus statusOk

/-- `TRYSEND ep, data, len, cb` (R143): the busy test is on the list alone. -/
def trysend (e : EpId) (s : State) : State :=
  if (s.endpoint e).txq.isEmpty then send e s else raise errBusy s

/-! ### Completing and cancelling -/

/-- `COMPLETE(e, n)` (R145). -/
def complete (e : EpId) (h : Word) (s : State) : State :=
  let n := s.node h
  let s := if n.cb = 0#32 then s else s.emit (.complete e n.cb)
  let s := if n.owns then s.freeBlock n.buf n.total.toNat else s
  (s.updEp e fun r => { r with txq := r.txq.tail }).freeNode h

/-- `CANCELQ(e)` (R146): every node of the list, oldest first. Each `COMPLETE` removes the head, so the nodes completed
are those of the list as it stood at the start. -/
def cancelQueue (e : EpId) (s : State) : State := (s.endpoint e).txq.foldl (fun t h => complete e h t) s

/-- `CANCEL ep` (R147). -/
def cancel (e : EpId) (s : State) : State := (cancelQueue e s).setStatus statusOk

/-! ### Queries -/

/-- The bytes not yet armed of the nodes of a queue, modulo `2^32` (R149). -/
def pendingBytes (s : State) : List Word → Word
  | [] => 0#32
  | h :: rest => ((s.node h).total - (s.node h).cursor) + pendingBytes s rest

/-- `QPEND ep` (R149). -/
def qpend (e : EpId) (s : State) : State :=
  s.withPort { s.port with ret := pendingBytes s (s.endpoint e).txq, status := statusOk }

/-- `TxInProgress(e)` (40_registry.md R123): two control-word reads. -/
def txInProgress (e : EpId) (s : State) : Bool × State :=
  let s := tick s
  let w := s.bdOwn e .tx .even
  let s := tick s
  (!(s.endpoint e).txq.isEmpty || w || s.bdOwn e .tx .odd, s)

/-- `QBUSY ep` (R150). -/
def qbusy (e : EpId) (s : State) : State :=
  let r := txInProgress e s
  r.2.withPort { r.2.port with ret := if r.1 then 1#32 else 0#32, status := statusOk }

/-! ### The pump -/

/-- Step 4 of `PUMP` for the head node `h` and the free slot `f` (R144): arm the next chunk, flip toggle and parity, move
the cursor. -/
def armChunk (e : EpId) (h : Word) (f : Slot) (s : State) : State :=
  let n := s.node h
  let c := chunkSize n (s.endpoint e).maxpkt
  let s := armBd e .tx f (chunkAddr n) c (s.endpoint e).txtoggle s
  (s.updEp e fun r => { r with txtoggle := !r.txtoggle, txodd := r.txodd.flip }).putNode h
    { n with cursor := n.cursor + c.setWidth 32 }

/-- `PUMP(e)` (R144). The two control words are read one after the other, and the peripheral may step between the reads (R200):
only then can the fallback slot be the one armed (log entry 27). -/
def pump (e : EpId) (s : State) : State :=
  match (s.endpoint e).txq with
  | [] => s
  | h :: _ =>
    let p := (s.endpoint e).txodd
    let s := tick s
    let wp := s.bdOwn e .tx p
    let s := tick s
    let wq := s.bdOwn e .tx p.flip
    if wp && wq then s
    else
      let f := if wp then p.flip else p
      let n := s.node h
      if n.cursor = n.total ∧ n.total ≠ 0#32 then
        if wp || wq then s else complete e h s
      else
        let s := armChunk e h f s
        if n.total = 0#32 then complete e h s else s

/-- `ISEND(e, bytes)` (R151): a reply queued from interrupt context; failure sets `FAULT.ISRALLOC` and queues nothing. -/
def isend (e : EpId) (src : TxSource) (len : Word) (s : State) : State :=
  match prepNode src len 0#32 s with
  | (none, s) => s.withSess { s.sess with isrAlloc := true }
  | (some h, s) => appendNode e h s

/-! ### The meanings of the commands -/

/-- `PREP` copies its `data` range: both allocations succeed (R140). -/
def prepCopies (s : State) : Bool := s.allocNode.1.isSome && (s.allocNode.2.alloc s.dataLen).1.isSome

/-- `SEND` copies: the identifier is in range (R142). -/
def sendCopies (ep : BitVec 8) (s : State) : Bool := (epOfByte ep).isSome && prepCopies s

/-- `TRYSEND` copies: the list is empty as well (R143). -/
def trysendCopies (ep : BitVec 8) (s : State) : Bool :=
  match epOfByte ep with
  | none => false
  | some e => (s.endpoint e).txq.isEmpty && prepCopies s

def execPrep (s : State) : Result := copyingCommand prepCopies prep s
def execEnq (ep : BitVec 8) (s : State) : Result := command (onEndpoint ep enq) s
def execSend (ep : BitVec 8) (s : State) : Result := copyingCommand (sendCopies ep) (onEndpoint ep send) s
def execTrysend (ep : BitVec 8) (s : State) : Result := copyingCommand (trysendCopies ep) (onEndpoint ep trysend) s
def execCancel (ep : BitVec 8) (s : State) : Result := command (onEndpoint ep cancel) s
def execQpend (ep : BitVec 8) (s : State) : Result := command (onEndpoint ep qpend) s
def execQbusy (ep : BitVec 8) (s : State) : Result := command (onEndpoint ep qbusy) s

end Sys2Proof.Machine
end

