-- ==== Sys2Proof/Machine/Registry.lean ====
section
/-! DEFINITION. The Buffer Descriptor / Endpoint Registry (40_registry.md): `CFGEP` and the internal `ARMRX`, `RESETALL`,
`REARM`. -/

namespace Sys2Proof.Machine

/-- `ARMRX(e)` (R122): DATA0 on the even slot, DATA1 on the odd slot. It is called with a receive pair. -/
def armRx (e : EpId) (s : State) : State :=
  match (s.endpoint e).rxbuf with
  | none => s
  | some (b0, b1) =>
    let c := rxCount (s.endpoint e).maxpkt
    armBd e .rx .odd b1 c true (armBd e .rx .even b0 c false s)

/-- `CFGEP` step A (R124) without its latch: `false` when the receive pair cannot be allocated. -/
def cfgepStepA (id : EpId) (mps : BitVec 16) (f : BitVec 3) (s : State) : Bool × State :=
  match (s.endpoint id).rxbuf, flagRx f with
  | none, true =>
    match s.alloc (pairSize mps) with
    | (none, s) => (false, s)
    | (some p, s) => (true, s.updEp id fun r => { r with rxbuf := some (p, secondHalf p mps) })
  | some (b0, b1), false =>
    let s := clearEpctl id rxenMask s
    let s := reclaimBd id .rx .odd (reclaimBd id .rx .even s)
    (true, (s.freeBlock b0 (pairBytes b0 b1)).updEp id fun r => { r with rxbuf := none })
  | _, _ => (true, s)

/-- The guard of `CFGEP` step B holds (R124): not (transmit is being disabled and a transmission is in progress). -/
def cfgepGuard (l : CfgLatch) (s : State) : Bool × State :=
  let r := txInProgress l.id s
  (!(flagTx (r.2.endpoint l.id).flags && !flagTx l.flags && r.1), r.2)

/-- `CFGEP` step B after its guard (R124). -/
def cfgepStepB (l : CfgLatch) (s : State) : State :=
  let s := setEpctl l.id 0#4 s
  let s := s.updEp l.id fun r => { r with maxpkt := l.mps, flags := l.flags, rxcb := l.cb }
  let s := if flagRx l.flags then armRx l.id s else s
  let s := setEpctl l.id (l.flags.setWidth 4) s
  s.withPort { s.port with cfgPend := none, status := statusOk }

/-- Step B if its guard holds, else the hold goes on (R124). -/
def cfgepContinue (l : CfgLatch) (s : State) : State :=
  let r := cfgepGuard l s
  if r.1 then cfgepStepB l r.2 else r.2

/-- `CFGEP ep, mps, flags, cb` (R124): step A and the latch; step B at once where its guard already holds (corner case 4). -/
def cfgep (mps : BitVec 16) (id : EpId) (s : State) : State :=
  let l : CfgLatch := { id := id, mps := mps, flags := s.cfgFlags, cb := s.cfgCallback }
  let r := cfgepStepA id mps l.flags s
  if r.1 then
    cfgepContinue l (r.2.withPort { r.2.port with cfgPend := some l, status := statusPending })
  else raise errNomem r.2

/-- One turn of the loop of `RESETALL` (R125). -/
def resetEndpoint (e : EpId) (s : State) : State :=
  let s := cancelQueue e s
  let s := setEpctl e 0#4 s
  let s := reclaimBd e .rx .odd (reclaimBd e .rx .even s)
  let s := reclaimBd e .tx .odd (reclaimBd e .tx .even s)
  s.updEp e fun r => { r with txtoggle := false, txodd := .even }

/-- The last block of `RESETALL`, endpoint 0 with its receive pair: the control endpoint again (R125). -/
def establishControl (s : State) : State :=
  let s := s.updEp 0 fun r => { r with maxpkt := s.params.ep0Size, flags := 0b111#3, rxcb := cbEp0 }
  setEpctl 0 0x7#4 (armRx 0 s)

/-- `RESETALL` (R125). -/
def resetAll (s : State) : State :=
  let s := epIds.foldl (fun t e => resetEndpoint e t) s
  match (s.endpoint 0).rxbuf with
  | some _ => establishControl s
  | none =>
    match s.alloc (pairSize s.params.ep0Size) with
    | (none, s) => s.withSess { s.sess with isrAlloc := true }
    | (some p, s) => establishControl (s.updEp 0 fun r => { r with rxbuf := some (p, secondHalf p s.params.ep0Size) })

/-- `REARM(e)` (R126). -/
def rearm (e : EpId) (s : State) : State :=
  let s := setEpctl e 0#4 s
  let s := if flagRx (s.endpoint e).flags then armRx e s else s
  let s := s.updEp e fun r => { r with txtoggle := false }
  setEpctl e ((s.endpoint e).flags.setWidth 4) s

/-- The meaning of `CFGEP`. -/
def execCfgep (ep : BitVec 8) (mps : BitVec 16) (s : State) : Result := command (onEndpoint ep (cfgep mps)) s

end Sys2Proof.Machine
end

