-- ==== Sys2Proof/Machine/Control.lean ====
section
/-! DEFINITION. The control-transfer state machine of endpoint 0 (43_control.md): the rows of the request table, the
stall, and the actions on SETUP, IN and OUT. It has no state of its own (R180). -/

namespace Sys2Proof.Machine

/-- `STALL0` (R190). -/
def stall0 (s : State) : State := raiseEpctl 0 stallMask s

/-- An acknowledgement: a zero-length node (R182). -/
def acknowledge (s : State) : State := isend 0 (.literal []) 0#32 s

/-- A data reply of literal bytes, truncated to `wLength` (R182). -/
def replyBytes (bytes : List Byte) (s : State) : State :=
  let b := bytes.take s.sess.wLength.toNat
  isend 0 (.literal b) (BitVec.ofNat 32 b.length) s

/-- A data reply of `n` bytes at an address, truncated to `wLength` (R182, R185). -/
def replyMemory (a n : Word) (s : State) : State :=
  isend 0 (.memory a) (BitVec.ofNat 32 (min n.toNat s.sess.wLength.toNat)) s

/-- `GET_STATUS` (R183). -/
def getStatus (s : State) : State := replyBytes [0x00#8, 0x00#8] s

/-- `SET_ADDRESS` (R184): `ADDR` is not written. -/
def setAddress (s : State) : State := acknowledge s

/-- `GET_DESCRIPTOR` and "other descriptor requests" (R185). -/
def describe (s : State) : State :=
  match resolver s.params s.sess.wValue s.sess.wIndex with
  | none => stall0 s
  | some (a, n) => replyMemory a n s

/-- `GET_DESCRIPTOR` with a device recipient (R185). -/
def getDescriptor (s : State) : State := describe s

/-- `GET_DESCRIPTOR` with an interface recipient (R185). -/
def getDescriptorIf (s : State) : State := describe s

/-- `GET_CONFIGURATION` (R186). -/
def getConfiguration (s : State) : State := replyBytes [s.sess.config] s

/-- `SET_CONFIGURATION` (R187): endpoints 1 and up are re-armed. -/
def setConfiguration (s : State) : State :=
  let s := s.withSess { s.sess with config := s.sess.wValue.extractLsb' 0 8 }
  acknowledge (epIds.tail.foldl (fun t e => rearm e t) s)

/-- `VENDOR_REBOOT` (R188): the SETUP alone does not set `REBOOT`. -/
def vendorReboot (s : State) : State := acknowledge s

/-- The default row (R189). -/
def stallDefault (s : State) : State := stall0 s

/-- The rule of a row of the request table (30_encoding.md R108). -/
def runRequest : Request → State → State
  | .getStatus, s => getStatus s
  | .setAddress, s => setAddress s
  | .getDescriptor, s => getDescriptor s
  | .getDescriptorIf, s => getDescriptorIf s
  | .getConfiguration, s => getConfiguration s
  | .setConfiguration, s => setConfiguration s
  | .vendorReboot, s => vendorReboot s
  | .stall, s => stallDefault s

/-- `CTRL.SETUP` (R181). -/
def ctrlSetup (s : State) : State :=
  let s := clearEpctl 0 stallMask s
  let r := overrideOf s.params s.sess.lastSetup
  let s := s.emit (.override s.sess.lastSetup r)
  match r with
  | .reply bytes => replyBytes bytes s
  | .ack => acknowledge s
  | .stall => stall0 s
  | .declined => runRequest (requestOf s.params.rebootKey s.sess.key) s

/-- `CTRL.IN` (R192): the address commit. -/
def ctrlIn (s : State) : State :=
  match s.sess.pendingAddr with
  | some a => s.withRegs { s.regs with addr := a }
  | none => s

/-- The payload is the sentinel of the reboot sequence (R193). -/
def State.isSentinel (s : State) (payload : List Byte) : Bool :=
  s.sess.key == s.params.fwupdKey && payload.head? == some s.params.sentinel

/-- `CTRL.OUT(payload)` (R193). -/
def ctrlOut (payload : List Byte) (s : State) : State :=
  let s :=
    if s.isSentinel payload then
      let s := tick s
      (s.withSess { s.sess with reboot := true }).emit .reboot
    else s
  s.emit (.receive 0 cbEp0 tokOut payload)

/-! ### The meanings of the SETUP rows -/

def execGetStatus (s : State) : Result := .next (getStatus s)
def execSetAddress (s : State) : Result := .next (setAddress s)
def execGetDescriptor (s : State) : Result := .next (getDescriptor s)
def execGetDescriptorIf (s : State) : Result := .next (getDescriptorIf s)
def execGetConfiguration (s : State) : Result := .next (getConfiguration s)
def execSetConfiguration (s : State) : Result := .next (setConfiguration s)
def execVendorReboot (s : State) : Result := .next (vendorReboot s)
def execStallDefault (_key : BitVec 16) (s : State) : Result := .next (stallDefault s)

end Sys2Proof.Machine
end

