-- ==== Sys2Proof/Machine/Dispatcher.lean ====
section
/-! DEFINITION. The Interrupt Dispatcher's routines (42_dispatcher.md): the eight interrupt routines, the three token
routines, the receive re-arm and the handler delivery. `DISPATCH` itself is in Machine/Run.lean. -/

namespace Sys2Proof.Machine

/-- `HANDLER(e, pid, payload)` (R171). -/
def handler (e : EpId) (pid : BitVec 4) (payload : List Byte) (s : State) : State :=
  if e = 0 ∧ (s.endpoint e).rxcb = cbEp0 then
    if pid = tokSetup then ctrlSetup s else ctrlOut payload s
  else if (s.endpoint e).rxcb = 0#32 then s
  else s.emit (.receive e (s.endpoint e).rxcb pid payload)

/-- The manual-transmit hook of an endpoint, or the pump (R165, R167). -/
def hookOrPump (e : EpId) (s : State) : State :=
  if (hookOf s.params e) = 0#32 then pump e s else s.emit (.manualTx e (hookOf s.params e))

/-- `T.IN(e)` (R167). -/
def tIn (e : EpId) (s : State) : State := hookOrPump e (if e = 0 then ctrlIn s else s)

/-- `T.SETUP(e, payload)` (R168). -/
def tSetup (e : EpId) (payload : List Byte) (s : State) : State :=
  let s := s.withSess { s.sess with lastSetup := packSetup payload }
  let s := cancelQueue e s
  let s := s.updEp e fun r => { r with txtoggle := true }
  handler e tokSetup payload s

/-- `T.OUT(e, payload)` (R169). -/
def tOut (e : EpId) (payload : List Byte) (s : State) : State := handler e tokOut payload s

/-- `RXREARM(e, s, w)` (R170): the slot's own half of the pair, the toggle opposite to the one received. -/
def rxRearm (e : EpId) (x : Slot) (w : Word) (s : State) : State :=
  match (s.endpoint e).rxbuf with
  | none => s
  | some (b0, b1) =>
    if flagRx (s.endpoint e).flags then
      armBd e .rx x (match x with | .even => b0 | .odd => b1) (rxCount (s.endpoint e).maxpkt) (!ctlData1 w) s
    else s

/-- `I.RESET` (R163). -/
def iReset (s : State) : State :=
  let s := resetAll s
  let s := s.withRegs { s.regs with addr := 0#7, inten := 0xFF#8 }
  let s := s.withSess { s.sess with config := 0#8 }
  releaseHold s

/-- `I.ERROR` (R164). -/
def iError (s : State) : State := acknowledgeErrors s

/-- `I.SOF` (R165). -/
def iSof (s : State) : State := epIds.foldl (fun t e => hookOrPump e t) s

/-- The receive half of `I.TOKDNE` (R166) for slot `x` of `e`. -/
def receiveDone (e : EpId) (x : Slot) (s : State) : State :=
  let s := tick s
  let w := s.bdCtl e .rx x
  if ctlOwn w then s
  else
    let s := tick s
    let a := s.bdBuf e .rx x
    let r := readPacket w a s
    let s :=
      match tokenOf w with
      | .ok .setup => tSetup e r.1 r.2
      | .ok .out => tOut e r.1 r.2
      | .error _ => r.2
    rxRearm e x w s

/-- `I.TOKDNE(st)` (R166). -/
def iTokdne (st : BitVec 8) (s : State) : State :=
  match statDir st with
  | .tx => tIn (statEp st) s
  | .rx => receiveDone (statEp st) (statSlot st) s

/-- `I.SLEEP` (R172), `I.RESUME` (R173), `I.ATTACH` (R174), `I.STALL` (R175): nothing beyond the clear `DISPATCH` has done. -/
def acknowledgeOnly (s : State) : State := s

/-! ### The meanings of the ISTAT, STAT and BD rows -/

def execIReset (s : State) : Result := .next (iReset s)
def execIError (s : State) : Result := .next (iError s)
def execISof (s : State) : Result := .next (iSof s)
def execITokdne (st : BitVec 8) (s : State) : Result := .next (iTokdne st s)
def execISleep (s : State) : Result := .next (acknowledgeOnly s)
def execIResume (s : State) : Result := .next (acknowledgeOnly s)
def execIAttach (s : State) : Result := .next (acknowledgeOnly s)
def execIStall (s : State) : Result := .next (acknowledgeOnly s)
def execTIn (e : EpId) (_slot : Slot) (s : State) : Result := .next (tIn e s)
def execTSetup (e : EpId) (_data1 : Bool) (payload : List Byte) (s : State) : Result := .next (tSetup e payload s)
def execTOut (e : EpId) (_data1 : Bool) (payload : List Byte) (s : State) : Result := .next (tOut e payload s)

end Sys2Proof.Machine
end

