-- ==== Sys2Proof/Machine/Dispatch.lean ====
section
/-! DEFINITION. One arm per constructor of `Instr`: the meaning of each row of spec/opcode_table.json. -/

namespace Sys2Proof.Machine

def exec (i : Instr) (s : State) : Host.Outcome State Fault Refusal :=
  match i with
  -- commands (40_registry.md, 41_txqueue.md)
  | .cfgep ep mps => Sys2Proof.Machine.execCfgep ep mps s
  | .prep => Sys2Proof.Machine.execPrep s
  | .enq ep => Sys2Proof.Machine.execEnq ep s
  | .send ep => Sys2Proof.Machine.execSend ep s
  | .trysend ep => Sys2Proof.Machine.execTrysend ep s
  | .cancel ep => Sys2Proof.Machine.execCancel ep s
  | .qpend ep => Sys2Proof.Machine.execQpend ep s
  | .qbusy ep => Sys2Proof.Machine.execQbusy ep s
  -- interrupt routines (42_dispatcher.md)
  | .iReset => Sys2Proof.Machine.execIReset s
  | .iError => Sys2Proof.Machine.execIError s
  | .iSof => Sys2Proof.Machine.execISof s
  | .iTokdne st => Sys2Proof.Machine.execITokdne st s
  | .iSleep => Sys2Proof.Machine.execISleep s
  | .iResume => Sys2Proof.Machine.execIResume s
  | .iAttach => Sys2Proof.Machine.execIAttach s
  | .iStall => Sys2Proof.Machine.execIStall s
  -- token routines (42_dispatcher.md)
  | .tIn e slot => Sys2Proof.Machine.execTIn e slot s
  | .tSetup e data1 payload => Sys2Proof.Machine.execTSetup e data1 payload s
  | .tOut e data1 payload => Sys2Proof.Machine.execTOut e data1 payload s
  -- requests (43_control.md)
  | .getStatus => Sys2Proof.Machine.execGetStatus s
  | .setAddress => Sys2Proof.Machine.execSetAddress s
  | .getDescriptor => Sys2Proof.Machine.execGetDescriptor s
  | .getDescriptorIf => Sys2Proof.Machine.execGetDescriptorIf s
  | .getConfiguration => Sys2Proof.Machine.execGetConfiguration s
  | .setConfiguration => Sys2Proof.Machine.execSetConfiguration s
  | .vendorReboot => Sys2Proof.Machine.execVendorReboot s
  | .stallDefault key => Sys2Proof.Machine.execStallDefault key s
  -- steps of the peripheral (44_peripheral.md)
  | .pReset => Sys2Proof.Machine.execPReset s
  | .pSof => Sys2Proof.Machine.execPSof s
  | .pErr bits => Sys2Proof.Machine.execPErr bits s
  | .pSleep => Sys2Proof.Machine.execPSleep s
  | .pResume => Sys2Proof.Machine.execPResume s
  | .pAttach => Sys2Proof.Machine.execPAttach s
  | .pSetup e bytes => Sys2Proof.Machine.execPSetup e bytes s
  | .pIn e => Sys2Proof.Machine.execPIn e s
  | .pOut e toggle bytes => Sys2Proof.Machine.execPOut e toggle bytes s
  | .pStalled e => Sys2Proof.Machine.execPStalled e s

end Sys2Proof.Machine
end

