-- ==== Sys2Proof/Machine/Run.lean ====
section
/-! DEFINITION. What happens when an agent moves: a client write (the issue of a command among them), a line of the
environment, a dispatcher invocation, the held step of a `CFGEP`; and where a fetched word is found. -/

namespace Sys2Proof.Machine

/-- Instructions run one after another; the first stop ends them. -/
def runAll : List Instr → State → Result
  | [], s => .next s
  | i :: rest, s =>
    match exec i s with
    | .next t => runAll rest t
    | .fault r => .fault r
    | .refused r => .refused r

/-- An invocation may start: the request is up and the run is not over (42_dispatcher.md R160). No command and no other
invocation is executing, since each is one step of the model (60_exceptions.md R232, log entry 9). -/
def State.irqEnabled (s : State) : Bool := !s.sess.reboot && s.regs.request

/-- `DISPATCH` (42_dispatcher.md R161): the snapshot is taken and cleared, then every pending source is served in the fixed
order. Where the invocation may not start, nothing happens. -/
def dispatch (s : State) : Result :=
  if s.irqEnabled then
    match runAll (routinesOf (takeInterrupt s).1.snap (takeInterrupt s).1.st) (takeInterrupt s).2 with
    | .next t => .next (returnFromInterrupt t)
    | .fault r => .fault r
    | .refused r => .refused r
  else .next s

/-- A write of `CMD`: the command it encodes runs (30_encoding.md R91); a reserved `OP` is refused by `STATUS` with no other
effect (R96). -/
def issue (w : Word) (s : State) : Result :=
  let s := s.withPort { s.port with cmd := w }
  match decode s.params.rebootKey .cmd (bytesOfWord w) with
  | .ok i => exec i s
  | .error _ => command (raise errBadop) s

/-- The client writes the register at an offset; a register it may only read, or a reserved offset, ignores the write
(30_encoding.md R110). -/
def registerWrite (off : Nat) (v : Word) (s : State) : Result :=
  match off with
  | 0x80 => issue v s
  | 0x84 => .next (s.withPort { s.port with arg0 := v })
  | 0x88 => .next (s.withPort { s.port with arg1 := v })
  | 0x8C => .next (s.withPort { s.port with arg2 := v })
  | _ => .next s

/-- The client's write of this byte is outside the command interface: the byte is in the descriptor table or in a live
heap block (70_reset_and_hazards.md R254, 93 U25). -/
def State.owned (s : State) (a : Word) : Bool := inTable s.params a || s.inLive a

/-- A client write of bytes to its own memory. -/
def clientBytes (a : Word) (bytes : List Byte) (s : State) : Result :=
  if (List.range bytes.length).any fun i => inRegs s.params (a + BitVec.ofNat 32 i) then
    .refused .misalignedRegisterWrite
  else if (List.range bytes.length).any fun i => s.owned (a + BitVec.ofNat 32 i) then .refused .clientWriteToOwned
  else .next (s.pokeBytes a bytes)

/-- A client write of a word: a register when the address is one of the block's (60_exceptions.md R235), else its own
memory. -/
def clientWrite (a v : Word) (s : State) : Result :=
  if inRegs s.params a && decide ((a - s.params.regBase).toNat % 4 = 0) then
    registerWrite (a - s.params.regBase).toNat v s
  else clientBytes a (bytesOfWord v) s

/-- The peripheral takes the step a line names. A line that names none is no step, so no state of the block changes
(44_peripheral.md R212 "is therefore not a step"; log entry 16). -/
def runLine (line : List Byte) (s : State) : Result :=
  match decode s.params.rebootKey .host line with
  | .ok i => exec i s
  | .error _ => .next s

/-- The foreground takes step B of its held `CFGEP`, if its guard holds; nothing else is held (40_registry.md R124). -/
def continueHeld (s : State) : Result :=
  match s.port.cfgPend with
  | some l => .next (cfgepContinue l s)
  | none => .next s

/-- One input of the schedule. -/
def runInput : Input → State → Result
  | .write a v, s => clientWrite a v s
  | .store a b, s => clientBytes a [b] s
  | .host line, s => runLine line s
  | .irq, s => dispatch s
  | .cont, s => continueHeld s

/-- The machine's next move: the next input of the schedule, taken out of it. With no input the machine waits (log entry 6).
While `REBOOT` = 1 no agent moves (10_state.md R48). -/
def nextMove (s : State) : Result :=
  if s.sess.reboot then .fault .runOver
  else
    match s.env.inbox with
    | [] => .next s
    | x :: rest => runInput x (s.withEnv { s.env with inbox := rest })

/-! ### Where a fetched word is found (log entry 8) -/

/-- An input put first in the schedule. -/
def State.schedule (s : State) (x : Input) : State := s.withEnv { s.env with inbox := x :: s.env.inbox }

/-- The entry of `STATQ` a `STAT` byte stands for. -/
def entryOf (st : BitVec 8) : StatEntry := { ep := statEp st, dir := statDir st, slot := statSlot st }

/-- An invocation is the next move, with a given snapshot and the given entry at the head of `STATQ`. -/
def State.scheduleIrq (s : State) (snap st : BitVec 8) : State :=
  (s.withRegs
    { s.regs with
      istat := snap
      inten := s.regs.inten ||| snap
      statq := if snap.getLsbD 3 then [entryOf st] else s.regs.statq }).schedule .irq

/-- The bytes of a format stored where the machine's next move finds them: a command word in a client's write of `CMD`,
a line in the schedule, an interrupt word in `ISTAT` (with `STAT`), a `STAT` word at the head of `STATQ`, a receive
control word with its payload in the descriptor its `STAT` byte names, a Setup packet in the buffer of endpoint 0's
even receive slot with the built-in handler in place. -/
def placeFetch (f : Format) (bytes : List Byte) (s : State) : State :=
  let b := fun i => bytes.getD i 0#8
  let word := wordOfBytes (b 0) (b 1) (b 2) (b 3)
  match f with
  | .cmd => s.schedule (.write (cmdAddr s.params) word)
  | .host => s.schedule (.host bytes)
  | .istat => s.scheduleIrq (b 0) (b 1)
  | .stat => s.scheduleIrq 0x08#8 (b 0)
  | .bd =>
    let e := statEp (b 4)
    let x := statSlot (b 4)
    let s := s.setBdCtl e .rx x word
    let s := s.pokeBytes (s.bdBuf e .rx x) ((bytes.drop 5).take (ctlBc word).toNat)
    s.scheduleIrq 0x08#8 (statByte e .rx x)
  | .setup =>
    let s := s.pokeBytes (s.bdBuf 0 .rx .even) (bytes.take 8)
    let s := s.setBdCtl 0 .rx .even (ctlWord 8#10 false false tokSetup)
    let s := s.updEp 0 fun r => { r with rxcb := cbEp0 }
    s.scheduleIrq 0x08#8 (statByte 0 .rx .even)

end Sys2Proof.Machine
end

