-- ==== Sys2Proof/Machine/Step.lean ====
section
/-! DEFINITION. One step of the machine, and a word of the opcode table stored where the next step finds it. -/

namespace Sys2Proof.Machine

/-- One step: the next move of the schedule (00_scope.md R10, log entries 6 and 9). -/
def step (s : State) : Host.Outcome State Fault Refusal := nextMove s

/-- `s` with a word of spec/opcode_table.json, numbered as the table numbers it, stored where `step` finds its next
instruction (log entry 8). -/
def State.withFetchWord (s : State) (nbits w : Nat) : State :=
  placeFetch (tableFetch nbits w).1 (tableFetch nbits w).2 s

end Sys2Proof.Machine
end

