-- ==== Sys2Proof/Safety.lean ====
section
/-! DEFINITION. What a safe run is, in the terms the statements use: the environment's part (00_scope.md R5,
70_reset_and_hazards.md R254), the fault state (10_state.md R47), the invariants of the machine, and the byte ranges and
events that frames name. -/

namespace Sys2Proof.Machine

/-! ### The environment's part -/

/-- The parameters are legal values of 00_scope.md R5 and the regions of 20_memory.md R60 do not overlap. -/
abbrev Params.ok (p : Params) : Prop :=
  p.bdtBase.toNat % 512 = 0 ∧ p.regBase.toNat % 256 = 0 ∧
  p.heapBase.toNat + p.heapBytes.toNat ≤ 2 ^ 32 ∧ 2 * p.ep0Size.toNat ≤ p.heapBytes.toNat ∧
  1 ≤ p.nodeCap.toNat ∧ 1 ≤ p.statDepth ∧ p.ep0Size.toNat ∈ [8, 16, 32, 64] ∧
  apart p.bdtBase.toNat 512 p.regBase.toNat 256 = true ∧
  apart p.bdtBase.toNat 512 p.heapBase.toNat p.heapBytes.toNat = true ∧
  apart p.regBase.toNat 256 p.heapBase.toNat p.heapBytes.toNat = true ∧
  p.rebootKey ∉ standardKeys

/-- No step of the peripheral falls between the accesses of the next command or invocation (log entry 5). -/
abbrev Quiet (s : State) : Prop := s.env.between = []

/-- The foreground may issue a command: the run is not over and no `CFGEP` is held. -/
abbrev Ready (s : State) : Prop := s.sess.reboot = false ∧ s.port.cfgPend = none

/-- `FAULT` = 0, the premise of every correctness claim (10_state.md R47, 60_exceptions.md R233). -/
abbrev Healthy (s : State) : Prop := s.sess.isrAlloc = false

/-! ### Invariants -/

/-- Memory is in its canonical form. -/
abbrev MemInv (s : State) : Prop := s.mem.wf = true

/-- `ISTAT.TOKDNE` = 1 whenever `STATQ` is not empty, and `STATQ` has at most `STAT_DEPTH` entries (10_state.md R26). -/
abbrev StatInv (s : State) : Prop :=
  (s.regs.statq ≠ [] → s.regs.pending .tokdne = true) ∧ s.regs.statq.length ≤ s.params.statDepth

/-- A pending bus reset holds the peripheral off, and while `CTL.HOLD` = 1 no completion is queued or pending and every
slot pointer is `EVEN` (10_state.md R28, 44_peripheral.md R201). -/
abbrev HoldInv (s : State) : Prop :=
  (s.regs.pending .usbrst = true → s.regs.hold = true) ∧
  (s.regs.hold = true → s.regs.statq = [] ∧ s.regs.pending .tokdne = false ∧
    ∀ e : EpId, s.sie.txAt e = .even ∧ s.sie.rxAt e = .even)

/-- The keys of a keyed list rise strictly. -/
abbrev KeysRise {α : Type} (l : List (Nat × α)) : Prop := (l.map (·.1)).Pairwise (· < ·)

/-- The nodes that are not FREE are numbered `1 .. NODE_CAP` and have `CURSOR <= TOTAL`; the nodes in the queue of `e` are
exactly the nodes QUEUED(e), each once (10_state.md R34, R41, R42; 41_txqueue.md R148). -/
abbrev QueueInv (s : State) : Prop :=
  KeysRise s.pool.nodes ∧
  (∀ p ∈ s.pool.nodes, 1 ≤ p.1 ∧ p.1 ≤ s.params.nodeCap.toNat ∧ p.2.cursor.toNat ≤ p.2.total.toNat) ∧
  (∀ e : EpId, (s.endpoint e).txq.Nodup ∧
    ∀ h ∈ (s.endpoint e).txq, (s.node? h).map (·.st) = some (.queued e)) ∧
  ∀ p ∈ s.pool.nodes, ∀ e : EpId, p.2.st = .queued e → BitVec.ofNat 32 p.1 ∈ (s.endpoint e).txq

/-- The live blocks are in order of base and then of size; several may have one base, all but one of them empty. -/
abbrev BlocksRise (l : List (Nat × Nat)) : Prop := l.Pairwise fun b c => b.1 < c.1 ∨ b.1 = c.1 ∧ b.2 ≤ c.2

/-- The live blocks lie inside the heap, apart from each other, from the table and from the register block, and fit
(10_state.md R44). -/
abbrev HeapInv (s : State) : Prop :=
  BlocksRise s.pool.live ∧ liveBytes s.pool.live ≤ s.params.heapBytes.toNat ∧
  s.pool.live.Pairwise (fun a b => apart a.1 a.2 b.1 b.2 = true) ∧
  ∀ b ∈ s.pool.live, s.params.heapBase.toNat ≤ b.1 ∧
    b.1 + b.2 ≤ s.params.heapBase.toNat + s.params.heapBytes.toNat ∧
    apart b.1 b.2 s.params.bdtBase.toNat 512 = true ∧ apart b.1 b.2 s.params.regBase.toNat 256 = true

/-- The block of a node, as base and size. -/
def nodeBlock (n : Node) : Nat × Nat := (n.buf.toNat, n.total.toNat)

/-- The block of a receive pair, as base and size: its halves are one packet size apart (40_registry.md R124). -/
def pairBlock (b : Word × Word) : Nat × Nat := (b.1.toNat, pairBytes b.1 b.2)

/-- The blocks that something owns: the nodes with `OWNS` = 1 and the receive pairs. -/
def ownedBlocks (s : State) : List (Nat × Nat) :=
  (s.pool.nodes.filter fun p => p.2.owns).map (fun p => nodeBlock p.2) ++
    epIds.filterMap fun e => (s.endpoint e).rxbuf.map pairBlock

/-- Every live block has exactly one owner, and every owner a live block: nothing is freed twice, nothing leaks but what a
client loses (10_state.md R44, 70_reset_and_hazards.md R268). -/
abbrev OwnerInv (s : State) : Prop := (ownedBlocks s).Perm s.pool.live

/-- Parity agreement (41_txqueue.md R153): while `CTL.HOLD` = 0, of an endpoint without a manual hook, with no transmit slot
HardwareOwned the peripheral's pointer is `TXODD`; with one, that slot is at the pointer, which is the other one; with
both, the pointer is `TXODD` again. -/
abbrev ParityInv (s : State) : Prop :=
  s.regs.hold = false → ∀ e : EpId, hookOf s.params e = 0#32 →
    let own := s.bdOwn e .tx
    let ptr := s.sie.txAt e
    let p := (s.endpoint e).txodd
    (own .even = false → own .odd = false → ptr = p) ∧
    (∀ x ∈ [Slot.even, Slot.odd], own x = true → own x.flip = false → x = ptr ∧ ptr = p.flip) ∧
    (own .even = true → own .odd = true → ptr = p)

/-- No armed receive slot has a buffer that reaches into the descriptor table. A packet longer than its half of the pair may
overrun the block (70_reset_and_hazards.md R262). -/
abbrev ReceivesOutsideTable (s : State) : Prop :=
  ∀ e : EpId, ∀ x ∈ [Slot.even, Slot.odd], s.armedRx e x = true →
    runsMeet (s.bdBuf e .rx x) (ctlBc (s.bdCtl e .rx x)).toNat s.params.bdtBase 512 = false

/-! ### What frames name -/

/-- The address is one of the `n` bytes from `b` on. -/
abbrev inRun (b : Word) (n : Nat) (a : Word) : Prop := (a - b).toNat < n

/-- The address is in the control word of a descriptor. -/
abbrev inCtl (p : Params) (e : EpId) (d : Dir) (x : Slot) (a : Word) : Prop := inRun (bdAddr p e d x) 4 a

/-- The address is in one of the two words of a descriptor. -/
abbrev inBd (p : Params) (e : EpId) (d : Dir) (x : Slot) (a : Word) : Prop := inRun (bdAddr p e d x) 8 a

/-- The peripheral may be writing the byte at `a`: it is in the descriptor table, in the word of a register the peripheral
writes, or in the buffer of a receive descriptor that is the peripheral's (70_reset_and_hazards.md R254,
44_peripheral.md R202 to R211, R215, 20_memory.md R67). Which bytes those are is the model's reading (DEDUCED, log entry 26),
and that `CTL.HOLD` = 1 makes no difference its choice (DESIGN CHOICE, log entry 29). -/
def MayBeWritten (s : State) (a : Word) : Prop :=
  inTable s.params a = true ∨ (∃ off ∈ [0x00, 0x08, 0x0C, 0x14], inRun (s.params.regBase + BitVec.ofNat 32 off) 4 a) ∨
  ∃ e x, ctlRx (s.regs.epc e) = true ∧ s.bdOwn e .rx x = true ∧
    inRun (s.bdBuf e .rx x) (ctlBc (s.bdCtl e .rx x)).toNat a

/-- A byte of the `data` range in `ARG[0]`, `ARG[1]` is one the peripheral may be writing: the client must not hand it over
(R254; log entries 26, 29). -/
def DataMayBeWritten (s : State) : Prop :=
  ∃ i < s.port.arg1.toNat, MayBeWritten s (s.port.arg0 + BitVec.ofNat 32 i)

/-- The bytes outside a set of addresses are the same. -/
def SameMem (P : Word → Prop) (s t : State) : Prop := ∀ a, ¬ P a → t.mem.read a = s.mem.read a

/-- The records of the endpoints but `e` are the same. -/
def SameOthers (e : EpId) (s t : State) : Prop := ∀ i, i ≠ e → t.endpoint i = s.endpoint i

/-- The nodes but `h` are the same. -/
def SameNodes (h : Word) (s t : State) : Prop := ∀ i, i ≠ h → t.node? i = s.node? i

/-- The events that completing the nodes of a queue, oldest first, raises (41_txqueue.md R145, R146). -/
def completions (s : State) (e : EpId) : List Event :=
  (s.endpoint e).txq.filterMap fun h =>
    if (s.node h).cb = 0#32 then none else some (.complete e (s.node h).cb)

/-- The blocks that the nodes of a queue own, oldest first. -/
def queueBlocks (s : State) (e : EpId) : List (Nat × Nat) :=
  (s.endpoint e).txq.filterMap fun h => if (s.node h).owns then some (nodeBlock (s.node h)) else none

/-- The live blocks left when some of them were freed, one after another. -/
def freed (blocks live : List (Nat × Nat)) : List (Nat × Nat) := blocks.foldl List.erase live

/-- The transmit slot a pump may arm (41_txqueue.md R144 step 2): the parity slot if it is FirmwareOwned, else the
other one if that is. -/
def freeSlot (s : State) (e : EpId) : Option Slot :=
  if s.bdOwn e .tx (s.endpoint e).txodd = false then some (s.endpoint e).txodd
  else if s.bdOwn e .tx (s.endpoint e).txodd.flip = false then some (s.endpoint e).txodd.flip
  else none

/-- `TxInProgress(e)` (40_registry.md R123), as a view of the state. -/
def transmitting (s : State) (e : EpId) : Prop :=
  (s.endpoint e).txq ≠ [] ∨ s.bdOwn e .tx .even = true ∨ s.bdOwn e .tx .odd = true

/-- `ADDR` after an IN completed on `e` (43_control.md R192). -/
def committedAddr (s : State) (e : EpId) : BitVec 7 :=
  if e = 0 ∧ s.sess.lastSetup.extractLsb' 0 16 = 0x0500#16 then s.sess.lastSetup.extractLsb' 16 7 else s.regs.addr

/-- A control word as the number its fields make (30_encoding.md R97): `bc << 16 | own << 7 | data1 << 6 | tok << 2`. -/
def controlWord (bc : Nat) (own data1 : Bool) (tok : Nat) : Word :=
  BitVec.ofNat 32 (bc * 65536 + (if own then 128 else 0) + (if data1 then 64 else 0) + tok * 4)

/-- `n` bytes were copied in ascending order (41_txqueue.md R140): each is the byte the source held, or, where the copy has
already overwritten that source byte, the byte written there. -/
def Copied (src dst : Word) (n : Nat) (s t : State) : Prop :=
  ∀ i < n,
    ((∀ j < i, src + BitVec.ofNat 32 i ≠ dst + BitVec.ofNat 32 j) →
      t.mem.read (dst + BitVec.ofNat 32 i) = s.readByte (src + BitVec.ofNat 32 i)) ∧
    ∀ j < i, src + BitVec.ofNat 32 i = dst + BitVec.ofNat 32 j →
      t.mem.read (dst + BitVec.ofNat 32 i) = t.mem.read (dst + BitVec.ofNat 32 j)

/-- A zero-length node `h` with callback `cb` was put at the tail of the queue of `e`; no other node, record, block or byte
changed. -/
def QueuedEmpty (e : EpId) (h cb : Word) (s t : State) : Prop :=
  t.endpoint e = { s.endpoint e with txq := (s.endpoint e).txq ++ [h] } ∧ SameOthers e s t ∧
  t.node? h = some { total := 0#32, cursor := 0#32, cb := cb, owns := false, buf := 0#32, st := .queued e } ∧
  SameNodes h s t ∧ t.pool.live = s.pool.live ∧ t.mem = s.mem

/-- A node `h` with callback `cb` that owns the new block of `n` bytes at `b` was put at the tail of the queue of `e`; no
other node, record or block changed, and no byte outside the block. -/
def QueuedData (e : EpId) (h b n cb : Word) (s t : State) : Prop :=
  t.endpoint e = { s.endpoint e with txq := (s.endpoint e).txq ++ [h] } ∧ SameOthers e s t ∧
  t.node? h = some { total := n, cursor := 0#32, cb := cb, owns := true, buf := b, st := .queued e } ∧
  SameNodes h s t ∧ t.pool.live = insertBlock (b.toNat, n.toNat) s.pool.live ∧ SameMem (inRun b n.toNat) s t

/-- `AllocNode` fails, or bytes are asked for and `Alloc(n)` fails (41_txqueue.md R140, R151). -/
def AllocationFails (s : State) (n : Word) : Prop :=
  s.allocNode.1 = none ∨ (n ≠ 0#32 ∧ (s.allocNode.2.alloc n).1 = none)

/-- Endpoint 0 is the default control endpoint again, with the receive pair `b0`, `b1` (40_registry.md R125, R122). -/
def ControlEstablished (b0 b1 : Word) (s t : State) : Prop :=
  t.endpoint 0 = { s.endpoint 0 with
    maxpkt := s.params.ep0Size, flags := 0b111#3, rxbuf := some (b0, b1), txq := [], txtoggle := false, txodd := .even
    rxcb := 0xFFFFFFFF#32 } ∧
  t.sess.isrAlloc = s.sess.isrAlloc ∧ t.regs.epc 0 = 0x7#4 ∧
  t.bdCtl 0 .rx .even = controlWord (min s.params.ep0Size.toNat 1023) true false 0 ∧ t.bdBuf 0 .rx .even = b0 ∧
  t.bdCtl 0 .rx .odd = controlWord (min s.params.ep0Size.toNat 1023) true true 0 ∧ t.bdBuf 0 .rx .odd = b1

/-- Endpoint 0 stays disabled and without a receive pair, which could not be allocated (40_registry.md R125). -/
def ControlDisabled (s t : State) : Prop :=
  t.endpoint 0 = { s.endpoint 0 with txq := [], txtoggle := false, txodd := .even } ∧
  t.sess.isrAlloc = true ∧ t.regs.epc 0 = 0x0#4 ∧
  ∀ x, t.bdCtl 0 .rx x = 0#32 ∧ t.bdBuf 0 .rx x = s.bdBuf 0 .rx x

/-- The registers, the record of receive pairs, the session, the traces, the pointers, the command port and the parameters:
everything a transmission queued from interrupt context leaves alone but memory, pool, records and draws. -/
def SameControl (s t : State) : Prop :=
  t.params = s.params ∧ t.port = s.port ∧ t.regs = s.regs ∧ t.sess = s.sess ∧ t.trace = s.trace ∧ t.sie = s.sie ∧
  t.env.inbox = s.env.inbox ∧ t.env.between = s.env.between

end Sys2Proof.Machine
end

