-- ==== Sys2Proof/Certificates/Slice0/Obligations.lean ====
section
/-! DEFINITION. The statements about the machine, in the order of OBLIGATIONS.json: the encodings, what a step runs, what
stops a run, reset, the invariants, the commands, the dispatcher's routines, the control requests, the peripheral. -/

open Sys2Proof Sys2Proof.Machine

/-! ### Encodings -/

/-- Decoding the encoding of a well-formed instruction gives it back, with every operand (30_encoding.md R91 to R110). -/
def Obligations.DecodeOfEncode : Prop :=
  ∀ (rk : BitVec 16) (i : Instr), WellFormed rk i = true → decode rk (encode rk i).1 (encode rk i).2 = .ok i

/-- Words written out from the spec's encodings decode to the instructions they stand for (95_test_vectors.md E1, E5, E9,
E12, E14, E17, E18, E21). -/
def Obligations.SpecWordsDecode : Prop :=
  decode 0xAA40#16 .cmd [0x01#8, 0x01#8, 0x40#8, 0x00#8] = .ok (.cfgep 1#8 64#16) ∧
  decode 0xAA40#16 .cmd [0x03#8, 0x02#8, 0x00#8, 0x00#8] = .ok (.enq 2#8) ∧
  decode 0xAA40#16 .cmd [0x06#8, 0x01#8, 0xFF#8, 0xFF#8] = .ok (.cancel 1#8) ∧
  decode 0xAA40#16 .bd [0x34#8, 0x00#8, 0x08#8, 0x00#8, 0x00#8, 0x00#8, 0x05#8, 0x05#8, 0#8, 0#8, 0#8, 0#8, 0#8] =
    .ok (.tSetup 0 false [0x00#8, 0x05#8, 0x05#8, 0#8, 0#8, 0#8, 0#8, 0#8]) ∧
  decode 0xAA40#16 .bd [0x44#8, 0x00#8, 0x03#8, 0x00#8, 0x24#8, 0xAA#8, 0xBB#8, 0xCC#8] =
    .ok (.tOut 2 true [0xAA#8, 0xBB#8, 0xCC#8]) ∧
  decode 0xAA40#16 .stat [0x1C#8] = .ok (.tIn 1 .odd) ∧
  decode 0xAA40#16 .istat [0x0C#8, 0x18#8] = .ok .iSof ∧
  decode 0xAA40#16 .setup [0x00#8, 0x05#8, 0x05#8, 0#8, 0#8, 0#8, 0#8, 0#8] = .ok .setAddress ∧
  decode 0xAA40#16 .setup [0x21#8, 0x20#8, 0#8, 0#8, 0#8, 0#8, 0x07#8, 0#8] = .ok (.stallDefault 0x2021#16) ∧
  decode 0xAA40#16 .host [0x0D#8, 0x00#8, 1#8, 2#8, 3#8, 4#8, 5#8, 6#8, 7#8, 8#8] =
    .ok (.pSetup 0 [1#8, 2#8, 3#8, 4#8, 5#8, 6#8, 7#8, 8#8])

/-- The request table: the row is selected by bytes 0 and 1 alone, the first match wins, no match selects the last row
(30_encoding.md R107, R108). -/
def Obligations.RequestTable : Prop :=
  ∀ (rk : BitVec 16) (b0 b1 b2 b3 b4 b5 b6 b7 : Byte), rk ∉ standardKeys →
    let key : BitVec 16 := b1 ++ b0
    let row := decode rk .setup [b0, b1, b2, b3, b4, b5, b6, b7]
    (key = 0x0080#16 → row = .ok .getStatus) ∧
    (key = 0x0500#16 → row = .ok .setAddress) ∧
    (key = 0x0680#16 → row = .ok .getDescriptor) ∧
    (key = 0x0681#16 → row = .ok .getDescriptorIf) ∧
    (key = 0x0880#16 → row = .ok .getConfiguration) ∧
    (key = 0x0900#16 → row = .ok .setConfiguration) ∧
    (key = rk → row = .ok .vendorReboot) ∧
    (key ∉ standardKeys → key ≠ rk → row = .ok (.stallDefault key))

/-- The routines of one invocation: every pending source once, in the fixed order (42_dispatcher.md R161, R162). -/
def Obligations.DispatchOrder : Prop :=
  ∀ (snap st : BitVec 8), routinesOf snap st =
    ([(0, .iReset), (1, .iError), (2, .iSof), (3, .iTokdne (st &&& 0xFC#8)), (4, .iSleep), (5, .iResume),
      (6, .iAttach), (7, .iStall)] : List (Nat × Instr)).filterMap
        fun x => if snap.getLsbD x.1 then some x.2 else none

/-! ### What a step runs -/

/-- A step runs the decoded instruction: a word written to `CMD` runs its command with `CMD` holding the word; a line of the
environment runs its peripheral step; an invocation whose request is up runs the routines of its snapshot, in order,
on the state its entry leaves (30_encoding.md R91, R111; 42_dispatcher.md R160, R161). -/
def Obligations.StepRunsDecodedInstruction : Prop :=
  ∀ (s : State) (rest : List Input), s.sess.reboot = false →
    (∀ (w : Word) (i : Instr), s.env.inbox = .write (cmdAddr s.params) w :: rest →
      decode s.params.rebootKey .cmd (bytesOfWord w) = .ok i →
      step s = exec i ((s.withEnv { s.env with inbox := rest }).withPort { s.port with cmd := w })) ∧
    (∀ (line : List Byte) (i : Instr), s.env.inbox = .host line :: rest →
      decode s.params.rebootKey .host line = .ok i →
      step s = exec i (s.withEnv { s.env with inbox := rest })) ∧
    (s.env.inbox = .irq :: rest → s.regs.istat &&& s.regs.inten ≠ 0#8 →
      step s = runAll (routinesOf (takeInterrupt (s.withEnv { s.env with inbox := rest })).1.snap
          (takeInterrupt (s.withEnv { s.env with inbox := rest })).1.st)
        (takeInterrupt (s.withEnv { s.env with inbox := rest })).2)

/-- The entry of an invocation, with the peripheral quiet: the snapshot is `ISTAT`, the captured `STAT` is read before the pop,
exactly the bits seen are cleared, one entry of `STATQ` is popped, `TOKDNE` is set again while entries are left, and
nothing else changes (42_dispatcher.md R161; 10_state.md R26; 60_exceptions.md R230). -/
def Obligations.InterruptEntry : Prop :=
  ∀ (s : State), Quiet s → StatInv s →
    let r := takeInterrupt s
    r.1.snap = s.regs.istat ∧
    (s.regs.pending .tokdne = true → r.1.st = s.regs.stat ∧ r.2.regs.statq = s.regs.statq.tail) ∧
    (s.regs.pending .tokdne = false → r.2.regs.statq = s.regs.statq) ∧
    r.2.regs.istat = (if s.regs.statq.tail = [] then 0x00#8 else 0x08#8) ∧
    r.2 = s.withRegs { s.regs with istat := r.2.regs.istat, statq := r.2.regs.statq }

/-! ### What stops a run -/

/-- While `REBOOT` = 1 no agent takes a step and no command is accepted; a command issued while a `CFGEP` is held is refused
(10_state.md R48; 43_control.md R196; 70_reset_and_hazards.md R254; log entry 15). -/
def Obligations.RunOverOrPortHeld : Prop :=
  ∀ (s : State),
    (s.sess.reboot = true → step s = .fault .runOver ∧ ∀ h, hostStep h s = s) ∧
    ∀ (w : Word) (i : Instr), decode s.params.rebootKey .cmd (bytesOfWord w) = .ok i →
      (s.sess.reboot = true → exec i s = .fault .runOver) ∧
      (s.sess.reboot = false → s.port.cfgPend ≠ none → exec i s = .refused .commandWhilePending)

/-- A reserved operation code: the write of `CMD` sets `STATUS` to `ERR_BADOP` and changes nothing else
(30_encoding.md R96). -/
def Obligations.ReservedOpRefused : Prop :=
  ∀ (s : State) (w : Word) (rest : List Input), Ready s → s.env.inbox = .write (cmdAddr s.params) w :: rest →
    (w.extractLsb' 0 8 = 0x00#8 ∨ 0x09 ≤ (w.extractLsb' 0 8).toNat) →
    step s = .next ((s.withEnv { s.env with inbox := rest }).withPort { s.port with cmd := w, status := 0x04#8 })

/-- An endpoint identifier of 16 or more: every command that takes one sets `STATUS` to `ERR_RANGE` and changes nothing else
(60_exceptions.md R221, R222). -/
def Obligations.RangeErrors : Prop :=
  ∀ (s : State) (ep : BitVec 8) (mps : BitVec 16), Ready s → 16 ≤ ep.toNat →
    ∀ i ∈ [Instr.cfgep ep mps, .enq ep, .send ep, .trysend ep, .cancel ep, .qpend ep, .qbusy ep],
      exec i s = .next (s.withPort { s.port with status := 0x01#8 })

/-- The client's view of the register block: each register reads at its offset, everything else there reads 0; a write of `CMD`
starts the command it encodes, a write of an operand register stores it, and a write of a register the client may only
read, or of a reserved offset, changes nothing (30_encoding.md R105, R110). -/
def Obligations.RegisterMap : Prop :=
  ∀ (s : State),
    let reg := fun off : Nat => s.clientRead (s.params.regBase + BitVec.ofNat 32 off)
    reg 0x00 = s.regs.istat.setWidth 32 ∧ reg 0x04 = s.regs.inten.setWidth 32 ∧
    reg 0x08 = s.regs.errstat.setWidth 32 ∧ reg 0x0C = s.regs.stat.setWidth 32 ∧
    reg 0x10 = s.regs.addr.setWidth 32 ∧ reg 0x14 = s.regs.ctl.setWidth 32 ∧
    reg 0x18 = s.sess.config.setWidth 32 ∧ reg 0x1C = (if s.sess.isrAlloc then 1#32 else 0#32) ∧
    reg 0x20 = s.sess.lastSetup.extractLsb' 0 32 ∧ reg 0x24 = s.sess.lastSetup.extractLsb' 32 32 ∧
    reg 0x28 = (if s.sess.reboot then 1#32 else 0#32) ∧
    (∀ e : EpId, reg (0x40 + 4 * e.val) = (s.regs.epc e).setWidth 32) ∧
    reg 0x80 = 0#32 ∧ reg 0x84 = s.port.arg0 ∧ reg 0x88 = s.port.arg1 ∧ reg 0x8C = s.port.arg2 ∧
    reg 0x90 = s.port.status.setWidth 32 ∧ reg 0x94 = s.port.ret ∧
    (∀ off, off % 4 = 0 → (0x2C ≤ off ∧ off < 0x40 ∨ 0x98 ≤ off ∧ off < 0x100) → reg off = 0#32) ∧
    ∀ (off : Nat) (v : Word) (rest : List Input), off % 4 = 0 → off < 0x100 → s.sess.reboot = false →
      s.env.inbox = .write (s.params.regBase + BitVec.ofNat 32 off) v :: rest →
      let u := s.withEnv { s.env with inbox := rest }
      (off = 0x80 → ∀ i, decode s.params.rebootKey .cmd (bytesOfWord v) = .ok i →
        step s = exec i (u.withPort { s.port with cmd := v })) ∧
      (off = 0x84 → step s = .next (u.withPort { s.port with arg0 := v })) ∧
      (off = 0x88 → step s = .next (u.withPort { s.port with arg1 := v })) ∧
      (off = 0x8C → step s = .next (u.withPort { s.port with arg2 := v })) ∧
      (off ∉ [0x80, 0x84, 0x88, 0x8C] → step s = .next u)

/-! ### Reset -/

/-- What power-on reset leaves, whatever the parameters and whatever the memory holds: a byte outside the descriptor table is
as it is drawn (70_reset_and_hazards.md R250). -/
def Obligations.ResetValues : Prop :=
  ∀ (p : Params) (drawn : Memory),
    let s := State.powerOn p drawn
    s.params = p ∧
    s.port.cmd = 0#32 ∧ s.port.arg0 = 0#32 ∧ s.port.arg1 = 0#32 ∧ s.port.arg2 = 0#32 ∧ s.port.status = 0#8 ∧
    s.port.ret = 0#32 ∧ s.port.cfgPend = none ∧
    s.regs.istat = 0x00#8 ∧ s.regs.inten = 0x01#8 ∧ s.regs.errstat = 0#5 ∧ s.regs.statq = [] ∧ s.regs.addr = 0#7 ∧
    s.regs.ctl = 0x3#2 ∧
    (∀ e : EpId, s.regs.epc e = 0#4 ∧ (s.endpoint e).maxpkt = 0#16 ∧ (s.endpoint e).flags = 0#3 ∧
      (s.endpoint e).rxbuf = none ∧ (s.endpoint e).txq = [] ∧ (s.endpoint e).txtoggle = false ∧
      (s.endpoint e).txodd = .even ∧ (s.endpoint e).rxcb = 0#32 ∧ s.sie.rxAt e = .even ∧ s.sie.txAt e = .even ∧
      ∀ d x, s.bdCtl e d x = 0#32 ∧ s.bdBuf e d x = 0#32) ∧
    (∀ a : Word, inTable p a = false → s.mem.read a = drawn.read a) ∧
    (∀ h : Word, s.node? h = none) ∧ s.pool.live = [] ∧
    s.sess.lastSetup = 0#64 ∧ s.sess.config = 0#8 ∧ s.sess.isrAlloc = false ∧ s.sess.reboot = false ∧
    s.trace.evt = [] ∧ s.trace.wire = []

/-- Every invariant holds after power-on reset, whatever canonical memory was drawn, and the parameters of `State.reset` are
legal. That `State.reset` draws an empty memory is the model's choice (log entry 2), and so are its parameters (log entry 1). -/
def Obligations.ResetInvariants : Prop :=
  (∀ (p : Params) (drawn : Memory), (drawn.wf = true → MemInv (State.powerOn p drawn)) ∧
    StatInv (State.powerOn p drawn) ∧ HoldInv (State.powerOn p drawn) ∧ QueueInv (State.powerOn p drawn) ∧
    HeapInv (State.powerOn p drawn) ∧ OwnerInv (State.powerOn p drawn) ∧ ParityInv (State.powerOn p drawn)) ∧
  State.reset = State.powerOn Params.vectors { cells := [] } ∧ MemInv State.reset ∧ Params.ok Params.vectors

/-! ### Invariants of every step -/

/-- A step keeps memory in its canonical form. -/
def Obligations.StepKeepsMemory : Prop :=
  ∀ (s t : State), MemInv s → step s = .next t → MemInv t

/-- A step keeps `ISTAT.TOKDNE` = 1 while `STATQ` is not empty, `STATQ` within its depth, and the meaning of `CTL.HOLD`
(10_state.md R26, R28). A step inside which no step of the peripheral falls keeps the agreement of the slot pointers, the
parities and the armed transmit slots, unless a receive buffer reaches into the table (41_txqueue.md R153). That the
agreement can be lost where the peripheral steps between the two reads of one `PUMP` is 44_peripheral.md R200 over R153
(log entry 27). -/
def Obligations.StepKeepsStatusAndHold : Prop :=
  ∀ (s t : State), step s = .next t → (StatInv s → StatInv t) ∧ (HoldInv s → HoldInv t) ∧
    (Quiet s → MemInv s → Params.ok s.params → HoldInv s → ReceivesOutsideTable s → ParityInv s → ParityInv t)

/-- A step keeps the queues and the nodes in agreement, and `CURSOR <= TOTAL` (10_state.md R41, R42). -/
def Obligations.StepKeepsQueues : Prop :=
  ∀ (s t : State), QueueInv s → step s = .next t → QueueInv t

/-- A step keeps the live blocks inside the heap and apart (10_state.md R44). -/
def Obligations.StepKeepsHeap : Prop :=
  ∀ (s t : State), HeapInv s → step s = .next t → HeapInv t

/-- A step keeps one owner for every live block: no block is freed twice and none is freed that is not live
(10_state.md R44). -/
def Obligations.StepKeepsOwners : Prop :=
  ∀ (s t : State), QueueInv s ∧ HeapInv s ∧ OwnerInv s → step s = .next t → OwnerInv t

/-- A step leaves the parameters, only extends the two traces, and never clears `FAULT` (00_scope.md R5; 10_state.md R46, R47;
44_peripheral.md R216). -/
def Obligations.StepKeepsHistory : Prop :=
  ∀ (s t : State), step s = .next t →
    t.params = s.params ∧ s.trace.evt <+: t.trace.evt ∧ s.trace.wire <+: t.trace.wire ∧
    (s.sess.isrAlloc = true → t.sess.isrAlloc = true) ∧ s.sess.reboot = false

/-- Who writes what: `INTEN` only `I.RESET`; `ADDR` only `I.RESET` and a `T.IN` on endpoint 0, which may be reached from
`I.TOKDNE`; `CTL.USBEN` nothing; the command operands nothing; `RET` only `PREP`, `QPEND` and `QBUSY`; the command port only
commands; `LASTSETUP` only `T.SETUP`, which may be reached from `I.TOKDNE` (10_state.md R21, R24, R27, R28, R45). -/
def Obligations.RegisterWriters : Prop :=
  ∀ (i : Instr) (s t : State), exec i s = .next t →
    (i ≠ .iReset → t.regs.inten = s.regs.inten) ∧
    (i ≠ .iReset → (∀ x, i ≠ .tIn 0 x) → (∀ st, statEp st = 0 → statDir st = .tx → i ≠ .iTokdne st) →
      t.regs.addr = s.regs.addr) ∧
    t.regs.usben = s.regs.usben ∧
    (t.port.cmd = s.port.cmd ∧ t.port.arg0 = s.port.arg0 ∧ t.port.arg1 = s.port.arg1 ∧ t.port.arg2 = s.port.arg2) ∧
    (i ≠ .prep → (∀ ep, i ≠ .qpend ep) → (∀ ep, i ≠ .qbusy ep) → t.port.ret = s.port.ret) ∧
    ((encode s.params.rebootKey i).1 ≠ .cmd → t.port = s.port) ∧
    ((∀ e d payload, i ≠ .tSetup e d payload) → (∀ st, statDir st = .rx → i ≠ .iTokdne st) →
      t.sess.lastSetup = s.sess.lastSetup)

/-- A HardwareOwned transmit descriptor is not written by the sequencer: by no instruction but `I.RESET` (which runs under
`CTL.HOLD`) and the steps of the peripheral, with the peripheral quiet (20_memory.md R67, R68; 70_reset_and_hazards.md R255). -/
def Obligations.OwnedTransmitDescriptorsKept : Prop :=
  ∀ (i : Instr) (s t : State) (e : EpId) (x : Slot), Quiet s → Params.ok s.params → i ≠ .iReset →
    (encode s.params.rebootKey i).1 ≠ .host → exec i s = .next t → s.bdOwn e .tx x = true →
    t.bdCtl e .tx x = s.bdCtl e .tx x ∧ t.bdBuf e .tx x = s.bdBuf e .tx x

/-! ### CFGEP -/

/-- `CFGEP` with receive disabled and no hold: the receive pair, if any, is released after both its control words are cleared;
the record and `EPCTL` take the operands (40_registry.md R124). -/
def Obligations.CfgepWithoutReceive : Prop :=
  ∀ (s : State) (e : EpId) (mps : BitVec 16), Ready s → Quiet s → MemInv s →
    s.port.arg0.getLsbD 0 = false →
    ¬ (flagTx (s.endpoint e).flags = true ∧ s.port.arg0.getLsbD 1 = false ∧ transmitting s e) →
    ∃ t, exec (.cfgep (epByte e) mps) s = .next t ∧
      t.endpoint e = { s.endpoint e with
        maxpkt := mps, flags := s.port.arg0.extractLsb' 0 3, rxcb := s.port.arg1, rxbuf := none } ∧
      SameOthers e s t ∧
      t.regs = s.regs.setEpc e ((s.port.arg0.extractLsb' 0 3).setWidth 4) ∧
      t.port = { s.port with status := 0x00#8 } ∧
      t.params = s.params ∧ t.sess = s.sess ∧ t.trace = s.trace ∧ t.sie = s.sie ∧ t.env = s.env ∧
      t.pool.nodes = s.pool.nodes ∧
      ((s.endpoint e).rxbuf = none → t.mem = s.mem ∧ t.pool.live = s.pool.live) ∧
      ∀ b0 b1, (s.endpoint e).rxbuf = some (b0, b1) →
        t.bdCtl e .rx .even = 0#32 ∧ t.bdCtl e .rx .odd = 0#32 ∧
        t.pool.live = s.pool.live.erase (pairBlock (b0, b1)) ∧
        SameMem (fun a => inCtl s.params e .rx .even a ∨ inCtl s.params e .rx .odd a) s t

/-- `CFGEP` with receive enabled and no hold: an existing pair is kept whatever the size, else a block of twice the size is
allocated; both slots are armed with `min(mps, 1023)`, DATA0 on the even slot and DATA1 on the odd one; the record and
`EPCTL` take the operands (40_registry.md R122, R124). -/
def Obligations.CfgepWithReceive : Prop :=
  ∀ (s : State) (e : EpId) (mps : BitVec 16) (b0 b1 : Word), Ready s → Quiet s → MemInv s →
    s.port.arg0.getLsbD 0 = true →
    ¬ (flagTx (s.endpoint e).flags = true ∧ s.port.arg0.getLsbD 1 = false ∧ transmitting s e) →
    ((s.endpoint e).rxbuf = some (b0, b1) ∨
      ((s.endpoint e).rxbuf = none ∧ (s.alloc (BitVec.ofNat 32 (2 * mps.toNat))).1 = some b0 ∧
        b1 = b0 + mps.setWidth 32)) →
    ∃ t, exec (.cfgep (epByte e) mps) s = .next t ∧
      t.endpoint e = { s.endpoint e with
        maxpkt := mps, flags := s.port.arg0.extractLsb' 0 3, rxcb := s.port.arg1, rxbuf := some (b0, b1) } ∧
      SameOthers e s t ∧
      t.bdCtl e .rx .even = controlWord (min mps.toNat 1023) true false 0 ∧ t.bdBuf e .rx .even = b0 ∧
      t.bdCtl e .rx .odd = controlWord (min mps.toNat 1023) true true 0 ∧ t.bdBuf e .rx .odd = b1 ∧
      SameMem (fun a => inBd s.params e .rx .even a ∨ inBd s.params e .rx .odd a) s t ∧
      t.regs = s.regs.setEpc e ((s.port.arg0.extractLsb' 0 3).setWidth 4) ∧
      t.port = { s.port with status := 0x00#8 } ∧
      t.params = s.params ∧ t.sess = s.sess ∧ t.trace = s.trace ∧ t.sie = s.sie ∧
      t.env.inbox = s.env.inbox ∧ t.env.between = s.env.between ∧ t.pool.nodes = s.pool.nodes ∧
      t.pool.live = (if (s.endpoint e).rxbuf = none then insertBlock (b0.toNat, 2 * mps.toNat) s.pool.live
        else s.pool.live)

/-- `CFGEP` that disables transmit while a transmission is in progress is held with step A done: the operands are latched and
`STATUS` shows `PENDING`. Step A with receive disabled clears `EPCTL.RXEN` and both receive control words and releases the
pair, if there is one; with receive enabled it keeps an existing pair, else allocates one. Nothing else changes but the
oracle's draws (40_registry.md R124). -/
def Obligations.CfgepHolds : Prop :=
  ∀ (s : State) (e : EpId) (mps : BitVec 16), Ready s → Quiet s → MemInv s →
    flagTx (s.endpoint e).flags = true → s.port.arg0.getLsbD 1 = false → transmitting s e →
    (s.port.arg0.getLsbD 0 = true → (s.endpoint e).rxbuf = none →
      (s.alloc (BitVec.ofNat 32 (2 * mps.toNat))).1 ≠ none) →
    ∃ t, exec (.cfgep (epByte e) mps) s = .next t ∧
      t.port = { s.port with
        status := 0x80#8
        cfgPend := some { id := e, mps := mps, flags := s.port.arg0.extractLsb' 0 3, cb := s.port.arg1 } } ∧
      SameOthers e s t ∧ t.pool.nodes = s.pool.nodes ∧ t.params = s.params ∧ t.sess = s.sess ∧ t.trace = s.trace ∧
      t.sie = s.sie ∧ t.env.inbox = s.env.inbox ∧ t.env.between = s.env.between ∧
      (s.port.arg0.getLsbD 0 = false → (s.endpoint e).rxbuf = none →
        t.endpoint e = s.endpoint e ∧ t.regs = s.regs ∧ t.mem = s.mem ∧ t.pool.live = s.pool.live) ∧
      (∀ b0 b1, s.port.arg0.getLsbD 0 = false → (s.endpoint e).rxbuf = some (b0, b1) →
        t.endpoint e = { s.endpoint e with rxbuf := none } ∧
        t.regs = s.regs.setEpc e (s.regs.epc e &&& 0xE#4) ∧
        t.bdCtl e .rx .even = 0#32 ∧ t.bdCtl e .rx .odd = 0#32 ∧
        SameMem (fun a => inCtl s.params e .rx .even a ∨ inCtl s.params e .rx .odd a) s t ∧
        t.pool.live = s.pool.live.erase (pairBlock (b0, b1))) ∧
      (∀ b0 b1, s.port.arg0.getLsbD 0 = true → (s.endpoint e).rxbuf = some (b0, b1) →
        t.endpoint e = s.endpoint e ∧ t.regs = s.regs ∧ t.mem = s.mem ∧ t.pool.live = s.pool.live) ∧
      ∀ b0, s.port.arg0.getLsbD 0 = true → (s.endpoint e).rxbuf = none →
        (s.alloc (BitVec.ofNat 32 (2 * mps.toNat))).1 = some b0 →
        t.endpoint e = { s.endpoint e with rxbuf := some (b0, b0 + mps.setWidth 32) } ∧ t.regs = s.regs ∧
        t.mem = s.mem ∧ t.pool.live = insertBlock (b0.toNat, 2 * mps.toNat) s.pool.live

/-- The held step B: while its guard does not hold nothing changes; when it holds the record and `EPCTL` take the latched
operands, the receive slots are armed if receive is enabled, and the latch is empty again (40_registry.md R124). -/
def Obligations.HeldCfgepContinues : Prop :=
  ∀ (s : State) (rest : List Input) (l : CfgLatch), s.sess.reboot = false → Quiet s → MemInv s →
    s.port.cfgPend = some l → s.env.inbox = .cont :: rest →
    (flagTx (s.endpoint l.id).flags = true ∧ flagTx l.flags = false ∧ transmitting s l.id →
      step s = .next (s.withEnv { s.env with inbox := rest })) ∧
    (¬ (flagTx (s.endpoint l.id).flags = true ∧ flagTx l.flags = false ∧ transmitting s l.id) →
      ∃ t, step s = .next t ∧
        t.endpoint l.id = { s.endpoint l.id with maxpkt := l.mps, flags := l.flags, rxcb := l.cb } ∧
        SameOthers l.id s t ∧ t.regs = s.regs.setEpc l.id (l.flags.setWidth 4) ∧
        t.port = { s.port with status := 0x00#8, cfgPend := none } ∧
        t.pool = s.pool ∧ t.sess = s.sess ∧ t.trace = s.trace ∧ t.sie = s.sie ∧
        (flagRx l.flags = false → t.mem = s.mem) ∧
        ∀ b0 b1, flagRx l.flags = true → (s.endpoint l.id).rxbuf = some (b0, b1) →
          t.bdCtl l.id .rx .even = controlWord (min l.mps.toNat 1023) true false 0 ∧ t.bdBuf l.id .rx .even = b0 ∧
          t.bdCtl l.id .rx .odd = controlWord (min l.mps.toNat 1023) true true 0 ∧ t.bdBuf l.id .rx .odd = b1 ∧
          SameMem (fun a => inBd s.params l.id .rx .even a ∨ inBd s.params l.id .rx .odd a) s t)

/-! ### Building and queueing nodes -/

/-- `PREP`: with bytes, a PREPARED node that owns a new block with a copy of them; with none, a PREPARED node that references no
buffer; its handle in `RET`; nothing else changes but the oracle's draws (41_txqueue.md R140). A data range that the peripheral
may be writing is refused: which ranges those are, an armed receive buffer under `CTL.HOLD` = 1 among them, is the model's
choice (log entries 26, DEDUCED, and 29, DESIGN CHOICE). -/
def Obligations.PrepMakesNode : Prop :=
  ∀ (s : State) (h : Word), Ready s → s.allocNode.1 = some h →
    (s.port.arg1 = 0#32 →
      ∃ t, exec .prep s = .next t ∧
        t.port = { s.port with ret := h, status := 0x00#8 } ∧
        t.node? h = some
          { total := 0#32, cursor := 0#32, cb := s.port.arg2, owns := false, buf := 0#32, st := .prepared } ∧
        SameNodes h s t ∧ t.pool.live = s.pool.live ∧ t.mem = s.mem ∧
        t.ep = s.ep ∧ t.params = s.params ∧ t.regs = s.regs ∧ t.sess = s.sess ∧ t.trace = s.trace ∧ t.sie = s.sie ∧
        t.env.inbox = s.env.inbox ∧ t.env.between = s.env.between) ∧
    ∀ b, s.port.arg1 ≠ 0#32 → (s.allocNode.2.alloc s.port.arg1).1 = some b →
      (DataMayBeWritten s → exec .prep s = .refused .dataMayBeWritten) ∧
      (Quiet s → MemInv s → Params.ok s.params → ¬ DataMayBeWritten s →
        ∃ t, exec .prep s = .next t ∧
          t.port = { s.port with ret := h, status := 0x00#8 } ∧
          t.node? h = some
            { total := s.port.arg1, cursor := 0#32, cb := s.port.arg2, owns := true, buf := b, st := .prepared } ∧
          SameNodes h s t ∧ t.pool.live = insertBlock (b.toNat, s.port.arg1.toNat) s.pool.live ∧
          Copied s.port.arg0 b s.port.arg1.toNat s t ∧ SameMem (inRun b s.port.arg1.toNat) s t ∧
          t.ep = s.ep ∧ t.params = s.params ∧ t.regs = s.regs ∧ t.sess = s.sess ∧ t.trace = s.trace ∧ t.sie = s.sie ∧
          t.env.inbox = s.env.inbox ∧ t.env.between = s.env.between)

/-- `CFGEP` whose receive pair, and `PREP`, `SEND` and `TRYSEND` (on an empty list) whose node or block cannot be allocated:
`ERR_NOMEM`, and nothing else changes but the oracle's draws (40_registry.md R124; 41_txqueue.md R140, R142, R143;
60_exceptions.md R222). -/
def Obligations.AllocationFailureLeavesNothing : Prop :=
  ∀ (s : State) (e : EpId) (i : Instr) (mps : BitVec 16), Ready s →
    ((i = .cfgep (epByte e) mps ∧ s.port.arg0.getLsbD 0 = true ∧ (s.endpoint e).rxbuf = none ∧
        (s.alloc (BitVec.ofNat 32 (2 * mps.toNat))).1 = none) ∨
      (AllocationFails s s.port.arg1 ∧
        (i = .prep ∨ i = .send (epByte e) ∨ (i = .trysend (epByte e) ∧ (s.endpoint e).txq = [])))) →
    ∃ t, exec i s = .next t ∧ t = (s.withPort { s.port with status := 0x02#8 }).withEnv t.env ∧
      t.env.inbox = s.env.inbox ∧ t.env.between = s.env.between

/-- `ENQ`: an identifier out of range, then a handle that is not of a PREPARED node, is refused by `STATUS` with nothing else
changed; else the node is appended at the tail and becomes QUEUED, and no descriptor is touched (41_txqueue.md R141). -/
def Obligations.EnqAppendsPreparedNode : Prop :=
  ∀ (s : State) (ep : BitVec 8), Ready s →
    (16 ≤ ep.toNat → exec (.enq ep) s = .next (s.withPort { s.port with status := 0x01#8 })) ∧
    ∀ e : EpId, ep = epByte e →
      ((s.port.arg0 = 0#32 ∨ s.params.nodeCap.toNat < s.port.arg0.toNat ∨
          (s.node? s.port.arg0).map (·.st) ≠ some .prepared) →
        exec (.enq ep) s = .next (s.withPort { s.port with status := 0x05#8 })) ∧
      ∀ n, s.port.arg0 ≠ 0#32 → s.port.arg0.toNat ≤ s.params.nodeCap.toNat → s.node? s.port.arg0 = some n →
        n.st = .prepared →
        ∃ t, exec (.enq ep) s = .next t ∧
          t.endpoint e = { s.endpoint e with txq := (s.endpoint e).txq ++ [s.port.arg0] } ∧ SameOthers e s t ∧
          t.node? s.port.arg0 = some { n with st := .queued e } ∧ SameNodes s.port.arg0 s t ∧
          t.pool.live = s.pool.live ∧ t.port = { s.port with status := 0x00#8 } ∧ t.mem = s.mem ∧
          t.params = s.params ∧ t.regs = s.regs ∧ t.sess = s.sess ∧ t.trace = s.trace ∧ t.sie = s.sie ∧ t.env = s.env

/-- `SEND`, and `TRYSEND` on an empty list: a node at the tail of the queue, with a copy of the bytes in a block of its own, or with
no buffer when there are none (a bare acknowledgement); `RET` is left, and nothing else changes but the oracle's draws
(30_encoding.md R112; 41_txqueue.md R142, R143). A data range that the peripheral may be writing is refused: which ranges those
are, an armed receive buffer under `CTL.HOLD` = 1 among them, is the model's choice (log entries 26, DEDUCED, and 29, DESIGN
CHOICE). -/
def Obligations.SendQueuesNode : Prop :=
  ∀ (s : State) (e : EpId) (i : Instr) (h : Word), Ready s → s.allocNode.1 = some h →
    (i = .send (epByte e) ∨ (i = .trysend (epByte e) ∧ (s.endpoint e).txq = [])) →
    (s.port.arg1 = 0#32 →
      ∃ t, exec i s = .next t ∧ QueuedEmpty e h s.port.arg2 s t ∧ t.port = { s.port with status := 0x00#8 } ∧
        t.params = s.params ∧ t.regs = s.regs ∧ t.sess = s.sess ∧ t.trace = s.trace ∧ t.sie = s.sie ∧
        t.env.inbox = s.env.inbox ∧ t.env.between = s.env.between) ∧
    ∀ b, s.port.arg1 ≠ 0#32 → (s.allocNode.2.alloc s.port.arg1).1 = some b →
      (DataMayBeWritten s → exec i s = .refused .dataMayBeWritten) ∧
      (Quiet s → MemInv s → Params.ok s.params → ¬ DataMayBeWritten s →
        ∃ t, exec i s = .next t ∧ QueuedData e h b s.port.arg1 s.port.arg2 s t ∧
          Copied s.port.arg0 b s.port.arg1.toNat s t ∧ t.port = { s.port with status := 0x00#8 } ∧
          t.params = s.params ∧ t.regs = s.regs ∧ t.sess = s.sess ∧ t.trace = s.trace ∧ t.sie = s.sie ∧
          t.env.inbox = s.env.inbox ∧ t.env.between = s.env.between)

/-- `TRYSEND`: the identifier is checked first, then the list alone (`ERR_BUSY`, no allocation attempted), and on an empty list
it is `SEND`, whatever the slots hold (41_txqueue.md R143). -/
def Obligations.TrysendTestsListAlone : Prop :=
  ∀ (s : State) (ep : BitVec 8), Ready s →
    (16 ≤ ep.toNat → exec (.trysend ep) s = .next (s.withPort { s.port with status := 0x01#8 })) ∧
    ∀ e : EpId, ep = epByte e →
      ((s.endpoint e).txq ≠ [] → exec (.trysend ep) s = .next (s.withPort { s.port with status := 0x03#8 })) ∧
      ((s.endpoint e).txq = [] → exec (.trysend ep) s = exec (.send ep) s)

/-- `CANCEL`: an identifier out of range is refused; else every node of the queue is completed once, oldest first, its block and
handle freed, and the slots, the toggle and the parity are left, whatever the peripheral does (41_txqueue.md R145 to R147). -/
def Obligations.CancelCompletesQueue : Prop :=
  ∀ (s : State) (ep : BitVec 8), Ready s →
    (16 ≤ ep.toNat → exec (.cancel ep) s = .next (s.withPort { s.port with status := 0x01#8 })) ∧
    ∀ e : EpId, ep = epByte e → QueueInv s → ∃ t, exec (.cancel ep) s = .next t ∧
      t.endpoint e = { s.endpoint e with txq := [] } ∧ SameOthers e s t ∧
      t.trace = { s.trace with evt := s.trace.evt ++ completions s e } ∧
      (∀ a : Word, t.node? a = if a ∈ (s.endpoint e).txq then none else s.node? a) ∧
      t.pool.live = freed (queueBlocks s e) s.pool.live ∧
      t.port = { s.port with status := 0x00#8 } ∧ t.mem = s.mem ∧ t.params = s.params ∧ t.regs = s.regs ∧
      t.sess = s.sess ∧ t.sie = s.sie ∧ t.env = s.env

/-- `QPEND`: an identifier out of range is refused; else `RET` is the sum over the queue of the bytes not yet armed, modulo
`2^32`, and nothing else changes (41_txqueue.md R149). -/
def Obligations.QpendSumsQueue : Prop :=
  ∀ (s : State) (ep : BitVec 8), Ready s →
    (16 ≤ ep.toNat → exec (.qpend ep) s = .next (s.withPort { s.port with status := 0x01#8 })) ∧
    ∀ e : EpId, ep = epByte e →
      exec (.qpend ep) s = .next (s.withPort { s.port with
        ret := BitVec.ofNat 32 (((s.endpoint e).txq.map fun h => ((s.node h).total - (s.node h).cursor).toNat).sum)
        status := 0x00#8 })

/-- `QBUSY`: an identifier out of range is refused; else `RET` is 1 when the queue is not empty or a transmit descriptor is
HardwareOwned, else 0, and nothing else changes (40_registry.md R123; 41_txqueue.md R150). -/
def Obligations.QbusyReportsTransmission : Prop :=
  ∀ (s : State) (ep : BitVec 8), Ready s →
    (16 ≤ ep.toNat → exec (.qbusy ep) s = .next (s.withPort { s.port with status := 0x01#8 })) ∧
    ∀ e : EpId, ep = epByte e → Quiet s →
      (transmitting s e → exec (.qbusy ep) s = .next (s.withPort { s.port with ret := 1#32, status := 0x00#8 })) ∧
      (¬ transmitting s e → exec (.qbusy ep) s = .next (s.withPort { s.port with ret := 0#32, status := 0x00#8 }))

/-! ### T.IN and the pump -/

/-- `T.IN` on an endpoint without a hook whose head node has bytes left and that has a free slot: the next chunk is armed there,
toggle and parity flip, the cursor moves; on endpoint 0 a pending address is committed. Where the pointers and parities agree, the
slot is the parity slot: the fallback is not taken. The address word is published before the ownership flag: a `P.IN` that falls
between the two writes finds nothing armed, so it is no step and all of this holds as if the peripheral were quiet
(20_memory.md R70; 41_txqueue.md R144 step 4, R153; 43_control.md R192). -/
def Obligations.PumpArmsNextChunk : Prop :=
  ∀ (s : State) (e : EpId) (x f : Slot) (h : Word) (rest : List Word) (n : Node), MemInv s →
    (Quiet s ∨
      s.env.between = [[], [], [], [.inTok e]] ∧ s.bdOwn e .tx .even = false ∧ s.bdOwn e .tx .odd = false) →
    hookOf s.params e = 0#32 → (s.endpoint e).txq = h :: rest → s.node? h = some n → freeSlot s e = some f →
    n.total ≠ 0#32 → n.cursor ≠ n.total →
    let c := min (n.total - n.cursor).toNat (min (s.endpoint e).maxpkt.toNat 1023)
    ∃ t, exec (.tIn e x) s = .next t ∧
      t.bdCtl e .tx f = controlWord c true (s.endpoint e).txtoggle 0 ∧ t.bdBuf e .tx f = n.buf + n.cursor ∧
      SameMem (inBd s.params e .tx f) s t ∧
      t.endpoint e = { s.endpoint e with
        txtoggle := !(s.endpoint e).txtoggle, txodd := (s.endpoint e).txodd.flip } ∧ SameOthers e s t ∧
      t.node? h = some { n with cursor := n.cursor + BitVec.ofNat 32 c } ∧ SameNodes h s t ∧
      (ParityInv s → s.regs.hold = false → f = (s.endpoint e).txodd) ∧
      t.pool.live = s.pool.live ∧ t.regs = { s.regs with addr := committedAddr s e } ∧
      t.params = s.params ∧ t.port = s.port ∧ t.sess = s.sess ∧ t.trace = s.trace ∧ t.sie = s.sie ∧
      t.env = { s.env with between := [] }

/-- `T.IN` with a zero-length head node and a free slot: an empty packet is armed with address 0, toggle and parity flip, and the
node is completed in the same call (41_txqueue.md R144 steps 4 and 5, R145). -/
def Obligations.PumpArmsEmptyPacket : Prop :=
  ∀ (s : State) (e : EpId) (x f : Slot) (h : Word) (rest : List Word) (n : Node), Quiet s → MemInv s → QueueInv s →
    hookOf s.params e = 0#32 → (s.endpoint e).txq = h :: rest → s.node? h = some n → freeSlot s e = some f →
    n.total = 0#32 →
    ∃ t, exec (.tIn e x) s = .next t ∧
      t.bdCtl e .tx f = controlWord 0 true (s.endpoint e).txtoggle 0 ∧ t.bdBuf e .tx f = 0#32 ∧
      SameMem (inBd s.params e .tx f) s t ∧
      t.endpoint e = { s.endpoint e with
        txq := rest, txtoggle := !(s.endpoint e).txtoggle, txodd := (s.endpoint e).txodd.flip } ∧ SameOthers e s t ∧
      t.node? h = none ∧ SameNodes h s t ∧
      t.pool.live = (if n.owns then s.pool.live.erase (nodeBlock n) else s.pool.live) ∧
      t.trace = { s.trace with evt := s.trace.evt ++ if n.cb = 0#32 then [] else [.complete e n.cb] } ∧
      t.regs = { s.regs with addr := committedAddr s e } ∧
      t.params = s.params ∧ t.port = s.port ∧ t.sess = s.sess ∧ t.sie = s.sie ∧ t.env = s.env

/-- `T.IN` with a drained head node and both slots vacated: the node is completed, its callback raised once, its block and handle
freed, and nothing is armed (41_txqueue.md R144 step 3, R145). -/
def Obligations.PumpCompletesDrainedNode : Prop :=
  ∀ (s : State) (e : EpId) (x : Slot) (h : Word) (rest : List Word) (n : Node), Quiet s → QueueInv s →
    hookOf s.params e = 0#32 → (s.endpoint e).txq = h :: rest → s.node? h = some n →
    n.total ≠ 0#32 → n.cursor = n.total → s.bdOwn e .tx .even = false → s.bdOwn e .tx .odd = false →
    ∃ t, exec (.tIn e x) s = .next t ∧
      t.endpoint e = { s.endpoint e with txq := rest } ∧ SameOthers e s t ∧ t.node? h = none ∧ SameNodes h s t ∧
      t.pool.live = (if n.owns then s.pool.live.erase (nodeBlock n) else s.pool.live) ∧
      t.trace = { s.trace with evt := s.trace.evt ++ if n.cb = 0#32 then [] else [.complete e n.cb] } ∧
      t.mem = s.mem ∧ t.regs = { s.regs with addr := committedAddr s e } ∧
      t.params = s.params ∧ t.port = s.port ∧ t.sess = s.sess ∧ t.sie = s.sie ∧ t.env = s.env

/-- `T.IN` with an empty queue, with no free slot, or with a drained head node and a slot still HardwareOwned: nothing changes
but the commit of the address (41_txqueue.md R144 steps 1 to 3). -/
def Obligations.PumpWaits : Prop :=
  ∀ (s : State) (e : EpId) (x : Slot), Quiet s → hookOf s.params e = 0#32 →
    ((s.endpoint e).txq = [] ∨ freeSlot s e = none ∨
      ∃ h rest, (s.endpoint e).txq = h :: rest ∧ (s.node h).cursor = (s.node h).total ∧ (s.node h).total ≠ 0#32 ∧
        (s.bdOwn e .tx .even = true ∨ s.bdOwn e .tx .odd = true)) →
    exec (.tIn e x) s = .next (s.withRegs { s.regs with addr := committedAddr s e })

/-- `T.IN` on an endpoint with a manual-transmit hook raises the event and pumps nothing (42_dispatcher.md R167; 10_state.md R38). -/
def Obligations.HookReplacesPump : Prop :=
  ∀ (s : State) (e : EpId) (x : Slot), hookOf s.params e ≠ 0#32 →
    exec (.tIn e x) s = .next ((s.withRegs { s.regs with addr := committedAddr s e }).withTrace
      { s.trace with evt := s.trace.evt ++ [.manualTx e (hookOf s.params e)] })

/-- `I.SOF` does to every endpoint's record, to the nodes of its queue and to its transmit descriptors what a `T.IN` on that
endpoint alone would do, leaves the nodes of no queue, frees the blocks that those
`T.IN`s free and raises their events, both in ascending order of endpoint, and changes nothing else (41_txqueue.md R144; 42_dispatcher.md R165). -/
def Obligations.SofPumpsEveryEndpoint : Prop :=
  ∀ (s : State), Quiet s → MemInv s → QueueInv s →
    ∃ t, exec .iSof s = .next t ∧
      (∀ (e : EpId) (x : Slot) (u : State), exec (.tIn e x) s = .next u →
        t.endpoint e = u.endpoint e ∧ (∀ h ∈ (s.endpoint e).txq, t.node? h = u.node? h) ∧
        ∀ y, t.bdCtl e .tx y = u.bdCtl e .tx y ∧ t.bdBuf e .tx y = u.bdBuf e .tx y) ∧
      (∀ h : Word, (∀ e : EpId, h ∉ (s.endpoint e).txq) → t.node? h = s.node? h) ∧
      (∃ blocks : EpId → List (Nat × Nat),
        (∀ (e : EpId) (x : Slot) (u : State), exec (.tIn e x) s = .next u →
          u.pool.live = freed (blocks e) s.pool.live ∧ ∀ b ∈ blocks e, b ∈ queueBlocks s e) ∧
        t.pool.live = freed (epIds.flatMap blocks) s.pool.live) ∧
      (∃ raised : EpId → List Event,
        (∀ (e : EpId) (x : Slot) (u : State), exec (.tIn e x) s = .next u →
          u.trace.evt = s.trace.evt ++ raised e) ∧
        t.trace.evt = s.trace.evt ++ epIds.flatMap raised) ∧
      SameMem (fun a => ∃ e y, inBd s.params e .tx y a) s t ∧
      t.params = s.params ∧ t.port = s.port ∧ t.regs = s.regs ∧ t.sess = s.sess ∧ t.trace.wire = s.trace.wire ∧
      t.sie = s.sie ∧ t.env = s.env

/-! ### The other interrupt routines -/

/-- The state `I.RESET` leaves, when no further bus reset struck: the theorem of 70_reset_and_hazards.md R252. `HOLD` = 1 on entry
is what `P.RESET` left. A receive pair that endpoint 0 has is kept and armed; one that it lacks is allocated once the blocks
of the cancelled queues are free, and only where that fails is `FAULT.ISRALLOC` set (40_registry.md R125). -/
def Obligations.BusResetState : Prop :=
  ∀ (s : State), Quiet s → MemInv s → HoldInv s → s.regs.hold = true → s.regs.pending .usbrst = false →
    ∃ t, exec .iReset s = .next t ∧
      t.regs.addr = 0#7 ∧ t.sess.config = 0#8 ∧ t.regs.inten = 0xFF#8 ∧ t.regs.hold = false ∧
      t.regs.usben = s.regs.usben ∧ t.regs.istat = s.regs.istat ∧ t.regs.errstat = s.regs.errstat ∧
      t.regs.statq = [] ∧ t.sess.lastSetup = s.sess.lastSetup ∧ t.port = s.port ∧ t.trace.wire = s.trace.wire ∧
      (∀ e : EpId, (t.endpoint e).txq = [] ∧ (t.endpoint e).txtoggle = false ∧ (t.endpoint e).txodd = .even ∧
        t.sie.txAt e = .even ∧ t.sie.rxAt e = .even ∧
        ∀ x, t.bdCtl e .tx x = 0#32 ∧ t.bdBuf e .tx x = s.bdBuf e .tx x) ∧
      (∀ e : EpId, e ≠ 0 → t.regs.epc e = 0#4 ∧
        ∀ x, t.bdCtl e .rx x = 0#32 ∧ t.bdBuf e .rx x = s.bdBuf e .rx x) ∧
      SameMem (fun a => inTable s.params a = true) s t ∧
      ∃ live : List (Nat × Nat), (QueueInv s → live = freed (epIds.flatMap (queueBlocks s)) s.pool.live) ∧
        (∀ b0 b1, (s.endpoint 0).rxbuf = some (b0, b1) → ControlEstablished b0 b1 s t ∧ t.pool.live = live) ∧
        ((s.endpoint 0).rxbuf = none →
          let answer := ((s.withPool { s.pool with live := live }).alloc (BitVec.ofNat 32 (2 * s.params.ep0Size.toNat))).1
          (answer = none → ControlDisabled s t ∧ t.pool.live = live) ∧
          ∀ b0, answer = some b0 → ControlEstablished b0 (b0 + s.params.ep0Size.setWidth 32) s t ∧
            t.pool.live = insertBlock (b0.toNat, 2 * s.params.ep0Size.toNat) live)

/-- A bus reset cancels every queued transmission, each callback raised once, endpoints in ascending order and each queue oldest
first; PREPARED nodes and the records of the other endpoints stay, whatever the peripheral does meanwhile
(40_registry.md R125; 70_reset_and_hazards.md R251). -/
def Obligations.BusResetCancelsAll : Prop :=
  ∀ (s : State), QueueInv s →
    ∃ t, exec .iReset s = .next t ∧
      (∀ e : EpId, (t.endpoint e).txq = []) ∧
      t.trace.evt = s.trace.evt ++ epIds.flatMap (completions s) ∧
      (∀ (h : Word) (n : Node), t.node? h = some n ↔ s.node? h = some n ∧ n.st = .prepared) ∧
      ∀ e : EpId, e ≠ 0 → t.endpoint e = { s.endpoint e with txq := [], txtoggle := false, txodd := .even }

/-- `I.ERROR` clears the error flags it read and nothing else; a flag the peripheral sets between the read and the write stays
set with `ISTAT.ERROR` (42_dispatcher.md R164). -/
def Obligations.ErrorAcknowledged : Prop :=
  ∀ (s : State),
    (Quiet s → exec .iError s = .next (s.withRegs { s.regs with errstat := 0#5 })) ∧
    ∀ bits : BitVec 5, s.env.between = [[], [.err bits]] → s.sess.reboot = false → s.regs.usben = true → bits ≠ 0#5 →
      ∃ t, exec .iError s = .next t ∧ t.regs.errstat = bits &&& ~~~s.regs.errstat ∧
        t.regs.istat = s.regs.istat ||| 0x02#8

/-- `I.SLEEP`, `I.RESUME`, `I.ATTACH` and `I.STALL` do nothing beyond the clear their invocation has done
(42_dispatcher.md R172 to R175). -/
def Obligations.AcknowledgeOnlyRoutines : Prop :=
  ∀ (s : State), ∀ i ∈ [Instr.iSleep, .iResume, .iAttach, .iStall], exec i s = .next s

/-! ### I.TOKDNE and the token routines -/

/-- `I.TOKDNE` for a transmit entry is `T.IN`; for a receive slot that is HardwareOwned again it does nothing
(42_dispatcher.md R166). -/
def Obligations.TokenDoneTransmitOrStale : Prop :=
  ∀ (s : State) (e : EpId) (x : Slot),
    exec (.iTokdne (statByte e .tx x)) s = exec (.tIn e x) s ∧
    (Quiet s → s.bdOwn e .rx x = true → exec (.iTokdne (statByte e .rx x)) s = .next s)

/-- `I.TOKDNE` for a receive slot the peripheral wrote back runs the token routine its control word and payload decode to, or
none when the token is neither SETUP nor OUT, and then re-arms the slot with its own half of the pair and the toggle
opposite to the one received, unless receive is disabled or the pair is gone (42_dispatcher.md R166, R170). -/
def Obligations.TokenDoneRunsTokenAndRearms : Prop :=
  ∀ (s : State) (e : EpId) (x : Slot), Quiet s → MemInv s → s.bdOwn e .rx x = false →
    let w := s.bdCtl e .rx x
    let payload := s.peekBytes (s.bdBuf e .rx x) (ctlBc w).toNat
    ∃ u t,
      ((∃ i, decode s.params.rebootKey .bd (bytesOfWord w ++ statByte e .rx x :: payload) = .ok i ∧ exec i s = .next u) ∨
        (ctlTok w ≠ 0x1#4 ∧ ctlTok w ≠ 0xD#4 ∧ u = s)) ∧
      exec (.iTokdne (statByte e .rx x)) s = .next t ∧
      ((flagRx (u.endpoint e).flags = false ∨ (u.endpoint e).rxbuf = none) → t = u) ∧
      ∀ b0 b1, flagRx (u.endpoint e).flags = true → (u.endpoint e).rxbuf = some (b0, b1) →
        t.bdCtl e .rx x = controlWord (min (u.endpoint e).maxpkt.toNat 1023) true (!ctlData1 w) 0 ∧
        t.bdBuf e .rx x = (if x = .even then b0 else b1) ∧ SameMem (inBd s.params e .rx x) u t ∧
        t = u.withMem t.mem

/-- `T.SETUP` where the built-in control machine is not the handler: the packet is kept in `LASTSETUP`, the queue is cancelled,
the next toggle is DATA1, and the packet goes to the endpoint's callback, if it has one (42_dispatcher.md R168, R171). -/
def Obligations.SetupDeliveredToCallback : Prop :=
  ∀ (s : State) (e : EpId) (d : Bool) (payload : List Byte), QueueInv s →
    ¬ (e = 0 ∧ (s.endpoint e).rxcb = 0xFFFFFFFF#32) →
    ∃ t, exec (.tSetup e d payload) s = .next t ∧
      t.sess = { s.sess with lastSetup := packSetup payload } ∧
      t.endpoint e = { s.endpoint e with txq := [], txtoggle := true } ∧ SameOthers e s t ∧
      (∀ a : Word, t.node? a = if a ∈ (s.endpoint e).txq then none else s.node? a) ∧
      t.pool.live = freed (queueBlocks s e) s.pool.live ∧
      t.trace = { s.trace with
        evt := s.trace.evt ++ completions s e ++
          if (s.endpoint e).rxcb = 0#32 then [] else [.receive e (s.endpoint e).rxcb 0xD#4 payload] } ∧
      t.mem = s.mem ∧ t.regs = s.regs ∧ t.port = s.port ∧ t.params = s.params ∧ t.sie = s.sie ∧ t.env = s.env

/-- `T.SETUP` on endpoint 0 with the built-in handler: after the snapshot, the cancelled queue and the toggle of `T.SETUP`, the stall
bit is cleared, the override is asked and its answer recorded; a declined packet runs the request row it decodes to, an
`Ack` acts as the row that acknowledges and a `Stall` as the row that stalls (42_dispatcher.md R168; 43_control.md R181). -/
def Obligations.SetupRunsRequestRow : Prop :=
  ∀ (s : State) (d : Bool) (payload : List Byte), Quiet s → QueueInv s →
    payload.length = 8 → (s.endpoint 0).rxcb = 0xFFFFFFFF#32 →
    ∃ u : State,
      (∀ a : Word, u.node? a = if a ∈ (s.endpoint 0).txq then none else s.node? a) ∧
      u.pool.live = freed (queueBlocks s 0) s.pool.live ∧
      u.sess = { s.sess with lastSetup := packSetup payload } ∧
      u.endpoint 0 = { s.endpoint 0 with txq := [], txtoggle := true } ∧ SameOthers 0 s u ∧
      u.regs = s.regs.setEpc 0 (s.regs.epc 0 &&& 0x7#4) ∧
      u.trace = { s.trace with
        evt := s.trace.evt ++ completions s 0 ++
          [.override (packSetup payload) (overrideOf s.params (packSetup payload))] } ∧
      u.mem = s.mem ∧ u.port = s.port ∧ u.params = s.params ∧ u.sie = s.sie ∧ u.env = s.env ∧
      (overrideOf s.params (packSetup payload) = .declined →
        ∃ i, decode s.params.rebootKey .setup payload = .ok i ∧ exec (.tSetup 0 d payload) s = exec i u) ∧
      (overrideOf s.params (packSetup payload) = .ack → exec (.tSetup 0 d payload) s = exec .setAddress u) ∧
      (∀ key, overrideOf s.params (packSetup payload) = .stall →
        exec (.tSetup 0 d payload) s = exec (.stallDefault key) u) ∧
      ∀ bytes, overrideOf s.params (packSetup payload) = .reply bytes →
        exec (.tSetup 0 d payload) s = .next (isend 0 (.literal (bytes.take u.sess.wLength.toNat))
          (BitVec.ofNat 32 (bytes.take u.sess.wLength.toNat).length) u)

/-- `T.OUT`: the packet goes to the endpoint's callback, if it has one; on endpoint 0 with the built-in handler the sentinel as
byte 0 after a SETUP of the right key sets `REBOOT` and raises `Reboot` first, and every payload is passed on
(42_dispatcher.md R169, R171; 43_control.md R193). -/
def Obligations.OutDelivered : Prop :=
  ∀ (s : State) (e : EpId) (d : Bool) (payload : List Byte), Quiet s →
    ((s.endpoint e).rxcb = 0#32 → exec (.tOut e d payload) s = .next s) ∧
    (¬ (e = 0 ∧ (s.endpoint e).rxcb = 0xFFFFFFFF#32) → (s.endpoint e).rxcb ≠ 0#32 →
      exec (.tOut e d payload) s =
        .next (s.withTrace { s.trace with evt := s.trace.evt ++ [.receive e (s.endpoint e).rxcb 0x1#4 payload] })) ∧
    (e = 0 → (s.endpoint 0).rxcb = 0xFFFFFFFF#32 →
      let key : BitVec 16 := s.sess.lastSetup.extractLsb' 0 16
      (key = s.params.fwupdKey ∧ payload.head? = some s.params.sentinel →
        exec (.tOut e d payload) s = .next ((s.withSess { s.sess with reboot := true }).withTrace
          { s.trace with evt := s.trace.evt ++ [.reboot, .receive 0 0xFFFFFFFF#32 0x1#4 payload] })) ∧
      (¬ (key = s.params.fwupdKey ∧ payload.head? = some s.params.sentinel) →
        exec (.tOut e d payload) s =
          .next (s.withTrace { s.trace with evt := s.trace.evt ++ [.receive 0 0xFFFFFFFF#32 0x1#4 payload] })))

/-! ### The request rows -/

/-- `SET_ADDRESS` and `VENDOR_REBOOT` are acknowledged: a zero-length node without callback on endpoint 0, and nothing else; in
particular neither `ADDR` nor `REBOOT` is written (43_control.md R182, R184, R188). -/
def Obligations.AcknowledgedRequests : Prop :=
  ∀ (s : State) (h : Word), s.allocNode.1 = some h → ∀ i ∈ [Instr.setAddress, .vendorReboot],
    ∃ t, exec i s = .next t ∧ QueuedEmpty 0 h 0#32 s t ∧ SameControl s t

/-- `GET_STATUS` replies two zero bytes and `GET_CONFIGURATION` the configuration, truncated to `wLength`: a node that owns a block
with those bytes, or a zero-length node when nothing is left of them (43_control.md R182, R183, R186). -/
def Obligations.LiteralReplies : Prop :=
  ∀ (s : State) (i : Instr) (bytes : List Byte) (h : Word), Quiet s → MemInv s → Params.ok s.params →
    ((i = .getStatus ∧ bytes = [0x00#8, 0x00#8].take (s.sess.lastSetup.extractLsb' 48 16).toNat) ∨
      (i = .getConfiguration ∧ bytes = [s.sess.config].take (s.sess.lastSetup.extractLsb' 48 16).toNat)) →
    s.allocNode.1 = some h →
    (bytes = [] → ∃ t, exec i s = .next t ∧ QueuedEmpty 0 h 0#32 s t ∧ SameControl s t) ∧
    ∀ b, bytes ≠ [] → (s.allocNode.2.alloc (BitVec.ofNat 32 bytes.length)).1 = some b →
      ∃ t, exec i s = .next t ∧ QueuedData 0 h b (BitVec.ofNat 32 bytes.length) 0#32 s t ∧ SameControl s t ∧
        ∀ k (hk : k < bytes.length), t.mem.read (b + BitVec.ofNat 32 k) = bytes[k]

/-- `GET_DESCRIPTOR`, for a device or an interface recipient, with a descriptor the resolver finds: a node with a copy of its first
`min(n, wLength)` bytes, or a zero-length node when that is 0 (43_control.md R182, R185). -/
def Obligations.DescriptorReplies : Prop :=
  ∀ (s : State) (a n h : Word), Quiet s → MemInv s → Params.ok s.params →
    ∀ i ∈ [Instr.getDescriptor, .getDescriptorIf],
    resolver s.params (s.sess.lastSetup.extractLsb' 16 16) (s.sess.lastSetup.extractLsb' 32 16) = some (a, n) →
    s.allocNode.1 = some h →
    let len : Word := BitVec.ofNat 32 (min n.toNat (s.sess.lastSetup.extractLsb' 48 16).toNat)
    (len = 0#32 → ∃ t, exec i s = .next t ∧ QueuedEmpty 0 h 0#32 s t ∧ SameControl s t) ∧
    ∀ b, len ≠ 0#32 → (s.allocNode.2.alloc len).1 = some b →
      ∃ t, exec i s = .next t ∧ QueuedData 0 h b len 0#32 s t ∧ SameControl s t ∧ Copied a b len.toNat s t

/-- Any other request, and `GET_DESCRIPTOR` of a pair the resolver does not find, sets the stall bit of endpoint 0 and changes
nothing else (43_control.md R185, R189, R190). -/
def Obligations.StalledRequests : Prop :=
  ∀ (s : State) (i : Instr), Quiet s →
    ((∃ key, i = .stallDefault key) ∨
      ((i = .getDescriptor ∨ i = .getDescriptorIf) ∧
        resolver s.params (s.sess.lastSetup.extractLsb' 16 16) (s.sess.lastSetup.extractLsb' 32 16) = none)) →
    exec i s = .next (s.withRegs (s.regs.setEpc 0 (s.regs.epc 0 ||| 0x8#4)))

/-- `SET_CONFIGURATION`: `CONFIG` takes the low byte of `wValue`; every endpoint but 0 gets its flags back in `EPCTL`, its toggle
cleared and, where it receives, both receive slots armed; endpoint 0 gets the acknowledgement; the transmit
descriptors and parities are left (40_registry.md R126; 43_control.md R187). -/
def Obligations.SetConfigurationRearms : Prop :=
  ∀ (s : State) (h : Word), Quiet s → MemInv s → s.allocNode.1 = some h →
    ∃ t, exec .setConfiguration s = .next t ∧
      t.sess = { s.sess with config := s.sess.lastSetup.extractLsb' 16 8 } ∧
      t.endpoint 0 = { s.endpoint 0 with txq := (s.endpoint 0).txq ++ [h] } ∧
      t.regs.epc 0 = s.regs.epc 0 ∧
      t.node? h = some { total := 0#32, cursor := 0#32, cb := 0#32, owns := false, buf := 0#32, st := .queued 0 } ∧
      SameNodes h s t ∧ t.pool.live = s.pool.live ∧
      (∀ e : EpId, e ≠ 0 →
        t.endpoint e = { s.endpoint e with txtoggle := false } ∧
        t.regs.epc e = (s.endpoint e).flags.setWidth 4 ∧
        (∀ b0 b1, flagRx (s.endpoint e).flags = true → (s.endpoint e).rxbuf = some (b0, b1) →
          t.bdCtl e .rx .even = controlWord (min (s.endpoint e).maxpkt.toNat 1023) true false 0 ∧
          t.bdBuf e .rx .even = b0 ∧
          t.bdCtl e .rx .odd = controlWord (min (s.endpoint e).maxpkt.toNat 1023) true true 0 ∧
          t.bdBuf e .rx .odd = b1)) ∧
      SameMem (fun a => ∃ e x, e ≠ 0 ∧ flagRx (s.endpoint e).flags = true ∧ (s.endpoint e).rxbuf ≠ none ∧
        inBd s.params e .rx x a) s t ∧
      t.regs.istat = s.regs.istat ∧ t.regs.addr = s.regs.addr ∧ t.regs.ctl = s.regs.ctl ∧
      t.regs.errstat = s.regs.errstat ∧ t.regs.statq = s.regs.statq ∧ t.port = s.port ∧ t.trace = s.trace ∧
      t.sie = s.sie

/-- A reply that cannot be allocated in interrupt context sets `FAULT.ISRALLOC`, queues nothing and changes nothing else but the
oracle's draws; `SET_CONFIGURATION`, whose acknowledgement comes last, has then taken `CONFIG` and re-armed the other
endpoints (41_txqueue.md R151; 43_control.md R187; 60_exceptions.md R233). -/
def Obligations.ReplyAllocationFailure : Prop :=
  (∀ (s : State), Quiet s → MemInv s → s.allocNode.1 = none →
    ∃ t, exec .setConfiguration s = .next t ∧
      t.sess = { s.sess with config := s.sess.lastSetup.extractLsb' 16 8, isrAlloc := true } ∧
      t.endpoint 0 = s.endpoint 0 ∧ t.regs.epc 0 = s.regs.epc 0 ∧ t.pool = s.pool ∧
      (∀ e : EpId, e ≠ 0 →
        t.endpoint e = { s.endpoint e with txtoggle := false } ∧
        t.regs.epc e = (s.endpoint e).flags.setWidth 4 ∧
        (∀ b0 b1, flagRx (s.endpoint e).flags = true → (s.endpoint e).rxbuf = some (b0, b1) →
          t.bdCtl e .rx .even = controlWord (min (s.endpoint e).maxpkt.toNat 1023) true false 0 ∧
          t.bdBuf e .rx .even = b0 ∧
          t.bdCtl e .rx .odd = controlWord (min (s.endpoint e).maxpkt.toNat 1023) true true 0 ∧
          t.bdBuf e .rx .odd = b1)) ∧
      SameMem (fun a => ∃ e x, e ≠ 0 ∧ flagRx (s.endpoint e).flags = true ∧ (s.endpoint e).rxbuf ≠ none ∧
        inBd s.params e .rx x a) s t ∧
      t.regs = { s.regs with epctl := t.regs.epctl } ∧ t.params = s.params ∧ t.port = s.port ∧ t.trace = s.trace ∧
      t.sie = s.sie ∧ t.env.inbox = s.env.inbox ∧ t.env.between = s.env.between) ∧
  ∀ (s : State) (i : Instr) (n : Word), AllocationFails s n →
    ((n = 0#32 ∧ (i = .setAddress ∨ i = .vendorReboot)) ∨
      (n = BitVec.ofNat 32 (min 2 (s.sess.lastSetup.extractLsb' 48 16).toNat) ∧ i = .getStatus) ∨
      (n = BitVec.ofNat 32 (min 1 (s.sess.lastSetup.extractLsb' 48 16).toNat) ∧ i = .getConfiguration) ∨
      (∃ a m, resolver s.params (s.sess.lastSetup.extractLsb' 16 16) (s.sess.lastSetup.extractLsb' 32 16) = some (a, m) ∧
        n = BitVec.ofNat 32 (min m.toNat (s.sess.lastSetup.extractLsb' 48 16).toNat) ∧
        (i = .getDescriptor ∨ i = .getDescriptorIf))) →
    ∃ t, exec i s = .next t ∧ t = (s.withSess { s.sess with isrAlloc := true }).withEnv t.env ∧
      t.env.inbox = s.env.inbox ∧ t.env.between = s.env.between

/-! ### The peripheral -/

/-- `P.RESET`: the peripheral is held off, completions are dropped, the pointers are `EVEN`, `USBRST` is pending and the wire saw
it; nothing else changes. A second one before the first was served changes nothing but the wire, which sees it again: that it does
is the model's reading of 44_peripheral.md R202 (log entry 28). -/
def Obligations.BusResetStep : Prop :=
  ∀ (s : State), s.sess.reboot = false → s.regs.usben = true →
    ∃ t, exec .pReset s = .next t ∧
      t.regs = { s.regs with
        ctl := s.regs.ctl ||| 0x2#2, statq := [], istat := (s.regs.istat &&& 0xF7#8) ||| 0x01#8 } ∧
      (∀ e : EpId, t.sie.txAt e = .even ∧ t.sie.rxAt e = .even) ∧
      t.trace = { s.trace with wire := s.trace.wire ++ [.reset] } ∧
      t.params = s.params ∧ t.port = s.port ∧ t.ep = s.ep ∧ t.mem = s.mem ∧ t.pool = s.pool ∧ t.sess = s.sess ∧
      t.env = s.env ∧
      exec .pReset t = .next (t.withTrace { t.trace with wire := t.trace.wire ++ [.reset] })

/-- `P.SOF`, `P.SLEEP`, `P.RESUME` and `P.ATTACH` set their own bit of `ISTAT`; `P.ERR` sets its flags in `ERRSTAT` and the `ERROR`
bit; none is gated by `HOLD` and nothing else changes (44_peripheral.md R203 to R207). -/
def Obligations.EventSteps : Prop :=
  ∀ (s : State) (bits : BitVec 5), s.sess.reboot = false → s.regs.usben = true →
    exec .pSof s = .next (s.withRegs { s.regs with istat := s.regs.istat ||| 0x04#8 }) ∧
    exec .pSleep s = .next (s.withRegs { s.regs with istat := s.regs.istat ||| 0x10#8 }) ∧
    exec .pResume s = .next (s.withRegs { s.regs with istat := s.regs.istat ||| 0x20#8 }) ∧
    exec .pAttach s = .next (s.withRegs { s.regs with istat := s.regs.istat ||| 0x40#8 }) ∧
    (bits ≠ 0#5 → exec (.pErr bits) s =
      .next (s.withRegs { s.regs with errstat := s.regs.errstat ||| bits, istat := s.regs.istat ||| 0x02#8 }))

/-- `P.SETUP` and `P.OUT` when they are enabled: the bytes are stored at the armed address, the control word is written back with
count, toggle and token, the completion is queued, the pointer flips and a handshake is sent if handshakes are used; a
SETUP is taken on a stalled endpoint, an OUT is not (44_peripheral.md R208, R210). -/
def Obligations.PacketReceived : Prop :=
  ∀ (s : State) (e : EpId) (i : Instr) (bytes : List Byte) (toggle : Bool) (tok : Nat), MemInv s →
    s.sess.reboot = false → s.regs.usben = true → s.regs.hold = false →
    s.regs.statq.length < s.params.statDepth → ctlRx (s.regs.epc e) = true →
    let x := s.sie.rxAt e
    let a := s.bdBuf e .rx x
    s.bdOwn e .rx x = true →
    ((i = .pSetup e bytes ∧ bytes.length = 8 ∧ 8 ≤ (ctlBc (s.bdCtl e .rx x)).toNat ∧ toggle = false ∧ tok = 0xD) ∨
      (i = .pOut e toggle bytes ∧ bytes.length ≤ (ctlBc (s.bdCtl e .rx x)).toNat ∧
        ctlStall (s.regs.epc e) = false ∧ tok = 0x1)) →
    ∃ t, exec i s = .next t ∧
      (∀ k (hk : k < bytes.length), inRegs s.params (a + BitVec.ofNat 32 k) = false →
        ¬ inCtl s.params e .rx x (a + BitVec.ofNat 32 k) → t.mem.read (a + BitVec.ofNat 32 k) = bytes[k]) ∧
      t.bdCtl e .rx x = controlWord bytes.length false toggle tok ∧
      SameMem (fun c => inRun a bytes.length c ∨ inCtl s.params e .rx x c) s t ∧
      t.regs = { s.regs with
        statq := s.regs.statq ++ [{ ep := e, dir := .rx, slot := x }], istat := s.regs.istat ||| 0x08#8 } ∧
      t.sie = s.sie.setRx e x.flip ∧
      t.trace = { s.trace with wire := s.trace.wire ++ if ctlHshk (s.regs.epc e) then [.ack e] else [] } ∧
      t.params = s.params ∧ t.port = s.port ∧ t.ep = s.ep ∧ t.pool = s.pool ∧ t.sess = s.sess ∧ t.env = s.env

/-- `P.IN` when it is enabled: the armed bytes go out with the armed toggle, the control word is written back with the IN token,
the completion is queued and the pointer flips; the buffer and the address word are left (44_peripheral.md R209). -/
def Obligations.PacketSent : Prop :=
  ∀ (s : State) (e : EpId), MemInv s →
    s.sess.reboot = false → s.regs.usben = true → s.regs.hold = false →
    s.regs.statq.length < s.params.statDepth → ctlTx (s.regs.epc e) = true → ctlStall (s.regs.epc e) = false →
    let x := s.sie.txAt e
    let w := s.bdCtl e .tx x
    s.bdOwn e .tx x = true →
    ∃ t bytes, exec (.pIn e) s = .next t ∧
      bytes.length = (ctlBc w).toNat ∧
      (∀ k (hk : k < bytes.length), bytes[k] = s.readByte (s.bdBuf e .tx x + BitVec.ofNat 32 k)) ∧
      t.trace = { s.trace with wire := s.trace.wire ++ [.data e (ctlData1 w) bytes] } ∧
      t.bdCtl e .tx x = controlWord (ctlBc w).toNat false (ctlData1 w) 0x9 ∧
      SameMem (inCtl s.params e .tx x) s t ∧
      t.regs = { s.regs with
        statq := s.regs.statq ++ [{ ep := e, dir := .tx, slot := x }], istat := s.regs.istat ||| 0x08#8 } ∧
      t.sie = s.sie.setTx e x.flip ∧
      t.params = s.params ∧ t.port = s.port ∧ t.ep = s.ep ∧ t.pool = s.pool ∧ t.sess = s.sess ∧ t.env = s.env

/-- `P.STALLED` when it is enabled: the handshake is on the wire and the `STALL` bit is set; no descriptor, pointer or completion
changes (44_peripheral.md R211, R214; log entry 18). -/
def Obligations.StallAnswered : Prop :=
  ∀ (s : State) (e : EpId), s.sess.reboot = false → s.regs.usben = true → s.regs.hold = false →
    s.regs.statq.length < s.params.statDepth → ctlStall (s.regs.epc e) = true →
    (ctlRx (s.regs.epc e) = true ∨ ctlTx (s.regs.epc e) = true) →
    exec (.pStalled e) s = .next ((s.withRegs { s.regs with istat := s.regs.istat ||| 0x80#8 }).withTrace
      { s.trace with wire := s.trace.wire ++ [.stall e] })

/-- A token for which no step is enabled changes no state: the peripheral held off or off, the status queue full, the direction
disabled, an IN or OUT on a stalled endpoint, the slot at the pointer FirmwareOwned, a packet longer than the armed
count, a SETUP to a slot armed for fewer than 8 bytes (44_peripheral.md R200, R209 to R212, R214). That `P.STALLED` too does
nothing while the status queue is full is the model's choice (log entry 18: R214 over R211). -/
def Obligations.NoStepChangesNothing : Prop :=
  ∀ (s : State) (e : EpId) (toggle : Bool) (bytes : List Byte),
    (s.regs.usben = false ∨ s.regs.hold = true ∨ s.params.statDepth ≤ s.regs.statq.length →
      ∀ i ∈ [Instr.pSetup e bytes, .pIn e, .pOut e toggle bytes, .pStalled e], exec i s = .next s) ∧
    (ctlRx (s.regs.epc e) = false ∨ s.bdOwn e .rx (s.sie.rxAt e) = false ∨
        (ctlBc (s.bdCtl e .rx (s.sie.rxAt e))).toNat < 8 → exec (.pSetup e bytes) s = .next s) ∧
    (ctlRx (s.regs.epc e) = false ∨ ctlStall (s.regs.epc e) = true ∨ s.bdOwn e .rx (s.sie.rxAt e) = false ∨
        (ctlBc (s.bdCtl e .rx (s.sie.rxAt e))).toNat < bytes.length → exec (.pOut e toggle bytes) s = .next s) ∧
    (ctlTx (s.regs.epc e) = false ∨ ctlStall (s.regs.epc e) = true ∨ s.bdOwn e .tx (s.sie.txAt e) = false →
      exec (.pIn e) s = .next s) ∧
    (ctlStall (s.regs.epc e) = false ∨ (ctlRx (s.regs.epc e) = false ∧ ctlTx (s.regs.epc e) = false) →
      exec (.pStalled e) s = .next s)

/-- What no step of the peripheral does: it writes no enable, address, record, node, block, session or command port; it clears no
bit of `ISTAT` but `TOKDNE` and sets `HOLD` only in `P.RESET`; it touches memory only in a receive or transmit step
(44_peripheral.md R215). -/
def Obligations.PeripheralNeverWrites : Prop :=
  ∀ (h : HostStep) (s : State),
    let t := hostStep h s
    t.params = s.params ∧ t.port = s.port ∧ t.ep = s.ep ∧ t.pool = s.pool ∧ t.sess = s.sess ∧ t.env = s.env ∧
    t.trace.evt = s.trace.evt ∧ t.regs.inten = s.regs.inten ∧ t.regs.addr = s.regs.addr ∧
    t.regs.epctl = s.regs.epctl ∧ t.regs.usben = s.regs.usben ∧
    (∀ k < 8, k ≠ 3 ∨ h ≠ .reset → s.regs.istat.getLsbD k = true → t.regs.istat.getLsbD k = true) ∧
    (h ≠ .reset → t.regs.hold = s.regs.hold) ∧
    ((∀ e b, h ≠ .setup e b) → (∀ e, h ≠ .inTok e) → (∀ e g b, h ≠ .out e g b) → t.mem = s.mem)
end

