-- ==== Sys2Proof/Laws/Bits.lean ====
section
/-! SUPPORT. The fields of a control word, of a `STAT` byte and of a descriptor index, each read back from the word it was
put into; the bits of the status registers. -/

namespace Sys2Proof

@[simp] theorem ctlWord_bc (bc : BitVec 10) (own data1 : Bool) (tok : BitVec 4) : ctlBc (ctlWord bc own data1 tok) = bc := by
  apply BitVec.eq_of_getLsbD_eq
  intro i hi
  simp only [ctlBc, ctlWord, BitVec.getLsbD_extractLsb', BitVec.getLsbD_append]
  have h0 : ¬ 16 + i < 2 := by omega
  have h1 : ¬ 16 + i - 2 < 4 := by omega
  have h2 : ¬ 16 + i - 2 - 4 < 1 := by omega
  have h3 : ¬ 16 + i - 2 - 4 - 1 < 1 := by omega
  have h4 : ¬ 16 + i - 2 - 4 - 1 - 1 < 8 := by omega
  have h5 : 16 + i - 2 - 4 - 1 - 1 - 8 = i := by omega
  simp [h0, h1, h2, h3, h4, h5, hi]

@[simp] theorem ctlWord_own (bc : BitVec 10) (own data1 : Bool) (tok : BitVec 4) :
    ctlOwn (ctlWord bc own data1 tok) = own := by
  simp only [ctlOwn, ctlWord, BitVec.getLsbD_append]; simp

@[simp] theorem ctlWord_data1 (bc : BitVec 10) (own data1 : Bool) (tok : BitVec 4) :
    ctlData1 (ctlWord bc own data1 tok) = data1 := by
  simp only [ctlData1, ctlWord, BitVec.getLsbD_append]; simp

@[simp] theorem ctlWord_tok (bc : BitVec 10) (own data1 : Bool) (tok : BitVec 4) :
    ctlTok (ctlWord bc own data1 tok) = tok := by
  apply BitVec.eq_of_getLsbD_eq
  intro i hi
  simp only [ctlTok, ctlWord, BitVec.getLsbD_extractLsb', BitVec.getLsbD_append]
  have h0 : ¬ 2 + i < 2 := by omega
  have h1 : 2 + i - 2 < 4 := by omega
  have h2 : 2 + i - 2 = i := by omega
  simp [h0, h2, hi]

@[simp] theorem ctlOwn_zero : ctlOwn 0#32 = false := rfl

@[simp] theorem Slot.flip_flip (x : Slot) : x.flip.flip = x := by cases x <;> rfl

theorem Slot.eq_or_flip (x y : Slot) : y = x ∨ y = x.flip := by cases x <;> cases y <;> simp [Slot.flip]

@[simp] theorem Slot.flip_ne (x : Slot) : x.flip ≠ x := by cases x <;> simp [Slot.flip]

/-- Every field of a `STAT` byte reads back. -/
theorem statByte_fields : ∀ (e : EpId) (d : Dir) (x : Slot),
    statEp (statByte e d x) = e ∧ statDir (statByte e d x) = d ∧ statSlot (statByte e d x) = x := by
  intro e d x
  revert e
  cases d <;> cases x <;> decide

@[simp] theorem statEp_statByte (e : EpId) (d : Dir) (x : Slot) : statEp (statByte e d x) = e := (statByte_fields e d x).1
@[simp] theorem statDir_statByte (e : EpId) (d : Dir) (x : Slot) : statDir (statByte e d x) = d := (statByte_fields e d x).2.1
@[simp] theorem statSlot_statByte (e : EpId) (d : Dir) (x : Slot) : statSlot (statByte e d x) = x :=
  (statByte_fields e d x).2.2

/-- A `STAT` byte with its reserved bits 0 is the byte of its fields. -/
theorem statByte_of_fields (st : BitVec 8) (h : st.extractLsb' 0 2 = 0#2) :
    statByte (statEp st) (statDir st) (statSlot st) = st := by
  revert h; revert st; decide +kernel

/-- The descriptor index as a number: `4e + 2d + s`. -/
theorem bdIndex_toNat (e : EpId) (d : Dir) (x : Slot) :
    (bdIndex e d x).toNat = 4 * e.val + 2 * d.bit.toNat + x.bit.toNat := by
  revert e; cases d <;> cases x <;> decide

@[simp] theorem epOfByte_epByte (e : EpId) : epOfByte (epByte e) = some e := by revert e; decide

theorem epOfByte_none {x : BitVec 8} (h : 16 ≤ x.toNat) : epOfByte x = none := by
  simp [epOfByte]; omega

theorem epOfByte_some {x : BitVec 8} {e : EpId} (h : epOfByte x = some e) : x = epByte e := by
  unfold epOfByte at h
  split at h
  · cases h
    apply BitVec.eq_of_toNat_eq
    simp [epByte]
  · cases h

end Sys2Proof
end

