-- ==== Sys2Proof/Laws/Mem.lean ====
section
/-! SUPPORT. The laws of the memory's bytes and words: a read after a write, and that a write keeps the canonical form. -/

namespace Sys2Proof.Machine

theorem readCells_below {a : Nat} : ∀ {l : Option Nat} {cs : List Host.Cell}, wfCells l cs = true →
    (∀ m, l = some m → a ≤ m) → l ≠ none → readCells a cs = Memory.blank
  | _, [], _, _, _ => rfl
  | some m, (k, b) :: rest, h, hl, _ => by
    simp only [wfCells, Bool.and_eq_true, decide_eq_true_eq] at h
    have hm := hl m rfl
    have hk : ¬ k = a := by omega
    simp only [readCells, hk, if_false]
    exact readCells_below h.2 (by intro n hn; cases hn; omega) (by simp)

theorem readCells_writeCells_same (a : Nat) (b : Byte) : ∀ {l : Option Nat} {cs : List Host.Cell},
    wfCells l cs = true → readCells a (writeCells a b cs) = b
  | _, [], _ => by
    by_cases hb : b = Memory.blank <;> simp [writeCells, readCells, hb]
  | l, (k, v) :: rest, h => by
    simp only [wfCells, Bool.and_eq_true, decide_eq_true_eq] at h
    by_cases h1 : a < k
    · by_cases hb : b = Memory.blank
      · have hk : ¬ k = a := by omega
        have := readCells_below (a := a) h.2 (by intro n hn; cases hn; omega) (by simp)
        simp [writeCells, h1, hb, readCells, hk, this]
      · simp [writeCells, h1, hb, readCells]
    · by_cases h2 : a = k
      · subst h2
        by_cases hb : b = Memory.blank
        · simpa [writeCells, hb] using readCells_below (a := a) h.2 (by intro n hn; cases hn; omega) (by simp)
        · simp [writeCells, hb, readCells]
      · have hk : ¬ k = a := fun x => h2 x.symm
        simp [writeCells, h1, h2, readCells, hk, readCells_writeCells_same a b h.2]

theorem readCells_writeCells_ne {a c : Nat} (b : Byte) (hac : c ≠ a) : ∀ {cs : List Host.Cell},
    readCells c (writeCells a b cs) = readCells c cs
  | [] => by
    by_cases hb : b = Memory.blank <;> simp [writeCells, readCells, hb, Ne.symm hac]
  | (k, v) :: rest => by
    by_cases h1 : a < k
    · by_cases hb : b = Memory.blank <;> simp [writeCells, h1, hb, readCells, Ne.symm hac]
    · by_cases h2 : a = k
      · subst h2
        by_cases hb : b = Memory.blank <;> simp [writeCells, hb, readCells, Ne.symm hac]
      · simp [writeCells, h1, h2, readCells, readCells_writeCells_ne b hac (cs := rest)]

theorem wfCells_writeCells {a : Nat} (b : Byte) (ha : a < 2 ^ 32) : ∀ {l : Option Nat} {cs : List Host.Cell},
    wfCells l cs = true → (∀ m, l = some m → m < a) → wfCells l (writeCells a b cs) = true
  | l, [], _, hl => by
    by_cases hb : b = Memory.blank
    · simp [writeCells, hb, wfCells]
    · cases l <;> simp_all [writeCells, wfCells]
  | l, (k, v) :: rest, h, hl => by
    have h' := h
    simp only [wfCells, Bool.and_eq_true, decide_eq_true_eq] at h
    by_cases h1 : a < k
    · by_cases hb : b = Memory.blank
      · simpa [writeCells, h1, hb] using h'
      · cases l <;> simp_all [writeCells, wfCells]
    · by_cases h2 : a = k
      · subst h2
        by_cases hb : b = Memory.blank
        · simp only [writeCells, Nat.lt_irrefl, if_false, if_true, hb]
          cases rest with
          | nil => rfl
          | cons c cs =>
            obtain ⟨j, w⟩ := c
            have h3 := h.2
            simp only [wfCells, Bool.and_eq_true, decide_eq_true_eq] at h3
            cases l with
            | none => simp_all [wfCells]
            | some m =>
              have := hl m rfl
              simp only [wfCells, Bool.and_eq_true, decide_eq_true_eq]
              exact ⟨⟨⟨by omega, h3.1.1.2⟩, h3.1.2⟩, h3.2⟩
        · cases l <;> simp_all [writeCells, wfCells]
      · have ih := wfCells_writeCells b ha h.2 (by intro m hm; cases hm; omega)
        simp only [writeCells, h1, h2, if_false, wfCells, Bool.and_eq_true, decide_eq_true_eq]
        exact ⟨h.1, ih⟩

/-- A write reads back, in a canonical memory. -/
theorem Memory.read_write_same {m : Memory} (hm : m.wf = true) (a : Word) (b : Byte) : (m.write a b).read a = b :=
  readCells_writeCells_same a.toNat b hm

/-- A write leaves every other byte. -/
theorem Memory.read_write_ne (m : Memory) {a c : Word} (b : Byte) (h : c ≠ a) : (m.write a b).read c = m.read c :=
  readCells_writeCells_ne b fun hh => h (BitVec.eq_of_toNat_eq hh)

/-- A write keeps the canonical form. -/
theorem Memory.wf_write {m : Memory} (hm : m.wf = true) (a : Word) (b : Byte) : (m.write a b).wf = true :=
  wfCells_writeCells b a.isLt hm (by simp)

theorem Memory.wf_write32 {m : Memory} (hm : m.wf = true) (a v : Word) : (m.write32 a v).wf = true :=
  Memory.wf_write (Memory.wf_write (Memory.wf_write (Memory.wf_write hm a _) _ _) _ _) _ _

theorem add_ne_of_sub {a c k : Word} (h : (c - a).toNat ≠ k.toNat) : c ≠ a + k := by
  intro hc; subst hc; exact h (by rw [BitVec.add_comm, BitVec.add_sub_cancel])

/-- The bytes outside a written word keep their values. -/
theorem Memory.read_write32_ne (m : Memory) {a c : Word} (v : Word) (h : 4 ≤ (c - a).toNat) :
    (m.write32 a v).read c = m.read c := by
  have h0 : c ≠ a := by intro hc; subst hc; simp at h
  unfold Memory.write32
  rw [Memory.read_write_ne, Memory.read_write_ne, Memory.read_write_ne, Memory.read_write_ne _ _ h0] <;>
    exact add_ne_of_sub fun hh => absurd (hh ▸ h) (by decide)

theorem word_of_its_bytes (v : Word) :
    wordOfBytes (byteOfWord v 0) (byteOfWord v 1) (byteOfWord v 2) (byteOfWord v 3) = v := by
  apply BitVec.eq_of_getLsbD_eq
  intro i hi
  simp only [wordOfBytes, byteOfWord, BitVec.getLsbD_append, BitVec.getLsbD_extractLsb', Nat.mul_zero, Nat.mul_one]
  by_cases h1 : i < 8
  · simp [h1]
  · by_cases h2 : i - 8 < 8
    · simp only [h1, h2]; simp; congr 1; omega
    · by_cases h3 : i - 8 - 8 < 8
      · simp only [h1, h2, h3]; simp; congr 1; omega
      · have h4 : i - 8 - 8 - 8 < 8 := by omega
        simp only [h1, h2, h3]; simp [h4]; congr 1; omega

theorem word_offsets_ne (a : Word) :
    a ≠ a + 1#32 ∧ a ≠ a + 2#32 ∧ a ≠ a + 3#32 ∧ a + 1#32 ≠ a + 2#32 ∧ a + 1#32 ≠ a + 3#32 ∧ a + 2#32 ≠ a + 3#32 := by
  refine ⟨?_, ?_, ?_, ?_, ?_, ?_⟩ <;> intro h <;> bv_omega

/-- A written word reads back, in a canonical memory. -/
theorem Memory.read32_write32_same {m : Memory} (hm : m.wf = true) (a v : Word) : (m.write32 a v).read32 a = v := by
  obtain ⟨h1, h2, h3, h4, h5, h6⟩ := word_offsets_ne a
  have w1 := Memory.wf_write hm a (byteOfWord v 0)
  have w2 := Memory.wf_write w1 (a + 1#32) (byteOfWord v 1)
  have w3 := Memory.wf_write w2 (a + 2#32) (byteOfWord v 2)
  unfold Memory.read32 Memory.write32
  rw [Memory.read_write_ne _ _ h3, Memory.read_write_ne _ _ h2, Memory.read_write_ne _ _ h1, Memory.read_write_same hm,
    Memory.read_write_ne _ _ h5, Memory.read_write_ne _ _ h4, Memory.read_write_same w1,
    Memory.read_write_ne _ _ h6, Memory.read_write_same w2, Memory.read_write_same w3]
  exact word_of_its_bytes v

/-- A word four or more bytes away from a written word keeps its value. -/
theorem Memory.read32_write32_ne (m : Memory) {a c : Word} (v : Word) (h : 4 ≤ (c - a).toNat)
    (h' : (c - a).toNat ≤ 2 ^ 32 - 4) : (m.write32 a v).read32 c = m.read32 c := by
  unfold Memory.read32
  rw [Memory.read_write32_ne _ _ h, Memory.read_write32_ne, Memory.read_write32_ne, Memory.read_write32_ne] <;> bv_omega

theorem Memory.read32_congr {m m' : Memory} {a : Word} (h : ∀ c, (c - a).toNat < 4 → m'.read c = m.read c) :
    m'.read32 a = m.read32 a := by
  unfold Memory.read32
  rw [h a (by simp), h (a + 1#32) (by bv_omega), h (a + 2#32) (by bv_omega), h (a + 3#32) (by bv_omega)]

theorem Memory.wf_empty : (Memory.mk []).wf = true := rfl

/-! ### The memory of power-on reset -/

theorem readCells_filter (a : Nat) (f : Nat → Bool) : ∀ cs : List Host.Cell,
    readCells a (cs.filter fun c => f c.1) = if f a then readCells a cs else Memory.blank
  | [] => by simp [readCells]
  | (k, b) :: rest => by
    by_cases hk : k = a
    · subst hk
      cases hf : f k
      · simpa [hf] using readCells_filter k f rest
      · simp [hf, readCells]
    · cases hf : f k
      · simpa [hf, readCells, hk] using readCells_filter a f rest
      · simpa [hf, readCells, hk] using readCells_filter a f rest

theorem wfCells_weaken {l l' : Option Nat} (h : ∀ m, l' = some m → ∃ n, l = some n ∧ m ≤ n) :
    ∀ {cs : List Host.Cell}, wfCells l cs = true → wfCells l' cs = true
  | [], _ => rfl
  | (k, b) :: rest, hw => by
    simp only [wfCells, Bool.and_eq_true] at hw ⊢
    refine ⟨⟨⟨?_, hw.1.1.2⟩, hw.1.2⟩, hw.2⟩
    cases l' with
    | none => rfl
    | some m =>
      obtain ⟨n, hn, hmn⟩ := h m rfl
      subst hn
      simp only [decide_eq_true_eq] at hw ⊢
      omega

theorem wfCells_filter (f : Host.Cell → Bool) : ∀ {l : Option Nat} {cs : List Host.Cell}, wfCells l cs = true →
    wfCells l (cs.filter f) = true
  | _, [], _ => rfl
  | l, (k, b) :: rest, h => by
    have h' := h
    simp only [wfCells, Bool.and_eq_true] at h
    have ih := wfCells_filter f h.2
    cases hf : f (k, b)
    · simp only [List.filter_cons, hf]
      refine wfCells_weaken ?_ ih
      intro m hm; subst hm
      simp only [decide_eq_true_eq] at h
      exact ⟨k, rfl, by omega⟩
    · simp only [List.filter_cons, hf, if_true, wfCells, Bool.and_eq_true]
      exact ⟨h.1, ih⟩

/-- A zeroed table reads 0 and every other byte is as it was drawn. -/
theorem Memory.read_zeroTable (p : Params) (m : Memory) (a : Word) :
    (m.zeroTable p).read a = if inTable p a then 0#8 else m.read a := by
  have := readCells_filter a.toNat (fun k => !inTable p (BitVec.ofNat 32 k)) m.cells
  simp only [Memory.read, Memory.zeroTable, this, BitVec.ofNat_toNat, BitVec.setWidth_eq]
  cases inTable p a <;> simp [Memory.blank]

theorem Memory.wf_zeroTable (p : Params) {m : Memory} (hm : m.wf = true) : (m.zeroTable p).wf = true :=
  wfCells_filter _ hm

end Sys2Proof.Machine
end

