-- ==== Sys2Proof/Laws/State.lean ====
section
/-! SUPPORT. One lemma per group of state for each update of a group, and for each named update built on them: true by
rfl, so that no later proof unfolds a record update. -/

namespace Sys2Proof.Machine

/-! ### `withPort` -/

@[simp] theorem State.withPort_params (s : State) (x : Port) : (s.withPort x).params = s.params := rfl
@[simp] theorem State.withPort_port (s : State) (x : Port) : (s.withPort x).port = x := rfl
@[simp] theorem State.withPort_regs (s : State) (x : Port) : (s.withPort x).regs = s.regs := rfl
@[simp] theorem State.withPort_ep (s : State) (x : Port) : (s.withPort x).ep = s.ep := rfl
@[simp] theorem State.withPort_mem (s : State) (x : Port) : (s.withPort x).mem = s.mem := rfl
@[simp] theorem State.withPort_pool (s : State) (x : Port) : (s.withPort x).pool = s.pool := rfl
@[simp] theorem State.withPort_sess (s : State) (x : Port) : (s.withPort x).sess = s.sess := rfl
@[simp] theorem State.withPort_trace (s : State) (x : Port) : (s.withPort x).trace = s.trace := rfl
@[simp] theorem State.withPort_sie (s : State) (x : Port) : (s.withPort x).sie = s.sie := rfl
@[simp] theorem State.withPort_env (s : State) (x : Port) : (s.withPort x).env = s.env := rfl
@[simp] theorem State.withPort_withPort (s : State) (x y : Port) : (s.withPort x).withPort y = s.withPort y := rfl
@[simp] theorem State.withPort_self (s : State) : s.withPort s.port = s := rfl

/-! ### `withRegs` -/

@[simp] theorem State.withRegs_params (s : State) (x : Regs) : (s.withRegs x).params = s.params := rfl
@[simp] theorem State.withRegs_port (s : State) (x : Regs) : (s.withRegs x).port = s.port := rfl
@[simp] theorem State.withRegs_regs (s : State) (x : Regs) : (s.withRegs x).regs = x := rfl
@[simp] theorem State.withRegs_ep (s : State) (x : Regs) : (s.withRegs x).ep = s.ep := rfl
@[simp] theorem State.withRegs_mem (s : State) (x : Regs) : (s.withRegs x).mem = s.mem := rfl
@[simp] theorem State.withRegs_pool (s : State) (x : Regs) : (s.withRegs x).pool = s.pool := rfl
@[simp] theorem State.withRegs_sess (s : State) (x : Regs) : (s.withRegs x).sess = s.sess := rfl
@[simp] theorem State.withRegs_trace (s : State) (x : Regs) : (s.withRegs x).trace = s.trace := rfl
@[simp] theorem State.withRegs_sie (s : State) (x : Regs) : (s.withRegs x).sie = s.sie := rfl
@[simp] theorem State.withRegs_env (s : State) (x : Regs) : (s.withRegs x).env = s.env := rfl
@[simp] theorem State.withRegs_withRegs (s : State) (x y : Regs) : (s.withRegs x).withRegs y = s.withRegs y := rfl
@[simp] theorem State.withRegs_self (s : State) : s.withRegs s.regs = s := rfl

/-! ### `withEp` -/

@[simp] theorem State.withEp_params (s : State) (x : Vector EpRec 16) : (s.withEp x).params = s.params := rfl
@[simp] theorem State.withEp_port (s : State) (x : Vector EpRec 16) : (s.withEp x).port = s.port := rfl
@[simp] theorem State.withEp_regs (s : State) (x : Vector EpRec 16) : (s.withEp x).regs = s.regs := rfl
@[simp] theorem State.withEp_ep (s : State) (x : Vector EpRec 16) : (s.withEp x).ep = x := rfl
@[simp] theorem State.withEp_mem (s : State) (x : Vector EpRec 16) : (s.withEp x).mem = s.mem := rfl
@[simp] theorem State.withEp_pool (s : State) (x : Vector EpRec 16) : (s.withEp x).pool = s.pool := rfl
@[simp] theorem State.withEp_sess (s : State) (x : Vector EpRec 16) : (s.withEp x).sess = s.sess := rfl
@[simp] theorem State.withEp_trace (s : State) (x : Vector EpRec 16) : (s.withEp x).trace = s.trace := rfl
@[simp] theorem State.withEp_sie (s : State) (x : Vector EpRec 16) : (s.withEp x).sie = s.sie := rfl
@[simp] theorem State.withEp_env (s : State) (x : Vector EpRec 16) : (s.withEp x).env = s.env := rfl
@[simp] theorem State.withEp_withEp (s : State) (x y : Vector EpRec 16) : (s.withEp x).withEp y = s.withEp y := rfl
@[simp] theorem State.withEp_self (s : State) : s.withEp s.ep = s := rfl

/-! ### `withMem` -/

@[simp] theorem State.withMem_params (s : State) (x : Memory) : (s.withMem x).params = s.params := rfl
@[simp] theorem State.withMem_port (s : State) (x : Memory) : (s.withMem x).port = s.port := rfl
@[simp] theorem State.withMem_regs (s : State) (x : Memory) : (s.withMem x).regs = s.regs := rfl
@[simp] theorem State.withMem_ep (s : State) (x : Memory) : (s.withMem x).ep = s.ep := rfl
@[simp] theorem State.withMem_mem (s : State) (x : Memory) : (s.withMem x).mem = x := rfl
@[simp] theorem State.withMem_pool (s : State) (x : Memory) : (s.withMem x).pool = s.pool := rfl
@[simp] theorem State.withMem_sess (s : State) (x : Memory) : (s.withMem x).sess = s.sess := rfl
@[simp] theorem State.withMem_trace (s : State) (x : Memory) : (s.withMem x).trace = s.trace := rfl
@[simp] theorem State.withMem_sie (s : State) (x : Memory) : (s.withMem x).sie = s.sie := rfl
@[simp] theorem State.withMem_env (s : State) (x : Memory) : (s.withMem x).env = s.env := rfl
@[simp] theorem State.withMem_withMem (s : State) (x y : Memory) : (s.withMem x).withMem y = s.withMem y := rfl
@[simp] theorem State.withMem_self (s : State) : s.withMem s.mem = s := rfl

/-! ### `withPool` -/

@[simp] theorem State.withPool_params (s : State) (x : Pool) : (s.withPool x).params = s.params := rfl
@[simp] theorem State.withPool_port (s : State) (x : Pool) : (s.withPool x).port = s.port := rfl
@[simp] theorem State.withPool_regs (s : State) (x : Pool) : (s.withPool x).regs = s.regs := rfl
@[simp] theorem State.withPool_ep (s : State) (x : Pool) : (s.withPool x).ep = s.ep := rfl
@[simp] theorem State.withPool_mem (s : State) (x : Pool) : (s.withPool x).mem = s.mem := rfl
@[simp] theorem State.withPool_pool (s : State) (x : Pool) : (s.withPool x).pool = x := rfl
@[simp] theorem State.withPool_sess (s : State) (x : Pool) : (s.withPool x).sess = s.sess := rfl
@[simp] theorem State.withPool_trace (s : State) (x : Pool) : (s.withPool x).trace = s.trace := rfl
@[simp] theorem State.withPool_sie (s : State) (x : Pool) : (s.withPool x).sie = s.sie := rfl
@[simp] theorem State.withPool_env (s : State) (x : Pool) : (s.withPool x).env = s.env := rfl
@[simp] theorem State.withPool_withPool (s : State) (x y : Pool) : (s.withPool x).withPool y = s.withPool y := rfl
@[simp] theorem State.withPool_self (s : State) : s.withPool s.pool = s := rfl

/-! ### `withSess` -/

@[simp] theorem State.withSess_params (s : State) (x : Session) : (s.withSess x).params = s.params := rfl
@[simp] theorem State.withSess_port (s : State) (x : Session) : (s.withSess x).port = s.port := rfl
@[simp] theorem State.withSess_regs (s : State) (x : Session) : (s.withSess x).regs = s.regs := rfl
@[simp] theorem State.withSess_ep (s : State) (x : Session) : (s.withSess x).ep = s.ep := rfl
@[simp] theorem State.withSess_mem (s : State) (x : Session) : (s.withSess x).mem = s.mem := rfl
@[simp] theorem State.withSess_pool (s : State) (x : Session) : (s.withSess x).pool = s.pool := rfl
@[simp] theorem State.withSess_sess (s : State) (x : Session) : (s.withSess x).sess = x := rfl
@[simp] theorem State.withSess_trace (s : State) (x : Session) : (s.withSess x).trace = s.trace := rfl
@[simp] theorem State.withSess_sie (s : State) (x : Session) : (s.withSess x).sie = s.sie := rfl
@[simp] theorem State.withSess_env (s : State) (x : Session) : (s.withSess x).env = s.env := rfl
@[simp] theorem State.withSess_withSess (s : State) (x y : Session) : (s.withSess x).withSess y = s.withSess y := rfl
@[simp] theorem State.withSess_self (s : State) : s.withSess s.sess = s := rfl

/-! ### `withTrace` -/

@[simp] theorem State.withTrace_params (s : State) (x : Trace) : (s.withTrace x).params = s.params := rfl
@[simp] theorem State.withTrace_port (s : State) (x : Trace) : (s.withTrace x).port = s.port := rfl
@[simp] theorem State.withTrace_regs (s : State) (x : Trace) : (s.withTrace x).regs = s.regs := rfl
@[simp] theorem State.withTrace_ep (s : State) (x : Trace) : (s.withTrace x).ep = s.ep := rfl
@[simp] theorem State.withTrace_mem (s : State) (x : Trace) : (s.withTrace x).mem = s.mem := rfl
@[simp] theorem State.withTrace_pool (s : State) (x : Trace) : (s.withTrace x).pool = s.pool := rfl
@[simp] theorem State.withTrace_sess (s : State) (x : Trace) : (s.withTrace x).sess = s.sess := rfl
@[simp] theorem State.withTrace_trace (s : State) (x : Trace) : (s.withTrace x).trace = x := rfl
@[simp] theorem State.withTrace_sie (s : State) (x : Trace) : (s.withTrace x).sie = s.sie := rfl
@[simp] theorem State.withTrace_env (s : State) (x : Trace) : (s.withTrace x).env = s.env := rfl
@[simp] theorem State.withTrace_withTrace (s : State) (x y : Trace) : (s.withTrace x).withTrace y = s.withTrace y := rfl
@[simp] theorem State.withTrace_self (s : State) : s.withTrace s.trace = s := rfl

/-! ### `withSie` -/

@[simp] theorem State.withSie_params (s : State) (x : Sie) : (s.withSie x).params = s.params := rfl
@[simp] theorem State.withSie_port (s : State) (x : Sie) : (s.withSie x).port = s.port := rfl
@[simp] theorem State.withSie_regs (s : State) (x : Sie) : (s.withSie x).regs = s.regs := rfl
@[simp] theorem State.withSie_ep (s : State) (x : Sie) : (s.withSie x).ep = s.ep := rfl
@[simp] theorem State.withSie_mem (s : State) (x : Sie) : (s.withSie x).mem = s.mem := rfl
@[simp] theorem State.withSie_pool (s : State) (x : Sie) : (s.withSie x).pool = s.pool := rfl
@[simp] theorem State.withSie_sess (s : State) (x : Sie) : (s.withSie x).sess = s.sess := rfl
@[simp] theorem State.withSie_trace (s : State) (x : Sie) : (s.withSie x).trace = s.trace := rfl
@[simp] theorem State.withSie_sie (s : State) (x : Sie) : (s.withSie x).sie = x := rfl
@[simp] theorem State.withSie_env (s : State) (x : Sie) : (s.withSie x).env = s.env := rfl
@[simp] theorem State.withSie_withSie (s : State) (x y : Sie) : (s.withSie x).withSie y = s.withSie y := rfl
@[simp] theorem State.withSie_self (s : State) : s.withSie s.sie = s := rfl

/-! ### `withEnv` -/

@[simp] theorem State.withEnv_params (s : State) (x : Env) : (s.withEnv x).params = s.params := rfl
@[simp] theorem State.withEnv_port (s : State) (x : Env) : (s.withEnv x).port = s.port := rfl
@[simp] theorem State.withEnv_regs (s : State) (x : Env) : (s.withEnv x).regs = s.regs := rfl
@[simp] theorem State.withEnv_ep (s : State) (x : Env) : (s.withEnv x).ep = s.ep := rfl
@[simp] theorem State.withEnv_mem (s : State) (x : Env) : (s.withEnv x).mem = s.mem := rfl
@[simp] theorem State.withEnv_pool (s : State) (x : Env) : (s.withEnv x).pool = s.pool := rfl
@[simp] theorem State.withEnv_sess (s : State) (x : Env) : (s.withEnv x).sess = s.sess := rfl
@[simp] theorem State.withEnv_trace (s : State) (x : Env) : (s.withEnv x).trace = s.trace := rfl
@[simp] theorem State.withEnv_sie (s : State) (x : Env) : (s.withEnv x).sie = s.sie := rfl
@[simp] theorem State.withEnv_env (s : State) (x : Env) : (s.withEnv x).env = x := rfl
@[simp] theorem State.withEnv_withEnv (s : State) (x y : Env) : (s.withEnv x).withEnv y = s.withEnv y := rfl
@[simp] theorem State.withEnv_self (s : State) : s.withEnv s.env = s := rfl

/-! ### `emit` -/

@[simp] theorem State.emit_params (s : State) (x : Event) : (s.emit x).params = s.params := rfl
@[simp] theorem State.emit_port (s : State) (x : Event) : (s.emit x).port = s.port := rfl
@[simp] theorem State.emit_regs (s : State) (x : Event) : (s.emit x).regs = s.regs := rfl
@[simp] theorem State.emit_ep (s : State) (x : Event) : (s.emit x).ep = s.ep := rfl
@[simp] theorem State.emit_mem (s : State) (x : Event) : (s.emit x).mem = s.mem := rfl
@[simp] theorem State.emit_pool (s : State) (x : Event) : (s.emit x).pool = s.pool := rfl
@[simp] theorem State.emit_sess (s : State) (x : Event) : (s.emit x).sess = s.sess := rfl
@[simp] theorem State.emit_sie (s : State) (x : Event) : (s.emit x).sie = s.sie := rfl
@[simp] theorem State.emit_env (s : State) (x : Event) : (s.emit x).env = s.env := rfl

/-! ### `wire` -/

@[simp] theorem State.wire_params (s : State) (x : WireEntry) : (s.wire x).params = s.params := rfl
@[simp] theorem State.wire_port (s : State) (x : WireEntry) : (s.wire x).port = s.port := rfl
@[simp] theorem State.wire_regs (s : State) (x : WireEntry) : (s.wire x).regs = s.regs := rfl
@[simp] theorem State.wire_ep (s : State) (x : WireEntry) : (s.wire x).ep = s.ep := rfl
@[simp] theorem State.wire_mem (s : State) (x : WireEntry) : (s.wire x).mem = s.mem := rfl
@[simp] theorem State.wire_pool (s : State) (x : WireEntry) : (s.wire x).pool = s.pool := rfl
@[simp] theorem State.wire_sess (s : State) (x : WireEntry) : (s.wire x).sess = s.sess := rfl
@[simp] theorem State.wire_sie (s : State) (x : WireEntry) : (s.wire x).sie = s.sie := rfl
@[simp] theorem State.wire_env (s : State) (x : WireEntry) : (s.wire x).env = s.env := rfl

/-! ### `setStatus` -/

@[simp] theorem State.setStatus_params (s : State) (c : BitVec 8) : (s.setStatus c).params = s.params := rfl
@[simp] theorem State.setStatus_regs (s : State) (c : BitVec 8) : (s.setStatus c).regs = s.regs := rfl
@[simp] theorem State.setStatus_ep (s : State) (c : BitVec 8) : (s.setStatus c).ep = s.ep := rfl
@[simp] theorem State.setStatus_mem (s : State) (c : BitVec 8) : (s.setStatus c).mem = s.mem := rfl
@[simp] theorem State.setStatus_pool (s : State) (c : BitVec 8) : (s.setStatus c).pool = s.pool := rfl
@[simp] theorem State.setStatus_sess (s : State) (c : BitVec 8) : (s.setStatus c).sess = s.sess := rfl
@[simp] theorem State.setStatus_trace (s : State) (c : BitVec 8) : (s.setStatus c).trace = s.trace := rfl
@[simp] theorem State.setStatus_sie (s : State) (c : BitVec 8) : (s.setStatus c).sie = s.sie := rfl
@[simp] theorem State.setStatus_env (s : State) (c : BitVec 8) : (s.setStatus c).env = s.env := rfl

/-! ### `putNode` -/

@[simp] theorem State.putNode_params (s : State) (h : Word) (n : Node) : (s.putNode h n).params = s.params := rfl
@[simp] theorem State.putNode_port (s : State) (h : Word) (n : Node) : (s.putNode h n).port = s.port := rfl
@[simp] theorem State.putNode_regs (s : State) (h : Word) (n : Node) : (s.putNode h n).regs = s.regs := rfl
@[simp] theorem State.putNode_ep (s : State) (h : Word) (n : Node) : (s.putNode h n).ep = s.ep := rfl
@[simp] theorem State.putNode_mem (s : State) (h : Word) (n : Node) : (s.putNode h n).mem = s.mem := rfl
@[simp] theorem State.putNode_sess (s : State) (h : Word) (n : Node) : (s.putNode h n).sess = s.sess := rfl
@[simp] theorem State.putNode_trace (s : State) (h : Word) (n : Node) : (s.putNode h n).trace = s.trace := rfl
@[simp] theorem State.putNode_sie (s : State) (h : Word) (n : Node) : (s.putNode h n).sie = s.sie := rfl
@[simp] theorem State.putNode_env (s : State) (h : Word) (n : Node) : (s.putNode h n).env = s.env := rfl

/-! ### `freeNode` -/

@[simp] theorem State.freeNode_params (s : State) (h : Word) : (s.freeNode h).params = s.params := rfl
@[simp] theorem State.freeNode_port (s : State) (h : Word) : (s.freeNode h).port = s.port := rfl
@[simp] theorem State.freeNode_regs (s : State) (h : Word) : (s.freeNode h).regs = s.regs := rfl
@[simp] theorem State.freeNode_ep (s : State) (h : Word) : (s.freeNode h).ep = s.ep := rfl
@[simp] theorem State.freeNode_mem (s : State) (h : Word) : (s.freeNode h).mem = s.mem := rfl
@[simp] theorem State.freeNode_sess (s : State) (h : Word) : (s.freeNode h).sess = s.sess := rfl
@[simp] theorem State.freeNode_trace (s : State) (h : Word) : (s.freeNode h).trace = s.trace := rfl
@[simp] theorem State.freeNode_sie (s : State) (h : Word) : (s.freeNode h).sie = s.sie := rfl
@[simp] theorem State.freeNode_env (s : State) (h : Word) : (s.freeNode h).env = s.env := rfl

/-! ### `freeBlock` -/

@[simp] theorem State.freeBlock_params (s : State) (p : Word) (n : Nat) : (s.freeBlock p n).params = s.params := rfl
@[simp] theorem State.freeBlock_port (s : State) (p : Word) (n : Nat) : (s.freeBlock p n).port = s.port := rfl
@[simp] theorem State.freeBlock_regs (s : State) (p : Word) (n : Nat) : (s.freeBlock p n).regs = s.regs := rfl
@[simp] theorem State.freeBlock_ep (s : State) (p : Word) (n : Nat) : (s.freeBlock p n).ep = s.ep := rfl
@[simp] theorem State.freeBlock_mem (s : State) (p : Word) (n : Nat) : (s.freeBlock p n).mem = s.mem := rfl
@[simp] theorem State.freeBlock_sess (s : State) (p : Word) (n : Nat) : (s.freeBlock p n).sess = s.sess := rfl
@[simp] theorem State.freeBlock_trace (s : State) (p : Word) (n : Nat) : (s.freeBlock p n).trace = s.trace := rfl
@[simp] theorem State.freeBlock_sie (s : State) (p : Word) (n : Nat) : (s.freeBlock p n).sie = s.sie := rfl
@[simp] theorem State.freeBlock_env (s : State) (p : Word) (n : Nat) : (s.freeBlock p n).env = s.env := rfl

/-! ### `updEp` -/

@[simp] theorem State.updEp_params (s : State) (e : EpId) (f : EpRec → EpRec) : (s.updEp e f).params = s.params := rfl
@[simp] theorem State.updEp_port (s : State) (e : EpId) (f : EpRec → EpRec) : (s.updEp e f).port = s.port := rfl
@[simp] theorem State.updEp_regs (s : State) (e : EpId) (f : EpRec → EpRec) : (s.updEp e f).regs = s.regs := rfl
@[simp] theorem State.updEp_mem (s : State) (e : EpId) (f : EpRec → EpRec) : (s.updEp e f).mem = s.mem := rfl
@[simp] theorem State.updEp_pool (s : State) (e : EpId) (f : EpRec → EpRec) : (s.updEp e f).pool = s.pool := rfl
@[simp] theorem State.updEp_sess (s : State) (e : EpId) (f : EpRec → EpRec) : (s.updEp e f).sess = s.sess := rfl
@[simp] theorem State.updEp_trace (s : State) (e : EpId) (f : EpRec → EpRec) : (s.updEp e f).trace = s.trace := rfl
@[simp] theorem State.updEp_sie (s : State) (e : EpId) (f : EpRec → EpRec) : (s.updEp e f).sie = s.sie := rfl
@[simp] theorem State.updEp_env (s : State) (e : EpId) (f : EpRec → EpRec) : (s.updEp e f).env = s.env := rfl

/-! ### `setBdCtl` -/

@[simp] theorem State.setBdCtl_params (s : State) (e : EpId) (d : Dir) (x : Slot) (w : Word) : (s.setBdCtl e d x w).params = s.params := rfl
@[simp] theorem State.setBdCtl_port (s : State) (e : EpId) (d : Dir) (x : Slot) (w : Word) : (s.setBdCtl e d x w).port = s.port := rfl
@[simp] theorem State.setBdCtl_regs (s : State) (e : EpId) (d : Dir) (x : Slot) (w : Word) : (s.setBdCtl e d x w).regs = s.regs := rfl
@[simp] theorem State.setBdCtl_ep (s : State) (e : EpId) (d : Dir) (x : Slot) (w : Word) : (s.setBdCtl e d x w).ep = s.ep := rfl
@[simp] theorem State.setBdCtl_pool (s : State) (e : EpId) (d : Dir) (x : Slot) (w : Word) : (s.setBdCtl e d x w).pool = s.pool := rfl
@[simp] theorem State.setBdCtl_sess (s : State) (e : EpId) (d : Dir) (x : Slot) (w : Word) : (s.setBdCtl e d x w).sess = s.sess := rfl
@[simp] theorem State.setBdCtl_trace (s : State) (e : EpId) (d : Dir) (x : Slot) (w : Word) : (s.setBdCtl e d x w).trace = s.trace := rfl
@[simp] theorem State.setBdCtl_sie (s : State) (e : EpId) (d : Dir) (x : Slot) (w : Word) : (s.setBdCtl e d x w).sie = s.sie := rfl
@[simp] theorem State.setBdCtl_env (s : State) (e : EpId) (d : Dir) (x : Slot) (w : Word) : (s.setBdCtl e d x w).env = s.env := rfl

/-! ### `setBdBuf` -/

@[simp] theorem State.setBdBuf_params (s : State) (e : EpId) (d : Dir) (x : Slot) (w : Word) : (s.setBdBuf e d x w).params = s.params := rfl
@[simp] theorem State.setBdBuf_port (s : State) (e : EpId) (d : Dir) (x : Slot) (w : Word) : (s.setBdBuf e d x w).port = s.port := rfl
@[simp] theorem State.setBdBuf_regs (s : State) (e : EpId) (d : Dir) (x : Slot) (w : Word) : (s.setBdBuf e d x w).regs = s.regs := rfl
@[simp] theorem State.setBdBuf_ep (s : State) (e : EpId) (d : Dir) (x : Slot) (w : Word) : (s.setBdBuf e d x w).ep = s.ep := rfl
@[simp] theorem State.setBdBuf_pool (s : State) (e : EpId) (d : Dir) (x : Slot) (w : Word) : (s.setBdBuf e d x w).pool = s.pool := rfl
@[simp] theorem State.setBdBuf_sess (s : State) (e : EpId) (d : Dir) (x : Slot) (w : Word) : (s.setBdBuf e d x w).sess = s.sess := rfl
@[simp] theorem State.setBdBuf_trace (s : State) (e : EpId) (d : Dir) (x : Slot) (w : Word) : (s.setBdBuf e d x w).trace = s.trace := rfl
@[simp] theorem State.setBdBuf_sie (s : State) (e : EpId) (d : Dir) (x : Slot) (w : Word) : (s.setBdBuf e d x w).sie = s.sie := rfl
@[simp] theorem State.setBdBuf_env (s : State) (e : EpId) (d : Dir) (x : Slot) (w : Word) : (s.setBdBuf e d x w).env = s.env := rfl

/-! ### `fire` -/

@[simp] theorem State.fire_params (s : State) (x : Source) : (s.fire x).params = s.params := rfl
@[simp] theorem State.fire_port (s : State) (x : Source) : (s.fire x).port = s.port := rfl
@[simp] theorem State.fire_ep (s : State) (x : Source) : (s.fire x).ep = s.ep := rfl
@[simp] theorem State.fire_mem (s : State) (x : Source) : (s.fire x).mem = s.mem := rfl
@[simp] theorem State.fire_pool (s : State) (x : Source) : (s.fire x).pool = s.pool := rfl
@[simp] theorem State.fire_sess (s : State) (x : Source) : (s.fire x).sess = s.sess := rfl
@[simp] theorem State.fire_trace (s : State) (x : Source) : (s.fire x).trace = s.trace := rfl
@[simp] theorem State.fire_sie (s : State) (x : Source) : (s.fire x).sie = s.sie := rfl
@[simp] theorem State.fire_env (s : State) (x : Source) : (s.fire x).env = s.env := rfl

/-! ### What the named updates do to their own group -/

@[simp] theorem State.emit_evt (s : State) (x : Event) : (s.emit x).trace.evt = s.trace.evt ++ [x] := rfl
@[simp] theorem State.emit_wire (s : State) (x : Event) : (s.emit x).trace.wire = s.trace.wire := rfl
@[simp] theorem State.wire_wire (s : State) (x : WireEntry) : (s.wire x).trace.wire = s.trace.wire ++ [x] := rfl
@[simp] theorem State.wire_evt (s : State) (x : WireEntry) : (s.wire x).trace.evt = s.trace.evt := rfl
@[simp] theorem State.setStatus_port (s : State) (c : BitVec 8) : (s.setStatus c).port = { s.port with status := c } := rfl
@[simp] theorem State.putNode_live (s : State) (h : Word) (n : Node) : (s.putNode h n).pool.live = s.pool.live := rfl
@[simp] theorem State.freeNode_live (s : State) (h : Word) : (s.freeNode h).pool.live = s.pool.live := rfl
@[simp] theorem State.freeBlock_nodes (s : State) (p : Word) (n : Nat) : (s.freeBlock p n).pool.nodes = s.pool.nodes := rfl
@[simp] theorem State.freeBlock_live (s : State) (p : Word) (n : Nat) :
    (s.freeBlock p n).pool.live = s.pool.live.erase (p.toNat, n) := rfl
@[simp] theorem State.freeBlock_node? (s : State) (p h : Word) (n : Nat) : (s.freeBlock p n).node? h = s.node? h := rfl
@[simp] theorem State.freeBlock_node (s : State) (p h : Word) (n : Nat) : (s.freeBlock p n).node h = s.node h := rfl
@[simp] theorem State.fire_regs (s : State) (x : Source) : (s.fire x).regs = s.regs.setSource x := rfl
@[simp] theorem State.setBdCtl_mem (s : State) (e : EpId) (d : Dir) (x : Slot) (w : Word) :
    (s.setBdCtl e d x w).mem = s.mem.write32 (bdAddr s.params e d x) w := rfl
@[simp] theorem State.setBdBuf_mem (s : State) (e : EpId) (d : Dir) (x : Slot) (w : Word) :
    (s.setBdBuf e d x w).mem = s.mem.write32 (bdAddr s.params e d x + 4#32) w := rfl

/-! ### Per-endpoint entries -/

@[simp] theorem State.withPort_endpoint (s : State) (x : Port) (i : EpId) : (s.withPort x).endpoint i = s.endpoint i := rfl
@[simp] theorem State.withRegs_endpoint (s : State) (x : Regs) (i : EpId) : (s.withRegs x).endpoint i = s.endpoint i := rfl
@[simp] theorem State.withMem_endpoint (s : State) (x : Memory) (i : EpId) : (s.withMem x).endpoint i = s.endpoint i := rfl
@[simp] theorem State.withPool_endpoint (s : State) (x : Pool) (i : EpId) : (s.withPool x).endpoint i = s.endpoint i := rfl
@[simp] theorem State.withSess_endpoint (s : State) (x : Session) (i : EpId) : (s.withSess x).endpoint i = s.endpoint i := rfl
@[simp] theorem State.withTrace_endpoint (s : State) (x : Trace) (i : EpId) : (s.withTrace x).endpoint i = s.endpoint i := rfl
@[simp] theorem State.withSie_endpoint (s : State) (x : Sie) (i : EpId) : (s.withSie x).endpoint i = s.endpoint i := rfl
@[simp] theorem State.withEnv_endpoint (s : State) (x : Env) (i : EpId) : (s.withEnv x).endpoint i = s.endpoint i := rfl
@[simp] theorem State.emit_endpoint (s : State) (x : Event) (i : EpId) : (s.emit x).endpoint i = s.endpoint i := rfl
@[simp] theorem State.wire_endpoint (s : State) (x : WireEntry) (i : EpId) : (s.wire x).endpoint i = s.endpoint i := rfl
@[simp] theorem State.setStatus_endpoint (s : State) (c : BitVec 8) (i : EpId) : (s.setStatus c).endpoint i = s.endpoint i := rfl
@[simp] theorem State.putNode_endpoint (s : State) (h : Word) (n : Node) (i : EpId) : (s.putNode h n).endpoint i = s.endpoint i := rfl
@[simp] theorem State.freeNode_endpoint (s : State) (h : Word) (i : EpId) : (s.freeNode h).endpoint i = s.endpoint i := rfl
@[simp] theorem State.freeBlock_endpoint (s : State) (p : Word) (n : Nat) (i : EpId) : (s.freeBlock p n).endpoint i = s.endpoint i := rfl
@[simp] theorem State.setBdCtl_endpoint (s : State) (e : EpId) (d : Dir) (x : Slot) (w : Word) (i : EpId) : (s.setBdCtl e d x w).endpoint i = s.endpoint i := rfl
@[simp] theorem State.setBdBuf_endpoint (s : State) (e : EpId) (d : Dir) (x : Slot) (w : Word) (i : EpId) : (s.setBdBuf e d x w).endpoint i = s.endpoint i := rfl
@[simp] theorem State.fire_endpoint (s : State) (x : Source) (i : EpId) : (s.fire x).endpoint i = s.endpoint i := rfl

theorem State.endpoint_congr {s t : State} (h : t.ep = s.ep) (e : EpId) : t.endpoint e = s.endpoint e := by
  simp [State.endpoint, h]

theorem State.updEp_endpoint (s : State) (e : EpId) (f : EpRec → EpRec) (i : EpId) :
    (s.updEp e f).endpoint i = if i = e then f (s.endpoint e) else s.endpoint i := by
  by_cases h : i = e
  · subst h; simp [State.updEp, State.endpoint]
  · have : ¬ e.val = i.val := fun hh => h (Fin.ext hh.symm)
    simp [State.updEp, State.endpoint, h, this]

@[simp] theorem State.updEp_same (s : State) (e : EpId) (f : EpRec → EpRec) :
    (s.updEp e f).endpoint e = f (s.endpoint e) := by simp [State.updEp_endpoint]

theorem State.updEp_other (s : State) {e i : EpId} (f : EpRec → EpRec) (h : i ≠ e) :
    (s.updEp e f).endpoint i = s.endpoint i := by simp [State.updEp_endpoint, h]

theorem Regs.setEpc_epc (r : Regs) (e : EpId) (v : BitVec 4) (i : EpId) :
    (r.setEpc e v).epc i = if i = e then v else r.epc i := by
  by_cases h : i = e
  · subst h; simp [Regs.setEpc, Regs.epc]
  · have : ¬ e.val = i.val := fun hh => h (Fin.ext hh.symm)
    simp [Regs.setEpc, Regs.epc, h, this]

@[simp] theorem Regs.setEpc_istat (r : Regs) (e : EpId) (v : BitVec 4) : (r.setEpc e v).istat = r.istat := rfl
@[simp] theorem Regs.setEpc_inten (r : Regs) (e : EpId) (v : BitVec 4) : (r.setEpc e v).inten = r.inten := rfl
@[simp] theorem Regs.setEpc_errstat (r : Regs) (e : EpId) (v : BitVec 4) : (r.setEpc e v).errstat = r.errstat := rfl
@[simp] theorem Regs.setEpc_statq (r : Regs) (e : EpId) (v : BitVec 4) : (r.setEpc e v).statq = r.statq := rfl
@[simp] theorem Regs.setEpc_addr (r : Regs) (e : EpId) (v : BitVec 4) : (r.setEpc e v).addr = r.addr := rfl
@[simp] theorem Regs.setEpc_ctl (r : Regs) (e : EpId) (v : BitVec 4) : (r.setEpc e v).ctl = r.ctl := rfl

theorem Sie.setTx_txAt (x : Sie) (e : EpId) (v : Slot) (i : EpId) :
    (x.setTx e v).txAt i = if i = e then v else x.txAt i := by
  by_cases h : i = e
  · subst h; simp [Sie.setTx, Sie.txAt]
  · have : ¬ e.val = i.val := fun hh => h (Fin.ext hh.symm)
    simp [Sie.setTx, Sie.txAt, h, this]

theorem Sie.setRx_rxAt (x : Sie) (e : EpId) (v : Slot) (i : EpId) :
    (x.setRx e v).rxAt i = if i = e then v else x.rxAt i := by
  by_cases h : i = e
  · subst h; simp [Sie.setRx, Sie.rxAt]
  · have : ¬ e.val = i.val := fun hh => h (Fin.ext hh.symm)
    simp [Sie.setRx, Sie.rxAt, h, this]

@[simp] theorem Sie.setTx_rxodd (x : Sie) (e : EpId) (v : Slot) : (x.setTx e v).rxodd = x.rxodd := rfl
@[simp] theorem Sie.setRx_txodd (x : Sie) (e : EpId) (v : Slot) : (x.setRx e v).txodd = x.txodd := rfl
@[simp] theorem Sie.setTx_rxAt (x : Sie) (e : EpId) (v : Slot) (i : EpId) : (x.setTx e v).rxAt i = x.rxAt i := rfl
@[simp] theorem Sie.setRx_txAt (x : Sie) (e : EpId) (v : Slot) (i : EpId) : (x.setRx e v).txAt i = x.txAt i := rfl

end Sys2Proof.Machine
end

