-- ==== Sys2Proof/Laws/Bus.lean ====
section
/-! SUPPORT. The descriptor table and the data buffers as reads and writes of memory: a write of one descriptor word leaves
every other one; a run of bytes written lands where it is told and nowhere else. -/

namespace Sys2Proof.Machine

/-! ### Where descriptors are -/

theorem bdIndex_inj {e e' : EpId} {d d' : Dir} {x x' : Slot} (h : (bdIndex e d x).toNat = (bdIndex e' d' x').toNat) :
    (e, d, x) = (e', d', x') := by
  rw [bdIndex_toNat, bdIndex_toNat] at h
  cases d <;> cases d' <;> cases x <;> cases x' <;> simp [Dir.bit, Slot.bit, Fin.ext_iff] at h ⊢ <;> omega

/-- Two descriptors are at least 8 bytes apart, whatever the base. -/
theorem bdAddr_apart (p : Params) {e e' : EpId} {d d' : Dir} {x x' : Slot} (h : (e', d', x') ≠ (e, d, x)) :
    8 ≤ (bdAddr p e' d' x' - bdAddr p e d x).toNat ∧ (bdAddr p e' d' x' - bdAddr p e d x).toNat ≤ 2 ^ 32 - 8 := by
  have hi : (bdIndex e' d' x').toNat ≠ (bdIndex e d x).toNat := fun hh => h (bdIndex_inj hh)
  have h1 := (bdIndex e d x).isLt
  have h2 := (bdIndex e' d' x').isLt
  have e1 : (8#32 * (bdIndex e d x).setWidth 32).toNat = 8 * (bdIndex e d x).toNat := by
    simp [BitVec.toNat_mul]; omega
  have e2 : (8#32 * (bdIndex e' d' x').setWidth 32).toNat = 8 * (bdIndex e' d' x').toNat := by
    simp [BitVec.toNat_mul]; omega
  unfold bdAddr
  generalize 8#32 * (bdIndex e d x).setWidth 32 = u at *
  generalize 8#32 * (bdIndex e' d' x').setWidth 32 = v at *
  bv_omega

/-! ### Descriptor words -/

section
variable (s : State) (e e' : EpId) (d d' : Dir) (x x' : Slot) (w : Word)

/-- A control word reads back. -/
theorem State.bdCtl_setBdCtl_same (hm : s.mem.wf = true) : (s.setBdCtl e d x w).bdCtl e d x = w :=
  Memory.read32_write32_same hm _ _

/-- Another control word is unchanged. -/
theorem State.bdCtl_setBdCtl_ne (h : (e', d', x') ≠ (e, d, x)) :
    (s.setBdCtl e d x w).bdCtl e' d' x' = s.bdCtl e' d' x' := by
  obtain ⟨h1, h2⟩ := bdAddr_apart s.params h
  exact Memory.read32_write32_ne _ _ (Nat.le_trans (by decide) h1) (Nat.le_trans h2 (by decide))

/-- No address word changes with a control word. -/
@[simp] theorem State.bdBuf_setBdCtl : (s.setBdCtl e d x w).bdBuf e' d' x' = s.bdBuf e' d' x' := by
  refine Memory.read32_write32_ne _ _ ?_ ?_ <;> simp only [State.setBdCtl_params]
  all_goals
    by_cases h : (e', d', x') = (e, d, x)
    · cases h; rw [BitVec.add_comm, BitVec.add_sub_cancel]; decide
    · have := bdAddr_apart s.params h
      bv_omega

/-- An address word reads back. -/
theorem State.bdBuf_setBdBuf_same (hm : s.mem.wf = true) : (s.setBdBuf e d x w).bdBuf e d x = w :=
  Memory.read32_write32_same hm _ _

/-- Another address word is unchanged. -/
theorem State.bdBuf_setBdBuf_ne (h : (e', d', x') ≠ (e, d, x)) :
    (s.setBdBuf e d x w).bdBuf e' d' x' = s.bdBuf e' d' x' := by
  have := bdAddr_apart s.params h
  refine Memory.read32_write32_ne _ _ ?_ ?_ <;> simp only [State.setBdBuf_params] <;> bv_omega

/-- No control word changes with an address word. -/
@[simp] theorem State.bdCtl_setBdBuf : (s.setBdBuf e d x w).bdCtl e' d' x' = s.bdCtl e' d' x' := by
  refine Memory.read32_write32_ne _ _ ?_ ?_ <;> simp only [State.setBdBuf_params]
  all_goals
    by_cases h : (e', d', x') = (e, d, x)
    · cases h; bv_omega
    · have := bdAddr_apart s.params h
      bv_omega

/-- The bytes outside a control word are unchanged. -/
theorem State.read_setBdCtl_ne {c : Word} (h : 4 ≤ (c - bdAddr s.params e d x).toNat) :
    (s.setBdCtl e d x w).mem.read c = s.mem.read c := Memory.read_write32_ne _ _ h

/-- The bytes outside an address word are unchanged. -/
theorem State.read_setBdBuf_ne {c : Word} (h : 4 ≤ (c - (bdAddr s.params e d x + 4#32)).toNat) :
    (s.setBdBuf e d x w).mem.read c = s.mem.read c := Memory.read_write32_ne _ _ h

theorem State.wf_setBdCtl (hm : s.mem.wf = true) : (s.setBdCtl e d x w).mem.wf = true := Memory.wf_write32 hm _ _

theorem State.wf_setBdBuf (hm : s.mem.wf = true) : (s.setBdBuf e d x w).mem.wf = true := Memory.wf_write32 hm _ _

end

/-- Equal memories and bases give equal control words. -/
theorem State.bdCtl_congr {s t : State} (hm : t.mem = s.mem) (hp : t.params = s.params) (e : EpId) (d : Dir) (x : Slot) :
    t.bdCtl e d x = s.bdCtl e d x := by simp [State.bdCtl, hm, hp]

theorem State.bdBuf_congr {s t : State} (hm : t.mem = s.mem) (hp : t.params = s.params) (e : EpId) (d : Dir) (x : Slot) :
    t.bdBuf e d x = s.bdBuf e d x := by simp [State.bdBuf, hm, hp]

/-! ### Runs of bytes -/

/-- Only memory changes when bytes are written. -/
theorem State.pokeBytes_eq (bytes : List Byte) : ∀ (s : State) (a : Word),
    s.pokeBytes a bytes = s.withMem (s.pokeBytes a bytes).mem := by
  induction bytes with
  | nil => intro s a; rfl
  | cons b rest ih =>
    intro s a
    have h1 : s.writeByte a b = s.withMem (s.writeByte a b).mem := by unfold State.writeByte; split <;> rfl
    rw [State.pokeBytes, h1, ih]
    rfl

section
variable (s : State) (a : Word) (bytes : List Byte)

@[simp] theorem State.pokeBytes_params : (s.pokeBytes a bytes).params = s.params := by rw [State.pokeBytes_eq]; rfl
@[simp] theorem State.pokeBytes_port : (s.pokeBytes a bytes).port = s.port := by rw [State.pokeBytes_eq]; rfl
@[simp] theorem State.pokeBytes_regs : (s.pokeBytes a bytes).regs = s.regs := by rw [State.pokeBytes_eq]; rfl
@[simp] theorem State.pokeBytes_ep : (s.pokeBytes a bytes).ep = s.ep := by rw [State.pokeBytes_eq]; rfl
@[simp] theorem State.pokeBytes_pool : (s.pokeBytes a bytes).pool = s.pool := by rw [State.pokeBytes_eq]; rfl
@[simp] theorem State.pokeBytes_sess : (s.pokeBytes a bytes).sess = s.sess := by rw [State.pokeBytes_eq]; rfl
@[simp] theorem State.pokeBytes_trace : (s.pokeBytes a bytes).trace = s.trace := by rw [State.pokeBytes_eq]; rfl
@[simp] theorem State.pokeBytes_sie : (s.pokeBytes a bytes).sie = s.sie := by rw [State.pokeBytes_eq]; rfl
@[simp] theorem State.pokeBytes_env : (s.pokeBytes a bytes).env = s.env := by rw [State.pokeBytes_eq]; rfl
@[simp] theorem State.pokeBytes_endpoint (i : EpId) : (s.pokeBytes a bytes).endpoint i = s.endpoint i := by
  rw [State.pokeBytes_eq]; rfl

@[simp] theorem State.writeByte_params (b : Byte) : (s.writeByte a b).params = s.params := by
  unfold State.writeByte; split <;> rfl
@[simp] theorem State.writeByte_port (b : Byte) : (s.writeByte a b).port = s.port := by
  unfold State.writeByte; split <;> rfl
@[simp] theorem State.writeByte_regs (b : Byte) : (s.writeByte a b).regs = s.regs := by
  unfold State.writeByte; split <;> rfl
@[simp] theorem State.writeByte_ep (b : Byte) : (s.writeByte a b).ep = s.ep := by
  unfold State.writeByte; split <;> rfl
@[simp] theorem State.writeByte_pool (b : Byte) : (s.writeByte a b).pool = s.pool := by
  unfold State.writeByte; split <;> rfl
@[simp] theorem State.writeByte_sess (b : Byte) : (s.writeByte a b).sess = s.sess := by
  unfold State.writeByte; split <;> rfl
@[simp] theorem State.writeByte_trace (b : Byte) : (s.writeByte a b).trace = s.trace := by
  unfold State.writeByte; split <;> rfl
@[simp] theorem State.writeByte_sie (b : Byte) : (s.writeByte a b).sie = s.sie := by
  unfold State.writeByte; split <;> rfl
@[simp] theorem State.writeByte_env (b : Byte) : (s.writeByte a b).env = s.env := by
  unfold State.writeByte; split <;> rfl

end

theorem State.wf_writeByte {s : State} (hm : s.mem.wf = true) (a : Word) (b : Byte) :
    (s.writeByte a b).mem.wf = true := by
  unfold State.writeByte
  split
  · exact hm
  · exact Memory.wf_write hm a b

theorem State.read_writeByte_ne (s : State) {a c : Word} (b : Byte) (h : c ≠ a) :
    (s.writeByte a b).mem.read c = s.mem.read c := by
  unfold State.writeByte
  split
  · rfl
  · exact Memory.read_write_ne _ _ h

theorem State.read_writeByte_same {s : State} (hm : s.mem.wf = true) {a : Word} (b : Byte)
    (h : inRegs s.params a = false) : (s.writeByte a b).mem.read a = b := by
  simp [State.writeByte, h, Memory.read_write_same hm]

theorem State.wf_pokeBytes (bytes : List Byte) : ∀ {s : State} (a : Word), s.mem.wf = true →
    (s.pokeBytes a bytes).mem.wf = true := by
  induction bytes with
  | nil => intro s a h; exact h
  | cons b rest ih => intro s a h; exact ih _ (State.wf_writeByte h a b)

/-- The bytes outside the run are unchanged. -/
theorem State.read_pokeBytes_ne (bytes : List Byte) : ∀ (s : State) (a : Word) {c : Word},
    bytes.length ≤ (c - a).toNat → (s.pokeBytes a bytes).mem.read c = s.mem.read c := by
  induction bytes with
  | nil => intro s a c _; rfl
  | cons b rest ih =>
    intro s a c h
    simp only [List.length_cons] at h
    have hc : c ≠ a := by intro hh; subst hh; simp at h
    rw [State.pokeBytes, ih _ _ (by bv_omega), State.read_writeByte_ne _ _ hc]

/-- Each byte of the run reads back, but for one that falls in the register block. -/
theorem State.read_pokeBytes_at (bytes : List Byte) : ∀ {s : State} (a : Word), s.mem.wf = true → bytes.length < 2 ^ 32 →
    ∀ i (hi : i < bytes.length), inRegs s.params (a + BitVec.ofNat 32 i) = false →
      (s.pokeBytes a bytes).mem.read (a + BitVec.ofNat 32 i) = bytes[i] := by
  induction bytes with
  | nil => intro s a _ _ i hi; simp at hi
  | cons b rest ih =>
    intro s a hm hl i hi hr
    simp only [List.length_cons] at hl hi
    cases i with
    | zero =>
      have ha : a + BitVec.ofNat 32 0 = a := by simp
      rw [ha] at hr ⊢
      rw [State.pokeBytes, State.read_pokeBytes_ne _ _ _ (by bv_omega), State.read_writeByte_same hm _ hr]
      rfl
    | succ j =>
      have ha : a + BitVec.ofNat 32 (j + 1) = a + 1#32 + BitVec.ofNat 32 j := by bv_omega
      rw [ha] at hr ⊢
      rw [State.pokeBytes]
      simpa using ih (a + 1#32) (State.wf_writeByte hm a b) (by omega) j (by omega) (by simpa using hr)

theorem State.regRead_congr {s t : State} (hp : t.port = s.port) (hr : t.regs = s.regs) (hs : t.sess = s.sess)
    (off : Nat) : t.regRead off = s.regRead off := by
  unfold State.regRead
  rw [hp, hr, hs]

theorem State.readByte_congr {s t : State} {a : Word} (hpa : t.params = s.params) (hp : t.port = s.port)
    (hr : t.regs = s.regs) (hs : t.sess = s.sess) (hm : t.mem.read a = s.mem.read a) : t.readByte a = s.readByte a := by
  unfold State.readByte
  rw [hpa, hm, State.regRead_congr hp hr hs]

theorem State.readByte_mem {s : State} {a : Word} (h : inRegs s.params a = false) : s.readByte a = s.mem.read a := by
  simp [State.readByte, h]

@[simp] theorem State.peekBytes_length (s : State) (n : Nat) : ∀ a : Word, (s.peekBytes a n).length = n := by
  induction n with
  | zero => intro a; rfl
  | succ n ih => intro a; simp [State.peekBytes, ih]

theorem State.peekBytes_add (s : State) (n m : Nat) : ∀ a : Word,
    s.peekBytes a (n + m) = s.peekBytes a n ++ s.peekBytes (a + BitVec.ofNat 32 n) m := by
  induction n with
  | zero => intro a; simp [State.peekBytes]
  | succ n ih =>
    intro a
    rw [show n + 1 + m = n + m + 1 by omega, State.peekBytes, State.peekBytes, ih]
    rw [show a + 1#32 + BitVec.ofNat 32 n = a + BitVec.ofNat 32 (n + 1) by bv_omega]
    rfl

/-! ### Runs that meet, and what the peripheral may be writing -/

/-- Two runs meet exactly when a byte of the first is one of the second. -/
theorem runsMeet_iff {a b : Word} {n m : Nat} (hn : n ≤ 2 ^ 32) (hm : m ≤ 2 ^ 32) :
    runsMeet a n b m = true ↔ ∃ i < n, (a + BitVec.ofNat 32 i - b).toNat < m := by
  simp only [runsMeet, Bool.and_eq_true, Bool.or_eq_true, decide_eq_true_eq]
  constructor
  · rintro ⟨⟨h1, h2⟩, h | h⟩
    · exact ⟨(b - a).toNat, h, by rw [BitVec.ofNat_toNat, BitVec.setWidth_eq]; bv_omega⟩
    · exact ⟨0, by omega, by simpa using h⟩
  · rintro ⟨i, hi, h⟩
    refine ⟨⟨by omega, by omega⟩, ?_⟩
    bv_omega

end Sys2Proof.Machine
end

