-- ==== Sys2Proof/Laws/Exec.lean ====
section
/-! SUPPORT. What each instruction is, as one equation over the shared operations: true by rfl. -/

namespace Sys2Proof.Machine

variable (s : State)

@[simp] theorem exec_cfgep (ep : BitVec 8) (mps : BitVec 16) : exec (.cfgep ep mps) s = command (onEndpoint ep (cfgep mps)) s := rfl
@[simp] theorem exec_prep : exec .prep s = copyingCommand prepCopies prep s := rfl
@[simp] theorem exec_enq (ep : BitVec 8) : exec (.enq ep) s = command (onEndpoint ep enq) s := rfl
@[simp] theorem exec_send (ep : BitVec 8) : exec (.send ep) s = copyingCommand (sendCopies ep) (onEndpoint ep send) s := rfl
@[simp] theorem exec_trysend (ep : BitVec 8) :
    exec (.trysend ep) s = copyingCommand (trysendCopies ep) (onEndpoint ep trysend) s := rfl
@[simp] theorem exec_cancel (ep : BitVec 8) : exec (.cancel ep) s = command (onEndpoint ep cancel) s := rfl
@[simp] theorem exec_qpend (ep : BitVec 8) : exec (.qpend ep) s = command (onEndpoint ep qpend) s := rfl
@[simp] theorem exec_qbusy (ep : BitVec 8) : exec (.qbusy ep) s = command (onEndpoint ep qbusy) s := rfl
@[simp] theorem exec_iReset : exec .iReset s = .next (iReset s) := rfl
@[simp] theorem exec_iError : exec .iError s = .next (acknowledgeErrors s) := rfl
@[simp] theorem exec_iSof : exec .iSof s = .next (iSof s) := rfl
@[simp] theorem exec_iTokdne (st : BitVec 8) : exec (.iTokdne st) s = .next (iTokdne st s) := rfl
@[simp] theorem exec_iSleep : exec .iSleep s = .next s := rfl
@[simp] theorem exec_iResume : exec .iResume s = .next s := rfl
@[simp] theorem exec_iAttach : exec .iAttach s = .next s := rfl
@[simp] theorem exec_iStall : exec .iStall s = .next s := rfl
@[simp] theorem exec_tIn (e : EpId) (x : Slot) : exec (.tIn e x) s = .next (tIn e s) := rfl
@[simp] theorem exec_tSetup (e : EpId) (d : Bool) (bytes : List Byte) : exec (.tSetup e d bytes) s = .next (tSetup e bytes s) := rfl
@[simp] theorem exec_tOut (e : EpId) (d : Bool) (bytes : List Byte) : exec (.tOut e d bytes) s = .next (tOut e bytes s) := rfl
@[simp] theorem exec_getStatus : exec .getStatus s = .next (replyBytes [0x00#8, 0x00#8] s) := rfl
@[simp] theorem exec_setAddress : exec .setAddress s = .next (acknowledge s) := rfl
@[simp] theorem exec_getDescriptor : exec .getDescriptor s = .next (describe s) := rfl
@[simp] theorem exec_getDescriptorIf : exec .getDescriptorIf s = .next (describe s) := rfl
@[simp] theorem exec_getConfiguration : exec .getConfiguration s = .next (replyBytes [s.sess.config] s) := rfl
@[simp] theorem exec_setConfiguration : exec .setConfiguration s = .next (setConfiguration s) := rfl
@[simp] theorem exec_vendorReboot : exec .vendorReboot s = .next (acknowledge s) := rfl
@[simp] theorem exec_stallDefault (key : BitVec 16) : exec (.stallDefault key) s = .next (stall0 s) := rfl
@[simp] theorem exec_pReset : exec .pReset s = .next (pReset s) := rfl
@[simp] theorem exec_pSof : exec .pSof s = .next (pSof s) := rfl
@[simp] theorem exec_pErr (bits : BitVec 5) : exec (.pErr bits) s = .next (pErr bits s) := rfl
@[simp] theorem exec_pSleep : exec .pSleep s = .next (pSleep s) := rfl
@[simp] theorem exec_pResume : exec .pResume s = .next (pResume s) := rfl
@[simp] theorem exec_pAttach : exec .pAttach s = .next (pAttach s) := rfl
@[simp] theorem exec_pSetup (e : EpId) (bytes : List Byte) : exec (.pSetup e bytes) s = .next (pSetup e bytes s) := rfl
@[simp] theorem exec_pIn (e : EpId) : exec (.pIn e) s = .next (pIn e s) := rfl
@[simp] theorem exec_pOut (e : EpId) (t : Bool) (bytes : List Byte) : exec (.pOut e t bytes) s = .next (pOut e t bytes s) := rfl
@[simp] theorem exec_pStalled (e : EpId) : exec (.pStalled e) s = .next (pStalled e s) := rfl

/-- A command that is ready runs. -/
theorem command_ready {s : State} (run : State → State) (h1 : s.sess.reboot = false) (h2 : s.port.cfgPend = none) :
    command run s = .next (run s) := by
  simp [command, h1, h2]

/-- A copying command does what the command does, or is refused for its data range. -/
theorem copyingCommand_cases (copies : State → Bool) (run : State → State) (s : State) :
    (copyingCommand copies run s = command run s ∧ ¬ ((copies s && s.mayBeWritten s.dataAddr s.dataLen.toNat) = true ∧
        s.sess.reboot = false ∧ s.port.cfgPend = none)) ∨
      (copyingCommand copies run s = .refused .dataMayBeWritten ∧
        (copies s && s.mayBeWritten s.dataAddr s.dataLen.toNat) = true ∧ s.sess.reboot = false ∧ s.port.cfgPend = none) := by
  unfold copyingCommand command
  cases s.sess.reboot <;> cases s.port.cfgPend <;> simp
  cases copies s <;> cases s.mayBeWritten s.dataAddr s.dataLen.toNat <;> simp

/-- A copying command whose data range is the client's is the command. -/
theorem copyingCommand_free {copies : State → Bool} {s : State} (run : State → State)
    (h : (copies s && s.mayBeWritten s.dataAddr s.dataLen.toNat) = false) : copyingCommand copies run s = command run s := by
  rcases copyingCommand_cases copies run s with ⟨h1, _⟩ | ⟨_, h2, _⟩
  · exact h1
  · rw [h] at h2; cases h2

theorem onEndpoint_some {ep : BitVec 8} {e : EpId} (h : epOfByte ep = some e) (run : EpId → State → State) (s : State) :
    onEndpoint ep run s = run e s := by
  simp [onEndpoint, h]

end Sys2Proof.Machine
end

