-- ==== Sys2Proof/Laws/Pool.lean ====
section
/-! SUPPORT. The laws of the keyed lists, of the live blocks, of the nodes and of the allocation oracle. -/

namespace Sys2Proof.Machine

/-! ### Keyed lists -/

section
variable {α : Type}

@[simp] theorem lookupKey_insertKey_same (k : Nat) (v : α) : ∀ l : List (Nat × α), lookupKey k (insertKey k v l) = some v
  | [] => by simp [insertKey, lookupKey]
  | (j, w) :: rest => by
    by_cases h1 : k < j
    · simp [insertKey, h1, lookupKey]
    · by_cases h2 : k = j
      · simp [insertKey, h2, lookupKey]
      · simp [insertKey, h1, h2, lookupKey, Ne.symm h2, lookupKey_insertKey_same k v rest]

theorem lookupKey_insertKey_ne {k i : Nat} (v : α) (h : i ≠ k) : ∀ l : List (Nat × α),
    lookupKey i (insertKey k v l) = lookupKey i l
  | [] => by simp [insertKey, lookupKey, Ne.symm h]
  | (j, w) :: rest => by
    by_cases h1 : k < j
    · simp [insertKey, h1, lookupKey, Ne.symm h]
    · by_cases h2 : k = j
      · subst h2; simp [insertKey, lookupKey, Ne.symm h]
      · simp [insertKey, h1, h2, lookupKey, lookupKey_insertKey_ne v h rest]

theorem lookupKey_eraseKey_ne {k i : Nat} (h : i ≠ k) : ∀ l : List (Nat × α), lookupKey i (eraseKey k l) = lookupKey i l
  | [] => rfl
  | (j, w) :: rest => by
    by_cases h2 : j = k
    · subst h2; simp [eraseKey, lookupKey, Ne.symm h]
    · simp [eraseKey, h2, lookupKey, lookupKey_eraseKey_ne h rest]

theorem mem_of_lookupKey {k : Nat} {v : α} : ∀ {l : List (Nat × α)}, lookupKey k l = some v → (k, v) ∈ l
  | [], h => by simp [lookupKey] at h
  | (j, w) :: rest, h => by
    by_cases hj : j = k
    · subst hj; simp [lookupKey] at h; subst h; simp
    · simp [lookupKey, hj] at h; exact List.mem_cons_of_mem _ (mem_of_lookupKey h)

theorem lookupKey_none_of_below {k : Nat} : ∀ {l : List (Nat × α)}, (∀ p ∈ l, k < p.1) → lookupKey k l = none
  | [], _ => rfl
  | (j, w) :: rest, h => by
    have hj : k < j := h (j, w) (by simp)
    have : ¬ j = k := by omega
    simp only [lookupKey, this, if_false]
    exact lookupKey_none_of_below fun p hp => h p (List.mem_cons_of_mem _ hp)

theorem KeysRise.cons_iff {p : Nat × α} {l : List (Nat × α)} :
    KeysRise (p :: l) ↔ (∀ q ∈ l, p.1 < q.1) ∧ KeysRise l := by
  simp [KeysRise, List.pairwise_cons]

theorem lookupKey_of_mem {k : Nat} {v : α} : ∀ {l : List (Nat × α)}, KeysRise l → (k, v) ∈ l → lookupKey k l = some v
  | [], _, h => by simp at h
  | (j, w) :: rest, hr, h => by
    obtain ⟨h1, h2⟩ := KeysRise.cons_iff.mp hr
    rcases List.mem_cons.mp h with h | h
    · cases h; simp [lookupKey]
    · have : ¬ j = k := by have := h1 _ h; simp at this; omega
      simp [lookupKey, this, lookupKey_of_mem h2 h]

theorem lookupKey_none_iff {k : Nat} : ∀ {l : List (Nat × α)}, lookupKey k l = none ↔ ∀ p ∈ l, p.1 ≠ k
  | [] => by simp [lookupKey]
  | (j, w) :: rest => by
    by_cases hj : j = k
    · subst hj; simp [lookupKey]
    · simp [lookupKey, hj, lookupKey_none_iff (l := rest)]

theorem lookupKey_eraseKey_same (k : Nat) : ∀ {l : List (Nat × α)}, KeysRise l → lookupKey k (eraseKey k l) = none
  | [], _ => rfl
  | (j, w) :: rest, hr => by
    obtain ⟨h1, h2⟩ := KeysRise.cons_iff.mp hr
    by_cases hj : j = k
    · subst hj; simp only [eraseKey, if_true]; exact lookupKey_none_of_below h1
    · simp [eraseKey, hj, lookupKey, lookupKey_eraseKey_same k h2]

theorem eraseKey_insertKey {k : Nat} (v : α) : ∀ {l : List (Nat × α)}, lookupKey k l = none →
    eraseKey k (insertKey k v l) = l
  | [], _ => by simp [insertKey, eraseKey]
  | (j, w) :: rest, h => by
    by_cases h1 : k < j
    · simp [insertKey, h1, eraseKey]
    · by_cases h2 : k = j
      · subst h2; simp [lookupKey] at h
      · have h3 : ¬ j = k := fun x => h2 x.symm
        simp only [lookupKey, h3, if_false] at h
        simp [insertKey, h1, h2, eraseKey, h3, eraseKey_insertKey v h]

theorem insertKey_insertKey (k : Nat) (v w : α) : ∀ l : List (Nat × α),
    insertKey k w (insertKey k v l) = insertKey k w l
  | [] => by simp [insertKey]
  | (j, u) :: rest => by
    by_cases h1 : k < j
    · simp [insertKey, h1]
    · by_cases h2 : k = j
      · subst h2; simp [insertKey]
      · simp [insertKey, h1, h2, insertKey_insertKey k v w rest]

theorem mem_insertKey {k : Nat} {v : α} {p : Nat × α} : ∀ {l : List (Nat × α)}, p ∈ insertKey k v l → p = (k, v) ∨ p ∈ l
  | [], h => by simpa [insertKey] using h
  | (j, w) :: rest, h => by
    by_cases h1 : k < j
    · simp only [insertKey, h1, if_true] at h
      rcases List.mem_cons.mp h with h | h
      · exact .inl h
      · exact .inr h
    · by_cases h2 : k = j
      · subst h2
        simp only [insertKey, Nat.lt_irrefl, if_false, if_true] at h
        rcases List.mem_cons.mp h with h | h
        · exact .inl h
        · exact .inr (List.mem_cons_of_mem _ h)
      · simp only [insertKey, h1, h2, if_false] at h
        rcases List.mem_cons.mp h with h | h
        · exact .inr (by simp [h])
        · rcases mem_insertKey h with h | h
          · exact .inl h
          · exact .inr (List.mem_cons_of_mem _ h)

theorem KeysRise.insertKey {k : Nat} (v : α) : ∀ {l : List (Nat × α)}, KeysRise l →
    KeysRise (Machine.insertKey k v l)
  | [], _ => by simp [KeysRise, Machine.insertKey]
  | (j, w) :: rest, hr => by
    obtain ⟨h1, h2⟩ := KeysRise.cons_iff.mp hr
    by_cases hk : k < j
    · simp only [Machine.insertKey, hk, if_true]
      refine KeysRise.cons_iff.mpr ⟨?_, hr⟩
      intro q hq
      rcases List.mem_cons.mp hq with hq | hq
      · subst hq; exact hk
      · exact Nat.lt_trans hk (h1 q hq)
    · by_cases hj : k = j
      · subst hj
        simp only [Machine.insertKey, Nat.lt_irrefl, if_false, if_true]
        exact KeysRise.cons_iff.mpr ⟨h1, h2⟩
      · simp only [Machine.insertKey, hk, hj, if_false]
        refine KeysRise.cons_iff.mpr ⟨?_, KeysRise.insertKey v h2⟩
        intro q hq
        rcases mem_insertKey hq with hq | hq
        · subst hq; simp only; omega
        · exact h1 q hq

theorem mem_of_eraseKey {k : Nat} {p : Nat × α} : ∀ {l : List (Nat × α)}, p ∈ eraseKey k l → p ∈ l
  | [], h => h
  | (j, w) :: rest, h => by
    by_cases hj : j = k
    · simp only [eraseKey, hj, if_true] at h; exact List.mem_cons_of_mem _ h
    · simp only [eraseKey, hj, if_false] at h
      rcases List.mem_cons.mp h with h | h
      · simp [h]
      · exact List.mem_cons_of_mem _ (mem_of_eraseKey h)

theorem eraseKey_sublist (k : Nat) : ∀ l : List (Nat × α), (eraseKey k l).Sublist l
  | [] => List.Sublist.slnil
  | (j, w) :: rest => by
    by_cases hj : j = k
    · simp only [eraseKey, hj, if_true]; exact List.sublist_cons_self _ _
    · simp only [eraseKey, hj, if_false]; exact (eraseKey_sublist k rest).cons_cons _

theorem KeysRise.eraseKey {k : Nat} {l : List (Nat × α)} (hr : KeysRise l) : KeysRise (Machine.eraseKey k l) :=
  List.Pairwise.sublist ((eraseKey_sublist k l).map _) hr

theorem mem_eraseKey_iff {k : Nat} {p : Nat × α} : ∀ {l : List (Nat × α)}, KeysRise l →
    (p ∈ eraseKey k l ↔ p ∈ l ∧ p.1 ≠ k)
  | [], _ => by simp [eraseKey]
  | (j, w) :: rest, hr => by
    obtain ⟨h1, h2⟩ := KeysRise.cons_iff.mp hr
    by_cases hj : j = k
    · subst hj
      simp only [eraseKey, if_true, List.mem_cons]
      constructor
      · intro h; exact ⟨.inr h, by have := h1 p h; omega⟩
      · rintro ⟨h | h, hne⟩
        · subst h; simp at hne
        · exact h
    · simp only [eraseKey, hj, if_false, List.mem_cons, mem_eraseKey_iff h2]
      constructor
      · rintro (h | h)
        · subst h; exact ⟨.inl rfl, hj⟩
        · exact ⟨.inr h.1, h.2⟩
      · rintro ⟨h | h, hne⟩
        · exact .inl h
        · exact .inr ⟨h, hne⟩

end

/-! ### Live blocks -/

theorem insertBlock_perm (b : Nat × Nat) : ∀ l : List (Nat × Nat), (insertBlock b l).Perm (b :: l)
  | [] => List.Perm.refl _
  | c :: rest => by
    simp only [insertBlock]
    split
    · exact ((insertBlock_perm b rest).cons c).trans (List.Perm.swap b c rest)
    · exact List.Perm.refl _

@[simp] theorem mem_insertBlock {b c : Nat × Nat} {l : List (Nat × Nat)} : c ∈ insertBlock b l ↔ c = b ∨ c ∈ l := by
  rw [(insertBlock_perm b l).mem_iff, List.mem_cons]

@[simp] theorem liveBytes_insertBlock (b : Nat × Nat) (l : List (Nat × Nat)) :
    liveBytes (insertBlock b l) = b.2 + liveBytes l := by
  simpa [liveBytes] using ((insertBlock_perm b l).map (·.2)).sum_eq

theorem liveBytes_erase_le (b : Nat × Nat) (l : List (Nat × Nat)) : liveBytes (l.erase b) ≤ liveBytes l :=
  ((List.erase_sublist (a := b) (l := l)).map Prod.snd).sum_le_sum fun _ _ => Nat.zero_le _

theorem BlocksRise.insertBlock (b : Nat × Nat) : ∀ {l : List (Nat × Nat)}, BlocksRise l →
    BlocksRise (Machine.insertBlock b l)
  | [], _ => by simp [BlocksRise, Machine.insertBlock]
  | c :: rest, h => by
    obtain ⟨h1, h2⟩ := List.pairwise_cons.mp h
    simp only [Machine.insertBlock]
    split
    · rename_i hc
      refine List.pairwise_cons.mpr ⟨fun d hd => ?_, BlocksRise.insertBlock b h2⟩
      rcases mem_insertBlock.mp hd with hd | hd
      · subst hd; omega
      · exact h1 d hd
    · refine List.pairwise_cons.mpr ⟨fun d hd => ?_, h⟩
      rcases List.mem_cons.mp hd with hd | hd
      · subst hd; omega
      · have := h1 d hd; omega

theorem BlocksRise.erase (b : Nat × Nat) {l : List (Nat × Nat)} (h : BlocksRise l) : BlocksRise (l.erase b) :=
  List.Pairwise.sublist List.erase_sublist h

/-- A block freed after it was allocated leaves the live blocks as they were. -/
@[simp] theorem erase_insertBlock (b : Nat × Nat) : ∀ l : List (Nat × Nat), (insertBlock b l).erase b = l
  | [] => by simp [insertBlock]
  | c :: rest => by
    simp only [insertBlock]
    split
    · rename_i hc
      have hne : c ≠ b := by rintro rfl; omega
      rw [List.erase_cons_tail (by simpa using hne), erase_insertBlock b rest]
    · simp

@[simp] theorem freed_nil (l : List (Nat × Nat)) : freed [] l = l := rfl

@[simp] theorem freed_cons (b : Nat × Nat) (bs l : List (Nat × Nat)) : freed (b :: bs) l = freed bs (l.erase b) := rfl

theorem freed_append (bs cs l : List (Nat × Nat)) : freed (bs ++ cs) l = freed cs (freed bs l) :=
  List.foldl_append ..

/-- A pair's block is the one `CFGEP` allocated for it. -/
theorem pairBytes_secondHalf (p : Word) (mps : BitVec 16) : pairBytes p (secondHalf p mps) = (pairSize mps).toNat := by
  have h := mps.isLt
  have e : (p + mps.setWidth 32 - p).toNat = mps.toNat := by
    rw [BitVec.add_comm, BitVec.add_sub_cancel, BitVec.toNat_setWidth]; omega
  rw [pairBytes, secondHalf, e, pairSize, BitVec.toNat_ofNat]
  omega

/-! ### Nodes -/

theorem word_toNat_ne {a b : Word} (h : a ≠ b) : a.toNat ≠ b.toNat := fun hh => h (BitVec.eq_of_toNat_eq hh)

section
variable (s : State) (h i : Word) (n : Node)

@[simp] theorem State.putNode_node?_same : (s.putNode h n).node? h = some n := lookupKey_insertKey_same _ _ _

theorem State.putNode_node?_ne (hi : i ≠ h) : (s.putNode h n).node? i = s.node? i :=
  lookupKey_insertKey_ne _ (word_toNat_ne hi) _

theorem State.freeNode_node?_ne (hi : i ≠ h) : (s.freeNode h).node? i = s.node? i :=
  lookupKey_eraseKey_ne (word_toNat_ne hi) _

theorem State.freeNode_node?_same (hr : KeysRise s.pool.nodes) : (s.freeNode h).node? h = none :=
  lookupKey_eraseKey_same _ hr

@[simp] theorem State.putNode_node_same : (s.putNode h n).node h = n := by simp [State.node]

theorem State.putNode_node_ne (hi : i ≠ h) : (s.putNode h n).node i = s.node i := by
  simp [State.node, State.putNode_node?_ne s h i n hi]

theorem State.freeNode_node_ne (hi : i ≠ h) : (s.freeNode h).node i = s.node i := by
  simp [State.node, State.freeNode_node?_ne s h i hi]

@[simp] theorem State.putNode_putNode (m : Node) : (s.putNode h n).putNode h m = s.putNode h m := by
  simp [State.putNode, insertKey_insertKey]

theorem State.freeNode_putNode (hf : s.node? h = none) : (s.putNode h n).freeNode h = s := by
  simp only [State.freeNode, State.putNode, State.withPool_pool, State.withPool_withPool]
  rw [eraseKey_insertKey n hf]
  rfl

end

theorem State.node?_congr {s t : State} (hp : t.pool = s.pool) (h : Word) : t.node? h = s.node? h := by
  simp [State.node?, hp]

theorem State.node_congr {s t : State} (hp : t.pool = s.pool) (h : Word) : t.node h = s.node h := by
  simp [State.node, State.node?_congr hp]

theorem State.node_of_node? {s : State} {h : Word} {n : Node} (hn : s.node? h = some n) : s.node h = n := by
  simp [State.node, hn]

/-! ### The oracle -/

/-- A draw touches the environment's draws only. -/
theorem State.drawNode_state (s : State) : ∃ x : Env,
    s.drawNode.2 = s.withEnv x ∧ x.inbox = s.env.inbox ∧ x.between = s.env.between ∧ x.blockDraws = s.env.blockDraws := by
  unfold State.drawNode
  split
  · exact ⟨_, rfl, rfl, rfl, rfl⟩
  · exact ⟨_, rfl, rfl, rfl, rfl⟩

theorem State.drawBlock_state (s : State) : ∃ x : Env,
    s.drawBlock.2 = s.withEnv x ∧ x.inbox = s.env.inbox ∧ x.between = s.env.between ∧ x.nodeDraws = s.env.nodeDraws := by
  unfold State.drawBlock
  split
  · exact ⟨_, rfl, rfl, rfl, rfl⟩
  · exact ⟨_, rfl, rfl, rfl, rfl⟩

/-- `AllocNode` fails with nothing but a draw used up, or makes a FREE node of `1 .. NODE_CAP` PREPARED. -/
theorem State.allocNode_cases (s : State) : ∃ x : Env, x.inbox = s.env.inbox ∧ x.between = s.env.between ∧
    (s.allocNode = (none, s.withEnv x) ∨
      ∃ h, s.nodeGrantable h = true ∧ s.allocNode = (some h, (s.withEnv x).putNode h Node.blank)) := by
  obtain ⟨x, hx, hi, hb, _⟩ := s.drawNode_state
  refine ⟨x, hi, hb, ?_⟩
  unfold State.allocNode
  rcases hd : s.drawNode with ⟨o, t⟩
  rw [hd] at hx
  simp only at hx
  subst hx
  cases o with
  | none => exact .inl rfl
  | some h =>
    simp only
    split
    · rename_i hg; exact .inr ⟨h, hg, rfl⟩
    · exact .inl rfl

/-- `Alloc(n)` answers the next draw if it may grant it. -/
theorem State.alloc_fst (s : State) (n : Word) : (s.alloc n).1 = s.drawBlock.1.filter fun p => s.blockGrantable p.toNat n.toNat := by
  obtain ⟨x, hx, -⟩ := s.drawBlock_state
  unfold State.alloc
  rcases hd : s.drawBlock with ⟨o, t⟩
  rw [hd] at hx
  simp only at hx
  subst hx
  cases o with
  | none => rfl
  | some p =>
    have : (s.withEnv x).blockGrantable p.toNat n.toNat = s.blockGrantable p.toNat n.toNat := rfl
    simp only [Option.filter, this]
    split <;> rfl

/-- `Alloc(n)` fails with nothing but a draw used up, or makes a block it may grant live. -/
theorem State.alloc_cases (s : State) (n : Word) : ∃ x : Env, x.inbox = s.env.inbox ∧ x.between = s.env.between ∧
    (s.alloc n = (none, s.withEnv x) ∨
      ∃ p, s.blockGrantable p.toNat n.toNat = true ∧
        s.alloc n = (some p, (s.withEnv x).withPool { s.pool with live := insertBlock (p.toNat, n.toNat) s.pool.live })) := by
  obtain ⟨x, hx, hi, hb, _⟩ := s.drawBlock_state
  refine ⟨x, hi, hb, ?_⟩
  unfold State.alloc
  rcases hd : s.drawBlock with ⟨o, t⟩
  rw [hd] at hx
  simp only at hx
  subst hx
  cases o with
  | none => exact .inl rfl
  | some p =>
    simp only
    split
    · rename_i hg; exact .inr ⟨p, hg, rfl⟩
    · exact .inl rfl

end Sys2Proof.Machine
end

