-- ==== Sys2Proof/Laws/Stable.lean ====
section
/-! SUPPORT. What any run of the machine can do, said once: it is built from a few primitive changes of the state. A
property that each of them keeps is kept by every operation, every instruction and every step (`exec_keeps`,
`step_keeps`), so an invariant is proved by looking at the primitives alone. -/

namespace Sys2Proof.Machine

/-- Every change the sequencer and the peripheral make to the state, but for the four of `Closed`. A session may only gain
`FAULT.ISRALLOC` and `REBOOT`; events are only appended; the steps of the peripheral still to fall between accesses are only
used up. -/
structure Stable (P : State → Prop) : Prop where
  host : ∀ h s, P s → P (hostStep h s)
  env : ∀ s (x : Env), x.between <:+ s.env.between → P s → P (s.withEnv x)
  port : ∀ s x, P s → P (s.withPort x)
  sess : ∀ s (x : Session), (s.sess.isrAlloc = true → x.isrAlloc = true) → (s.sess.reboot = true → x.reboot = true) →
    P s → P (s.withSess x)
  emit : ∀ s x, P s → P (s.emit x)
  ep : ∀ s x, P s → P (s.withEp x)
  pool : ∀ s x, P s → P (s.withPool x)
  ctl : ∀ s e d x w, P s → P (s.setBdCtl e d x w)
  buf : ∀ s e d x w, P s → P (s.setBdBuf e d x w)
  byte : ∀ s a b, P s → P (s.writeByte a b)
  epctl : ∀ s e v, P s → P (s.withRegs (s.regs.setEpc e v))
  err : ∀ s v, P s → P (s.withRegs (s.regs.writeErrstat v))

/-- The changes that only `I.RESET`, an IN on endpoint 0 and the entry of an invocation make. -/
structure Closed (P : State → Prop) : Prop extends Stable P where
  addr : ∀ s a, P s → P (s.withRegs { s.regs with addr := a })
  inten : ∀ s, P s → P (s.withRegs { s.regs with addr := 0#7, inten := 0xFF#8 })
  hold : ∀ s (v : BitVec 2), v.getLsbD 1 = false → P s → P (s.withRegs (s.regs.writeCtl v))
  ack : ∀ s v, P s → P (s.withRegs (s.regs.writeIstat v))

theorem foldl_keeps {P : State → Prop} {α : Type} {f : State → α → State} (hf : ∀ t x, P t → P (f t x)) :
    ∀ (l : List α) {t : State}, P t → P (l.foldl f t)
  | [], _, h => h
  | x :: rest, _, h => foldl_keeps hf rest (hf _ x h)

section
variable {P : State → Prop} (hP : Stable P) {s : State}
include hP

theorem tick_keeps (h : P s) : P (tick s) := by
  unfold tick
  split
  · exact h
  · rename_i steps rest hb
    exact foldl_keeps (fun t x ht => hP.host x t ht) _ (hP.env _ _ (hb ▸ List.suffix_cons steps rest) h)

theorem updEp_keeps (e : EpId) (f : EpRec → EpRec) (h : P s) : P (s.updEp e f) := hP.ep _ _ h

theorem putNode_keeps (a : Word) (n : Node) (h : P s) : P (s.putNode a n) := hP.pool _ _ h

theorem freeNode_keeps (a : Word) (h : P s) : P (s.freeNode a) := hP.pool _ _ h

theorem freeBlock_keeps (a : Word) (n : Nat) (h : P s) : P (s.freeBlock a n) := hP.pool _ _ h

theorem setStatus_keeps (c : BitVec 8) (h : P s) : P (s.setStatus c) := hP.port _ _ h

theorem raise_keeps (c : BitVec 8) (h : P s) : P (raise c s) := hP.port _ _ h

theorem pokeBytes_keeps (bytes : List Byte) : ∀ {s : State} (a : Word), P s → P (s.pokeBytes a bytes) := by
  induction bytes with
  | nil => intro s a h; exact h
  | cons b rest ih => intro s a h; exact ih _ (hP.byte _ _ _ h)

theorem writeCtl_keeps (e : EpId) (d : Dir) (x : Slot) (w : Word) (h : P s) : P (writeCtl e d x w s) :=
  hP.ctl _ _ _ _ _ (tick_keeps hP h)

theorem writeBuf_keeps (e : EpId) (d : Dir) (x : Slot) (w : Word) (h : P s) : P (writeBuf e d x w s) :=
  hP.buf _ _ _ _ _ (tick_keeps hP h)

theorem armBd_keeps (e : EpId) (d : Dir) (x : Slot) (a : Word) (c : BitVec 10) (t : Bool) (h : P s) :
    P (armBd e d x a c t s) := writeCtl_keeps hP _ _ _ _ (writeBuf_keeps hP _ _ _ _ h)

theorem reclaimBd_keeps (e : EpId) (d : Dir) (x : Slot) (h : P s) : P (reclaimBd e d x s) := writeCtl_keeps hP _ _ _ _ h

theorem copyBytes_keeps (n : Nat) : ∀ {s : State} (src dst : Word), P s → P (copyBytes n src dst s) := by
  induction n with
  | zero => intro s _ _ h; exact h
  | succ n ih => intro s _ _ h; exact ih _ _ (hP.byte _ _ _ (tick_keeps hP (tick_keeps hP h)))

theorem fillBytes_keeps (bytes : List Byte) : ∀ {s : State} (dst : Word), P s → P (fillBytes bytes dst s) := by
  induction bytes with
  | nil => intro s _ h; exact h
  | cons b rest ih => intro s _ h; exact ih _ (hP.byte _ _ _ (tick_keeps hP h))

theorem readBytes_keeps (n : Nat) : ∀ {s : State} (a : Word), P s → P (readBytes n a s).2 := by
  induction n with
  | zero => intro s _ h; exact h
  | succ n ih => intro s _ h; exact ih _ (tick_keeps hP h)

theorem readTwoWords_keeps (a : Word) (h : P s) : P (readTwoWords a s).2 := tick_keeps hP (tick_keeps hP h)

theorem readPacket_keeps (w a : Word) (h : P s) : P (readPacket w a s).2 := by
  unfold readPacket
  split
  · exact readBytes_keeps hP _ _ (readTwoWords_keeps hP a h)
  · exact readBytes_keeps hP _ _ h

theorem setEpctl_keeps (e : EpId) (v : BitVec 4) (h : P s) : P (setEpctl e v s) := hP.epctl _ _ _ (tick_keeps hP h)

theorem clearEpctl_keeps (e : EpId) (m : BitVec 4) (h : P s) : P (clearEpctl e m s) :=
  setEpctl_keeps hP _ _ (tick_keeps hP h)

theorem raiseEpctl_keeps (e : EpId) (m : BitVec 4) (h : P s) : P (raiseEpctl e m s) :=
  setEpctl_keeps hP _ _ (tick_keeps hP h)

theorem acknowledgeErrors_keeps (h : P s) : P (acknowledgeErrors s) := hP.err _ _ (tick_keeps hP (tick_keeps hP h))

theorem allocNode_keeps (h : P s) : P s.allocNode.2 := by
  obtain ⟨x, _, hb, hx | ⟨a, _, hx⟩⟩ := s.allocNode_cases
  · rw [hx]; exact hP.env _ _ (hb ▸ List.suffix_refl _) h
  · rw [hx]; exact putNode_keeps hP _ _ (hP.env _ _ (hb ▸ List.suffix_refl _) h)

theorem alloc_keeps (n : Word) (h : P s) : P (s.alloc n).2 := by
  obtain ⟨x, _, hb, hx | ⟨a, _, hx⟩⟩ := s.alloc_cases n
  · rw [hx]; exact hP.env _ _ (hb ▸ List.suffix_refl _) h
  · rw [hx]; exact hP.pool _ _ (hP.env _ _ (hb ▸ List.suffix_refl _) h)

/-! ### The transmission queue -/

theorem fillFrom_keeps (src : TxSource) (len dst : Word) (h : P s) : P (fillFrom src len dst s) := by
  cases src with
  | memory a => exact copyBytes_keeps hP _ _ _ h
  | literal bytes => exact fillBytes_keeps hP _ _ h

theorem prepNode_keeps (src : TxSource) (len cb : Word) (h : P s) : P (prepNode src len cb s).2 := by
  have h1 := allocNode_keeps hP h
  unfold prepNode
  split
  · rename_i t ht; rw [ht] at h1; exact h1
  · rename_i a t ht
    rw [ht] at h1
    simp only at h1
    split
    · exact putNode_keeps hP _ _ h1
    · have h2 := alloc_keeps hP len h1
      split
      · rename_i u hu; rw [hu] at h2; exact freeNode_keeps hP _ h2
      · rename_i b u hu; rw [hu] at h2; exact putNode_keeps hP _ _ (fillFrom_keeps hP _ _ _ h2)

theorem appendNode_keeps (e : EpId) (a : Word) (h : P s) : P (appendNode e a s) :=
  updEp_keeps hP _ _ (putNode_keeps hP _ _ h)

theorem prep_keeps (h : P s) : P (prep s) := by
  have h1 := prepNode_keeps hP (.memory s.dataAddr) s.dataLen s.dataCallback h
  unfold prep
  split
  · rename_i t ht; rw [ht] at h1; exact raise_keeps hP _ h1
  · rename_i a t ht; rw [ht] at h1; exact hP.port _ _ h1

theorem enq_keeps (e : EpId) (h : P s) : P (enq e s) := by
  unfold enq
  split
  · exact setStatus_keeps hP _ (appendNode_keeps hP _ _ h)
  · exact raise_keeps hP _ h

theorem send_keeps (e : EpId) (h : P s) : P (send e s) := by
  have h1 := prepNode_keeps hP (.memory s.dataAddr) s.dataLen s.dataCallback h
  unfold send
  split
  · rename_i t ht; rw [ht] at h1; exact raise_keeps hP _ h1
  · rename_i a t ht; rw [ht] at h1; exact setStatus_keeps hP _ (appendNode_keeps hP _ _ h1)

theorem trysend_keeps (e : EpId) (h : P s) : P (trysend e s) := by
  unfold trysend
  split
  · exact send_keeps hP _ h
  · exact raise_keeps hP _ h

theorem complete_keeps (e : EpId) (a : Word) (h : P s) : P (complete e a s) := by
  unfold complete
  refine freeNode_keeps hP _ (updEp_keeps hP _ _ ?_)
  have h1 : P (if (s.node a).cb = 0#32 then s else s.emit (.complete e (s.node a).cb)) := by
    split
    · exact h
    · exact hP.emit _ _ h
  split
  · exact freeBlock_keeps hP _ _ h1
  · exact h1

theorem cancelQueue_keeps (e : EpId) (h : P s) : P (cancelQueue e s) :=
  foldl_keeps (fun _ a ht => complete_keeps hP e a ht) _ h

theorem cancel_keeps (e : EpId) (h : P s) : P (cancel e s) := setStatus_keeps hP _ (cancelQueue_keeps hP e h)

theorem qpend_keeps (e : EpId) (h : P s) : P (qpend e s) := hP.port _ _ h

theorem txInProgress_keeps (e : EpId) (h : P s) : P (txInProgress e s).2 := tick_keeps hP (tick_keeps hP h)

theorem qbusy_keeps (e : EpId) (h : P s) : P (qbusy e s) := hP.port _ _ (txInProgress_keeps hP e h)

theorem armChunk_keeps (e : EpId) (a : Word) (f : Slot) (h : P s) : P (armChunk e a f s) :=
  putNode_keeps hP _ _ (updEp_keeps hP _ _ (armBd_keeps hP _ _ _ _ _ _ h))

theorem pump_keeps (e : EpId) (h : P s) : P (pump e s) := by
  have h1 := tick_keeps hP (tick_keeps hP h)
  unfold pump
  split
  · exact h
  · dsimp only
    split
    · exact h1
    · split
      · split
        · exact h1
        · exact complete_keeps hP _ _ h1
      · split
        · exact complete_keeps hP _ _ (armChunk_keeps hP _ _ _ h1)
        · exact armChunk_keeps hP _ _ _ h1

theorem isend_keeps (e : EpId) (src : TxSource) (len : Word) (h : P s) : P (isend e src len s) := by
  have h1 := prepNode_keeps hP src len 0#32 h
  unfold isend
  split
  · rename_i t ht; rw [ht] at h1; exact hP.sess _ _ (fun _ => rfl) id h1
  · rename_i a t ht; rw [ht] at h1; exact appendNode_keeps hP _ _ h1

/-! ### The registry -/

theorem armRx_keeps (e : EpId) (h : P s) : P (armRx e s) := by
  unfold armRx
  split
  · exact h
  · exact armBd_keeps hP _ _ _ _ _ _ (armBd_keeps hP _ _ _ _ _ _ h)

theorem cfgepStepA_keeps (id : EpId) (mps : BitVec 16) (f : BitVec 3) (h : P s) : P (cfgepStepA id mps f s).2 := by
  unfold cfgepStepA
  split
  · have h1 := alloc_keeps hP (pairSize mps) h
    split
    · rename_i t ht; rw [ht] at h1; exact h1
    · rename_i p t ht; rw [ht] at h1; dsimp only; exact updEp_keeps hP _ _ h1
  · dsimp only
    exact updEp_keeps hP _ _ (freeBlock_keeps hP _ _ (reclaimBd_keeps hP _ _ _ (reclaimBd_keeps hP _ _ _
      (clearEpctl_keeps hP _ _ h))))
  · exact h

theorem cfgepStepB_keeps (l : CfgLatch) (h : P s) : P (cfgepStepB l s) := by
  unfold cfgepStepB
  refine hP.port _ _ (setEpctl_keeps hP _ _ ?_)
  have h1 := updEp_keeps hP l.id (fun r => { r with maxpkt := l.mps, flags := l.flags, rxcb := l.cb })
    (setEpctl_keeps hP l.id 0#4 h)
  split
  · exact armRx_keeps hP _ h1
  · exact h1

theorem cfgepContinue_keeps (l : CfgLatch) (h : P s) : P (cfgepContinue l s) := by
  have h1 : P (cfgepGuard l s).2 := txInProgress_keeps hP l.id h
  unfold cfgepContinue
  dsimp only
  split
  · exact cfgepStepB_keeps hP _ h1
  · exact h1

theorem cfgep_keeps (mps : BitVec 16) (id : EpId) (h : P s) : P (cfgep mps id s) := by
  have h1 := cfgepStepA_keeps hP id mps s.cfgFlags h
  unfold cfgep
  dsimp only
  split
  · exact cfgepContinue_keeps hP _ (hP.port _ _ h1)
  · exact raise_keeps hP _ h1

theorem resetEndpoint_keeps (e : EpId) (h : P s) : P (resetEndpoint e s) := by
  unfold resetEndpoint
  exact updEp_keeps hP _ _ (reclaimBd_keeps hP _ _ _ (reclaimBd_keeps hP _ _ _ (reclaimBd_keeps hP _ _ _
    (reclaimBd_keeps hP _ _ _ (setEpctl_keeps hP _ _ (cancelQueue_keeps hP _ h))))))

theorem establishControl_keeps (h : P s) : P (establishControl s) :=
  setEpctl_keeps hP _ _ (armRx_keeps hP _ (updEp_keeps hP _ _ h))

theorem resetAll_keeps (h : P s) : P (resetAll s) := by
  have h1 : P (epIds.foldl (fun t e => resetEndpoint e t) s) :=
    foldl_keeps (fun _ e ht => resetEndpoint_keeps hP e ht) _ h
  unfold resetAll
  dsimp only
  split
  · exact establishControl_keeps hP h1
  · have h2 := alloc_keeps hP (pairSize (epIds.foldl (fun t e => resetEndpoint e t) s).params.ep0Size) h1
    split
    · rename_i t ht; rw [ht] at h2; exact hP.sess _ _ (fun _ => rfl) id h2
    · rename_i p t ht; rw [ht] at h2; exact establishControl_keeps hP (updEp_keeps hP _ _ h2)

theorem rearm_keeps (e : EpId) (h : P s) : P (rearm e s) := by
  unfold rearm
  refine setEpctl_keeps hP _ _ (updEp_keeps hP _ _ ?_)
  split
  · exact armRx_keeps hP _ (setEpctl_keeps hP _ _ h)
  · exact setEpctl_keeps hP _ _ h

/-! ### The control endpoint -/

theorem replyBytes_keeps (bytes : List Byte) (h : P s) : P (replyBytes bytes s) := isend_keeps hP _ _ _ h

theorem describe_keeps (h : P s) : P (describe s) := by
  unfold describe
  split
  · exact raiseEpctl_keeps hP _ _ h
  · exact isend_keeps hP _ _ _ h

theorem setConfiguration_keeps (h : P s) : P (setConfiguration s) :=
  isend_keeps hP _ _ _ (foldl_keeps (fun _ e ht => rearm_keeps hP e ht) _ (hP.sess _ _ id id h))

theorem runRequest_keeps (r : Request) (h : P s) : P (runRequest r s) := by
  cases r with
  | getStatus => exact replyBytes_keeps hP _ h
  | setAddress => exact isend_keeps hP _ _ _ h
  | getDescriptor => exact describe_keeps hP h
  | getDescriptorIf => exact describe_keeps hP h
  | getConfiguration => exact replyBytes_keeps hP _ h
  | setConfiguration => exact setConfiguration_keeps hP h
  | vendorReboot => exact isend_keeps hP _ _ _ h
  | stall => exact raiseEpctl_keeps hP _ _ h

theorem ctrlSetup_keeps (h : P s) : P (ctrlSetup s) := by
  have h1 := hP.emit _ (.override (clearEpctl 0 stallMask s).sess.lastSetup
    (overrideOf (clearEpctl 0 stallMask s).params (clearEpctl 0 stallMask s).sess.lastSetup))
    (clearEpctl_keeps hP 0 stallMask h)
  unfold ctrlSetup
  dsimp only
  split
  · exact replyBytes_keeps hP _ h1
  · exact isend_keeps hP _ _ _ h1
  · exact raiseEpctl_keeps hP _ _ h1
  · exact runRequest_keeps hP _ h1

theorem ctrlOut_keeps (payload : List Byte) (h : P s) : P (ctrlOut payload s) := by
  unfold ctrlOut
  refine hP.emit _ _ ?_
  split
  · exact hP.emit _ _ (hP.sess _ _ id (fun _ => rfl) (tick_keeps hP h))
  · exact h

/-! ### The dispatcher's routines -/

theorem handler_keeps (e : EpId) (pid : BitVec 4) (payload : List Byte) (h : P s) : P (handler e pid payload s) := by
  unfold handler
  split
  · split
    · exact ctrlSetup_keeps hP h
    · exact ctrlOut_keeps hP _ h
  · split
    · exact h
    · exact hP.emit _ _ h

theorem hookOrPump_keeps (e : EpId) (h : P s) : P (hookOrPump e s) := by
  unfold hookOrPump
  split
  · exact pump_keeps hP _ h
  · exact hP.emit _ _ h

theorem tSetup_keeps (e : EpId) (payload : List Byte) (h : P s) : P (tSetup e payload s) :=
  handler_keeps hP _ _ _ (updEp_keeps hP _ _ (cancelQueue_keeps hP _ (hP.sess _ _ id id h)))

theorem tOut_keeps (e : EpId) (payload : List Byte) (h : P s) : P (tOut e payload s) := handler_keeps hP _ _ _ h

theorem rxRearm_keeps (e : EpId) (x : Slot) (w : Word) (h : P s) : P (rxRearm e x w s) := by
  unfold rxRearm
  split
  · exact h
  · split
    · exact armBd_keeps hP _ _ _ _ _ _ h
    · exact h

theorem iSof_keeps (h : P s) : P (iSof s) := foldl_keeps (fun _ e ht => hookOrPump_keeps hP e ht) _ h

theorem receiveDone_keeps (e : EpId) (x : Slot) (h : P s) : P (receiveDone e x s) := by
  have h1 := tick_keeps hP h
  have h2 := tick_keeps hP h1
  unfold receiveDone
  dsimp only
  split
  · exact h1
  · refine rxRearm_keeps hP _ _ _ ?_
    split
    · exact tSetup_keeps hP _ _ (readPacket_keeps hP _ _ h2)
    · exact tOut_keeps hP _ _ (readPacket_keeps hP _ _ h2)
    · exact readPacket_keeps hP _ _ h2

/-- An IN on an endpoint other than 0 needs no change of `ADDR`. -/
theorem tIn_keeps_other {e : EpId} (he : e ≠ 0) (h : P s) : P (tIn e s) := by
  simp only [tIn, he, if_false]; exact hookOrPump_keeps hP _ h

omit hP in
theorem ctrlIn_keeps (ha : ∀ s a, P s → P (s.withRegs { s.regs with addr := a })) (h : P s) : P (ctrlIn s) := by
  unfold ctrlIn
  split
  · exact ha _ _ h
  · exact h

theorem tIn_keeps (ha : ∀ s a, P s → P (s.withRegs { s.regs with addr := a })) (e : EpId) (h : P s) : P (tIn e s) := by
  unfold tIn
  refine hookOrPump_keeps hP _ ?_
  split
  · exact ctrlIn_keeps ha h
  · exact h

theorem iTokdne_keeps (ha : ∀ s a, P s → P (s.withRegs { s.regs with addr := a })) (st : BitVec 8) (h : P s) :
    P (iTokdne st s) := by
  unfold iTokdne
  split
  · exact tIn_keeps hP ha _ h
  · exact receiveDone_keeps hP _ _ h

omit hP in
theorem command_keeps {run : State → State} (hr : ∀ t, P t → P (run t)) {t : State} (h : P s)
    (ht : command run s = .next t) : P t := by
  unfold command at ht
  split at ht
  · cases ht
  · split at ht
    · cases ht
    · cases ht; exact hr _ h

omit hP in
theorem copyingCommand_keeps {copies : State → Bool} {run : State → State} (hr : ∀ t, P t → P (run t)) {t : State}
    (h : P s) (ht : copyingCommand copies run s = .next t) : P t := by
  rcases copyingCommand_cases copies run s with ⟨h1, _⟩ | ⟨h1, _⟩
  · exact command_keeps hr h (h1 ▸ ht)
  · rw [h1] at ht; cases ht

theorem onEndpoint_keeps {run : EpId → State → State} (hr : ∀ e t, P t → P (run e t)) (ep : BitVec 8) (h : P s) :
    P (onEndpoint ep run s) := by
  unfold onEndpoint
  split
  · exact raise_keeps hP _ h
  · exact hr _ _ h

end

section
variable {P : State → Prop} (hP : Closed P) {s : State}
include hP

theorem releaseHold_keeps (h : P s) : P (releaseHold s) := by
  unfold releaseHold
  refine hP.hold _ _ ?_ (tick_keeps hP.toStable (tick_keeps hP.toStable h))
  simp [holdMask]

theorem iReset_keeps (h : P s) : P (iReset s) := by
  have h0 := resetAll_keeps hP.toStable h
  unfold iReset
  generalize resetAll s = u at h0 ⊢
  exact releaseHold_keeps hP (hP.sess _ _ (fun x => x) (fun x => x) (hP.inten _ h0))

theorem takeInterrupt_keeps (h : P s) : P (takeInterrupt s).2 := by
  have h1 := tick_keeps hP.toStable h
  unfold takeInterrupt
  refine hP.ack _ _ (tick_keeps hP.toStable ?_)
  split
  · exact tick_keeps hP.toStable h1
  · exact h1

/-- Every instruction that completes keeps what the primitive changes keep. -/
theorem exec_keeps (i : Instr) {t : State} (h : P s) (ht : exec i s = .next t) : P t := by
  have hS := hP.toStable
  cases i with
  | cfgep ep mps => exact command_keeps (fun _ hs => onEndpoint_keeps hS (fun e _ => cfgep_keeps hS mps e) ep hs) h ht
  | prep => exact copyingCommand_keeps (fun _ hs => prep_keeps hS hs) h ht
  | enq ep => exact command_keeps (fun _ hs => onEndpoint_keeps hS (fun e _ => enq_keeps hS e) ep hs) h ht
  | send ep => exact copyingCommand_keeps (fun _ hs => onEndpoint_keeps hS (fun e _ => send_keeps hS e) ep hs) h ht
  | trysend ep => exact copyingCommand_keeps (fun _ hs => onEndpoint_keeps hS (fun e _ => trysend_keeps hS e) ep hs) h ht
  | cancel ep => exact command_keeps (fun _ hs => onEndpoint_keeps hS (fun e _ => cancel_keeps hS e) ep hs) h ht
  | qpend ep => exact command_keeps (fun _ hs => onEndpoint_keeps hS (fun e _ => qpend_keeps hS e) ep hs) h ht
  | qbusy ep => exact command_keeps (fun _ hs => onEndpoint_keeps hS (fun e _ => qbusy_keeps hS e) ep hs) h ht
  | iReset => exact Host.Outcome.next.inj ht ▸ iReset_keeps hP h
  | iError => exact Host.Outcome.next.inj ht ▸ acknowledgeErrors_keeps hS h
  | iSof => exact Host.Outcome.next.inj ht ▸ iSof_keeps hS h
  | iTokdne st => exact Host.Outcome.next.inj ht ▸ iTokdne_keeps hS hP.addr st h
  | iSleep => exact Host.Outcome.next.inj ht ▸ h
  | iResume => exact Host.Outcome.next.inj ht ▸ h
  | iAttach => exact Host.Outcome.next.inj ht ▸ h
  | iStall => exact Host.Outcome.next.inj ht ▸ h
  | tIn e slot => exact Host.Outcome.next.inj ht ▸ tIn_keeps hS hP.addr e h
  | tSetup e d payload => exact Host.Outcome.next.inj ht ▸ tSetup_keeps hS e payload h
  | tOut e d payload => exact Host.Outcome.next.inj ht ▸ tOut_keeps hS e payload h
  | getStatus => exact Host.Outcome.next.inj ht ▸ replyBytes_keeps hS _ h
  | setAddress => exact Host.Outcome.next.inj ht ▸ isend_keeps hS _ _ _ h
  | getDescriptor => exact Host.Outcome.next.inj ht ▸ describe_keeps hS h
  | getDescriptorIf => exact Host.Outcome.next.inj ht ▸ describe_keeps hS h
  | getConfiguration => exact Host.Outcome.next.inj ht ▸ replyBytes_keeps hS _ h
  | setConfiguration => exact Host.Outcome.next.inj ht ▸ setConfiguration_keeps hS h
  | vendorReboot => exact Host.Outcome.next.inj ht ▸ isend_keeps hS _ _ _ h
  | stallDefault key => exact Host.Outcome.next.inj ht ▸ raiseEpctl_keeps hS _ _ h
  | pReset => exact Host.Outcome.next.inj ht ▸ hS.host .reset _ h
  | pSof => exact Host.Outcome.next.inj ht ▸ hS.host .sof _ h
  | pErr bits => exact Host.Outcome.next.inj ht ▸ hS.host (.err bits) _ h
  | pSleep => exact Host.Outcome.next.inj ht ▸ hS.host .sleep _ h
  | pResume => exact Host.Outcome.next.inj ht ▸ hS.host .resume _ h
  | pAttach => exact Host.Outcome.next.inj ht ▸ hS.host .attach _ h
  | pSetup e bytes => exact Host.Outcome.next.inj ht ▸ hS.host (.setup e bytes) _ h
  | pIn e => exact Host.Outcome.next.inj ht ▸ hS.host (.inTok e) _ h
  | pOut e tg bytes => exact Host.Outcome.next.inj ht ▸ hS.host (.out e tg bytes) _ h
  | pStalled e => exact Host.Outcome.next.inj ht ▸ hS.host (.stalled e) _ h

theorem runAll_keeps : ∀ (l : List Instr) {s t : State}, P s → runAll l s = .next t → P t
  | [], _, _, h, ht => by cases ht; exact h
  | i :: rest, s, t, h, ht => by
    unfold runAll at ht
    split at ht
    · rename_i u hu; exact runAll_keeps rest (exec_keeps hP i h hu) ht
    · cases ht
    · cases ht

theorem dispatch_keeps {t : State} (h : P s) (ht : dispatch s = .next t) : P t := by
  unfold dispatch at ht
  split at ht
  · split at ht
    · rename_i u hu; cases ht; exact runAll_keeps hP _ (takeInterrupt_keeps hP h) hu
    · cases ht
    · cases ht
  · cases ht; exact h

theorem issue_keeps {t : State} (w : Word) (h : P s) (ht : issue w s = .next t) : P t := by
  have h1 := hP.port s { s.port with cmd := w } h
  unfold issue at ht
  dsimp only at ht
  split at ht
  · exact exec_keeps hP _ h1 ht
  · exact command_keeps (fun _ hs => raise_keeps hP.toStable _ hs) h1 ht

theorem registerWrite_keeps {t : State} (off : Nat) (v : Word) (h : P s) (ht : registerWrite off v s = .next t) : P t := by
  unfold registerWrite at ht
  split at ht
  · exact issue_keeps hP _ h ht
  · cases ht; exact hP.port _ _ h
  · cases ht; exact hP.port _ _ h
  · cases ht; exact hP.port _ _ h
  · cases ht; exact h

theorem clientBytes_keeps {t : State} (a : Word) (bytes : List Byte) (h : P s) (ht : clientBytes a bytes s = .next t) :
    P t := by
  unfold clientBytes at ht
  split at ht
  · cases ht
  · split at ht
    · cases ht
    · cases ht; exact pokeBytes_keeps hP.toStable _ _ h

theorem runInput_keeps (x : Input) {t : State} (h : P s) (ht : runInput x s = .next t) : P t := by
  cases x with
  | write a v =>
    simp only [runInput, clientWrite] at ht
    split at ht
    · exact registerWrite_keeps hP _ _ h ht
    · exact clientBytes_keeps hP _ _ h ht
  | store a b => exact clientBytes_keeps hP _ _ h ht
  | host line =>
    simp only [runInput, runLine] at ht
    split at ht
    · exact exec_keeps hP _ h ht
    · cases ht; exact h
  | irq => exact dispatch_keeps hP h ht
  | cont =>
    simp only [runInput, continueHeld] at ht
    split at ht
    · cases ht; exact cfgepContinue_keeps hP.toStable _ h
    · cases ht; exact h

/-- Every step that completes keeps what the primitive changes keep. -/
theorem step_keeps {t : State} (h : P s) (ht : step s = .next t) : P t := by
  unfold step nextMove at ht
  split at ht
  · cases ht
  · split at ht
    · cases ht; exact h
    · rename_i x rest _
      exact runInput_keeps hP x (hP.env s { s.env with inbox := rest } (List.suffix_refl _) h) ht

end

end Sys2Proof.Machine
end

