-- ==== Sys2Proof/Laws/Peripheral.lean ====
section
/-! SUPPORT. What a step of the peripheral leaves alone (44_peripheral.md R215), and so what the accesses of the sequencer
with the peripheral between them leave alone; the operations when the peripheral is quiet. -/

namespace Sys2Proof.Machine

/-- The parts of the state the peripheral never writes. -/
structure Private (s t : State) : Prop where
  params : t.params = s.params
  port : t.port = s.port
  ep : t.ep = s.ep
  pool : t.pool = s.pool
  sess : t.sess = s.sess
  evt : t.trace.evt = s.trace.evt
  inten : t.regs.inten = s.regs.inten
  addr : t.regs.addr = s.regs.addr
  inbox : t.env.inbox = s.env.inbox
  nodeDraws : t.env.nodeDraws = s.env.nodeDraws
  blockDraws : t.env.blockDraws = s.env.blockDraws
  drawCount : t.env.drawCount = s.env.drawCount

/-- The same with `EPCTL`. -/
structure Untouched (s t : State) : Prop extends Private s t where
  epctl : t.regs.epctl = s.regs.epctl

theorem Private.refl (s : State) : Private s s := ⟨rfl, rfl, rfl, rfl, rfl, rfl, rfl, rfl, rfl, rfl, rfl, rfl⟩

theorem Private.trans {s t u : State} (h : Private s t) (k : Private t u) : Private s u :=
  ⟨k.params.trans h.params, k.port.trans h.port, k.ep.trans h.ep, k.pool.trans h.pool, k.sess.trans h.sess,
    k.evt.trans h.evt, k.inten.trans h.inten, k.addr.trans h.addr, k.inbox.trans h.inbox,
    k.nodeDraws.trans h.nodeDraws, k.blockDraws.trans h.blockDraws, k.drawCount.trans h.drawCount⟩

theorem Untouched.refl (s : State) : Untouched s s := ⟨Private.refl s, rfl⟩

theorem Untouched.trans {s t u : State} (h : Untouched s t) (k : Untouched t u) : Untouched s u :=
  ⟨h.toPrivate.trans k.toPrivate, k.epctl.trans h.epctl⟩

theorem Private.endpoint {s t : State} (h : Private s t) (e : EpId) : t.endpoint e = s.endpoint e :=
  State.endpoint_congr h.ep e

theorem Private.node? {s t : State} (h : Private s t) (a : Word) : t.node? a = s.node? a := State.node?_congr h.pool a

theorem Private.node {s t : State} (h : Private s t) (a : Word) : t.node a = s.node a := State.node_congr h.pool a

theorem Untouched.epc {s t : State} (h : Untouched s t) (e : EpId) : t.regs.epc e = s.regs.epc e := by
  simp [Regs.epc, h.epctl]

/-! ### The steps -/

theorem rxDone_untouched (s : State) (e : EpId) (x : Slot) (tok : BitVec 4) (tg : Bool) (bytes : List Byte) :
    Untouched s (s.rxDone e x tok tg bytes) := by
  unfold State.rxDone
  dsimp only
  split <;> exact ⟨⟨by simp, by simp, by simp, by simp, by simp, by simp, by simp [Regs.pushStat], by simp [Regs.pushStat],
    by simp, by simp, by simp, by simp⟩, by simp [Regs.pushStat]⟩

theorem fire_untouched (s : State) (x : Source) : Untouched s (s.fire x) :=
  ⟨⟨rfl, rfl, rfl, rfl, rfl, rfl, rfl, rfl, rfl, rfl, rfl, rfl⟩, rfl⟩

/-- A step of the peripheral writes none of these. -/
theorem hostStep_untouched (h : HostStep) (s : State) : Untouched s (hostStep h s) := by
  cases h with
  | reset =>
    simp only [hostStep, pReset]
    split
    · exact ⟨⟨rfl, rfl, rfl, rfl, rfl, rfl, rfl, rfl, rfl, rfl, rfl, rfl⟩, rfl⟩
    · exact Untouched.refl s
  | sof =>
    simp only [hostStep, pSof]
    split
    · exact fire_untouched s _
    · exact Untouched.refl s
  | err bits =>
    simp only [hostStep, pErr]
    split
    · exact ⟨⟨rfl, rfl, rfl, rfl, rfl, rfl, rfl, rfl, rfl, rfl, rfl, rfl⟩, rfl⟩
    · exact Untouched.refl s
  | sleep =>
    simp only [hostStep, pSleep]
    split
    · exact fire_untouched s _
    · exact Untouched.refl s
  | resume =>
    simp only [hostStep, pResume]
    split
    · exact fire_untouched s _
    · exact Untouched.refl s
  | attach =>
    simp only [hostStep, pAttach]
    split
    · exact fire_untouched s _
    · exact Untouched.refl s
  | setup e bytes =>
    simp only [hostStep, pSetup]
    split
    · exact rxDone_untouched _ _ _ _ _ _
    · exact Untouched.refl s
  | inTok e =>
    simp only [hostStep, pIn]
    split
    · exact ⟨⟨rfl, rfl, rfl, rfl, rfl, rfl, rfl, rfl, rfl, rfl, rfl, rfl⟩, rfl⟩
    · exact Untouched.refl s
  | out e t bytes =>
    simp only [hostStep, pOut]
    split
    · exact rxDone_untouched _ _ _ _ _ _
    · exact Untouched.refl s
  | stalled e =>
    simp only [hostStep, pStalled]
    split
    · exact ⟨⟨rfl, rfl, rfl, rfl, rfl, rfl, rfl, rfl, rfl, rfl, rfl, rfl⟩, rfl⟩
    · exact Untouched.refl s

theorem hostStep_between (h : HostStep) (s : State) : (hostStep h s).env.between = s.env.between := by
  cases h <;> simp only [hostStep, pReset, pSof, pErr, pSleep, pResume, pAttach, pSetup, pIn, pOut, pStalled, State.rxDone] <;>
    split <;> first | rfl | (split <;> simp)

/-- The steps before an access write none of these. -/
theorem tick_untouched (s : State) : Untouched s (tick s) := by
  unfold tick
  split
  · exact Untouched.refl s
  · rename_i steps rest _
    have h0 : Untouched s (s.withEnv { s.env with between := rest }) :=
      ⟨⟨rfl, rfl, rfl, rfl, rfl, rfl, rfl, rfl, rfl, rfl, rfl, rfl⟩, rfl⟩
    revert h0
    generalize s.withEnv { s.env with between := rest } = t
    intro h0
    clear * - h0
    induction steps generalizing t with
    | nil => exact h0
    | cons h steps ih => exact ih _ (h0.trans (hostStep_untouched h t))

/-! ### The operations -/

theorem writeCtl_untouched (e : EpId) (d : Dir) (x : Slot) (w : Word) (s : State) : Untouched s (writeCtl e d x w s) :=
  (tick_untouched s).trans ⟨⟨rfl, rfl, rfl, rfl, rfl, rfl, rfl, rfl, rfl, rfl, rfl, rfl⟩, rfl⟩

theorem writeBuf_untouched (e : EpId) (d : Dir) (x : Slot) (w : Word) (s : State) : Untouched s (writeBuf e d x w s) :=
  (tick_untouched s).trans ⟨⟨rfl, rfl, rfl, rfl, rfl, rfl, rfl, rfl, rfl, rfl, rfl, rfl⟩, rfl⟩

theorem armBd_untouched (e : EpId) (d : Dir) (x : Slot) (a : Word) (c : BitVec 10) (t : Bool) (s : State) :
    Untouched s (armBd e d x a c t s) := (writeBuf_untouched _ _ _ _ s).trans (writeCtl_untouched _ _ _ _ _)

theorem reclaimBd_untouched (e : EpId) (d : Dir) (x : Slot) (s : State) : Untouched s (reclaimBd e d x s) :=
  writeCtl_untouched _ _ _ _ _

theorem writeByte_untouched (s : State) (a : Word) (b : Byte) : Untouched s (s.writeByte a b) := by
  unfold State.writeByte
  split
  · exact Untouched.refl s
  · exact ⟨⟨rfl, rfl, rfl, rfl, rfl, rfl, rfl, rfl, rfl, rfl, rfl, rfl⟩, rfl⟩

theorem copyBytes_untouched (n : Nat) : ∀ (src dst : Word) (s : State), Untouched s (copyBytes n src dst s) := by
  induction n with
  | zero => intro _ _ s; exact Untouched.refl s
  | succ n ih =>
    intro src dst s
    exact (((tick_untouched s).trans (tick_untouched _)).trans (writeByte_untouched _ _ _)).trans (ih _ _ _)

theorem fillBytes_untouched (bytes : List Byte) : ∀ (dst : Word) (s : State), Untouched s (fillBytes bytes dst s) := by
  induction bytes with
  | nil => intro _ s; exact Untouched.refl s
  | cons b rest ih => intro dst s; exact ((tick_untouched s).trans (writeByte_untouched _ _ _)).trans (ih _ _)

theorem fillFrom_untouched (src : TxSource) (len dst : Word) (s : State) : Untouched s (fillFrom src len dst s) := by
  cases src with
  | memory a => exact copyBytes_untouched _ _ _ _
  | literal bytes => exact fillBytes_untouched _ _ _

theorem readBytes_untouched (n : Nat) : ∀ (a : Word) (s : State), Untouched s (readBytes n a s).2 := by
  induction n with
  | zero => intro _ s; exact Untouched.refl s
  | succ n ih => intro a s; exact (tick_untouched s).trans (ih _ _)

theorem readTwoWords_untouched (a : Word) (s : State) : Untouched s (readTwoWords a s).2 :=
  (tick_untouched s).trans (tick_untouched _)

theorem readPacket_untouched (w a : Word) (s : State) : Untouched s (readPacket w a s).2 := by
  unfold readPacket
  split
  · exact (readTwoWords_untouched a s).trans (readBytes_untouched _ _ _)
  · exact readBytes_untouched _ _ s

theorem txInProgress_untouched (e : EpId) (s : State) : Untouched s (txInProgress e s).2 :=
  (tick_untouched s).trans (tick_untouched _)

theorem armRx_untouched (e : EpId) (s : State) : Untouched s (armRx e s) := by
  unfold armRx
  split
  · exact Untouched.refl s
  · exact (armBd_untouched _ _ _ _ _ _ s).trans (armBd_untouched _ _ _ _ _ _ _)

theorem rxRearm_untouched (e : EpId) (x : Slot) (w : Word) (s : State) : Untouched s (rxRearm e x w s) := by
  unfold rxRearm
  split
  · exact Untouched.refl s
  · split
    · exact armBd_untouched _ _ _ _ _ _ s
    · exact Untouched.refl s

theorem setEpctl_private (e : EpId) (v : BitVec 4) (s : State) : Private s (setEpctl e v s) :=
  (tick_untouched s).toPrivate.trans ⟨rfl, rfl, rfl, rfl, rfl, rfl, rfl, rfl, rfl, rfl, rfl, rfl⟩

theorem clearEpctl_private (e : EpId) (m : BitVec 4) (s : State) : Private s (clearEpctl e m s) :=
  (tick_untouched s).toPrivate.trans (setEpctl_private _ _ _)

theorem raiseEpctl_private (e : EpId) (m : BitVec 4) (s : State) : Private s (raiseEpctl e m s) :=
  (tick_untouched s).toPrivate.trans (setEpctl_private _ _ _)

theorem acknowledgeErrors_untouched (s : State) : Untouched s (acknowledgeErrors s) :=
  ((tick_untouched s).trans (tick_untouched _)).trans ⟨⟨rfl, rfl, rfl, rfl, rfl, rfl, rfl, rfl, rfl, rfl, rfl, rfl⟩, rfl⟩

/-! ### With the peripheral quiet -/

section
variable {s : State} (hq : Quiet s)
include hq

theorem tick_quiet : tick s = s := by unfold tick; rw [hq]

theorem writeCtl_quiet (e : EpId) (d : Dir) (x : Slot) (w : Word) : writeCtl e d x w s = s.setBdCtl e d x w := by
  unfold writeCtl; rw [tick_quiet hq]

theorem writeBuf_quiet (e : EpId) (d : Dir) (x : Slot) (w : Word) : writeBuf e d x w s = s.setBdBuf e d x w := by
  unfold writeBuf; rw [tick_quiet hq]

theorem armBd_quiet (e : EpId) (d : Dir) (x : Slot) (a : Word) (c : BitVec 10) (t : Bool) :
    armBd e d x a c t s = (s.setBdBuf e d x a).setBdCtl e d x (armedWord c t) := by
  unfold armBd
  rw [writeBuf_quiet hq, writeCtl_quiet (show Quiet (s.setBdBuf e d x a) from hq)]

theorem reclaimBd_quiet (e : EpId) (d : Dir) (x : Slot) : reclaimBd e d x s = s.setBdCtl e d x 0#32 :=
  writeCtl_quiet hq _ _ _ _

theorem setEpctl_quiet (e : EpId) (v : BitVec 4) : setEpctl e v s = s.withRegs (s.regs.setEpc e v) := by
  unfold setEpctl; rw [tick_quiet hq]

theorem clearEpctl_quiet (e : EpId) (m : BitVec 4) :
    clearEpctl e m s = s.withRegs (s.regs.setEpc e (s.regs.epc e &&& ~~~m)) := by
  unfold clearEpctl; rw [tick_quiet hq]; exact setEpctl_quiet hq _ _

theorem raiseEpctl_quiet (e : EpId) (m : BitVec 4) :
    raiseEpctl e m s = s.withRegs (s.regs.setEpc e (s.regs.epc e ||| m)) := by
  unfold raiseEpctl; rw [tick_quiet hq]; exact setEpctl_quiet hq _ _

theorem txInProgress_quiet (e : EpId) : (txInProgress e s).2 = s ∧
    ((txInProgress e s).1 = true ↔ transmitting s e) := by
  unfold txInProgress
  simp only [tick_quiet hq, transmitting]
  refine ⟨trivial, ?_⟩
  cases (s.endpoint e).txq <;> simp

theorem readBytes_quiet (n : Nat) : ∀ a : Word, readBytes n a s = (s.peekBytes a n, s) := by
  induction n with
  | zero => intro a; rfl
  | succ n ih => intro a; simp [readBytes, tick_quiet hq, ih, State.peekBytes]

theorem readTwoWords_quiet (a : Word) : readTwoWords a s = (s.peekBytes a 8, s) := by
  simp only [readTwoWords, readWord, tick_quiet hq]
  rw [State.peekBytes_add s 4 4]

/-- With the peripheral quiet both readings of a Setup packet give the bytes as they stand. -/
theorem readPacket_quiet (w a : Word) : readPacket w a s = (s.peekBytes a (ctlBc w).toNat, s) := by
  unfold readPacket
  split
  · rename_i h
    simp only [State.readsSetupWords, Bool.and_eq_true, decide_eq_true_eq] at h
    simp only [readTwoWords_quiet hq, readBytes_quiet hq]
    rw [show (ctlBc w).toNat = 8 + ((ctlBc w).toNat - 8) by omega, State.peekBytes_add]
    simp
  · exact readBytes_quiet hq _ _

end

theorem fillBytes_quiet (bytes : List Byte) : ∀ {s : State} (_ : Quiet s) (dst : Word),
    fillBytes bytes dst s = s.pokeBytes dst bytes := by
  induction bytes with
  | nil => intro s _ dst; rfl
  | cons b rest ih =>
    intro s hq dst
    simp only [fillBytes, tick_quiet hq, State.pokeBytes]
    exact ih (by rw [Quiet, State.writeByte_env]; exact hq) _

end Sys2Proof.Machine
end

