-- ==== Sys2Proof/Laws/Quiet.lean ====
section
/-! SUPPORT. Two properties that every primitive change keeps (the peripheral quiet, memory canonical), and what arming,
filling and copying do, said once. -/

namespace Sys2Proof.Machine

/-! ### Quiet and canonical memory are kept -/

theorem hostStep_quiet (h : HostStep) {s : State} (hq : Quiet s) : Quiet (hostStep h s) := (hostStep_between h s).trans hq

/-- A peripheral that is quiet stays quiet. -/
theorem quiet_closed : Closed Quiet where
  host h _ hq := hostStep_quiet h hq
  env _ x hx hq := by rw [Quiet] at hq; rw [hq] at hx; exact List.suffix_nil.mp hx
  port _ _ hq := hq
  sess _ _ _ _ hq := hq
  emit _ _ hq := hq
  ep _ _ hq := hq
  pool _ _ hq := hq
  ctl _ _ _ _ _ hq := hq
  buf _ _ _ _ _ hq := hq
  byte s a b hq := by rw [Quiet, State.writeByte_env]; exact hq
  epctl _ _ _ hq := hq
  err _ _ hq := hq
  addr _ _ hq := hq
  inten _ hq := hq
  hold _ _ _ hq := hq
  ack _ _ hq := hq

theorem rxDone_wf {s : State} (hm : MemInv s) (e : EpId) (x : Slot) (tok : BitVec 4) (tg : Bool) (bytes : List Byte) :
    MemInv (s.rxDone e x tok tg bytes) := by
  have h := State.wf_setBdCtl (s.pokeBytes (s.bdBuf e .rx x) bytes) e .rx x
    (ctlWord (BitVec.ofNat 10 bytes.length) false tg tok) (State.wf_pokeBytes bytes _ hm)
  unfold State.rxDone
  dsimp only
  split <;> exact h

/-- A step of the peripheral keeps memory canonical. -/
theorem hostStep_wf (h : HostStep) {s : State} (hm : MemInv s) : MemInv (hostStep h s) := by
  cases h <;> simp only [hostStep, pReset, pSof, pErr, pSleep, pResume, pAttach, pSetup, pIn, pOut, pStalled] <;> split <;>
    first | exact hm | exact rxDone_wf hm _ _ _ _ _ | exact State.wf_setBdCtl _ _ _ _ _ hm

/-- Every change of memory keeps its canonical form. -/
theorem memInv_closed : Closed MemInv where
  host h _ hm := hostStep_wf h hm
  env _ _ _ hm := hm
  port _ _ hm := hm
  sess _ _ _ _ hm := hm
  emit _ _ hm := hm
  ep _ _ hm := hm
  pool _ _ hm := hm
  ctl _ _ _ _ _ hm := State.wf_setBdCtl _ _ _ _ _ hm
  buf _ _ _ _ _ hm := State.wf_setBdBuf _ _ _ _ _ hm
  byte _ a b hm := State.wf_writeByte hm a b
  epctl _ _ _ hm := hm
  err _ _ hm := hm
  addr _ _ hm := hm
  inten _ hm := hm
  hold _ _ _ hm := hm
  ack _ _ hm := hm

/-! ### Control words as numbers -/

theorem append_toNat {n m : Nat} (x : BitVec n) (y : BitVec m) : (x ++ y).toNat = x.toNat * 2 ^ m + y.toNat := by
  rw [BitVec.toNat_append, ← Nat.shiftLeft_add_eq_or_of_lt y.isLt, Nat.shiftLeft_eq]

theorem ctlWord_toNat (bc : BitVec 10) (own data1 : Bool) (tok : BitVec 4) :
    (ctlWord bc own data1 tok).toNat =
      bc.toNat * 65536 + (if own then 128 else 0) + (if data1 then 64 else 0) + tok.toNat * 4 := by
  simp only [ctlWord, append_toNat]
  cases own <;> cases data1 <;> simp <;> omega

/-- A control word is the number its fields make. -/
theorem ctlWord_eq {n t : Nat} (hn : n < 1024) (ht : t < 16) (own data1 : Bool) :
    ctlWord (BitVec.ofNat 10 n) own data1 (BitVec.ofNat 4 t) = controlWord n own data1 t := by
  apply BitVec.eq_of_toNat_eq
  rw [ctlWord_toNat, controlWord, BitVec.toNat_ofNat, BitVec.toNat_ofNat, BitVec.toNat_ofNat, Nat.mod_eq_of_lt hn,
    Nat.mod_eq_of_lt ht, Nat.mod_eq_of_lt]
  cases own <;> cases data1 <;> simp <;> omega

/-- The word that arms a receive slot. -/
theorem armedWord_rxCount (mps : BitVec 16) (tgl : Bool) :
    armedWord (rxCount mps) tgl = controlWord (min mps.toNat 1023) true tgl 0 :=
  ctlWord_eq (by omega) (by decide) true tgl

/-- The word that arms a chunk. -/
theorem armedWord_chunk (n : Node) (mps : BitVec 16) (tgl : Bool) :
    armedWord (chunkSize n mps) tgl = controlWord (min (n.total - n.cursor).toNat (min mps.toNat 1023)) true tgl 0 :=
  ctlWord_eq (by omega) (by decide) true tgl

/-! ### Arming, with the peripheral quiet -/

theorem inCtl_of_not_inBd {p : Params} {e : EpId} {d : Dir} {x : Slot} {a : Word} (h : ¬ inBd p e d x a) :
    4 ≤ (a - bdAddr p e d x).toNat ∧ 4 ≤ (a - (bdAddr p e d x + 4#32)).toNat := by
  simp only [inBd, inRun, Nat.not_lt] at h
  refine ⟨by omega, ?_⟩
  bv_omega

section
variable {s : State} (hq : Quiet s)
include hq

/-- Arming writes the two words of its descriptor and nothing else. -/
theorem armBd_spec (hm : MemInv s) (e : EpId) (d : Dir) (x : Slot) (a : Word) (c : BitVec 10) (t : Bool) :
    (armBd e d x a c t s).bdCtl e d x = armedWord c t ∧ (armBd e d x a c t s).bdBuf e d x = a ∧
    (∀ e' d' x', (e', d', x') ≠ (e, d, x) →
      (armBd e d x a c t s).bdCtl e' d' x' = s.bdCtl e' d' x' ∧ (armBd e d x a c t s).bdBuf e' d' x' = s.bdBuf e' d' x') ∧
    SameMem (inBd s.params e d x) s (armBd e d x a c t s) ∧
    armBd e d x a c t s = s.withMem (armBd e d x a c t s).mem := by
  rw [armBd_quiet hq]
  refine ⟨State.bdCtl_setBdCtl_same _ _ _ _ _ (State.wf_setBdBuf _ _ _ _ _ hm), ?_, ?_, ?_, rfl⟩
  · rw [State.bdBuf_setBdCtl, State.bdBuf_setBdBuf_same _ _ _ _ _ hm]
  · intro e' d' x' h
    rw [State.bdCtl_setBdCtl_ne _ _ _ _ _ _ _ _ h, State.bdCtl_setBdBuf, State.bdBuf_setBdCtl,
      State.bdBuf_setBdBuf_ne _ _ _ _ _ _ _ _ h]
    exact ⟨rfl, rfl⟩
  · intro b hb
    obtain ⟨h1, h2⟩ := inCtl_of_not_inBd hb
    exact (State.read_setBdCtl_ne (s.setBdBuf e d x a) e d x _ h1).trans (State.read_setBdBuf_ne s e d x a h2)

theorem armBd_pure (e : EpId) (d : Dir) (x : Slot) (a : Word) (c : BitVec 10) (t : Bool) :
    armBd e d x a c t s = s.withMem (armBd e d x a c t s).mem := by
  rw [armBd_quiet hq]; rfl

omit hq in
theorem armRx_none {e : EpId} (hb : (s.endpoint e).rxbuf = none) : armRx e s = s := by
  unfold armRx; rw [hb]

omit hq in
theorem armRx_some {e : EpId} {b0 b1 : Word} (hb : (s.endpoint e).rxbuf = some (b0, b1)) :
    armRx e s = armBd e .rx .odd b1 (rxCount (s.endpoint e).maxpkt) true
      (armBd e .rx .even b0 (rxCount (s.endpoint e).maxpkt) false s) := by
  unfold armRx; rw [hb]

/-- Arming both receive slots writes the four words of the two receive descriptors and nothing else. -/
theorem armRx_spec (hm : MemInv s) {e : EpId} {b0 b1 : Word} (hb : (s.endpoint e).rxbuf = some (b0, b1)) :
    (armRx e s).bdCtl e .rx .even = controlWord (min (s.endpoint e).maxpkt.toNat 1023) true false 0 ∧
    (armRx e s).bdBuf e .rx .even = b0 ∧
    (armRx e s).bdCtl e .rx .odd = controlWord (min (s.endpoint e).maxpkt.toNat 1023) true true 0 ∧
    (armRx e s).bdBuf e .rx .odd = b1 ∧
    (∀ e' d' x', (e', d') ≠ (e, .rx) →
      (armRx e s).bdCtl e' d' x' = s.bdCtl e' d' x' ∧ (armRx e s).bdBuf e' d' x' = s.bdBuf e' d' x') ∧
    SameMem (fun a => inBd s.params e .rx .even a ∨ inBd s.params e .rx .odd a) s (armRx e s) ∧
    armRx e s = s.withMem (armRx e s).mem := by
  rw [armRx_some hb]
  obtain ⟨c1, f1, o1, m1, q1⟩ := armBd_spec hq hm e .rx .even b0 (rxCount (s.endpoint e).maxpkt) false
  have hu := armBd_keeps memInv_closed.toStable e .rx .even b0 (rxCount (s.endpoint e).maxpkt) false hm
  have hv := armBd_keeps quiet_closed.toStable e .rx .even b0 (rxCount (s.endpoint e).maxpkt) false hq
  generalize armBd e .rx .even b0 (rxCount (s.endpoint e).maxpkt) false s = u at *
  obtain ⟨c2, f2, o2, m2, q2⟩ := armBd_spec hv hu e .rx .odd b1 (rxCount (s.endpoint e).maxpkt) true
  have hp : u.params = s.params := by rw [q1]; rfl
  generalize armBd e .rx .odd b1 (rxCount (s.endpoint e).maxpkt) true u = w at *
  refine ⟨?_, ?_, ?_, f2, ?_, ?_, ?_⟩
  · rw [(o2 e .rx .even (by simp)).1, c1, armedWord_rxCount]
  · rw [(o2 e .rx .even (by simp)).2, f1]
  · rw [c2, armedWord_rxCount]
  · intro e' d' x' h
    have h1 : ∀ y, (e', d', x') ≠ (e, Dir.rx, y) := fun y k => h (by rw [Prod.mk.injEq, Prod.mk.injEq] at k; rw [k.1, k.2.1])
    exact ⟨(o2 _ _ _ (h1 _)).1.trans (o1 _ _ _ (h1 _)).1, (o2 _ _ _ (h1 _)).2.trans (o1 _ _ _ (h1 _)).2⟩
  · intro a ha
    have ha2 : ¬ inBd u.params e .rx .odd a := by rw [hp]; exact fun k => ha (.inr k)
    exact (m2 a ha2).trans (m1 a fun k => ha (.inl k))
  · rw [q2, q1]; rfl

end

end Sys2Proof.Machine
end

