-- ==== Sys2Proof/Laws/Nodes.lean ====
section
/-! SUPPORT. Copying bytes, building a node, what a successful or failed allocation leaves, what completing nodes frees,
in which order arming publishes, when a command is refused for its data range: what each can do, said once. -/

namespace Sys2Proof.Machine

/-! ### Copying -/

theorem writeByte_of_out {s : State} {a : Word} (h : inRegs s.params a = false) (b : Byte) :
    s.writeByte a b = s.withMem (s.mem.write a b) := by simp [State.writeByte, h]

theorem readByte_write_ne {s : State} {a c : Word} (b : Byte) (h : c ≠ a) :
    (s.withMem (s.mem.write a b)).readByte c = s.readByte c :=
  State.readByte_congr rfl rfl rfl rfl (Memory.read_write_ne _ b h)

/-- Where the destination is clear of the register block and does not wrap, a copy is `Copied`, writes nothing else, and
changes nothing but memory. -/
theorem copyBytes_spec (n : Nat) : ∀ {s : State} (src dst : Word), Quiet s → MemInv s → dst.toNat + n ≤ 2 ^ 32 →
    (∀ i < n, inRegs s.params (dst + BitVec.ofNat 32 i) = false) →
    Copied src dst n s (copyBytes n src dst s) ∧ SameMem (inRun dst n) s (copyBytes n src dst s) ∧
    copyBytes n src dst s = s.withMem (copyBytes n src dst s).mem := by
  induction n with
  | zero => intro s src dst _ _ _ _; exact ⟨fun i h => absurd h (Nat.not_lt_zero i), fun _ _ => rfl, rfl⟩
  | succ n ih =>
    intro s src dst hq hm hw hr
    have hr0 : inRegs s.params dst = false := by simpa using hr 0 (by omega)
    have e : copyBytes (n + 1) src dst s =
        copyBytes n (src + 1#32) (dst + 1#32) (s.withMem (s.mem.write dst (s.readByte src))) := by
      simp only [copyBytes, tick_quiet hq, writeByte_of_out hr0]
    have shift : ∀ (x : Word) (i : Nat), x + 1#32 + BitVec.ofNat 32 i = x + BitVec.ofNat 32 (i + 1) := by
      intro x i; bv_omega
    rw [e]
    generalize hu : s.withMem (s.mem.write dst (s.readByte src)) = u
    have hum : MemInv u := by subst hu; exact Memory.wf_write hm _ _
    have huq : Quiet u := by subst hu; exact hq
    have hup : u.params = s.params := by subst hu; rfl
    have hw' : (dst + 1#32).toNat + n ≤ 2 ^ 32 := by bv_omega
    obtain ⟨c, m, p⟩ := ih (s := u) (src + 1#32) (dst + 1#32) huq hum hw'
      (fun i hi => by rw [hup, shift]; exact hr (i + 1) (by omega))
    generalize copyBytes n (src + 1#32) (dst + 1#32) u = t at *
    have kept : t.mem.read dst = u.mem.read dst := m dst (by show ¬ (dst - (dst + 1#32)).toNat < n; bv_omega)
    have first : t.mem.read dst = s.readByte src := by
      rw [kept]; subst hu; exact Memory.read_write_same hm _ _
    have old : ∀ a, a ≠ dst → u.readByte a = s.readByte a := by
      intro a ha; subst hu; exact readByte_write_ne _ ha
    refine ⟨?_, ?_, ?_⟩
    · intro i hi
      cases i with
      | zero => exact ⟨fun _ => by simpa using first, fun j hj => absurd hj (Nat.not_lt_zero j)⟩
      | succ i =>
        obtain ⟨c1, c2⟩ := c i (by omega)
        rw [shift, shift] at c1
        refine ⟨fun h => ?_, fun j hj h => ?_⟩
        · rw [c1 (fun j hj => by rw [shift]; exact h (j + 1) (by omega))]
          exact old _ (by simpa using h 0 (by omega))
        · cases j with
          | succ j =>
            have := c2 j (by omega) (by rw [shift, shift]; exact h)
            rw [shift, shift] at this
            exact this
          | zero =>
            have h0 : src + BitVec.ofNat 32 (i + 1) = dst := by simpa using h
            rw [c1 (fun j hj k => by
              rw [shift, h0] at k
              have hne : dst ≠ dst + BitVec.ofNat 32 (j + 1) := by intro k; bv_omega
              exact hne k)]
            rw [h0, State.readByte_mem (by rw [hup]; exact hr0), ← kept]
            simp
    · intro a ha
      have h1 : a ≠ dst := by rintro rfl; exact ha (by show (a - a).toNat < n + 1; simp)
      have h2 : ¬ inRun (dst + 1#32) n a := by
        intro k; apply ha; show (a - dst).toNat < n + 1
        have : (a - (dst + 1#32)).toNat < n := k
        bv_omega
      rw [m a h2]; subst hu
      exact Memory.read_write_ne _ _ h1
    · rw [p]; subst hu; rfl

/-! ### A block the oracle granted -/

/-- A granted block does not wrap and is clear of the register block and of the table. -/
theorem granted_clear {s : State} (hp : Params.ok s.params) {b n : Word} (h : s.blockGrantable b.toNat n.toNat = true) :
    b.toNat + n.toNat ≤ 2 ^ 32 ∧
    (∀ i < n.toNat, inRegs s.params (b + BitVec.ofNat 32 i) = false ∧ inTable s.params (b + BitVec.ofNat 32 i) = false) := by
  obtain ⟨p1, p2, p3, _, _, _, _, _, _, _, _⟩ := hp
  simp only [State.blockGrantable, apart, Bool.and_eq_true, Bool.or_eq_true, decide_eq_true_eq] at h
  obtain ⟨⟨⟨⟨⟨g1, g2⟩, _⟩, _⟩, g3⟩, g4⟩ := h
  refine ⟨by omega, fun i hi => ⟨?_, ?_⟩⟩
  · simp only [inRegs, decide_eq_false_iff_not, Nat.not_lt]
    bv_omega
  · simp only [inTable, decide_eq_false_iff_not, Nat.not_lt]
    bv_omega

/-! ### Building a node -/

/-- A node of no bytes references no buffer. -/
theorem prepNode_empty {s : State} {h : Word} (src : TxSource) (cb : Word) (ha : s.allocNode.1 = some h) :
    prepNode src 0#32 cb s = (some h, s.allocNode.2.putNode h
      { total := 0#32, cursor := 0#32, cb := cb, owns := false, buf := 0#32, st := .prepared }) := by
  unfold prepNode
  rcases hx : s.allocNode with ⟨o, t⟩
  rw [hx] at ha
  cases ha
  rfl

/-- A node of some bytes owns the block it fills. -/
theorem prepNode_data {s : State} {h b len : Word} (src : TxSource) (cb : Word) (hl : len ≠ 0#32)
    (ha : s.allocNode.1 = some h) (hb : (s.allocNode.2.alloc len).1 = some b) :
    prepNode src len cb s = (some h, (fillFrom src len b (s.allocNode.2.alloc len).2).putNode h
      { total := len, cursor := 0#32, cb := cb, owns := true, buf := b, st := .prepared }) := by
  unfold prepNode
  rcases hx : s.allocNode with ⟨o, t⟩
  rw [hx] at ha hb
  cases ha
  rcases hy : t.alloc len with ⟨o', u⟩
  simp only at hb ⊢
  rw [hy] at hb
  cases hb
  simp [hl, hy]

/-- A node that cannot be built leaves nothing but the draws used up. -/
theorem prepNode_fails {s : State} (src : TxSource) (len cb : Word) (hf : AllocationFails s len) :
    ∃ x : Env, prepNode src len cb s = (none, s.withEnv x) ∧ x.inbox = s.env.inbox ∧ x.between = s.env.between := by
  obtain ⟨x, hi, hb, hx | ⟨h, hg, hx⟩⟩ := s.allocNode_cases
  · exact ⟨x, by unfold prepNode; rw [hx], hi, hb⟩
  · have hfree : (s.withEnv x).node? h = none := by
      simp only [State.nodeGrantable, Bool.and_eq_true, Option.isNone_iff_eq_none] at hg
      exact hg.2
    rw [AllocationFails, hx] at hf
    obtain ⟨hl, hn⟩ := hf.resolve_left (by simp)
    obtain ⟨y, yi, yb, hy | ⟨p, _, hy⟩⟩ := ((s.withEnv x).putNode h Node.blank).alloc_cases len
    · refine ⟨y, ?_, yi.trans hi, yb.trans hb⟩
      unfold prepNode
      simp only [hx, hl, if_false, hy]
      have e : (((s.withEnv x).putNode h Node.blank).withEnv y).freeNode h =
          (((s.withEnv x).putNode h Node.blank).freeNode h).withEnv y := rfl
      rw [e, State.freeNode_putNode _ _ _ hfree]
      rfl
    · rw [hy] at hn; cases hn

/-- A successful draw of a node: the handle is of a FREE node and nothing else changes but the draws. -/
theorem allocNode_some {s : State} {h : Word} (ha : s.allocNode.1 = some h) :
    ∃ x : Env, x.inbox = s.env.inbox ∧ x.between = s.env.between ∧ s.nodeGrantable h = true ∧
      s.allocNode.2 = (s.withEnv x).putNode h Node.blank := by
  obtain ⟨x, hi, hb, hx | ⟨k, hg, hx⟩⟩ := s.allocNode_cases
  · rw [hx] at ha; cases ha
  · rw [hx] at ha; cases ha
    exact ⟨x, hi, hb, hg, by rw [hx]⟩

/-- A successful draw of a block: it is grantable and becomes live, and nothing else changes but the draws. -/
theorem alloc_some {s : State} {b n : Word} (ha : (s.alloc n).1 = some b) :
    ∃ x : Env, x.inbox = s.env.inbox ∧ x.between = s.env.between ∧ s.blockGrantable b.toNat n.toNat = true ∧
      (s.alloc n).2 = (s.withEnv x).withPool { s.pool with live := insertBlock (b.toNat, n.toNat) s.pool.live } := by
  obtain ⟨x, hi, hb, hx | ⟨p, hg, hx⟩⟩ := s.alloc_cases n
  · rw [hx] at ha; cases ha
  · rw [hx] at ha; cases ha
    exact ⟨x, hi, hb, hg, by rw [hx]⟩

/-! ### Completing nodes -/

/-- Two changes of one record are one. -/
theorem updEp_updEp (s : State) (e : EpId) (f g : EpRec → EpRec) :
    (s.updEp e f).updEp e g = s.updEp e fun r => g (f r) := by
  unfold State.updEp State.endpoint
  simp only [State.withEp, Vector.getElem_set_self, Vector.set_set]

/-- What `COMPLETE` can do: events, the pool, and the head of one queue. -/
theorem complete_shape (e : EpId) (h : Word) (s : State) : ∃ ev pool, complete e h s =
    ((s.withTrace { s.trace with evt := ev }).withPool pool).updEp e fun r => { r with txq := r.txq.tail } := by
  unfold complete
  by_cases hc : (s.node h).cb = 0#32 <;> by_cases ho : (s.node h).owns = true <;> simp only [hc, ho, if_true, if_false]
  · exact ⟨s.trace.evt, ((s.freeBlock (s.node h).buf (s.node h).total.toNat).freeNode h).pool, rfl⟩
  · exact ⟨s.trace.evt, (s.freeNode h).pool, rfl⟩
  · exact ⟨s.trace.evt ++ [.complete e (s.node h).cb],
      ((s.freeBlock (s.node h).buf (s.node h).total.toNat).freeNode h).pool, rfl⟩
  · exact ⟨s.trace.evt ++ [.complete e (s.node h).cb], (s.freeNode h).pool, rfl⟩

/-- Completing nodes one after another drops as many from the queue. -/
theorem completeAll_shape (e : EpId) : ∀ (l : List Word) (s : State), ∃ ev pool,
    l.foldl (fun t h => complete e h t) s =
    ((s.withTrace { s.trace with evt := ev }).withPool pool).updEp e fun r => { r with txq := r.txq.drop l.length }
  | [], s => ⟨s.trace.evt, s.pool, by
      unfold State.updEp State.endpoint
      simp only [List.foldl_nil, State.withEp, State.withTrace, State.withPool, List.length_nil, List.drop_zero]
      have : s.ep.set e.val (s.ep[e.val]) e.isLt = s.ep := by simp
      exact (congrArg (fun x => ({ s with ep := x } : State)) this).symm⟩
  | h :: l, s => by
    obtain ⟨ev, pool, h1⟩ := complete_shape e h s
    obtain ⟨ev', pool', h2⟩ := completeAll_shape e l (complete e h s)
    refine ⟨ev', pool', ?_⟩
    rw [List.foldl_cons, h2, h1]
    refine (updEp_updEp ((s.withTrace { s.trace with evt := ev' }).withPool pool') e
      (fun r => { r with txq := r.txq.tail }) fun r => { r with txq := r.txq.drop l.length }).trans ?_
    simp

/-- What `CANCELQ` can do: events, the pool, and one queue emptied. -/
theorem cancelQueue_shape (e : EpId) (s : State) : ∃ ev pool, cancelQueue e s =
    ((s.withTrace { s.trace with evt := ev }).withPool pool).updEp e fun r => { r with txq := [] } := by
  obtain ⟨ev, pool, h⟩ := completeAll_shape e (s.endpoint e).txq s
  refine ⟨ev, pool, h.trans ?_⟩
  unfold State.updEp
  simp

theorem complete_node?_ne {h k : Word} (e : EpId) (s : State) (hk : k ≠ h) : (complete e h s).node? k = s.node? k := by
  unfold complete
  by_cases hc : (s.node h).cb = 0#32 <;> by_cases ho : (s.node h).owns = true <;> simp only [hc, ho, if_true, if_false] <;>
    exact State.freeNode_node?_ne _ _ _ hk

theorem completeAll_node?_ne (e : EpId) : ∀ (l : List Word) (s : State) (k : Word), k ∉ l →
    (l.foldl (fun t h => complete e h t) s).node? k = s.node? k
  | [], _, _, _ => rfl
  | h :: l, s, k, hk => by
    rw [List.foldl_cons, completeAll_node?_ne e l _ k (fun x => hk (List.mem_cons_of_mem _ x))]
    exact complete_node?_ne e s (fun x => hk (x ▸ List.mem_cons_self ..))

/-- What `COMPLETE` leaves live: all but the block of the node, if it owns one. -/
theorem complete_live (e : EpId) (h : Word) (s : State) :
    (complete e h s).pool.live = if (s.node h).owns then s.pool.live.erase (nodeBlock (s.node h)) else s.pool.live := by
  unfold complete
  by_cases hc : (s.node h).cb = 0#32 <;> by_cases ho : (s.node h).owns = true <;> simp only [hc, ho, if_true, if_false] <;> rfl

theorem complete_node_ne {h k : Word} (e : EpId) (s : State) (hk : k ≠ h) : (complete e h s).node k = s.node k := by
  unfold complete
  by_cases hc : (s.node h).cb = 0#32 <;> by_cases ho : (s.node h).owns = true <;> simp only [hc, ho, if_true, if_false] <;>
    exact State.freeNode_node_ne _ _ _ hk

theorem completeAll_live (e : EpId) : ∀ (l : List Word) {s : State}, l.Nodup →
    (l.foldl (fun t h => complete e h t) s).pool.live =
      freed (l.filterMap fun h => if (s.node h).owns then some (nodeBlock (s.node h)) else none) s.pool.live
  | [], _, _ => rfl
  | h :: rest, s, hn => by
    obtain ⟨h1, h2⟩ := List.nodup_cons.mp hn
    have same : ∀ k ∈ rest, (complete e h s).node k = s.node k :=
      fun k hk => complete_node_ne e s (by rintro rfl; exact h1 hk)
    rw [List.foldl_cons, completeAll_live e rest h2, complete_live, List.filterMap_cons,
      List.filterMap_congr fun k hk => by rw [same k hk]]
    cases (s.node h).owns <;> rfl

/-- `CANCELQ` frees the blocks that the nodes of the queue own, and no other. -/
theorem cancelQueue_live {s : State} (e : EpId) (hn : (s.endpoint e).txq.Nodup) :
    (cancelQueue e s).pool.live = freed (queueBlocks s e) s.pool.live := completeAll_live e _ hn

/-! ### Parity -/

/-- Where the pointers and parities agree, the slot a pump arms is the parity slot: the fallback is not taken (41_txqueue.md R153). -/
theorem freeSlot_eq_parity {s : State} {e : EpId} {f : Slot} (hp : ParityInv s) (hh : s.regs.hold = false)
    (hk : hookOf s.params e = 0#32) (hf : freeSlot s e = some f) : f = (s.endpoint e).txodd := by
  obtain ⟨_, one, _⟩ := hp hh e hk
  unfold freeSlot at hf
  split at hf
  · exact (Option.some.inj hf).symm
  · split at hf
    · rename_i h1 h2
      obtain ⟨a, b⟩ := one (s.endpoint e).txodd (by cases (s.endpoint e).txodd <;> simp) (by simpa using h1) h2
      rw [← a] at b
      cases h : (s.endpoint e).txodd <;> rw [h] at b <;> cases b
    · cases hf

/-! ### The publish order -/

/-- An IN finds nothing to send while the slot at the pointer is FirmwareOwned. -/
theorem pIn_idle {s : State} {e : EpId} (h : s.bdOwn e .tx (s.sie.txAt e) = false) : pIn e s = s := by
  have : s.inEnabled e = false := by
    unfold State.inEnabled; rw [show ctlOwn (s.bdCtl e .tx (s.sie.txAt e)) = false from h, Bool.and_false]
  simp [pIn, this]

/-- Arming a transmit slot while both are FirmwareOwned publishes the address first: an IN between the two writes is no step. -/
theorem armBd_publishes {s : State} {e : EpId} (x : Slot) (a : Word) (c : BitVec 10) (t : Bool)
    (hb : s.env.between = [[], [.inTok e]]) (he : s.bdOwn e .tx .even = false) (ho : s.bdOwn e .tx .odd = false) :
    armBd e .tx x a c t s = armBd e .tx x a c t (s.withEnv { s.env with between := [] }) := by
  have idle : ∀ u : State, u.params = s.params → u.mem = (s.setBdBuf e .tx x a).mem → pIn e u = u := by
    intro u hp hm
    refine pIn_idle ?_
    have own : u.bdOwn e .tx (u.sie.txAt e) = s.bdOwn e .tx (u.sie.txAt e) := by
      simp only [State.bdOwn]
      rw [State.bdCtl_congr (s := s.setBdBuf e .tx x a) hm hp, State.bdCtl_setBdBuf]
    rw [own]
    cases u.sie.txAt e <;> assumption
  have first : tick s = s.withEnv { s.env with between := [[.inTok e]] } := by unfold tick; rw [hb]; rfl
  have second : tick ((s.withEnv { s.env with between := [[.inTok e]] }).setBdBuf e .tx x a) =
      (s.withEnv { s.env with between := [] }).setBdBuf e .tx x a := idle _ rfl rfl
  rw [armBd_quiet (s := s.withEnv { s.env with between := [] }) rfl]
  unfold armBd writeCtl writeBuf
  rw [first, second]

/-- A pump that arms a chunk while both slots are FirmwareOwned does so whatever IN falls between its last two writes. -/
theorem pump_publishes {s : State} {e : EpId} {h : Word} {rest : List Word}
    (hb : s.env.between = [[], [], [], [.inTok e]]) (he : s.bdOwn e .tx .even = false) (ho : s.bdOwn e .tx .odd = false)
    (hx : (s.endpoint e).txq = h :: rest) (hn : ¬ ((s.node h).cursor = (s.node h).total ∧ (s.node h).total ≠ 0#32)) :
    pump e s = pump e (s.withEnv { s.env with between := [] }) := by
  have own : ∀ x, s.bdOwn e .tx x = false := by intro x; cases x <;> assumption
  have first : tick s = s.withEnv { s.env with between := [[], [], [.inTok e]] } := by unfold tick; rw [hb]; rfl
  have second : tick (s.withEnv { s.env with between := [[], [], [.inTok e]] }) =
      s.withEnv { s.env with between := [[], [.inTok e]] } := rfl
  have arm : armChunk e h (s.endpoint e).txodd (s.withEnv { s.env with between := [[], [.inTok e]] }) =
      armChunk e h (s.endpoint e).txodd (s.withEnv { s.env with between := [] }) := by
    have := armBd_publishes (s := s.withEnv { s.env with between := [[], [.inTok e]] }) (e := e) (s.endpoint e).txodd
      (chunkAddr (s.node h)) (chunkSize (s.node h) (s.endpoint e).maxpkt) (s.endpoint e).txtoggle rfl he ho
    unfold armChunk
    simp only [State.withEnv_endpoint]
    change (State.updEp (armBd e .tx (s.endpoint e).txodd (chunkAddr (s.node h)) (chunkSize (s.node h) (s.endpoint e).maxpkt)
      (s.endpoint e).txtoggle _) e _).putNode h _ = _
    rw [this]
    rfl
  have own' : ∀ (x : Slot) (v : Env), (s.withEnv v).bdOwn e .tx x = false := fun x _ => own x
  have hn' : ∀ v : Env, ¬ (((s.withEnv v).node h).cursor = ((s.withEnv v).node h).total ∧
    ((s.withEnv v).node h).total ≠ 0#32) := fun _ => hn
  unfold pump
  simp only [State.withEnv_endpoint, hx, first, second, tick_quiet (s := s.withEnv { s.env with between := [] }) rfl, own',
    hn', Bool.and_self, Bool.false_eq_true, if_false, arm]
  rfl

/-! ### The `data` range of a command -/

theorem mem_epIds : ∀ e : EpId, e ∈ epIds := by decide

/-- The check the machine makes is the peripheral's reach of some byte of the run. -/
theorem mayBeWritten_iff {s : State} {a : Word} {n : Nat} (hn : n ≤ 2 ^ 32) :
    s.mayBeWritten a n = true ↔ ∃ i < n, MayBeWritten s (a + BitVec.ofNat 32 i) := by
  have run : ∀ e x, runsMeet a n (s.bdBuf e .rx x) (ctlBc (s.bdCtl e .rx x)).toNat = true ↔
      ∃ i < n, inRun (s.bdBuf e .rx x) (ctlBc (s.bdCtl e .rx x)).toNat (a + BitVec.ofNat 32 i) :=
    fun e x => runsMeet_iff hn (by have := (ctlBc (s.bdCtl e .rx x)).isLt; omega)
  simp only [State.mayBeWritten, State.armedRx, MayBeWritten, inTable, Bool.or_eq_true, List.any_eq_true,
    Bool.and_eq_true, decide_eq_true_eq, run, runsMeet_iff hn (show 512 ≤ 2 ^ 32 by decide),
    runsMeet_iff hn (show 4 ≤ 2 ^ 32 by decide)]
  constructor
  · rintro ((⟨i, hi, h⟩ | ⟨off, ho, i, hi, h⟩) | ⟨e, _, x, _, ⟨h1, h2⟩, i, hi, h3⟩)
    · exact ⟨i, hi, .inl h⟩
    · exact ⟨i, hi, .inr (.inl ⟨off, ho, h⟩)⟩
    · exact ⟨i, hi, .inr (.inr ⟨e, x, h1, h2, h3⟩)⟩
  · rintro ⟨i, hi, h | ⟨off, ho, h⟩ | ⟨e, x, h1, h2, h3⟩⟩
    · exact .inl (.inl ⟨i, hi, h⟩)
    · exact .inl (.inr ⟨off, ho, i, hi, h⟩)
    · exact .inr ⟨e, mem_epIds e, x, by cases x <;> simp, ⟨h1, h2⟩, i, hi, h3⟩

/-- A command that copies the client's own bytes runs. -/
theorem copyingCommand_ready {copies : State → Bool} {s : State} (run : State → State) (hr : Ready s)
    (hd : ¬ DataMayBeWritten s) : copyingCommand copies run s = .next (run s) := by
  have h : s.mayBeWritten s.dataAddr s.dataLen.toNat = false := by
    rw [Bool.eq_false_iff]
    exact fun h => hd ((mayBeWritten_iff (Nat.le_of_lt s.dataLen.isLt)).mp h)
  rw [copyingCommand_free run (by rw [h, Bool.and_false]), command_ready run hr.1 hr.2]

/-- A command that would copy bytes the peripheral may be writing is refused. -/
theorem copyingCommand_refused {copies : State → Bool} {s : State} (run : State → State) (hr : Ready s)
    (hc : copies s = true) (hd : DataMayBeWritten s) : copyingCommand copies run s = .refused .dataMayBeWritten := by
  have h : s.mayBeWritten s.dataAddr s.dataLen.toNat = true :=
    (mayBeWritten_iff (Nat.le_of_lt s.dataLen.isLt)).mpr hd
  simp [copyingCommand, command_ready run hr.1 hr.2, hc, h]

end Sys2Proof.Machine
end

