-- ==== Sys2Proof/Laws/PerInstr.lean ====
section
/-! SUPPORT. What is proved of every instruction as syntax: its encoding has the format, the fixed bits and the pattern of
its row of spec/opcode_table.json. -/

namespace Sys2Proof.Laws.OpcodeRow

/-- The format, mask and match of a row of spec/opcode_table.json; a row without a match has mask 0. -/
structure Row where
  format : Format
  mask : Nat
  pattern : Nat
deriving DecidableEq, Repr

/-- The row of an instruction; the pattern of `VENDOR_REBOOT` is the parameter `REBOOT_KEY` (30_encoding.md R108). -/
def rowOf (rk : BitVec 16) : Instr → Row
  | .cfgep _ _ => { format := .cmd, mask := 0xff, pattern := 0x1 }
  | .prep => { format := .cmd, mask := 0xff, pattern := 0x2 }
  | .enq _ => { format := .cmd, mask := 0xff, pattern := 0x3 }
  | .send _ => { format := .cmd, mask := 0xff, pattern := 0x4 }
  | .trysend _ => { format := .cmd, mask := 0xff, pattern := 0x5 }
  | .cancel _ => { format := .cmd, mask := 0xff, pattern := 0x6 }
  | .qpend _ => { format := .cmd, mask := 0xff, pattern := 0x7 }
  | .qbusy _ => { format := .cmd, mask := 0xff, pattern := 0x8 }
  | .iReset => { format := .istat, mask := 0x1, pattern := 0x1 }
  | .iError => { format := .istat, mask := 0x2, pattern := 0x2 }
  | .iSof => { format := .istat, mask := 0x4, pattern := 0x4 }
  | .iTokdne _ => { format := .istat, mask := 0x8, pattern := 0x8 }
  | .iSleep => { format := .istat, mask := 0x10, pattern := 0x10 }
  | .iResume => { format := .istat, mask := 0x20, pattern := 0x20 }
  | .iAttach => { format := .istat, mask := 0x40, pattern := 0x40 }
  | .iStall => { format := .istat, mask := 0x80, pattern := 0x80 }
  | .tIn _ _ => { format := .stat, mask := 0x8, pattern := 0x8 }
  | .tSetup _ _ _ => { format := .bd, mask := 0xbc, pattern := 0x34 }
  | .tOut _ _ _ => { format := .bd, mask := 0xbc, pattern := 0x4 }
  | .getStatus => { format := .setup, mask := 0xffff, pattern := 0x80 }
  | .setAddress => { format := .setup, mask := 0xffff, pattern := 0x500 }
  | .getDescriptor => { format := .setup, mask := 0xffff, pattern := 0x680 }
  | .getDescriptorIf => { format := .setup, mask := 0xffff, pattern := 0x681 }
  | .getConfiguration => { format := .setup, mask := 0xffff, pattern := 0x880 }
  | .setConfiguration => { format := .setup, mask := 0xffff, pattern := 0x900 }
  | .vendorReboot => { format := .setup, mask := 0xFFFF, pattern := rk.toNat }
  | .stallDefault _ => { format := .setup, mask := 0x0, pattern := 0x0 }
  | .pReset => { format := .host, mask := 0, pattern := 0 }
  | .pSof => { format := .host, mask := 0, pattern := 0 }
  | .pErr _ => { format := .host, mask := 0, pattern := 0 }
  | .pSleep => { format := .host, mask := 0, pattern := 0 }
  | .pResume => { format := .host, mask := 0, pattern := 0 }
  | .pAttach => { format := .host, mask := 0, pattern := 0 }
  | .pSetup _ _ => { format := .host, mask := 0xf, pattern := 0xd }
  | .pIn _ => { format := .host, mask := 0xf, pattern := 0x9 }
  | .pOut _ _ _ => { format := .host, mask := 0xf, pattern := 0x1 }
  | .pStalled _ => { format := .host, mask := 0, pattern := 0 }

/-- The number of the first two bytes of an encoding: no mask of the table is wider. -/
def leadingBits (bytes : List Byte) : Nat := (bytes.getD 0 0#8).toNat + 256 * (bytes.getD 1 0#8).toNat

/-- The encoding of `i`, where it is well-formed, agrees with its row of spec/opcode_table.json. -/
def Statement (i : Instr) : Prop :=
  ∀ rk : BitVec 16, WellFormed rk i = true →
    (encode rk i).1 = (rowOf rk i).format ∧ leadingBits (encode rk i).2 &&& (rowOf rk i).mask = (rowOf rk i).pattern

/-! ### What the lemmas share -/

/-- A mask of one byte sees the first byte alone. -/
theorem first_byte {m : Nat} (hm : m < 256) (a : BitVec 8) (rest : List Byte) :
    leadingBits (a :: rest) &&& m = a.toNat &&& m := by
  have h : m = 0xFF &&& m := by
    rw [Nat.and_comm, show (0xFF : Nat) = 2 ^ 8 - 1 from rfl, Nat.and_two_pow_sub_one_eq_mod, Nat.mod_eq_of_lt hm]
  rw [h, ← Nat.and_assoc, ← Nat.and_assoc]
  congr 1
  rw [show (0xFF : Nat) = 2 ^ 8 - 1 from rfl, Nat.and_two_pow_sub_one_eq_mod, Nat.and_two_pow_sub_one_eq_mod]
  simp [leadingBits]

theorem mask_ffff (k : BitVec 16) (rest : List Byte) :
    leadingBits (k.extractLsb' 0 8 :: k.extractLsb' 8 8 :: rest) &&& 0xFFFF = k.toNat := by
  have h : (0xFFFF : Nat) = 2 ^ 16 - 1 := rfl
  rw [h, Nat.and_two_pow_sub_one_eq_mod]
  simp [leadingBits, Nat.shiftRight_eq_div_pow]; omega

/-- The low byte of a command word is its operation code. -/
theorem cmdWord_low (op ep : BitVec 8) (imm : BitVec 16) : byteOfWord (cmdWord op ep imm) 0 = op := by
  apply BitVec.eq_of_getLsbD_eq
  intro i hi
  simp only [byteOfWord, cmdWord, BitVec.getLsbD_extractLsb', BitVec.getLsbD_append]
  simp [hi]

theorem command (op ep : BitVec 8) (imm : BitVec 16) : leadingBits (bytesOfWord (cmdWord op ep imm)) &&& 0xFF = op.toNat := by
  rw [bytesOfWord, first_byte (by decide), cmdWord_low, show (0xFF : Nat) = 2 ^ 8 - 1 from rfl,
    Nat.and_two_pow_sub_one_eq_mod, Nat.mod_eq_of_lt op.isLt]

theorem request (k : BitVec 16) : leadingBits (setupBytes k) &&& 0xFFFF = k.toNat := mask_ffff k _

/-- The low byte of a written-back control word: the toggle in bit 6, the token in bits 5:2. -/
theorem ctlWord_low (bc : BitVec 10) (d : Bool) (tok : BitVec 4) :
    byteOfWord (ctlWord bc false d tok) 0 = BitVec.ofBool false ++ BitVec.ofBool d ++ tok ++ 0#2 := by
  apply BitVec.eq_of_getLsbD_eq
  intro i hi
  simp only [byteOfWord, ctlWord, BitVec.getLsbD_extractLsb', BitVec.getLsbD_append]
  simp only [hi, decide_true, Bool.true_and, Nat.mul_zero, Nat.zero_add]
  split
  · rfl
  · split
    · rfl
    · split
      · rfl
      · split
        · rfl
        · omega

theorem descriptor (e : EpId) (d : Bool) (payload : List Byte) :
    leadingBits (bdBytes tokSetup e d payload) &&& 0xBC = 0x34 ∧ leadingBits (bdBytes tokOut e d payload) &&& 0xBC = 0x04 := by
  simp only [bdBytes, bytesOfWord, List.cons_append, ctlWord_low]
  rw [first_byte (by decide), first_byte (by decide)]
  cases d <;> exact ⟨rfl, rfl⟩

/-- A `STAT` byte of a transmit entry has bit 3 set. -/
theorem stat_tx (e : EpId) (x : Slot) : (statByte e .tx x).toNat &&& 0x8 = 0x8 := by revert e; cases x <;> decide

/-! ### One lemma per constructor -/

theorem cfgep (ep : BitVec 8) (mps : BitVec 16) : Statement (.cfgep ep mps) := fun _ _ => ⟨rfl, command _ _ _⟩
theorem prep : Statement .prep := fun _ _ => ⟨rfl, command _ _ _⟩
theorem enq (ep : BitVec 8) : Statement (.enq ep) := fun _ _ => ⟨rfl, command _ _ _⟩
theorem send (ep : BitVec 8) : Statement (.send ep) := fun _ _ => ⟨rfl, command _ _ _⟩
theorem trysend (ep : BitVec 8) : Statement (.trysend ep) := fun _ _ => ⟨rfl, command _ _ _⟩
theorem cancel (ep : BitVec 8) : Statement (.cancel ep) := fun _ _ => ⟨rfl, command _ _ _⟩
theorem qpend (ep : BitVec 8) : Statement (.qpend ep) := fun _ _ => ⟨rfl, command _ _ _⟩
theorem qbusy (ep : BitVec 8) : Statement (.qbusy ep) := fun _ _ => ⟨rfl, command _ _ _⟩
theorem iReset : Statement .iReset := fun _ _ => ⟨rfl, first_byte (m := 1) (by decide) _ _⟩
theorem iError : Statement .iError := fun _ _ => ⟨rfl, first_byte (m := 2) (by decide) _ _⟩
theorem iSof : Statement .iSof := fun _ _ => ⟨rfl, first_byte (m := 4) (by decide) _ _⟩
theorem iTokdne (st : BitVec 8) : Statement (.iTokdne st) := fun _ _ => ⟨rfl, first_byte (m := 0x8) (by decide) _ _⟩
theorem iSleep : Statement .iSleep := fun _ _ => ⟨rfl, first_byte (m := 0x10) (by decide) _ _⟩
theorem iResume : Statement .iResume := fun _ _ => ⟨rfl, first_byte (m := 0x20) (by decide) _ _⟩
theorem iAttach : Statement .iAttach := fun _ _ => ⟨rfl, first_byte (m := 0x40) (by decide) _ _⟩
theorem iStall : Statement .iStall := fun _ _ => ⟨rfl, first_byte (m := 0x80) (by decide) _ _⟩
theorem tIn (e : EpId) (x : Slot) : Statement (.tIn e x) := fun _ _ => ⟨rfl, (first_byte (m := 0x8) (by decide) _ _).trans (stat_tx e x)⟩
theorem tSetup (e : EpId) (d : Bool) (payload : List Byte) : Statement (.tSetup e d payload) := fun _ _ => ⟨rfl, (descriptor e d payload).1⟩
theorem tOut (e : EpId) (d : Bool) (payload : List Byte) : Statement (.tOut e d payload) := fun _ _ => ⟨rfl, (descriptor e d payload).2⟩
theorem getStatus : Statement .getStatus := fun _ _ => ⟨rfl, request _⟩
theorem setAddress : Statement .setAddress := fun _ _ => ⟨rfl, request _⟩
theorem getDescriptor : Statement .getDescriptor := fun _ _ => ⟨rfl, request _⟩
theorem getDescriptorIf : Statement .getDescriptorIf := fun _ _ => ⟨rfl, request _⟩
theorem getConfiguration : Statement .getConfiguration := fun _ _ => ⟨rfl, request _⟩
theorem setConfiguration : Statement .setConfiguration := fun _ _ => ⟨rfl, request _⟩
theorem vendorReboot : Statement .vendorReboot := fun _ _ => ⟨rfl, request _⟩
theorem stallDefault (key : BitVec 16) : Statement (.stallDefault key) := fun _ _ => ⟨rfl, Nat.and_zero _⟩
theorem pReset : Statement .pReset := fun _ _ => ⟨rfl, Nat.and_zero _⟩
theorem pSof : Statement .pSof := fun _ _ => ⟨rfl, Nat.and_zero _⟩
theorem pErr (bits : BitVec 5) : Statement (.pErr bits) := fun _ _ => ⟨rfl, Nat.and_zero _⟩
theorem pSleep : Statement .pSleep := fun _ _ => ⟨rfl, Nat.and_zero _⟩
theorem pResume : Statement .pResume := fun _ _ => ⟨rfl, Nat.and_zero _⟩
theorem pAttach : Statement .pAttach := fun _ _ => ⟨rfl, Nat.and_zero _⟩
theorem pSetup (e : EpId) (bytes : List Byte) : Statement (.pSetup e bytes) := fun _ _ => ⟨rfl, first_byte (m := 0xF) (by decide) _ _⟩
theorem pIn (e : EpId) : Statement (.pIn e) := fun _ _ => ⟨rfl, first_byte (m := 0xF) (by decide) _ _⟩
theorem pOut (e : EpId) (t : Bool) (bytes : List Byte) : Statement (.pOut e t bytes) := fun _ _ => ⟨rfl, first_byte (m := 0xF) (by decide) _ _⟩
theorem pStalled (e : EpId) : Statement (.pStalled e) := fun _ _ => ⟨rfl, Nat.and_zero _⟩

end Sys2Proof.Laws.OpcodeRow
end

