-- ==== Sys2Proof/Laws/Reset.lean ====
section
/-! SUPPORT. What reclaiming the descriptors of an endpoint leaves, what the loop of `RESETALL` leaves after some of its turns,
and what re-establishing endpoint 0 leaves, with the peripheral quiet (40_registry.md R121, R125). -/

namespace Sys2Proof.Machine

/-! ### Reclaiming descriptors -/

theorem outside_ctl {p : Params} {e : EpId} {d : Dir} {x : Slot} {a : Word} (h : ¬ inTable p a = true) :
    4 ≤ (a - bdAddr p e d x).toNat := by
  simp only [inTable, decide_eq_true_eq, Nat.not_lt] at h
  simp only [bdAddr]
  have hi := (bdIndex e d x).isLt
  generalize bdIndex e d x = i at *
  have h8 : (8#32 * i.setWidth 32).toNat = 8 * i.toNat := by
    rw [BitVec.toNat_mul, BitVec.toNat_setWidth]; simp; omega
  generalize 8#32 * i.setWidth 32 = j at *
  bv_omega

/-- Reclaiming zeroes one control word and writes nothing else. -/
theorem reclaimBd_spec {s : State} (hq : Quiet s) (hm : MemInv s) (e : EpId) (d : Dir) (x : Slot) :
    ∃ m : Memory, reclaimBd e d x s = s.withMem m ∧ m.wf = true ∧ (s.withMem m).bdCtl e d x = 0#32 ∧
      (∀ e' d' x', (e', d', x') ≠ (e, d, x) → (s.withMem m).bdCtl e' d' x' = s.bdCtl e' d' x') ∧
      (∀ e' d' x', (s.withMem m).bdBuf e' d' x' = s.bdBuf e' d' x') ∧
      SameMem (fun a => inTable s.params a = true) s (s.withMem m) :=
  ⟨(s.setBdCtl e d x 0#32).mem, reclaimBd_quiet hq e d x, State.wf_setBdCtl _ _ _ _ _ hm,
    State.bdCtl_setBdCtl_same _ _ _ _ _ hm, fun _ _ _ h => State.bdCtl_setBdCtl_ne _ _ _ _ _ _ _ _ h,
    fun _ _ _ => State.bdBuf_setBdCtl .., fun _ h => State.read_setBdCtl_ne _ _ _ _ _ (outside_ctl h)⟩

/-- The four reclaims of one turn of the loop of `RESETALL`. -/
def reclaimAll (e : EpId) (s : State) : State :=
  reclaimBd e .tx .odd (reclaimBd e .tx .even (reclaimBd e .rx .odd (reclaimBd e .rx .even s)))

/-- Reclaiming all four descriptors of an endpoint zeroes their control words and writes nothing else. -/
theorem reclaimAll_spec {s : State} (hq : Quiet s) (hm : MemInv s) (e : EpId) :
    ∃ m : Memory, reclaimAll e s = s.withMem m ∧ m.wf = true ∧ (∀ d x, (s.withMem m).bdCtl e d x = 0#32) ∧
      (∀ i d x, i ≠ e → (s.withMem m).bdCtl i d x = s.bdCtl i d x) ∧
      (∀ i d x, (s.withMem m).bdBuf i d x = s.bdBuf i d x) ∧
      SameMem (fun a => inTable s.params a = true) s (s.withMem m) := by
  obtain ⟨m1, q1, w1, z1, o1, b1, k1⟩ := reclaimBd_spec hq hm e .rx .even
  obtain ⟨m2, q2, w2, z2, o2, b2, k2⟩ := reclaimBd_spec (s := s.withMem m1) hq w1 e .rx .odd
  obtain ⟨m3, q3, w3, z3, o3, b3, k3⟩ := reclaimBd_spec (s := s.withMem m2) hq w2 e .tx .even
  obtain ⟨m4, q4, w4, z4, o4, b4, k4⟩ := reclaimBd_spec (s := s.withMem m3) hq w3 e .tx .odd
  refine ⟨m4, ?_, w4, fun d x => ?_, fun i d x hi => ?_, fun i d x => ?_, fun a ha => ?_⟩
  · unfold reclaimAll
    rw [q1, q2]
    exact (congrArg (reclaimBd e .tx .odd) q3).trans q4
  · cases d <;> cases x
    · exact (o4 _ _ _ (by simp)).trans ((o3 _ _ _ (by simp)).trans ((o2 _ _ _ (by simp)).trans z1))
    · exact (o4 _ _ _ (by simp)).trans ((o3 _ _ _ (by simp)).trans z2)
    · exact (o4 _ _ _ (by simp)).trans z3
    · exact z4
  · exact (o4 _ _ _ (by simp [hi])).trans ((o3 _ _ _ (by simp [hi])).trans ((o2 _ _ _ (by simp [hi])).trans
      (o1 _ _ _ (by simp [hi]))))
  · exact (b4 _ _ _).trans ((b3 _ _ _).trans ((b2 _ _ _).trans (b1 _ _ _)))
  · exact (k4 a ha).trans ((k3 a ha).trans ((k2 a ha).trans (k1 a ha)))

/-! ### The loop of `RESETALL` -/

/-- What `RESETALL` has left of `s` once the endpoints `l` have had their turn. -/
structure Cleared (s : State) (l : List EpId) (u : State) : Prop where
  quiet : Quiet u
  wf : MemInv u
  params : u.params = s.params
  env : u.env = s.env
  port : u.port = s.port
  sess : u.sess = s.sess
  sie : u.sie = s.sie
  wire : u.trace.wire = s.trace.wire
  regs : u.regs = { s.regs with epctl := u.regs.epctl }
  buf : ∀ e d x, u.bdBuf e d x = s.bdBuf e d x
  same : SameMem (fun a => inTable s.params a = true) s u
  record : ∀ e ∈ l, u.endpoint e = { s.endpoint e with txq := [], txtoggle := false, txodd := .even }
  epc : ∀ e ∈ l, u.regs.epc e = 0#4
  ctl : ∀ e ∈ l, ∀ d x, u.bdCtl e d x = 0#32
  rest : ∀ e, e ∉ l → u.endpoint e = s.endpoint e
  node : QueueInv s → ∀ e, e ∉ l → ∀ k ∈ (s.endpoint e).txq, u.node? k = s.node? k
  live : QueueInv s → u.pool.live = freed (l.flatMap (queueBlocks s)) s.pool.live

theorem cleared_nil {s : State} (hq : Quiet s) (hm : MemInv s) : Cleared s [] s where
  quiet := hq
  wf := hm
  params := rfl
  env := rfl
  port := rfl
  sess := rfl
  sie := rfl
  wire := rfl
  regs := rfl
  buf _ _ _ := rfl
  same _ _ := rfl
  record := by simp
  epc := by simp
  ctl := by simp
  rest _ _ := rfl
  node _ _ _ _ _ := rfl
  live _ := rfl

section
variable {s u : State} {l : List EpId} (c : Cleared s l u) (e : EpId) (he : e ∉ l)
include c he

/-- The queue of an endpoint whose turn has not come still owns the blocks it owned. -/
theorem Cleared.live_cancel (hi : QueueInv s) :
    (cancelQueue e u).pool.live = freed ((l ++ [e]).flatMap (queueBlocks s)) s.pool.live := by
  have blocks : queueBlocks u e = queueBlocks s e := by
    unfold queueBlocks
    rw [c.rest e he]
    refine List.filterMap_congr fun k hk => ?_
    rw [show u.node k = s.node k by unfold State.node; rw [c.node hi e he k hk]]
  rw [cancelQueue_live e (by rw [c.rest e he]; exact (hi.2.2.1 e).1), c.live hi, List.flatMap_append, freed_append, blocks]
  simp

/-- Cancelling one queue leaves the nodes of the others. -/
theorem Cleared.node_cancel (hi : QueueInv s) : ∀ i, i ∉ l ++ [e] → ∀ k ∈ (s.endpoint i).txq,
    (cancelQueue e u).node? k = s.node? k := by
  intro i hil k hk
  rw [List.mem_append, not_or] at hil
  unfold cancelQueue
  rw [completeAll_node?_ne, c.node hi i hil.1 k hk]
  rw [c.rest e he]
  intro hk'
  have h := (hi.2.2.1 i).2 k hk
  rw [(hi.2.2.1 e).2 k hk'] at h
  exact hil.2 (by simpa using h.symm)

/-- One turn of the loop. -/
theorem Cleared.turn : Cleared s (l ++ [e]) (resetEndpoint e u) := by
  have hlive := c.live_cancel e he
  have hnode := c.node_cancel e he
  have hq : Quiet (cancelQueue e u) := cancelQueue_keeps quiet_closed.toStable e c.quiet
  obtain ⟨ev, pool, shape⟩ := cancelQueue_shape e u
  unfold resetEndpoint
  dsimp only
  rw [setEpctl_quiet hq]
  rw [shape] at hlive hnode ⊢
  generalize hv : ((u.withTrace { u.trace with evt := ev }).withPool pool).updEp e (fun r => { r with txq := [] }) = v at *
  have same : ∀ i, i ≠ e → v.endpoint i = u.endpoint i := by
    intro i h; subst hv; exact State.updEp_other _ _ h
  have own : v.endpoint e = { s.endpoint e with txq := [] } := by
    subst hv; rw [← c.rest e he]; exact State.updEp_same _ _ _
  have hr : v.regs = u.regs := by subst hv; rfl
  obtain ⟨m, shape', wf, zero, other, buf, mem⟩ := reclaimAll_spec (s := v.withRegs (v.regs.setEpc e 0#4))
    (by subst hv; exact c.quiet) (by subst hv; exact c.wf) e
  have hm : (v.withRegs (v.regs.setEpc e 0#4)).mem = u.mem := by subst hv; rfl
  have hp : (v.withRegs (v.regs.setEpc e 0#4)).params = u.params := by subst hv; rfl
  have epc : ∀ i, (v.regs.setEpc e 0#4).epc i = if i = e then 0#4 else u.regs.epc i := by
    intro i; rw [Regs.setEpc_epc, hr]
  unfold reclaimAll at shape'
  rw [shape']
  constructor
  case quiet => subst hv; exact c.quiet
  case wf => exact wf
  case params => subst hv; exact c.params
  case env => subst hv; exact c.env
  case port => subst hv; exact c.port
  case sess => subst hv; exact c.sess
  case sie => subst hv; exact c.sie
  case wire => subst hv; exact c.wire
  case regs =>
    show v.regs.setEpc e 0#4 = { s.regs with epctl := (v.regs.setEpc e 0#4).epctl }
    rw [hr, c.regs]; rfl
  case buf => exact fun i d x => (buf i d x).trans ((State.bdBuf_congr hm hp i d x).trans (c.buf i d x))
  case same =>
    intro a ha
    refine (mem a (by rw [hp, c.params]; exact ha)).trans ?_
    rw [hm]; exact c.same a ha
  case record =>
    intro i hi
    by_cases h : i = e
    · subst h; rw [State.updEp_same]; simp [own]
    · rw [State.updEp_other _ _ h]
      exact (same i h).trans (c.record i (by simpa [h] using hi))
  case epc =>
    intro i hi
    refine (epc i).trans ?_
    split
    · rfl
    · rename_i h; exact c.epc i (by simpa [h] using hi)
  case ctl =>
    intro i hi d x
    by_cases h : i = e
    · subst h; exact zero d x
    · exact (other i d x h).trans ((State.bdCtl_congr hm hp i d x).trans (c.ctl i (by simpa [h] using hi) d x))
  case rest =>
    intro i hi
    have h : i ≠ e := fun k => hi (by simp [k])
    rw [State.updEp_other _ _ h]
    exact (same i h).trans (c.rest i fun k => hi (by simp [k]))
  case node => exact fun qi i hi k hk => hnode qi i hi k hk
  case live => exact hlive

end

/-- The loop, whichever endpoints are left. -/
theorem Cleared.loop {s : State} : ∀ (r l : List EpId) {u : State}, (l ++ r).Nodup → Cleared s l u →
    Cleared s (l ++ r) (r.foldl (fun t e => resetEndpoint e t) u)
  | [], l, u, _, c => by simpa using c
  | e :: r, l, u, hn, c => by
    have he : e ∉ l := fun h => List.disjoint_of_nodup_append hn h (List.mem_cons_self ..)
    simpa using Cleared.loop r (l ++ [e]) (by simpa using hn) (c.turn e he)

/-- The whole loop of `RESETALL`. -/
theorem cleared_all {s : State} (hq : Quiet s) (hm : MemInv s) :
    Cleared s epIds (epIds.foldl (fun t e => resetEndpoint e t) s) :=
  Cleared.loop epIds [] (by decide) (cleared_nil hq hm)

/-! ### Endpoint 0 -/

/-- Re-establishing endpoint 0 takes its record and its enables, and arms both halves of its pair. -/
theorem establishControl_spec {s : State} (hq : Quiet s) (hm : MemInv s) {b0 b1 : Word}
    (hb : (s.endpoint 0).rxbuf = some (b0, b1)) :
    ∃ m, establishControl s =
        ((s.updEp 0 fun r => { r with maxpkt := s.params.ep0Size, flags := 0b111#3, rxcb := cbEp0 }).withMem m).withRegs
          (s.regs.setEpc 0 0x7#4) ∧
      (s.withMem m).bdCtl 0 .rx .even = controlWord (min s.params.ep0Size.toNat 1023) true false 0 ∧
      (s.withMem m).bdBuf 0 .rx .even = b0 ∧
      (s.withMem m).bdCtl 0 .rx .odd = controlWord (min s.params.ep0Size.toNat 1023) true true 0 ∧
      (s.withMem m).bdBuf 0 .rx .odd = b1 ∧
      (∀ e d x, (e, d) ≠ (0, Dir.rx) →
        (s.withMem m).bdCtl e d x = s.bdCtl e d x ∧ (s.withMem m).bdBuf e d x = s.bdBuf e d x) ∧
      SameMem (fun a => inBd s.params 0 .rx .even a ∨ inBd s.params 0 .rx .odd a) s (s.withMem m) := by
  unfold establishControl
  dsimp only
  generalize hv : (s.updEp 0 fun r => { r with maxpkt := s.params.ep0Size, flags := 0b111#3, rxcb := cbEp0 }) = v
  have vq : Quiet v := by subst hv; exact hq
  have vx : (v.endpoint 0).maxpkt = s.params.ep0Size := by subst hv; simp
  obtain ⟨c1, c2, c3, c4, c5, c6, c7⟩ := armRx_spec vq (by subst hv; exact hm) (e := 0) (b0 := b0) (b1 := b1)
    (by subst hv; simpa using hb)
  rw [setEpctl_quiet (armRx_keeps quiet_closed.toStable 0 vq)]
  generalize armRx 0 v = w at *
  obtain ⟨m, rfl⟩ : ∃ m, w = v.withMem m := ⟨_, c7⟩
  rw [vx] at c1 c3
  subst hv
  exact ⟨m, rfl, c1, c2, c3, c4, c5, c6⟩

end Sys2Proof.Machine
end

