-- ==== Sys2Proof/Tests/Slice0.lean ====
section
/-! SUPPORT. The model's own tests: what `WellFormed` refuses, decoding of words written out from the spec, one step of each
instruction against the vectors of 95_test_vectors.md (named in each comment), and a witness for the hypotheses of
every obligation. -/

namespace Sys2Proof.Tests

open Sys2Proof.Machine

set_option Elab.async false

/-! ### Helpers -/

/-- The outcome is a next state with a property. -/
def after (r : Result) (p : State → Bool) : Bool :=
  match r with
  | .next t => p t
  | _ => false

/-- The outcome is a given refusal. -/
def refusedBy (r : Result) (x : Refusal) : Bool :=
  match r with
  | .refused y => y == x
  | _ => false

theorem next_of {r : Result} {p : State → Bool} (h : after r p = true) : ∃ t, r = .next t := by
  cases r with
  | next t => exact ⟨t, rfl⟩
  | fault _ => cases h
  | refused _ => cases h

/-- S0 of 95_test_vectors.md: after power-on and the first bus reset. -/
def s0 : State :=
  (((((((State.reset.withRegs
      { State.reset.regs with
        inten := 0xFF#8, ctl := 0x1#2, epctl := State.reset.regs.epctl.set 0 0x7#4 }).withPool
      { nodes := [], live := [(0x20000000, 128)] }).updEp 0 fun r =>
      { r with maxpkt := 64#16, flags := 0b111#3, rxbuf := some (0x20000000#32, 0x20000040#32), rxcb := 0xFFFFFFFF#32 }).setBdCtl
    0 .rx .even 0x00400080#32).setBdBuf 0 .rx .even 0x20000000#32).setBdCtl 0 .rx .odd 0x004000C0#32).setBdBuf
    0 .rx .odd 0x20000040#32).withTrace { evt := [], wire := [.reset] }

/-- The oracle's next answers to `AllocNode` and `Alloc`. -/
def draws (node block : List (Option Word)) (s : State) : State :=
  s.withEnv { s.env with nodeDraws := node, blockDraws := block }

/-- The `ARG` registers of a command. -/
def args (a b c : Word) (s : State) : State := s.withPort { s.port with arg0 := a, arg1 := b, arg2 := c }

/-- One input scheduled. -/
def input (x : Input) (s : State) : State := s.withEnv { s.env with inbox := [x] }

/-- A node QUEUED(e) whose buffer, if it has bytes, is a block at `buf`. -/
def queued (e : EpId) (total cursor cb buf : Word) : Node :=
  { total := total, cursor := cursor, cb := cb, owns := total != 0#32, buf := buf, st := .queued e }

/-- The nodes of the queue of `e`, by handle, with their blocks live. -/
def queue (e : EpId) (l : List (Nat × Node)) (s : State) : State :=
  (s.withPool
    { nodes := l
      live := s.pool.live ++ (l.filter (·.2.owns)).map fun p => (p.2.buf.toNat, p.2.total.toNat) }).updEp e fun r =>
    { r with txq := l.map fun p => BitVec.ofNat 32 p.1 }

/-- Endpoint 1 as `CFGEP 1, 64, TX|HS, 0` leaves it. -/
def transmitter (s : State) : State :=
  (s.updEp 1 fun r => { r with maxpkt := 64#16, flags := 0b110#3 }).withRegs (s.regs.setEpc 1 0x6#4)

/-- Endpoint 2 as `CFGEP 2, 64, RX|HS, 0x55` leaves it, its pair at 0x20000080 (G11). -/
def receiver (s : State) : State :=
  ((((((s.updEp 2 fun r =>
    { r with maxpkt := 64#16, flags := 0b101#3, rxbuf := some (0x20000080#32, 0x200000C0#32), rxcb := 0x55#32 }).withRegs
    (s.regs.setEpc 2 0x5#4)).withPool { s.pool with live := s.pool.live ++ [(0x20000080, 128)] }).setBdCtl
    2 .rx .even 0x00400080#32).setBdBuf 2 .rx .even 0x20000080#32).setBdCtl 2 .rx .odd 0x004000C0#32).setBdBuf
    2 .rx .odd 0x200000C0#32

/-- A SETUP packet kept in `LASTSETUP`. -/
def setup (v : BitVec 64) (s : State) : State := s.withSess { s.sess with lastSetup := v }

/-- Parameters changed. -/
def params (f : Params → Params) (s : State) : State := { s with params := f s.params }

/-- The record of a descriptor's two words. -/
def bd (s : State) (e : EpId) (d : Dir) (x : Slot) : Word × Word := (s.bdCtl e d x, s.bdBuf e d x)

/-! ### WellFormed refuses, one ill-formed term for each check -/

theorem test_wellFormed_stat_reserved_bits : WellFormed 0xAA40#16 (.iTokdne 0x19#8) = false := by decide
theorem test_wellFormed_setup_payload_too_long :
    WellFormed 0xAA40#16 (.tSetup 0 false (List.replicate 1024 0#8)) = false := by decide +kernel
theorem test_wellFormed_out_payload_too_long :
    WellFormed 0xAA40#16 (.tOut 0 false (List.replicate 1024 0#8)) = false := by decide +kernel
theorem test_wellFormed_reboot_key_clash : WellFormed 0x0500#16 .vendorReboot = false := by decide
theorem test_wellFormed_default_key_is_a_row : WellFormed 0xAA40#16 (.stallDefault 0x0900#16) = false := by decide
theorem test_wellFormed_default_key_is_reboot_key : WellFormed 0xAA40#16 (.stallDefault 0xAA40#16) = false := by decide
theorem test_wellFormed_no_error_flag : WellFormed 0xAA40#16 (.pErr 0#5) = false := by decide
theorem test_wellFormed_setup_not_eight_bytes : WellFormed 0xAA40#16 (.pSetup 0 [1#8, 2#8]) = false := by decide

/-! ### Decoding, from words written out from the spec's encodings -/

-- E2: CFGEP 15, 1023 is 0x03FF0F01
theorem test_decode_cfgep : decode 0xAA40#16 .cmd [0x01#8, 0x0F#8, 0xFF#8, 0x03#8] = .ok (.cfgep 15#8 1023#16) := by rfl
-- E4: PREP is 0x00000002
theorem test_decode_prep : decode 0xAA40#16 .cmd [0x02#8, 0#8, 0#8, 0#8] = .ok .prep := by rfl
-- E5: ENQ 2 is 0x00000203
theorem test_decode_enq : decode 0xAA40#16 .cmd [0x03#8, 0x02#8, 0#8, 0#8] = .ok (.enq 2#8) := by rfl
-- E6, E7: SEND 1 is 0x00000104, TRYSEND 1 is 0x00000105
theorem test_decode_send : decode 0xAA40#16 .cmd [0x04#8, 0x01#8, 0#8, 0#8] = .ok (.send 1#8) := by rfl
theorem test_decode_trysend : decode 0xAA40#16 .cmd [0x05#8, 0x01#8, 0#8, 0#8] = .ok (.trysend 1#8) := by rfl
-- E8: CANCEL 1, QPEND 3, QBUSY 0; E9: IMM is ignored by CANCEL
theorem test_decode_cancel : decode 0xAA40#16 .cmd [0x06#8, 0x01#8, 0xFF#8, 0xFF#8] = .ok (.cancel 1#8) := by rfl
theorem test_decode_qpend : decode 0xAA40#16 .cmd [0x07#8, 0x03#8, 0#8, 0#8] = .ok (.qpend 3#8) := by rfl
theorem test_decode_qbusy : decode 0xAA40#16 .cmd [0x08#8, 0x00#8, 0#8, 0#8] = .ok (.qbusy 0#8) := by rfl
-- E10: 0x00000000, 0x00000009 and 0x000000FF are reserved
theorem test_decode_reserved_op :
    [0x00#8, 0x09#8, 0xFF#8].map (fun op => decode 0xAA40#16 .cmd [op, 0#8, 0#8, 0#8]) =
      List.replicate 3 (.error .reservedOp) := by rfl
-- R100: one routine per bit of ISTAT
theorem test_decode_iReset : decode 0xAA40#16 .istat [0x01#8, 0#8] = .ok .iReset := by rfl
theorem test_decode_iError : decode 0xAA40#16 .istat [0x02#8, 0#8] = .ok .iError := by rfl
theorem test_decode_iSof : decode 0xAA40#16 .istat [0x04#8, 0#8] = .ok .iSof := by rfl
theorem test_decode_iTokdne : decode 0xAA40#16 .istat [0x08#8, 0x18#8] = .ok (.iTokdne 0x18#8) := by rfl
theorem test_decode_iSleep : decode 0xAA40#16 .istat [0x10#8, 0#8] = .ok .iSleep := by rfl
theorem test_decode_iResume : decode 0xAA40#16 .istat [0x20#8, 0#8] = .ok .iResume := by rfl
theorem test_decode_iAttach : decode 0xAA40#16 .istat [0x40#8, 0#8] = .ok .iAttach := by rfl
theorem test_decode_iStall : decode 0xAA40#16 .istat [0x80#8, 0#8] = .ok .iStall := by rfl
-- D4: a snapshot 0x05 serves I.RESET first
theorem test_decode_lowest_bit_first : decode 0xAA40#16 .istat [0x05#8, 0#8] = .ok .iReset := by rfl
-- E17: STAT 0xFC is (15, TX, ODD)
theorem test_decode_tIn : decode 0xAA40#16 .stat [0xFC#8] = .ok (.tIn 15 .odd) := by rfl
-- E12: written-back 0x00080034 is SETUP of 8 bytes, DATA0
theorem test_decode_tSetup :
    decode 0xAA40#16 .bd [0x34#8, 0x00#8, 0x08#8, 0x00#8, 0x00#8, 0x80#8, 6#8, 0#8, 1#8, 0#8, 0#8, 0x40#8, 0#8] =
      .ok (.tSetup 0 false [0x80#8, 6#8, 0#8, 1#8, 0#8, 0#8, 0x40#8, 0#8]) := by rfl
-- E14: written-back 0x00030044 is OUT of 3 bytes, DATA1; E17: STAT 0x24 is (2, RX, ODD)
theorem test_decode_tOut :
    decode 0xAA40#16 .bd [0x44#8, 0x00#8, 0x03#8, 0x00#8, 0x24#8, 0xAA#8, 0xBB#8, 0xCC#8] =
      .ok (.tOut 2 true [0xAA#8, 0xBB#8, 0xCC#8]) := by rfl
-- C1, C4, E19, C10, C11, C12, C14, E21: one packet for each row of the request table
theorem test_decode_getStatus : decode 0xAA40#16 .setup [0x80#8, 0#8, 0#8, 0#8, 0#8, 0#8, 2#8, 0#8] = .ok .getStatus := by rfl
theorem test_decode_setAddress : decode 0xAA40#16 .setup [0#8, 5#8, 5#8, 0#8, 0#8, 0#8, 0#8, 0#8] = .ok .setAddress := by rfl
theorem test_decode_getDescriptor :
    decode 0xAA40#16 .setup [0x80#8, 6#8, 0#8, 1#8, 0#8, 0#8, 0x40#8, 0#8] = .ok .getDescriptor := by rfl
theorem test_decode_getDescriptorIf :
    decode 0xAA40#16 .setup [0x81#8, 6#8, 0#8, 0x22#8, 0#8, 0#8, 0x40#8, 0#8] = .ok .getDescriptorIf := by rfl
theorem test_decode_getConfiguration :
    decode 0xAA40#16 .setup [0x80#8, 8#8, 0#8, 0#8, 0#8, 0#8, 1#8, 0#8] = .ok .getConfiguration := by rfl
theorem test_decode_setConfiguration :
    decode 0xAA40#16 .setup [0#8, 9#8, 1#8, 0#8, 0#8, 0#8, 0#8, 0#8] = .ok .setConfiguration := by rfl
theorem test_decode_vendorReboot :
    decode 0xAA40#16 .setup [0x40#8, 0xAA#8, 0#8, 0#8, 0#8, 0#8, 1#8, 0#8] = .ok .vendorReboot := by rfl
theorem test_decode_stallDefault :
    decode 0xAA40#16 .setup [0x21#8, 0x20#8, 0#8, 0#8, 0#8, 0#8, 7#8, 0#8] = .ok (.stallDefault 0x2021#16) := by rfl
-- R109: the token identifiers; the other codes of a line are the model's choice (log entry 7)
theorem test_decode_pSetup :
    decode 0xAA40#16 .host [0x0D#8, 3#8, 0#8, 5#8, 5#8, 0#8, 0#8, 0#8, 0#8, 0#8] =
      .ok (.pSetup 3 [0#8, 5#8, 5#8, 0#8, 0#8, 0#8, 0#8, 0#8]) := by rfl
theorem test_decode_pIn : decode 0xAA40#16 .host [0x09#8, 15#8] = .ok (.pIn 15) := by rfl
theorem test_decode_pOut :
    decode 0xAA40#16 .host [0x01#8, 2#8, 1#8, 0xAA#8, 0xBB#8, 0xCC#8] = .ok (.pOut 2 true [0xAA#8, 0xBB#8, 0xCC#8]) := by
  rfl
theorem test_decode_pStalled : decode 0xAA40#16 .host [0x17#8, 0#8] = .ok (.pStalled 0) := by rfl
theorem test_decode_events :
    [[0x10#8], [0x12#8], [0x11#8, 0x0A#8], [0x14#8], [0x15#8], [0x16#8]].map (decode 0xAA40#16 .host) =
      [.ok .pReset, .ok .pSof, .ok (.pErr 0x0A#5), .ok .pSleep, .ok .pResume, .ok .pAttach] := by rfl
-- E15 to E17: descriptor addresses and STAT values
theorem test_descriptor_addresses :
    bdAddr Params.vectors 0 .rx .odd = 0x1FFF8008#32 ∧ bdAddr Params.vectors 1 .tx .even = 0x1FFF8030#32 ∧
    bdAddr Params.vectors 2 .rx .even = 0x1FFF8040#32 ∧ bdAddr Params.vectors 15 .tx .odd = 0x1FFF81F8#32 := by decide
theorem test_stat_values :
    statByte 0 .rx .odd = 0x04#8 ∧ statByte 0 .tx .even = 0x08#8 ∧ statByte 1 .tx .odd = 0x1C#8 ∧
    statByte 2 .rx .odd = 0x24#8 := by decide
-- E11: words of ARMBD
theorem test_armed_words :
    armedWord 2#10 false = 0x00020080#32 ∧ armedWord 64#10 true = 0x004000C0#32 ∧ armedWord 0#10 true = 0x000000C0#32 ∧
    armedWord 1023#10 true = 0x03FF00C0#32 := by decide
-- E22: bit 7 of wValue is dropped from the pending address
theorem test_pending_address :
    ({ State.reset.sess with lastSetup := 0x0000000000850500#64 } : Session).pendingAddr = some 5#7 := by decide
-- E24: a word's bytes, lowest address first
theorem test_little_endian :
    ((State.reset.setBdCtl 0 .rx .even 0x00400080#32).mem.cells) = [(0x1FFF8000, 0x80#8), (0x1FFF8002, 0x40#8)] := by decide

/-! ### Commands, against 95_test_vectors.md 2.2 and 2.3 -/

-- G11
theorem test_cfgep_receiver :
    after (exec (.cfgep 2#8 64#16) (args 5#32 0x55#32 0#32 (draws [] [some 0x20000080#32] s0))) (fun t =>
      (t.endpoint 2).rxbuf == some (0x20000080#32, 0x200000C0#32) && (t.endpoint 2).flags == 0b101#3 &&
      bd t 2 .rx .even == (0x00400080#32, 0x20000080#32) && bd t 2 .rx .odd == (0x004000C0#32, 0x200000C0#32) &&
      t.regs.epc 2 == 0x5#4 && t.port.status == 0x00#8) = true := by decide +kernel
-- G14
theorem test_cfgep_holds :
    after (exec (.cfgep 1#8 64#16) (queue 1 [(1, queued 1 2#32 0#32 7#32 0x20000080#32)] (transmitter s0))) (fun t =>
      t.port.status == 0x80#8 && t.port.cfgPend == some { id := 1, mps := 64#16, flags := 0#3, cb := 0#32 } &&
      t.regs.epc 1 == 0x6#4) = true := by decide +kernel
-- Q1
theorem test_prep_copies :
    after (exec .prep (args 0x1000#32 2#32 7#32 (draws [some 1#32] [some 0x20000080#32]
      (s0.pokeBytes 0x1000#32 [0xAB#8, 0xCD#8])))) (fun t =>
      t.mem.read 0x20000080#32 == 0xAB#8 && t.mem.read 0x20000081#32 == 0xCD#8 && t.port.ret == 1#32 &&
      t.node? 1#32 == some { total := 2#32, cursor := 0#32, cb := 7#32, owns := true, buf := 0x20000080#32, st := .prepared }) =
      true := by decide +kernel
-- Q3
theorem test_prep_no_block :
    after (exec .prep (args 0x1000#32 2#32 7#32 (draws [some 1#32] [none] s0))) (fun t =>
      t.port.status == 0x02#8 && t.port.ret == 0#32 && (t.node? 1#32).isNone) = true := by decide +kernel
-- R254, U25: the source is in the descriptor table, or its last byte is the first of an armed receive buffer, or it meets a
-- register the peripheral writes (ISTAT; the last byte of CTL); INTEN and CONFIG, which it does not write, are copied
theorem test_prep_refuses_armed_source :
    refusedBy (exec .prep (args 0x1FFF81FF#32 1#32 7#32 (draws [some 1#32] [some 0x20000080#32] s0))) .dataMayBeWritten = true ∧
    refusedBy (exec .prep (args 0x1FFFFFFF#32 2#32 7#32 (draws [some 1#32] [some 0x20000080#32] s0))) .dataMayBeWritten = true ∧
    refusedBy (exec .prep (args 0x40072000#32 4#32 7#32 (draws [some 1#32] [some 0x20000080#32] s0))) .dataMayBeWritten = true ∧
    refusedBy (exec .prep (args 0x40072017#32 2#32 7#32 (draws [some 1#32] [some 0x20000080#32] s0))) .dataMayBeWritten = true ∧
    after (exec .prep (args 0x40072004#32 4#32 7#32 (draws [some 1#32] [some 0x20000080#32] s0))) (fun t =>
      t.mem.read 0x20000080#32 == 0xFF#8 && t.mem.read 0x20000081#32 == 0#8) = true ∧
    after (exec .prep (args 0x40072018#32 4#32 7#32 (draws [some 1#32] [some 0x20000080#32] s0))) (fun t =>
      t.port.ret == 1#32) = true := by decide +kernel
-- R44: an empty block may have the base of a live block, and a block the base of an empty one; each is freed alone
theorem test_alloc_empty_block :
    (let r := (draws [] [some 0x20000000#32] s0).alloc 0#32
     r.1 == some 0x20000000#32 && r.2.pool.live == [(0x20000000, 0), (0x20000000, 128)] &&
       (r.2.freeBlock 0x20000000#32 128).pool.live == [(0x20000000, 0)] &&
       (r.2.freeBlock 0x20000000#32 0).pool.live == s0.pool.live) = true ∧
    (let s := (draws [] [some 0x20000080#32] s0).withPool { s0.pool with live := s0.pool.live ++ [(0x20000080, 0)] }
     (s.alloc 2#32).1 == some 0x20000080#32 && ((s.alloc 2#32).2.pool.live.map (·.2)) == [128, 0, 2]) = true := by decide +kernel
-- R44: a byte of a live block is not granted again
theorem test_alloc_disjoint : ((draws [] [some 0x2000007F#32] s0).alloc 1#32).1 = none := by decide +kernel
-- R140: a source in the heap, just above the armed buffers, is copied
theorem test_send_copies_heap_source :
    after (exec (.send 1#8) (args 0x20000080#32 2#32 7#32 (draws [some 1#32] [some 0x20000100#32]
      (s0.writeByte 0x20000080#32 0xAB#8)))) (fun t => t.mem.read 0x20000100#32 == 0xAB#8) = true := by decide +kernel
-- Q5: a handle above NODE_CAP
theorem test_enq_bad_node :
    after (exec (.enq 1#8) (args 33#32 0#32 0#32 s0)) (fun t => t.port.status == 0x05#8 && t.head 1 == 0#32) = true := by
  decide +kernel
-- Q4
theorem test_enq_appends :
    after (exec (.enq 1#8) (args 1#32 0#32 0#32 (s0.putNode 1#32 { queued 1 0#32 0#32 0#32 0#32 with st := .prepared })))
      (fun t => (t.endpoint 1).txq == [1#32] && (t.node 1#32).st == .queued 1) = true := by decide +kernel
-- R142: RET is left unchanged
theorem test_send_keeps_ret :
    after (exec (.send 1#8) (args 0x1000#32 2#32 7#32 (draws [some 1#32] [some 0x20000080#32] s0))) (fun t =>
      (t.endpoint 1).txq == [1#32] && t.port.ret == 0#32 && t.port.status == 0x00#8) = true := by decide +kernel
-- Q6
theorem test_trysend_busy :
    after (exec (.trysend 1#8) (args 0x1000#32 2#32 0#32 (draws [some 4#32] [] (queue 1 [(3, queued 1 2#32 0#32 0#32 0x20000080#32)] s0))))
      (fun t => t.port.status == 0x03#8 && t.env.nodeDraws == [some 4#32]) = true := by decide +kernel
-- Q7: both slots HardwareOwned, the list empty
theorem test_trysend_list_alone :
    after (exec (.trysend 1#8) (args 0x1000#32 2#32 0#32 (draws [some 1#32] [some 0x20000080#32]
      ((s0.setBdCtl 1 .tx .even 0x00400080#32).setBdCtl 1 .tx .odd 0x004000C0#32)))) (fun t =>
      t.port.status == 0x00#8 && (t.endpoint 1).txq == [1#32]) = true := by decide +kernel
-- Q16
theorem test_cancel_completes_each :
    after (exec (.cancel 2#8) (queue 2 [(4, queued 2 3#32 0#32 11#32 0x20000080#32), (5, queued 2 3#32 0#32 0#32 0x20000090#32)] s0))
      (fun t => t.trace.evt == [.complete 2 11#32] && t.pool.nodes == [] && t.pool.live == [(0x20000000, 128)] &&
        (t.endpoint 2).txq == []) = true := by decide +kernel
-- Q18
theorem test_qpend_sums :
    after (exec (.qpend 1#8) (queue 1 [(1, queued 1 200#32 64#32 0#32 0x20000080#32), (2, queued 1 10#32 0#32 0#32 0x20000200#32)] s0))
      (fun t => t.port.ret == 146#32) = true := by decide +kernel
-- Q20, Q21
theorem test_qbusy_slots :
    after (exec (.qbusy 1#8) (s0.setBdCtl 1 .tx .even 0x00020080#32)) (fun t => t.port.ret == 1#32) = true ∧
    after (exec (.qbusy 1#8) (s0.setBdCtl 1 .tx .even 0x00020024#32)) (fun t => t.port.ret == 0#32) = true := by decide +kernel
-- Q23: ERR_BADOP outranks ERR_RANGE
theorem test_reserved_op :
    after (step (input (.write 0x40072080#32 0x00001009#32) s0)) (fun t => t.port.status == 0x04#8) = true := by decide +kernel

/-! ### Interrupts, against 2.4 and the programs -/

-- the bring-up of S0 from power-on: Alloc(128) gives 0x20000000
theorem test_iReset_brings_up :
    after (step (draws [] [some 0x20000000#32] (input .irq (State.reset.withRegs { State.reset.regs with istat := 0x01#8 }))))
      (fun t => t.regs == s0.regs && t.ep == s0.ep && t.mem == s0.mem && t.pool == s0.pool) = true := by decide +kernel
-- R250: the table is zeroed, every other byte is the draw's
theorem test_powerOn_draws_memory :
    (State.powerOn Params.vectors { cells := [(0x1000, 5#8), (0x1FFF8000, 6#8), (0x1FFF81FF, 7#8), (0x1FFF8200, 8#8)] }).mem.cells =
      [(0x1000, 5#8), (0x1FFF8200, 8#8)] := by decide +kernel
-- R8, R63: eight bytes are two accesses, low word first
theorem test_readTwoWords :
    let s := ((s0.pokeBytes 0x20000000#32 [1#8, 2#8, 3#8, 4#8, 5#8, 6#8, 7#8, 8#8]).withEnv
      { s0.env with between := [[], [.out 0 false [9#8, 9#8, 9#8, 9#8, 9#8]], [.sof]] })
    (readTwoWords 0x20000000#32 s).1 = [1#8, 2#8, 3#8, 4#8, 9#8, 6#8, 7#8, 8#8] ∧
    (readTwoWords 0x20000000#32 s).2.env.between = [[.sof]] := by decide +kernel
-- R62: a Setup packet at an address that is no multiple of 4 is read in eight single-byte accesses, an aligned one in two
theorem test_readPacket_aligned :
    let s := s0.withEnv { s0.env with between := List.replicate 9 [] }
    (readPacket 0x00080034#32 0x20000000#32 s).2.env.between.length = 7 ∧
    (readPacket 0x00080034#32 0x20000002#32 s).2.env.between.length = 1 := by decide +kernel
-- G16
theorem test_iReset_no_buffer :
    after (exec .iReset (draws [] [none] State.reset)) (fun t =>
      t.sess.isrAlloc && t.regs.epc 0 == 0#4 && t.regs.inten == 0xFF#8 && t.regs.ctl == 0x1#2) = true := by decide +kernel
-- H17: a second bus reset during I.RESET keeps HOLD
theorem test_iReset_struck_again :
    after (exec .iReset ((s0.withRegs { s0.regs with ctl := 0x3#2 }).withEnv { s0.env with between := [[.reset]] })) (fun t =>
      t.regs.ctl == 0x3#2 && t.regs.istat == 0x01#8) = true := by decide +kernel
-- D5
theorem test_iError_clears :
    after (step (input .irq (s0.withRegs { s0.regs with errstat := 0x0A#5, istat := 0x02#8 }))) (fun t =>
      t.regs.errstat == 0#5 && t.regs.istat == 0x00#8) = true := by decide +kernel
-- P1: the SOF pump arms 2 bytes on endpoint 1
theorem test_iSof_arms :
    after (exec .iSof (queue 1 [(1, queued 1 2#32 0#32 7#32 0x20000080#32)] (transmitter s0))) (fun t =>
      bd t 1 .tx .even == (0x00020080#32, 0x20000080#32) && (t.endpoint 1).txtoggle && (t.endpoint 1).txodd == .odd &&
      (t.node 1#32).cursor == 2#32) = true := by decide +kernel
-- D15
theorem test_iSof_hook :
    after (exec .iSof (params (fun p => { p with txHook := p.txHook.set 3 0x77#32 }) s0)) (fun t =>
      t.trace.evt == [.manualTx 3 0x77#32]) = true := by decide +kernel
-- D7: a stale entry
theorem test_iTokdne_stale : after (exec (.iTokdne 0x00#8) s0) (fun t => t == s0) = true := by decide +kernel
-- D8: an unknown token is re-armed without a handler
theorem test_iTokdne_unknown_token :
    after (exec (.iTokdne 0x20#8) ((receiver s0).setBdCtl 2 .rx .even 0x00030008#32)) (fun t =>
      t.trace.evt == [] && bd t 2 .rx .even == (0x004000C0#32, 0x20000080#32)) = true := by decide +kernel
-- D2: one entry is consumed, TOKDNE is set again
theorem test_dispatch_pops_one :
    let s := s0.withRegs { s0.regs with
      istat := 0x08#8, statq := [{ ep := 0, dir := .rx, slot := .even }, { ep := 0, dir := .tx, slot := .even }] }
    (takeInterrupt s).1.st = 0x00#8 ∧ (takeInterrupt s).2.regs.istat = 0x08#8 ∧ (takeInterrupt s).2.regs.stat = 0x08#8 := by
  decide +kernel
-- D6
theorem test_acknowledge_only :
    after (step (input .irq (s0.withRegs { s0.regs with istat := 0xF0#8 }))) (fun t => t == s0) = true := by decide +kernel
-- D16
theorem test_no_invocation_after_reboot :
    step (input .irq (s0.withSess { s0.sess with reboot := true })) = .fault .runOver := by rfl
-- Q10
theorem test_tIn_last_chunk :
    after (exec (.tIn 1 .even) ((queue 1 [(1, queued 1 200#32 192#32 9#32 0x20000080#32)] (transmitter s0)).updEp 1 fun r =>
      { r with txtoggle := true, txodd := .odd })) (fun t =>
      bd t 1 .tx .odd == (0x000800C0#32, 0x20000140#32) && !(t.endpoint 1).txtoggle && (t.endpoint 1).txodd == .even &&
      (t.node 1#32).cursor == 200#32) = true := by decide +kernel
-- Q11: drained, but a slot is still HardwareOwned
theorem test_tIn_waits_for_hardware :
    let s := (queue 1 [(1, queued 1 200#32 200#32 9#32 0x20000080#32)] (transmitter s0)).setBdCtl 1 .tx .odd 0x000800C0#32
    after (exec (.tIn 1 .even) s) (fun t => t == s) = true := by decide +kernel
-- D9
theorem test_tSetup_discards :
    after (exec (.tSetup 0 false [0x80#8, 0#8, 0#8, 0#8, 0#8, 0#8, 2#8, 0#8])
      (draws [some 1#32] [some 0x200000A0#32] ((queue 0 [(3, queued 0 10#32 0#32 0x44#32 0x20000080#32)] s0).setBdCtl
        0 .tx .even 0x000A0080#32))) (fun t =>
      t.sess.lastSetup == 0x0002000000000080#64 && t.trace.evt == [.complete 0 0x44#32, .override 0x0002000000000080#64 .declined] &&
      (t.endpoint 0).txtoggle && t.bdCtl 0 .tx .even == 0x000A0080#32 && (t.endpoint 0).txq == [1#32] &&
      (t.node 1#32).total == 2#32) = true := by decide +kernel
-- C17
theorem test_tSetup_override :
    after (exec (.tSetup 0 false [0x21#8, 0x20#8, 0#8, 0#8, 0#8, 0#8, 7#8, 0#8])
      (draws [some 1#32] [some 0x20000080#32]
        (params (fun p => { p with setupOverride := [(0x0007000000002021#64, .reply [1#8, 2#8, 3#8])] }) s0))) (fun t =>
      (t.node 1#32).total == 3#32 && t.mem.read 0x20000082#32 == 3#8 && t.regs.epc 0 == 0x7#4) = true := by decide +kernel
-- D10
theorem test_tOut_delivers :
    after (exec (.tOut 2 false [0xAA#8, 0xBB#8, 0xCC#8]) (receiver s0)) (fun t =>
      t.trace.evt == [.receive 2 0x55#32 0x1#4 [0xAA#8, 0xBB#8, 0xCC#8]]) = true := by decide +kernel
-- C20, C23
theorem test_tOut_sentinel :
    after (exec (.tOut 0 true [0x86#8]) (setup 0xAA40#64 s0)) (fun t =>
      t.sess.reboot && t.trace.evt == [.reboot, .receive 0 0xFFFFFFFF#32 0x1#4 [0x86#8]]) = true ∧
    after (exec (.tOut 0 true [0x00#8, 0x86#8]) (setup 0xAA40#64 s0)) (fun t => !t.sess.reboot) = true := by decide +kernel

/-! ### Requests, against 2.5 -/

-- C2: truncated to wLength
theorem test_getStatus_truncated :
    after (exec .getStatus (draws [some 1#32] [some 0x20000080#32] (setup 0x0001000000000080#64 s0))) (fun t =>
      (t.node 1#32).total == 1#32) = true := by decide +kernel
-- C4
theorem test_setAddress_not_committed :
    after (exec .setAddress (draws [some 1#32] [] (setup 0x0000000000050500#64 s0))) (fun t =>
      t.regs.addr == 0#7 && (t.node 1#32).total == 0#32 && (t.endpoint 0).txq == [1#32]) = true := by decide +kernel
-- C18
theorem test_ctrlIn_commits :
    after (exec (.tIn 0 .even) (setup 0x00000000007F0500#64 s0)) (fun t => t.regs.addr == 0x7F#7) = true := by decide +kernel

/-- S0 with a descriptor of 18 bytes at 0x3000 for the pair (0x0100, 0) and one for (0x2200, 0). -/
def withDescriptors (s : State) : State :=
  params (fun p => { p with
    resolve := [((0x0100#16, 0#16), (0x3000#32, 18#32)), ((0x2200#16, 0#16), (0x3200#32, 50#32))] })
    (s.pokeBytes 0x3000#32 [0x12#8, 0x01#8])

-- C6
theorem test_getDescriptor_truncated :
    after (exec .getDescriptor (draws [some 1#32] [some 0x20000080#32] (setup 0x0008000001000680#64 (withDescriptors s0)))) (fun t =>
      (t.node 1#32).total == 8#32 && t.mem.read 0x20000080#32 == 0x12#8 && t.mem.read 0x20000081#32 == 0x01#8) = true := by
  decide +kernel
-- C9
theorem test_getDescriptor_not_found :
    after (exec .getDescriptor (setup 0x00FF040903050680#64 (withDescriptors s0))) (fun t =>
      t.regs.epc 0 == 0xF#4 && (t.endpoint 0).txq == []) = true := by decide +kernel
-- C10
theorem test_getDescriptorIf :
    after (exec .getDescriptorIf (draws [some 1#32] [some 0x20000080#32] (setup 0x0040000022000681#64 (withDescriptors s0))))
      (fun t => (t.node 1#32).total == 50#32) = true := by decide +kernel
-- C11
theorem test_getConfiguration :
    after (exec .getConfiguration (draws [some 1#32] [some 0x20000080#32]
      (s0.withSess { s0.sess with lastSetup := 0x0001000000000880#64, config := 1#8 }))) (fun t =>
      (t.node 1#32).total == 1#32 && t.mem.read 0x20000080#32 == 1#8) = true := by decide +kernel
-- C12
theorem test_setConfiguration :
    after (exec .setConfiguration (draws [some 1#32] [] (setup 0x0000000000010900#64
      (s0.updEp 1 fun r => { r with flags := 0b110#3, txtoggle := true })))) (fun t =>
      t.sess.config == 1#8 && t.regs.epc 1 == 0x6#4 && !(t.endpoint 1).txtoggle && t.regs.epc 0 == 0x7#4) = true := by
  decide +kernel
-- C14
theorem test_vendorReboot :
    after (exec .vendorReboot (draws [some 1#32] [] (setup 0x000100000000AA40#64 s0))) (fun t =>
      !t.sess.reboot && (t.node 1#32).total == 0#32) = true := by decide +kernel
-- C15
theorem test_stallDefault : after (exec (.stallDefault 0x2021#16) s0) (fun t => t.regs.epc 0 == 0xF#4) = true := by
  decide +kernel

/-! ### The peripheral, against 2.6 -/

-- H2
theorem test_pReset : after (exec .pReset s0) (fun t =>
    t.regs.ctl == 0x3#2 && t.regs.istat == 0x01#8 && t.trace.wire == [.reset, .reset] && t.regs.epc 0 == 0x7#4) = true := by
  decide +kernel
-- H16, H15, R205 to R207
theorem test_events :
    after (exec .pSof (s0.withRegs { s0.regs with istat := 0x04#8 })) (fun t => t.regs.istat == 0x04#8) = true ∧
    after (exec (.pErr 0x0A#5) s0) (fun t => t.regs.errstat == 0x0A#5 && t.regs.istat == 0x02#8) = true ∧
    after (exec .pSleep s0) (fun t => t.regs.istat == 0x10#8) = true ∧
    after (exec .pResume s0) (fun t => t.regs.istat == 0x20#8) = true ∧
    after (exec .pAttach s0) (fun t => t.regs.istat == 0x40#8) = true := by decide +kernel
-- H3
theorem test_pSetup :
    after (exec (.pSetup 0 [0#8, 5#8, 5#8, 0#8, 0#8, 0#8, 0#8, 0#8]) s0) (fun t =>
      t.mem.read 0x20000001#32 == 5#8 && t.bdCtl 0 .rx .even == 0x00080034#32 && t.regs.stat == 0x00#8 &&
      t.regs.statq.length == 1 && t.sie.rxAt 0 == .odd && t.trace.wire == [.reset, .ack 0]) = true := by decide +kernel
-- H5: armed for 4 bytes
theorem test_pSetup_short_slot :
    let s := (s0.setBdCtl 3 .rx .even 0x00040080#32).withRegs (s0.regs.setEpc 3 0x5#4)
    after (exec (.pSetup 3 [0#8, 5#8, 5#8, 0#8, 0#8, 0#8, 0#8, 0#8]) s) (fun t => t == s) = true := by decide +kernel
-- H6
theorem test_pIn :
    after (exec (.pIn 1) ((((transmitter s0).setBdCtl 1 .tx .even 0x00020080#32).setBdBuf 1 .tx .even 0x20000080#32).pokeBytes
      0x20000080#32 [0xAB#8, 0xCD#8])) (fun t =>
      t.trace.wire == [.reset, .data 1 false [0xAB#8, 0xCD#8]] && t.bdCtl 1 .tx .even == 0x00020024#32 &&
      t.regs.stat == 0x18#8 && t.sie.txAt 1 == .odd) = true := by decide +kernel
-- H7: the armed slot is not the one at the pointer
theorem test_pIn_no_skip :
    let s := (transmitter s0).setBdCtl 1 .tx .odd 0x004000C0#32
    after (exec (.pIn 1) s) (fun t => t == s) = true := by decide +kernel
-- H9
theorem test_pOut :
    after (exec (.pOut 2 true [0xAA#8, 0xBB#8, 0xCC#8]) ((receiver s0).withSie (s0.sie.setRx 2 .odd))) (fun t =>
      t.mem.read 0x200000C2#32 == 0xCC#8 && t.bdCtl 2 .rx .odd == 0x00030044#32 && t.regs.stat == 0x24#8 &&
      t.sie.rxAt 2 == .even && t.trace.wire == [.reset, .ack 2]) = true := by decide +kernel
-- H11: nine bytes to a slot armed for eight
theorem test_pOut_too_long :
    let s := (receiver s0).setBdCtl 2 .rx .even 0x00080080#32
    after (exec (.pOut 2 false (List.replicate 9 1#8)) s) (fun t => t == s) = true := by decide +kernel
-- R212: a packet longer than any count a slot can be armed with, and a line that names no step
theorem test_host_no_step :
    after (step (input (.host (0x01#8 :: 0#8 :: 0#8 :: List.replicate 1024 1#8)) s0)) (fun t => t == s0) = true ∧
    after (step (input (.host [0x09#8, 16#8]) s0)) (fun t => t == s0) = true := by decide +kernel
-- H13
theorem test_pStalled :
    after (exec (.pStalled 0) (s0.withRegs (s0.regs.setEpc 0 0xF#4))) (fun t =>
      t.trace.wire == [.reset, .stall 0] && t.regs.istat == 0x80#8) = true := by decide +kernel
-- H14: STATQ is full
theorem test_full_queue :
    let s := (transmitter s0).withRegs { (transmitter s0).regs with
      istat := 0x08#8, statq := List.replicate 4 { ep := 0, dir := .rx, slot := .even } }
    after (exec (.pIn 1) (s.setBdCtl 1 .tx .even 0x00020080#32)) (fun t => t.trace.wire == [.reset]) = true := by decide +kernel

/-! ### Witnesses: concrete states that meet the hypotheses of the obligations -/

/-- `QueueInv` as a check that runs. -/
def queueOk (s : State) : Bool :=
  decide (KeysRise s.pool.nodes) &&
  (s.pool.nodes.all fun p => decide (1 ≤ p.1 ∧ p.1 ≤ s.params.nodeCap.toNat ∧ p.2.cursor.toNat ≤ p.2.total.toNat)) &&
  (epIds.all fun e => decide (s.endpoint e).txq.Nodup &&
    ((s.endpoint e).txq.all fun h => (s.node? h).map (·.st) == some (.queued e))) &&
  s.pool.nodes.all fun p => epIds.all fun e => p.2.st != .queued e || (s.endpoint e).txq.contains (BitVec.ofNat 32 p.1)

theorem queueInv_of {s : State} (h : queueOk s = true) : QueueInv s := by
  simp only [queueOk, Bool.and_eq_true, List.all_eq_true, decide_eq_true_eq, beq_iff_eq, Bool.or_eq_true, bne_iff_ne,
    List.contains_iff_mem] at h
  obtain ⟨⟨⟨h1, h2⟩, h3⟩, h4⟩ := h
  exact ⟨h1, h2, fun e => h3 e (mem_epIds e), fun p hp e hq => (h4 p hp e (mem_epIds e)).resolve_left fun hn => hn hq⟩

/-- A transaction-done is pending. -/
def pending (s : State) : State :=
  (input .irq s).withRegs { s.regs with istat := 0x08#8, statq := [{ ep := 1, dir := .tx, slot := .even }] }

/-- The run is over. -/
def rebooted (s : State) : State := s.withSess { s.sess with reboot := true }

/-- Two nodes queued on endpoint 1, the first with 8 of 200 bytes left (Q10). -/
def busy (s : State) : State :=
  queue 1 [(1, queued 1 200#32 192#32 9#32 0x20000080#32), (2, queued 1 0#32 0#32 0#32 0#32)] (transmitter s)

/-- `CFGEP 1, 64, 0, 0` held while endpoint 1 transmits, its step B next (G14). -/
def held (s : State) : State :=
  (input .cont (busy s)).withPort
    { s.port with status := 0x80#8, cfgPend := some { id := 1, mps := 64#16, flags := 0#3, cb := 0#32 } }

/-- `CFGEP 2, 32, RX|HS, 0x66` held, its step B next. -/
def heldReceiver (s : State) : State :=
  (input .cont (receiver s)).withPort
    { s.port with status := 0x80#8, cfgPend := some { id := 2, mps := 32#16, flags := 0b101#3, cb := 0x66#32 } }

/-- Two bytes to send, the oracle about to grant node 7 and a block at 0x20000100. -/
def granting (s : State) : State := draws [some 7#32] [some 0x20000100#32] (args 0x1001#32 2#32 9#32 s)

/-- The oracle about to grant a node and no block. -/
def failing (s : State) : State := draws [some 7#32] [none] (args 0x1001#32 2#32 9#32 s)

/-- Node 32, the last of the pool, PREPARED and named by `ARG[0]`. -/
def preparedNode (s : State) : State :=
  args 32#32 0#32 0#32 (s.putNode 32#32 { queued 0 0#32 0#32 0#32 0#32 with st := .prepared })

/-- A SETUP of `GET_DESCRIPTOR` with `wLength` = 1 and a descriptor of 18 bytes. -/
def replying (s : State) : State := setup 0x0001000001000680#64 (withDescriptors (granting s))

/-- A bus reset is being served, `ISTAT` already cleared. -/
def resetTaken (s : State) : State := (pReset s).withRegs { (pReset s).regs with istat := 0x00#8 }

/-- Two bytes armed in the even transmit slot of endpoint 1. -/
def armed (s : State) : State :=
  ((busy s).setBdCtl 1 .tx .even 0x00020080#32).setBdBuf 1 .tx .even 0x20000080#32

/-- Both transmit slots of endpoint 1 armed. -/
def bothArmed (s : State) : State := (armed s).setBdCtl 1 .tx .odd 0x004000C0#32

/-- Endpoint 1 transmits and has a receive pair; `ARG[0]` is given. -/
def busyPair (flags : Word) : State :=
  args flags 0#32 0#32 ((busy s0).updEp 1 fun r => { r with rxbuf := some (0x20000200#32, 0x20000240#32) })

/-- The even transmit slot of endpoint 1 armed, at the peripheral's pointer. -/
def oneArmed (s : State) : State := (s.setBdCtl 1 .tx .even 0x00020080#32).updEp 1 fun r => { r with txodd := .odd }

/-- An IN on endpoint 1 falls between the two writes that arm its next chunk. -/
def publishing (s : State) : State := (busy s).withEnv { s.env with between := [[], [], [], [.inTok 1]] }

-- R70: that IN finds nothing armed and is no step; the next one finds the chunk
theorem test_publish_order :
    after (exec (.tIn 1 .even) (publishing s0)) (fun t =>
      t.trace.wire == [.reset] && t.bdOwn 1 .tx .even && (pIn 1 t).trace.wire.length == 2) = true := by decide +kernel

/-- Before the first bus reset is served: endpoint 0 has no pair, and a queued node owns the block the oracle answers with. -/
def firstReset (block : Option Word) : State :=
  draws [] [block] (queue 1 [(1, queued 1 2#32 0#32 0#32 0x20000000#32)] State.reset)

/-- Both transmit slots of endpoint 1 armed, the pointer at the older one. -/
def allArmed (s : State) : State := (s.setBdCtl 1 .tx .even 0x00020080#32).setBdCtl 1 .tx .odd 0x000200C0#32

-- R200 over R153 (log entry 27): both slots armed, two INs between the reads of PUMP: the fallback slot is armed and the one
-- armed slot is not at the peripheral's pointer
theorem test_pump_fallback :
    ParityInv (allArmed (busy s0)) ∧
    after (exec (.tIn 1 .even) ((allArmed (busy s0)).withEnv { s0.env with between := [[], [.inTok 1, .inTok 1]] })) (fun t =>
      !t.bdOwn 1 .tx .even && t.bdOwn 1 .tx .odd && t.sie.txAt 1 == .even && (t.endpoint 1).txodd == .odd) = true := by
  decide +kernel

/-- A drained node with its last chunk still in the odd slot (Q11). -/
def lastInFlight (s : State) : State :=
  (queue 1 [(1, queued 1 200#32 200#32 9#32 0x20000080#32)] (transmitter s)).setBdCtl 1 .tx .odd 0x000800C0#32

/-- A drained node, both slots vacated. -/
def drained (s : State) : State := queue 1 [(1, queued 1 2#32 2#32 7#32 0x20000080#32)] (transmitter s)

/-- An acknowledgement queued on endpoint 0 (Q9). -/
def emptyHead (s : State) : State := queue 0 [(1, queued 0 0#32 0#32 0#32 0#32)] s

/-- An OUT written back in the odd receive slot of endpoint 2 (H9). -/
def written (s : State) : State := (receiver s).setBdCtl 2 .rx .odd 0x00030044#32

/-- A token that is neither SETUP nor OUT written back in the even receive slot of endpoint 2 (D8). -/
def unknown (s : State) : State := (receiver s).setBdCtl 2 .rx .even 0x00030008#32

/-- Endpoint 0 stalled. -/
def stalled (s : State) : State := s.withRegs (s.regs.setEpc 0 0xF#4)

/-- The even receive slot of endpoint 0 armed for 4 bytes. -/
def shortSlot (s : State) : State := s.setBdCtl 0 .rx .even 0x00040080#32

/-- `STATQ` holds four entries. -/
def full (s : State) : State :=
  s.withRegs { s.regs with istat := 0x08#8, statq := List.replicate 4 { ep := 0, dir := .rx, slot := .even } }

/-- The first bus reset about to be served. -/
def bringUp : State :=
  draws [] [some 0x20000000#32] (input .irq (State.reset.withRegs { State.reset.regs with istat := 0x01#8 }))

/-- A transaction-done of endpoint 1 about to be served: it arms the last chunk. -/
def busyStep : State :=
  (input .irq (busy s0)).withRegs { (busy s0).regs with istat := 0x08#8, statq := [{ ep := 1, dir := .tx, slot := .even }] }

theorem witness_DecodeOfEncode :
    WellFormed 0xAA40#16 (.tSetup 15 true (List.replicate 1023 1#8)) = true ∧ WellFormed 0xAA40#16 (.cfgep 255#8 0xFFFF#16) = true ∧
      WellFormed 0xAA40#16 (.pOut 15 true (List.replicate 1024 1#8)) = true := by decide +kernel

-- the hypothesis of ResetInvariants, with a byte in the table and one outside it
theorem witness_ResetInvariants :
    ({ cells := [(0x1000, 5#8), (0x1FFF8000, 6#8)] } : Memory).wf = true ∧ inTable Params.vectors 0x1000#32 = false := by decide

theorem witness_RequestTable :
    0xAA40#16 ∉ standardKeys ∧ (0xAA#8 ++ 0x40#8 : BitVec 16) = 0xAA40#16 ∧
      (0x09#8 ++ 0x00#8 : BitVec 16) = 0x0900#16 ∧ (0x20#8 ++ 0x21#8 : BitVec 16) ∉ standardKeys ∧ (0x2021#16 : BitVec 16) ≠ 0xAA40#16 := by decide +kernel

theorem witness_StepRunsDecodedInstruction :
    (input (.write (cmdAddr s0.params) 0x00000106#32) s0).env.inbox = .write (cmdAddr s0.params) 0x00000106#32 :: [] ∧
      s0.sess.reboot = false ∧ decode s0.params.rebootKey .cmd (bytesOfWord 0x00000106#32) = .ok (.cancel 1#8) ∧
      decode s0.params.rebootKey .host [0x12#8] = .ok .pSof ∧
      (pending s0).regs.istat &&& (pending s0).regs.inten ≠ 0#8 := ⟨rfl, rfl, rfl, rfl, by decide +kernel⟩

theorem witness_InterruptEntry :
    (Quiet (pending s0) ∧ StatInv (pending s0) ∧ (pending s0).regs.pending .tokdne = true) ∧
      Quiet s0 ∧ StatInv s0 ∧ s0.regs.pending .tokdne = false := by decide +kernel

theorem witness_RunOverOrPortHeld :
    (rebooted s0).sess.reboot = true ∧ s0.sess.reboot = false ∧ (held s0).port.cfgPend ≠ none ∧
      decode s0.params.rebootKey .cmd (bytesOfWord 0x00000106#32) = .ok (.cancel 1#8) := ⟨rfl, rfl, by decide +kernel, rfl⟩

theorem witness_ReservedOpRefused :
    Ready (input (.write (cmdAddr s0.params) 0x00001009#32) s0) ∧
      (0x00001009#32 : Word).extractLsb' 0 8 = 0x09#8 ∧ (0xFFFFFF00#32 : Word).extractLsb' 0 8 = 0x00#8 := by decide +kernel

theorem witness_RangeErrors :
    Ready s0 ∧ 16 ≤ (16#8).toNat ∧ 16 ≤ (255#8).toNat := by decide +kernel

theorem witness_RegisterMap :
    (input (.write (s0.params.regBase + BitVec.ofNat 32 0x8C) 5#32) s0).env.inbox =
        .write (s0.params.regBase + BitVec.ofNat 32 0x8C) 5#32 :: [] ∧ s0.sess.reboot = false ∧
      0x8C % 4 = 0 ∧ 0x8C < 0x100 ∧ (0x2C % 4 = 0 ∧ 0x3C % 4 = 0 ∧ 0x98 % 4 = 0 ∧ 0xFC % 4 = 0) ∧
      0x90 ∉ [0x80, 0x84, 0x88, 0x8C] ∧ 0x7C = 0x40 + 4 * 15 ∧
      (input (.write (s0.params.regBase + BitVec.ofNat 32 0x80) 0x00000107#32) s0).env.inbox =
        .write (s0.params.regBase + BitVec.ofNat 32 0x80) 0x00000107#32 :: [] ∧
      decode s0.params.rebootKey .cmd (bytesOfWord 0x00000107#32) = .ok (.qpend 1#8) :=
  ⟨rfl, rfl, by decide, by decide, by decide, by decide, by decide, rfl, rfl⟩

-- the hypotheses of StepKeepsMemory, StepKeepsStatusAndHold, StepKeepsQueues, StepKeepsHeap, StepKeepsOwners and
-- StepKeepsHistory: the step that serves the first bus reset
theorem witness_steps :
    QueueInv bringUp ∧ (MemInv bringUp ∧ StatInv bringUp ∧ HoldInv bringUp ∧ HeapInv bringUp ∧ OwnerInv bringUp) ∧ ∃ t, step bringUp = .next t := ⟨queueInv_of (by decide +kernel), by decide +kernel, next_of (p := fun _ => true) (by decide +kernel)⟩

-- the same, for a step that completes a queued node
theorem witness_steps_busy :
    QueueInv busyStep ∧ (MemInv busyStep ∧ StatInv busyStep ∧ HoldInv busyStep ∧ HeapInv busyStep ∧ OwnerInv busyStep) ∧ ∃ t, step busyStep = .next t := ⟨queueInv_of (by decide +kernel), by decide +kernel, next_of (p := fun _ => true) (by decide +kernel)⟩

/-- The hypotheses of the parity clause, with `HOLD` = 0 before and after the step and the agreement kept. -/
abbrev parityStep (s : State) : Prop :=
  (Quiet s ∧ MemInv s ∧ Params.ok s.params ∧ HoldInv s) ∧ ReceivesOutsideTable s ∧ ParityInv s ∧ s.regs.hold = false ∧
    after (step s) (fun t => decide (ParityInv t) && t.regs.hold == false) = true

-- the hypotheses of the parity clause of StepKeepsStatusAndHold: no slot armed, one, both; the next step arms a slot, or an
-- IN takes one
theorem witness_parity :
    parityStep busyStep ∧ parityStep (oneArmed busyStep) ∧ parityStep (input (.host [0x09#8, 1#8]) (oneArmed busyStep)) ∧
      parityStep (input (.host [0x09#8, 1#8]) (allArmed busyStep)) := by
  refine ⟨?_, ?_, ?_, ?_⟩ <;> refine ⟨by decide +kernel, ?_⟩ <;> decide +kernel

theorem witness_RegisterWriters :
    (∃ t, exec .prep (draws [none] [] s0) = .next t) ∧ (∃ t, exec (.tIn 1 .odd) s0 = .next t) ∧
      (∃ t, exec (.iTokdne 0x18#8) s0 = .next t) := ⟨next_of (p := fun _ => true) (by decide +kernel), ⟨_, rfl⟩, ⟨_, rfl⟩⟩

theorem witness_OwnedTransmitDescriptorsKept :
    Quiet (armed s0) ∧ Params.ok (armed s0).params ∧ (encode (armed s0).params.rebootKey .iSof).1 ≠ .host ∧
      (∃ t, exec .iSof (armed s0) = .next t) ∧ (armed s0).bdOwn 1 .tx .even = true := ⟨by decide +kernel, by decide +kernel, by decide, ⟨_, rfl⟩, by decide +kernel⟩

theorem witness_CfgepWithoutReceive :
    (Ready s0 ∧ Quiet s0 ∧ MemInv s0 ∧ s0.port.arg0.getLsbD 0 = false ∧ flagTx (s0.endpoint 1).flags = false ∧
        (s0.endpoint 1).rxbuf = none) ∧
      Ready (receiver s0) ∧ Quiet (receiver s0) ∧ MemInv (receiver s0) ∧ (receiver s0).port.arg0.getLsbD 0 = false ∧
      flagTx ((receiver s0).endpoint 2).flags = false ∧ ((receiver s0).endpoint 2).rxbuf = some (0x20000080#32, 0x200000C0#32) := by decide +kernel

theorem witness_CfgepWithReceive :
    (Ready (granting s0) ∧ Quiet (granting s0) ∧ MemInv (granting s0) ∧ (granting s0).port.arg0.getLsbD 0 = true ∧
        flagTx ((granting s0).endpoint 3).flags = false ∧ ((granting s0).endpoint 3).rxbuf = none ∧
        ((granting s0).alloc (BitVec.ofNat 32 (2 * (2000#16).toNat))).1 = none ∧
        ((granting s0).alloc (BitVec.ofNat 32 (2 * (64#16).toNat))).1 = some 0x20000100#32 ∧
        ((granting s0).alloc (BitVec.ofNat 32 (2 * (0#16).toNat))).1 = some 0x20000100#32) ∧
      Ready (receiver (granting s0)) ∧ Quiet (receiver (granting s0)) ∧ MemInv (receiver (granting s0)) ∧
      flagTx ((receiver (granting s0)).endpoint 2).flags = false ∧
      ((receiver (granting s0)).endpoint 2).rxbuf = some (0x20000080#32, 0x200000C0#32) := by decide +kernel

theorem witness_CfgepHolds :
    (Ready (busy s0) ∧ Quiet (busy s0) ∧ MemInv (busy s0) ∧ flagTx ((busy s0).endpoint 1).flags = true ∧
        (busy s0).port.arg0.getLsbD 1 = false ∧ transmitting (busy s0) 1 ∧ (busy s0).port.arg0.getLsbD 0 = false ∧
        ((busy s0).endpoint 1).rxbuf = none) ∧
      (Ready (busyPair 0#32) ∧ Quiet (busyPair 0#32) ∧ MemInv (busyPair 0#32) ∧ flagTx ((busyPair 0#32).endpoint 1).flags = true ∧
        transmitting (busyPair 0#32) 1 ∧ (busyPair 0#32).port.arg0.getLsbD 1 = false ∧ (busyPair 0#32).port.arg0.getLsbD 0 = false ∧
        ((busyPair 0#32).endpoint 1).rxbuf = some (0x20000200#32, 0x20000240#32)) ∧
      ((busyPair 5#32).port.arg0.getLsbD 0 = true ∧ (busyPair 5#32).port.arg0.getLsbD 1 = false ∧
        ((busyPair 5#32).endpoint 1).rxbuf = some (0x20000200#32, 0x20000240#32)) ∧
      (granting (busy s0)).port.arg0.getLsbD 0 = true ∧ (granting (busy s0)).port.arg0.getLsbD 1 = false ∧
      Ready (granting (busy s0)) ∧ transmitting (granting (busy s0)) 1 ∧ ((granting (busy s0)).endpoint 1).rxbuf = none ∧
      ((draws [] [some 0x20000400#32] (granting (busy s0))).alloc (BitVec.ofNat 32 (2 * (64#16).toNat))).1 = some 0x20000400#32 := by
  unfold transmitting; decide +kernel

theorem witness_HeldCfgepContinues :
    ((held s0).sess.reboot = false ∧ Quiet (held s0) ∧ MemInv (held s0) ∧
        (held s0).port.cfgPend = some { id := 1, mps := 64#16, flags := 0#3, cb := 0#32 } ∧ (held s0).env.inbox = .cont :: [] ∧
        flagTx ((held s0).endpoint 1).flags = true ∧ transmitting (held s0) 1) ∧
      (heldReceiver s0).port.cfgPend = some { id := 2, mps := 32#16, flags := 0b101#3, cb := 0x66#32 } ∧
      Quiet (heldReceiver s0) ∧ MemInv (heldReceiver s0) ∧ (heldReceiver s0).env.inbox = .cont :: [] ∧
      flagTx ((heldReceiver s0).endpoint 2).flags = false ∧
      ((heldReceiver s0).endpoint 2).rxbuf = some (0x20000080#32, 0x200000C0#32) := by unfold transmitting; decide +kernel

/-- A `data` range that ends where the armed buffers of endpoint 0 begin, and one whose last byte is in the last of them. -/
theorem granting_data :
    ¬ DataMayBeWritten (args 0x1FFFFFFE#32 2#32 9#32 (granting s0)) ∧ ¬ DataMayBeWritten (granting s0) ∧
      DataMayBeWritten (args 0x2000007F#32 2#32 9#32 (granting s0)) :=
  ⟨fun h => absurd ((mayBeWritten_iff (by decide)).mpr h) (by decide +kernel),
    fun h => absurd ((mayBeWritten_iff (by decide)).mpr h) (by decide +kernel),
    (mayBeWritten_iff (by decide)).mp (by decide +kernel)⟩

theorem witness_PrepMakesNode :
    (Ready (granting s0) ∧ Quiet (granting s0) ∧ MemInv (granting s0) ∧ Params.ok (granting s0).params ∧
      (granting s0).allocNode.1 = some 7#32 ∧ (granting s0).port.arg1 ≠ 0#32 ∧
      ((granting s0).allocNode.2.alloc (granting s0).port.arg1).1 = some 0x20000100#32 ∧
      (args 0#32 0#32 0#32 (granting s0)).allocNode.1 = some 7#32 ∧ (args 0#32 0#32 0#32 (granting s0)).port.arg1 = 0#32 ∧
      (args 0x2000007F#32 2#32 9#32 (granting s0)).allocNode.1 = some 7#32 ∧
      ((args 0x2000007F#32 2#32 9#32 (granting s0)).allocNode.2.alloc 2#32).1 = some 0x20000100#32) ∧
      ¬ DataMayBeWritten (granting s0) ∧ DataMayBeWritten (args 0x2000007F#32 2#32 9#32 (granting s0)) :=
  ⟨by decide +kernel, granting_data.2⟩

theorem witness_AllocationFailureLeavesNothing :
    Ready (failing s0) ∧ (failing s0).port.arg0.getLsbD 0 = true ∧ ((failing s0).endpoint 3).rxbuf = none ∧
      ((failing s0).alloc (BitVec.ofNat 32 (2 * (64#16).toNat))).1 = none ∧ AllocationFails (failing s0) (failing s0).port.arg1 ∧
      (failing s0).allocNode.1 ≠ none ∧ ((failing s0).endpoint 1).txq = [] ∧
      AllocationFails (draws [none] [] s0) s0.port.arg1 := by unfold AllocationFails; decide +kernel

theorem witness_EnqAppendsPreparedNode :
    Ready (preparedNode s0) ∧ (preparedNode s0).port.arg0 ≠ 0#32 ∧
      (preparedNode s0).port.arg0.toNat ≤ (preparedNode s0).params.nodeCap.toNat ∧
      (preparedNode s0).node? (preparedNode s0).port.arg0 = some (preparedNode s0 |>.node 32#32) ∧
      ((preparedNode s0).node 32#32).st = .prepared ∧ 16 ≤ (16#8).toNat ∧
      s0.port.arg0 = 0#32 ∧ s0.params.nodeCap.toNat < (33#32).toNat ∧ (s0.node? 32#32).map (·.st) ≠ some .prepared := by decide +kernel

theorem witness_SendQueuesNode :
    (Ready (granting s0) ∧ Quiet (granting s0) ∧ MemInv (granting s0) ∧ Params.ok (granting s0).params ∧
      (granting s0).allocNode.1 = some 7#32 ∧ ((granting s0).endpoint 1).txq = [] ∧ (granting s0).port.arg1 ≠ 0#32 ∧
      ((granting s0).allocNode.2.alloc (granting s0).port.arg1).1 = some 0x20000100#32 ∧
      (args 0#32 0#32 0#32 (granting s0)).allocNode.1 = some 7#32 ∧
      ((args 0x2000007F#32 2#32 9#32 (granting s0)).allocNode.2.alloc 2#32).1 = some 0x20000100#32) ∧
      ¬ DataMayBeWritten (granting s0) ∧ DataMayBeWritten (args 0x2000007F#32 2#32 9#32 (granting s0)) :=
  ⟨by decide +kernel, granting_data.2⟩

theorem witness_TrysendTestsListAlone :
    Ready (busy s0) ∧ 16 ≤ (16#8).toNat ∧ ((busy s0).endpoint 1).txq ≠ [] ∧ ((busy s0).endpoint 15).txq = [] := by decide +kernel

theorem witness_CancelCompletesQueue :
    QueueInv (busy s0) ∧ Ready (busy s0) ∧ queueBlocks (busy s0) 1 ≠ [] ∧ ((busy s0).endpoint 1).txq = [1#32, 2#32] ∧
      16 ≤ (16#8 : BitVec 8).toNat ∧ 1#8 = epByte 1 := ⟨queueInv_of (by decide +kernel), by decide +kernel⟩

theorem witness_QpendSumsQueue :
    Ready (busy s0) ∧ ((busy s0).endpoint 1).txq = [1#32, 2#32] ∧ 16 ≤ (16#8 : BitVec 8).toNat ∧ 1#8 = epByte 1 := by
  decide +kernel

theorem witness_QbusyReportsTransmission :
    (Ready (busy s0) ∧ Quiet (busy s0) ∧ transmitting (busy s0) 1) ∧ (Ready s0 ∧ Quiet s0 ∧ ¬ transmitting s0 1) ∧
      16 ≤ (16#8 : BitVec 8).toNat ∧ 1#8 = epByte 1 := by unfold transmitting; decide +kernel

theorem witness_PumpArmsNextChunk :
    Quiet (busy s0) ∧ MemInv (busy s0) ∧ hookOf (busy s0).params 1 = 0#32 ∧ ((busy s0).endpoint 1).txq = [1#32, 2#32] ∧
      (busy s0).node? 1#32 = some (queued 1 200#32 192#32 9#32 0x20000080#32) ∧ freeSlot (busy s0) 1 = some .even ∧
      ParityInv (busy s0) ∧ (busy s0).regs.hold = false := by decide +kernel

-- the same where an IN falls between the two writes; but for the ownership it is enabled, at the very slot
theorem witness_PumpPublishes :
    MemInv (publishing s0) ∧ (publishing s0).env.between = [[], [], [], [.inTok 1]] ∧
      (publishing s0).bdOwn 1 .tx .even = false ∧ (publishing s0).bdOwn 1 .tx .odd = false ∧
      hookOf (publishing s0).params 1 = 0#32 ∧ ((publishing s0).endpoint 1).txq = [1#32, 2#32] ∧
      (publishing s0).node? 1#32 = some (queued 1 200#32 192#32 9#32 0x20000080#32) ∧
      freeSlot (publishing s0) 1 = some .even ∧ (publishing s0).sie.txAt 1 = .even ∧
      (publishing s0).tokenEnabled = true ∧ ctlTx ((publishing s0).regs.epc 1) = true := by decide +kernel

theorem witness_PumpArmsEmptyPacket :
    QueueInv (emptyHead s0) ∧ Quiet (emptyHead s0) ∧ MemInv (emptyHead s0) ∧ hookOf (emptyHead s0).params 0 = 0#32 ∧
      ((emptyHead s0).endpoint 0).txq = [1#32] ∧ (emptyHead s0).node? 1#32 = some (queued 0 0#32 0#32 0#32 0#32) ∧
      freeSlot (emptyHead s0) 0 = some .even := ⟨queueInv_of (by decide +kernel), by decide +kernel⟩

theorem witness_PumpCompletesDrainedNode :
    QueueInv (drained s0) ∧ Quiet (drained s0) ∧ hookOf (drained s0).params 1 = 0#32 ∧
      ((drained s0).endpoint 1).txq = [1#32] ∧ (drained s0).node? 1#32 = some (queued 1 2#32 2#32 7#32 0x20000080#32) ∧
      (drained s0).bdOwn 1 .tx .even = false ∧ (drained s0).bdOwn 1 .tx .odd = false := ⟨queueInv_of (by decide +kernel), by decide +kernel⟩

theorem witness_PumpWaits :
    (Quiet s0 ∧ hookOf s0.params 1 = 0#32 ∧ (s0.endpoint 1).txq = []) ∧ freeSlot (bothArmed s0) 1 = none ∧
      ((bothArmed s0).endpoint 1).txq = [1#32, 2#32] ∧ ((lastInFlight s0).endpoint 1).txq = [1#32] ∧
      ((lastInFlight s0).node 1#32).cursor = ((lastInFlight s0).node 1#32).total ∧
      ((lastInFlight s0).node 1#32).total ≠ 0#32 ∧ (lastInFlight s0).bdOwn 1 .tx .odd = true := by decide +kernel

theorem witness_HookReplacesPump :
    hookOf (params (fun p => { p with txHook := p.txHook.set 15 0x77#32 }) s0).params 15 ≠ 0#32 := by decide +kernel

theorem witness_SofPumpsEveryEndpoint :
    Quiet (busy s0) ∧ MemInv (busy s0) ∧ QueueInv (busy s0) ∧ (busy s0).pool.live ≠ [] ∧
      (∃ t, exec (.tIn 1 .even) (busy s0) = .next t) ∧ 1#32 ∈ ((busy s0).endpoint 1).txq ∧
      ∀ e : EpId, (32#32 : Word) ∉ ((busy s0).endpoint e).txq :=
  ⟨by decide +kernel, by decide +kernel, queueInv_of (by decide +kernel), by decide +kernel, ⟨_, rfl⟩, by decide +kernel,
    by decide +kernel⟩

theorem witness_BusResetState :
    (Quiet (resetTaken (busy s0)) ∧ MemInv (resetTaken (busy s0)) ∧ HoldInv (resetTaken (busy s0)) ∧
        (resetTaken (busy s0)).regs.hold = true ∧ (resetTaken (busy s0)).regs.pending .usbrst = false ∧
        ((resetTaken (busy s0)).endpoint 0).rxbuf ≠ none) ∧
      Quiet State.reset ∧ MemInv State.reset ∧ HoldInv State.reset ∧ State.reset.regs.hold = true ∧
      (State.reset.endpoint 0).rxbuf = none := by decide +kernel

-- the clauses of BusResetState without a pair: the block of a cancelled node is free when the pair is allocated, though
-- before the reset it was not; and a failed allocation
theorem witness_BusResetState_first :
    (QueueInv (resetTaken (busy s0)) ∧ QueueInv (firstReset (some 0x20000000#32)) ∧ QueueInv (firstReset none)) ∧
      (Quiet (firstReset none) ∧ MemInv (firstReset none) ∧ HoldInv (firstReset none) ∧ (firstReset none).regs.hold = true ∧
        (firstReset none).regs.pending .usbrst = false ∧ ((firstReset none).endpoint 0).rxbuf = none) ∧
      freed (epIds.flatMap (queueBlocks (firstReset none))) (firstReset none).pool.live = [] ∧
      (firstReset none).pool.live = [(0x20000000, 2)] ∧
      ((firstReset (some 0x20000000#32)).alloc 128#32).1 = none ∧
      ((State.withPool (firstReset (some 0x20000000#32))
        { (firstReset none).pool with live := [] }).alloc (BitVec.ofNat 32 (2 * (64#16).toNat))).1 = some 0x20000000#32 ∧
      after (exec .iReset (firstReset (some 0x20000000#32))) (fun t =>
        (t.endpoint 0).rxbuf == some (0x20000000#32, 0x20000040#32) && t.pool.live == [(0x20000000, 128)]) = true ∧
      after (exec .iReset (firstReset none)) (fun t => t.sess.isrAlloc && (t.endpoint 0).rxbuf == none) = true :=
  ⟨⟨queueInv_of (by decide +kernel), queueInv_of (by decide +kernel), queueInv_of (by decide +kernel)⟩, by decide +kernel,
    by decide +kernel, by decide +kernel, by decide +kernel, by decide +kernel, by decide +kernel, by decide +kernel⟩

theorem witness_BusResetCancelsAll :
    QueueInv (busy s0) ∧ completions (busy s0) 1 = [.complete 1 9#32] := ⟨queueInv_of (by decide +kernel), by decide +kernel⟩

theorem witness_ErrorAcknowledged :
    Quiet s0 ∧ (s0.withEnv { s0.env with between := [[], [.err 1#5]] }).env.between = [[], [.err 1#5]] ∧
      s0.sess.reboot = false ∧ s0.regs.usben = true := by decide +kernel

theorem witness_TokenDoneTransmitOrStale :
    Quiet s0 ∧ s0.bdOwn 0 .rx .even = true := by decide +kernel

theorem witness_TokenDoneRunsTokenAndRearms :
    (Quiet (written s0) ∧ MemInv (written s0) ∧ (written s0).bdOwn 2 .rx .odd = false ∧
        ctlTok ((written s0).bdCtl 2 .rx .odd) = 0x1#4) ∧
      Quiet (unknown s0) ∧ MemInv (unknown s0) ∧ (unknown s0).bdOwn 2 .rx .even = false ∧
      ctlTok ((unknown s0).bdCtl 2 .rx .even) ≠ 0x1#4 ∧ ctlTok ((unknown s0).bdCtl 2 .rx .even) ≠ 0xD#4 := by decide +kernel

theorem witness_SetupDeliveredToCallback :
    QueueInv (busy s0) ∧ QueueInv (receiver s0) ∧ ((busy s0).endpoint 1).rxcb = 0#32 ∧
      ((receiver s0).endpoint 2).rxcb ≠ 0#32 := ⟨queueInv_of (by decide +kernel), queueInv_of (by decide +kernel), by decide +kernel⟩

theorem witness_SetupRunsRequestRow :
    QueueInv s0 ∧ Quiet s0 ∧ (s0.endpoint 0).rxcb = 0xFFFFFFFF#32 ∧
      overrideOf s0.params (packSetup [0#8, 5#8, 5#8, 0#8, 0#8, 0#8, 0#8, 0#8]) = .declined := ⟨queueInv_of (by decide +kernel), by decide +kernel⟩

theorem witness_OutDelivered :
    Quiet s0 ∧ (s0.endpoint 1).rxcb = 0#32 ∧ ((receiver s0).endpoint 2).rxcb ≠ 0#32 ∧ (s0.endpoint 0).rxcb = 0xFFFFFFFF#32 ∧
      (setup 0xAA40#64 s0).sess.lastSetup.extractLsb' 0 16 = (setup 0xAA40#64 s0).params.fwupdKey ∧
      [0x86#8].head? = some s0.params.sentinel := by decide +kernel

theorem witness_AcknowledgedRequests :
    (granting s0).allocNode.1 = some 7#32 := by decide +kernel

theorem witness_LiteralReplies :
    Quiet (replying s0) ∧ MemInv (replying s0) ∧ Params.ok (replying s0).params ∧ (replying s0).allocNode.1 = some 7#32 ∧
      ([0x00#8, 0x00#8] : List Byte).take ((replying s0).sess.lastSetup.extractLsb' 48 16).toNat = [0x00#8] ∧
      ((replying s0).allocNode.2.alloc 1#32).1 = some 0x20000100#32 ∧
      ([0x00#8, 0x00#8] : List Byte).take ((granting s0).sess.lastSetup.extractLsb' 48 16).toNat = [] := by decide +kernel

theorem witness_DescriptorReplies :
    Quiet (replying s0) ∧ MemInv (replying s0) ∧ Params.ok (replying s0).params ∧ (replying s0).allocNode.1 = some 7#32 ∧
      resolver (replying s0).params ((replying s0).sess.lastSetup.extractLsb' 16 16)
        ((replying s0).sess.lastSetup.extractLsb' 32 16) = some (0x3000#32, 18#32) ∧
      ((replying s0).allocNode.2.alloc 1#32).1 = some 0x20000100#32 ∧
      resolver (setup 0x0000000001000680#64 (replying s0)).params 0x0100#16 0#16 = some (0x3000#32, 18#32) := by decide +kernel

theorem witness_StalledRequests :
    resolver s0.params (s0.sess.lastSetup.extractLsb' 16 16) (s0.sess.lastSetup.extractLsb' 32 16) = none ∧ Quiet s0 := by decide +kernel

theorem witness_SetConfigurationRearms :
    Quiet (receiver (granting s0)) ∧ MemInv (receiver (granting s0)) ∧ (receiver (granting s0)).allocNode.1 = some 7#32 ∧
      flagRx ((receiver (granting s0)).endpoint 2).flags = true ∧ ((receiver (granting s0)).endpoint 2).rxbuf ≠ none := by decide +kernel

theorem witness_ReplyAllocationFailure :
    (Quiet (receiver (draws [none] [] s0)) ∧ MemInv (receiver (draws [none] [] s0)) ∧
        (receiver (draws [none] [] s0)).allocNode.1 = none ∧ flagRx ((receiver (draws [none] [] s0)).endpoint 2).flags = true) ∧
      AllocationFails (draws [none] [] s0) 0#32 ∧ AllocationFails (failing (replying s0)) 1#32 ∧
      1#32 = BitVec.ofNat 32 (min 2 ((failing (replying s0)).sess.lastSetup.extractLsb' 48 16).toNat) ∧
      resolver (failing (replying s0)).params ((failing (replying s0)).sess.lastSetup.extractLsb' 16 16)
        ((failing (replying s0)).sess.lastSetup.extractLsb' 32 16) = some (0x3000#32, 18#32) := by unfold AllocationFails; decide +kernel

-- the hypotheses of BusResetStep and EventSteps
theorem witness_host_events :
    s0.sess.reboot = false ∧ s0.regs.usben = true ∧ (0x10#5 : BitVec 5) ≠ 0#5 := by decide +kernel

theorem witness_PacketReceived :
    MemInv s0 ∧ s0.sess.reboot = false ∧ s0.regs.usben = true ∧ s0.regs.hold = false ∧
      s0.regs.statq.length < s0.params.statDepth ∧ ctlRx (s0.regs.epc 0) = true ∧ s0.bdOwn 0 .rx (s0.sie.rxAt 0) = true ∧
      8 ≤ (ctlBc (s0.bdCtl 0 .rx (s0.sie.rxAt 0))).toNat ∧ ctlStall (s0.regs.epc 0) = false ∧
      (List.replicate 64 1#8 : List Byte).length ≤ (ctlBc (s0.bdCtl 0 .rx (s0.sie.rxAt 0))).toNat := by decide +kernel

theorem witness_PacketSent :
    MemInv (armed s0) ∧ (armed s0).sess.reboot = false ∧ (armed s0).regs.usben = true ∧ (armed s0).regs.hold = false ∧
      (armed s0).regs.statq.length < (armed s0).params.statDepth ∧ ctlTx ((armed s0).regs.epc 1) = true ∧
      ctlStall ((armed s0).regs.epc 1) = false ∧ (armed s0).bdOwn 1 .tx ((armed s0).sie.txAt 1) = true := by decide +kernel

theorem witness_StallAnswered :
    (stalled s0).sess.reboot = false ∧ (stalled s0).regs.usben = true ∧ (stalled s0).regs.hold = false ∧
      (stalled s0).regs.statq.length < (stalled s0).params.statDepth ∧ ctlStall ((stalled s0).regs.epc 0) = true ∧
      ctlRx ((stalled s0).regs.epc 0) = true := by decide +kernel

theorem witness_NoStepChangesNothing :
    State.reset.regs.hold = true ∧ ctlRx (s0.regs.epc 1) = false ∧ ctlTx (s0.regs.epc 1) = false ∧
      ctlStall (s0.regs.epc 0) = false ∧ ctlStall ((stalled s0).regs.epc 0) = true ∧ s0.bdOwn 0 .tx (s0.sie.txAt 0) = false ∧
      (ctlBc ((shortSlot s0).bdCtl 0 .rx .even)).toNat < 8 ∧
      (full s0).params.statDepth ≤ (full s0).regs.statq.length := by decide +kernel

end Sys2Proof.Tests
end

section
/-! What the sequencer's operations are made of, finer than `Stable`: a node is built, appended, moved and completed only
where the queues allow it, a receive pair is made and dropped only where there is none and one. A property that each of these
keeps is kept by every operation; what an instruction does beyond them is `Extra`. -/

namespace Sys2Proof.Machine

/-- The literal bytes of a source are as many as the node is to have. -/
def TxSource.Fits (len : Word) : TxSource → Prop
  | .memory _ => True
  | .literal bytes => bytes.length = len.toNat

/-- The receive pair a block of `2 * mps` bytes at `p` makes of endpoint `e`'s record (40_registry.md R124). -/
def State.setPair (s : State) (e : EpId) (p : Word) (mps : BitVec 16) : State :=
  s.updEp e fun r => { r with rxbuf := some (p, secondHalf p mps) }

/-- The receive pair of `e` at `b0`, `b1` released (40_registry.md R124). -/
def State.dropPair (s : State) (e : EpId) (b0 b1 : Word) : State :=
  (s.freeBlock b0 (pairBytes b0 b1)).updEp e fun r => { r with rxbuf := none }

/-- A change of a record that leaves its queue, its receive pair and its parity. -/
def KeepsLinks (f : EpRec → EpRec) : Prop :=
  ∀ r, (f r).txq = r.txq ∧ (f r).rxbuf = r.rxbuf ∧ (f r).txodd = r.txodd

/-- The changes that every operation of the sequencer but `RESETALL` and the commands' answers is made of. -/
structure Kept (P : State → Prop) : Prop where
  tick : ∀ s, P s → P (tick s)
  draw : ∀ s (x : Env), x.inbox = s.env.inbox → x.between = s.env.between → P s → P (s.withEnv x)
  fault : ∀ s, P s → P (s.withSess { s.sess with isrAlloc := true })
  config : ∀ s c, P s → P (s.withSess { s.sess with config := c })
  reboot : ∀ s, P s → P (s.withSess { s.sess with reboot := true })
  emit : ∀ s x, P s → P (s.emit x)
  record : ∀ s e f, KeepsLinks f → P s → P (s.updEp e f)
  rxCtl : ∀ s e x w, P s → P (s.setBdCtl e .rx x w)
  rxBuf : ∀ s e x w, P s → P (s.setBdBuf e .rx x w)
  epctl : ∀ s e v, P s → P (s.withRegs (s.regs.setEpc e v))
  err : ∀ s v, P s → P (s.withRegs (s.regs.writeErrstat v))
  prep : ∀ s src len cb, src.Fits len → P s → P (prepNode src len cb s).2
  append : ∀ s e h, s.isPrepared h = true → P s → P (appendNode e h s)
  complete : ∀ s e h rest, (s.endpoint e).txq = h :: rest → P s → P (complete e h s)
  pump : ∀ s e, P s → P (pump e s)
  newPair : ∀ s e p mps, (s.endpoint e).rxbuf = none → (s.alloc (pairSize mps)).1 = some p → P s →
    P ((s.alloc (pairSize mps)).2.setPair e p mps)
  dropPair : ∀ s e b0 b1, (s.endpoint e).rxbuf = some (b0, b1) → P s → P (s.dropPair e b0 b1)

/-! ### What the shared operations hand on to each other -/

theorem complete_txq (e : EpId) (h : Word) (s : State) : ((complete e h s).endpoint e).txq = (s.endpoint e).txq.tail := by
  obtain ⟨ev, pool, hs⟩ := complete_shape e h s
  rw [hs, State.updEp_same]
  rfl

/-- The handle of a node just built is of a PREPARED node. -/
theorem prepNode_isPrepared {src : TxSource} {len cb h : Word} {s t : State}
    (ht : prepNode src len cb s = (some h, t)) : t.isPrepared h = true := by
  obtain ⟨x, -, -, hx | ⟨k, hg, hx⟩⟩ := s.allocNode_cases
  · unfold prepNode at ht
    rw [hx] at ht
    cases ht
  · simp only [State.nodeGrantable, Bool.and_eq_true, decide_eq_true_eq] at hg
    obtain ⟨⟨hpos, hcap⟩, -⟩ := hg
    have prepared : ∀ u : State, u.params = s.params → ∀ n : Node, n.st = .prepared →
        (u.putNode k n).isPrepared k = true := by
      intro u hu n hn
      have hk : k ≠ 0#32 := by rintro rfl; simp at hpos
      simp [State.isPrepared, hu, hcap, hn, hk]
    unfold prepNode at ht
    rw [hx] at ht
    dsimp only at ht
    split at ht
    · cases ht
      exact prepared _ (by simp) _ rfl
    · obtain ⟨y, -, -, hy | ⟨b, -, hy⟩⟩ := ((s.withEnv x).putNode k Node.blank).alloc_cases len
      · rw [hy] at ht
        cases ht
      · rw [hy] at ht
        cases ht
        exact prepared _ ((fillFrom_untouched _ _ _ _).params.trans (by simp)) _ rfl

section
variable {P : State → Prop} (hP : Kept P) {s : State}
include hP

/-! ### Descriptors and registers -/

theorem Kept.armRxBd (e : EpId) (x : Slot) (a : Word) (c : BitVec 10) (t : Bool) (h : P s) :
    P (armBd e .rx x a c t s) :=
  hP.rxCtl _ _ _ _ (hP.tick _ (hP.rxBuf _ _ _ _ (hP.tick _ h)))

theorem Kept.reclaimRx (e : EpId) (x : Slot) (h : P s) : P (reclaimBd e .rx x s) :=
  hP.rxCtl _ _ _ _ (hP.tick _ h)

theorem Kept.setEpctl (e : EpId) (v : BitVec 4) (h : P s) : P (setEpctl e v s) := hP.epctl _ _ _ (hP.tick _ h)

theorem Kept.clearEpctl (e : EpId) (m : BitVec 4) (h : P s) : P (clearEpctl e m s) := hP.setEpctl _ _ (hP.tick _ h)

theorem Kept.raiseEpctl (e : EpId) (m : BitVec 4) (h : P s) : P (raiseEpctl e m s) := hP.setEpctl _ _ (hP.tick _ h)

theorem Kept.acknowledgeErrors (h : P s) : P (acknowledgeErrors s) := hP.err _ _ (hP.tick _ (hP.tick _ h))

theorem Kept.readBytes (n : Nat) : ∀ {s : State} (a : Word), P s → P (readBytes n a s).2 := by
  induction n with
  | zero => intro s _ h; exact h
  | succ n ih => intro s _ h; exact ih _ (hP.tick _ h)

theorem Kept.readPacket (w a : Word) (h : P s) : P (readPacket w a s).2 := by
  unfold Machine.readPacket
  split
  · exact hP.readBytes _ _ (hP.tick _ (hP.tick _ h))
  · exact hP.readBytes _ _ h

/-! ### Queues -/

/-- Completing the nodes of a queue from its head. -/
theorem Kept.completeAll (e : EpId) : ∀ (l : List Word) {s : State}, (s.endpoint e).txq = l → P s →
    P (l.foldl (fun t h => Machine.complete e h t) s)
  | [], _, _, h => h
  | a :: rest, s, hl, h => Kept.completeAll e rest (by rw [complete_txq, hl]; rfl) (hP.complete _ _ _ _ hl h)

theorem Kept.cancelQueue (e : EpId) (h : P s) : P (cancelQueue e s) := hP.completeAll e _ rfl h

theorem Kept.isend (e : EpId) {src : TxSource} {len : Word} (hf : src.Fits len) (h : P s) : P (isend e src len s) := by
  have h1 := hP.prep s src len 0#32 hf h
  unfold Machine.isend
  split
  · rename_i t ht
    rw [ht] at h1
    exact hP.fault _ h1
  · rename_i a t ht
    rw [ht] at h1
    exact hP.append _ _ _ (prepNode_isPrepared ht) h1

theorem Kept.txInProgress (e : EpId) (h : P s) : P (txInProgress e s).2 := hP.tick _ (hP.tick _ h)

theorem Kept.hookOrPump (e : EpId) (h : P s) : P (hookOrPump e s) := by
  unfold Machine.hookOrPump
  split
  · exact hP.pump _ _ h
  · exact hP.emit _ _ h

theorem Kept.iSof (h : P s) : P (iSof s) := foldl_keeps (fun _ e ht => hP.hookOrPump e ht) _ h

/-! ### The registry -/

theorem Kept.armRx (e : EpId) (h : P s) : P (armRx e s) := by
  unfold Machine.armRx
  split
  · exact h
  · exact hP.armRxBd _ _ _ _ _ (hP.armRxBd _ _ _ _ _ h)

/-- `Alloc(n)` that fails uses up a draw. -/
theorem Kept.allocFails {n : Word} (hn : (s.alloc n).1 = none) (h : P s) : P (s.alloc n).2 := by
  obtain ⟨x, hi, hb, hx | ⟨p, -, hx⟩⟩ := s.alloc_cases n
  · rw [hx]
    exact hP.draw _ _ hi hb h
  · rw [hx] at hn
    cases hn

theorem Kept.cfgepStepA (e : EpId) (mps : BitVec 16) (f : BitVec 3) (h : P s) : P (cfgepStepA e mps f s).2 := by
  unfold Machine.cfgepStepA
  split
  · rename_i hr _
    split
    · rename_i t ht
      have := hP.allocFails (by rw [ht]) h
      rwa [ht] at this
    · rename_i p t ht
      have := hP.newPair s e p mps hr (by rw [ht]) h
      rwa [ht] at this
  · rename_i b0 b1 hr _
    refine hP.dropPair _ e b0 b1 ?_ (hP.reclaimRx _ _ (hP.reclaimRx _ _ (hP.clearEpctl _ _ h)))
    rw [((reclaimBd_untouched _ _ _ _).toPrivate.endpoint e), ((reclaimBd_untouched _ _ _ _).toPrivate.endpoint e),
      (clearEpctl_private _ _ _).endpoint e]
    exact hr
  · exact h

theorem Kept.rearm (e : EpId) (h : P s) : P (rearm e s) := by
  have h1 := hP.setEpctl e 0#4 h
  unfold Machine.rearm
  refine hP.setEpctl _ _ (hP.record _ _ _ (fun _ => ⟨rfl, rfl, rfl⟩) ?_)
  split
  · exact hP.armRx _ h1
  · exact h1

theorem Kept.rxRearm (e : EpId) (x : Slot) (w : Word) (h : P s) : P (rxRearm e x w s) := by
  unfold Machine.rxRearm
  split
  · exact h
  · split
    · exact hP.armRxBd _ _ _ _ _ h
    · exact h

/-! ### The control endpoint -/

theorem Kept.acknowledge (h : P s) : P (acknowledge s) := hP.isend 0 (src := .literal []) rfl h

theorem Kept.replyBytes (bytes : List Byte) (h : P s) : P (replyBytes bytes s) := by
  refine hP.isend 0 (src := .literal _) ?_ h
  have hl := s.sess.wLength.isLt
  have : (bytes.take s.sess.wLength.toNat).length ≤ s.sess.wLength.toNat := List.length_take_le _ _
  unfold TxSource.Fits
  rw [BitVec.toNat_ofNat, Nat.mod_eq_of_lt (by omega)]

theorem Kept.stall0 (h : P s) : P (stall0 s) := hP.raiseEpctl _ _ h

theorem Kept.describe (h : P s) : P (describe s) := by
  unfold Machine.describe
  split
  · exact hP.stall0 h
  · exact hP.isend 0 (src := .memory _) trivial h

theorem Kept.setConfiguration (h : P s) : P (setConfiguration s) :=
  hP.acknowledge (foldl_keeps (fun _ e ht => hP.rearm e ht) _ (hP.config _ _ h))

theorem Kept.runRequest (r : Request) (h : P s) : P (runRequest r s) := by
  cases r with
  | getStatus => exact hP.replyBytes _ h
  | setAddress => exact hP.acknowledge h
  | getDescriptor => exact hP.describe h
  | getDescriptorIf => exact hP.describe h
  | getConfiguration => exact hP.replyBytes _ h
  | setConfiguration => exact hP.setConfiguration h
  | vendorReboot => exact hP.acknowledge h
  | stall => exact hP.stall0 h

theorem Kept.ctrlSetup (h : P s) : P (ctrlSetup s) := by
  have h1 := hP.emit _ (.override (Machine.clearEpctl 0 stallMask s).sess.lastSetup
    (overrideOf (Machine.clearEpctl 0 stallMask s).params (Machine.clearEpctl 0 stallMask s).sess.lastSetup))
    (hP.clearEpctl 0 stallMask h)
  unfold Machine.ctrlSetup
  dsimp only
  split
  · exact hP.replyBytes _ h1
  · exact hP.acknowledge h1
  · exact hP.stall0 h1
  · exact hP.runRequest _ h1

theorem Kept.ctrlOut (payload : List Byte) (h : P s) : P (ctrlOut payload s) := by
  unfold Machine.ctrlOut
  refine hP.emit _ _ ?_
  split
  · exact hP.emit _ _ (hP.reboot _ (hP.tick _ h))
  · exact h

theorem Kept.handler (e : EpId) (pid : BitVec 4) (payload : List Byte) (h : P s) : P (handler e pid payload s) := by
  unfold Machine.handler
  split
  · split
    · exact hP.ctrlSetup h
    · exact hP.ctrlOut _ h
  · split
    · exact h
    · exact hP.emit _ _ h

/-- The rest of `T.SETUP` once `LASTSETUP` is written. -/
theorem Kept.tSetup (hs : ∀ s v, P s → P (s.withSess { s.sess with lastSetup := v })) (e : EpId) (payload : List Byte)
    (h : P s) : P (tSetup e payload s) :=
  hP.handler _ _ _ (hP.record _ _ _ (fun _ => ⟨rfl, rfl, rfl⟩) (hP.cancelQueue _ (hs _ _ h)))

theorem Kept.tOut (e : EpId) (payload : List Byte) (h : P s) : P (tOut e payload s) := hP.handler _ _ _ h

theorem Kept.tIn {e : EpId} (ha : e = 0 → ∀ s a, P s → P (s.withRegs { s.regs with addr := a })) (h : P s) :
    P (tIn e s) := by
  refine hP.hookOrPump _ ?_
  split
  · rename_i he
    exact ctrlIn_keeps (ha he) h
  · exact h

theorem Kept.receiveDone (hs : ∀ s v, P s → P (s.withSess { s.sess with lastSetup := v })) (e : EpId) (x : Slot)
    (h : P s) : P (receiveDone e x s) := by
  have h1 := hP.tick _ h
  have h2 := hP.tick _ h1
  unfold Machine.receiveDone
  dsimp only
  split
  · exact h1
  · refine hP.rxRearm _ _ _ ?_
    split
    · exact hP.tSetup hs _ _ (hP.readPacket _ _ h2)
    · exact hP.tOut _ _ (hP.readPacket _ _ h2)
    · exact hP.readPacket _ _ h2

end

/-! ### What an instruction does beyond them -/

/-- The changes only `I.RESET` makes (40_registry.md R125; 42_dispatcher.md R163). -/
structure KeptByReset (P : State → Prop) : Prop where
  txCtl : ∀ s e x, P s → P (s.setBdCtl e .tx x 0#32)
  parity : ∀ s e, P s → P (s.updEp e fun r => { r with txtoggle := false, txodd := .even })
  regs : ∀ s, P s → P (s.withRegs { s.regs with addr := 0#7, inten := 0xFF#8 })
  release : ∀ s, P s → P (releaseHold s)

/-- A command's code in `STATUS` is kept. -/
def KeptByStatus (P : State → Prop) : Prop := ∀ s c, P s → P (s.setStatus c)

/-- A command's answer in `RET` is kept. -/
def KeptByReturn (P : State → Prop) : Prop :=
  ∀ s r c, P s → P (s.withPort { s.port with ret := r, status := c })

/-- The latch of a `CFGEP` is kept. -/
def KeptByLatch (P : State → Prop) : Prop :=
  ∀ s l c, P s → P (s.withPort { s.port with cfgPend := l, status := c })

/-- An address commit is kept. -/
def KeptByAddress (P : State → Prop) : Prop := ∀ s a, P s → P (s.withRegs { s.regs with addr := a })

/-- A write of `LASTSETUP` is kept. -/
def KeptBySetup (P : State → Prop) : Prop := ∀ s v, P s → P (s.withSess { s.sess with lastSetup := v })

/-- The peripheral step that an instruction of the environment's lines is. -/
def hostStepOf : Instr → Option HostStep
  | .pReset => some .reset
  | .pSof => some .sof
  | .pErr bits => some (.err bits)
  | .pSleep => some .sleep
  | .pResume => some .resume
  | .pAttach => some .attach
  | .pSetup e bytes => some (.setup e bytes)
  | .pIn e => some (.inTok e)
  | .pOut e t bytes => some (.out e t bytes)
  | .pStalled e => some (.stalled e)
  | _ => none

/-- What `P` must survive for `i` to keep it, beyond the changes of `Kept`. -/
def Extra (P : State → Prop) : Instr → Prop
  | .cfgep _ _ => KeptByStatus P ∧ KeptByLatch P
  | .prep => KeptByStatus P ∧ KeptByReturn P
  | .enq _ | .send _ | .trysend _ | .cancel _ => KeptByStatus P
  | .qpend _ | .qbusy _ => KeptByStatus P ∧ KeptByReturn P
  | .iReset => KeptByReset P
  | .iTokdne st => (statDir st = .tx → statEp st = 0 → KeptByAddress P) ∧ (statDir st = .rx → KeptBySetup P)
  | .tIn e _ => e = 0 → KeptByAddress P
  | .tSetup _ _ _ => KeptBySetup P
  | i => ∀ h, hostStepOf i = some h → ∀ s, P s → P (hostStep h s)

/-- A command of the foreground client. -/
def IsCommand (i : Instr) : Prop := ∃ rk, (encode rk i).1 = .cmd

/-- A command that answers in `RET`. -/
def Returns (i : Instr) : Prop := i = .prep ∨ (∃ ep, i = .qpend ep) ∨ ∃ ep, i = .qbusy ep

/-- An IN on endpoint 0, which may commit an address. -/
def CommitsAddress (i : Instr) : Prop :=
  (∃ x, i = .tIn 0 x) ∨ ∃ st, statEp st = 0 ∧ statDir st = .tx ∧ i = .iTokdne st

/-- A Setup packet, which `LASTSETUP` stores. -/
def StoresSetup (i : Instr) : Prop :=
  (∃ e d payload, i = .tSetup e d payload) ∨ ∃ st, statDir st = .rx ∧ i = .iTokdne st

/-- `Extra` by the class of the instruction. -/
theorem extra_of {P : State → Prop} {i : Instr} (status : IsCommand i → KeptByStatus P)
    (latch : IsCommand i → KeptByLatch P) (ret : Returns i → KeptByReturn P) (reset : i = .iReset → KeptByReset P)
    (address : CommitsAddress i → KeptByAddress P) (setup : StoresSetup i → KeptBySetup P)
    (host : ∀ h, hostStepOf i = some h → ∀ s, P s → P (hostStep h s)) : Extra P i := by
  cases i with
  | cfgep ep mps => exact ⟨status ⟨0, rfl⟩, latch ⟨0, rfl⟩⟩
  | prep => exact ⟨status ⟨0, rfl⟩, ret (.inl rfl)⟩
  | qpend ep => exact ⟨status ⟨0, rfl⟩, ret (.inr (.inl ⟨ep, rfl⟩))⟩
  | qbusy ep => exact ⟨status ⟨0, rfl⟩, ret (.inr (.inr ⟨ep, rfl⟩))⟩
  | enq ep | send ep | trysend ep | cancel ep => exact status ⟨0, rfl⟩
  | iReset => exact reset rfl
  | iTokdne st => exact ⟨fun hd he => address (.inr ⟨st, he, hd, rfl⟩), fun hd => setup (.inr ⟨st, hd, rfl⟩)⟩
  | tIn e x => exact fun he => address (.inl ⟨x, by rw [he]⟩)
  | tSetup e d payload => exact setup (.inl ⟨e, d, payload, rfl⟩)
  | _ => exact host

/-- An instruction of the environment's lines is its peripheral step. -/
theorem exec_hostStep {i : Instr} {h : HostStep} (hi : hostStepOf i = some h) (s : State) :
    exec i s = .next (hostStep h s) := by
  cases i <;> simp only [hostStepOf, Option.some.injEq, reduceCtorEq] at hi <;> subst hi <;> rfl

section
variable {P : State → Prop} (hP : Kept P) {s : State}
include hP

/-! ### The commands -/

theorem Kept.prepCommand (hs : KeptByStatus P) (hr : KeptByReturn P) (h : P s) : P (Machine.prep s) := by
  have h1 := hP.prep s (.memory s.dataAddr) s.dataLen s.dataCallback trivial h
  unfold Machine.prep
  split
  · rename_i t ht
    rw [ht] at h1
    exact hs _ _ h1
  · rename_i a t ht
    rw [ht] at h1
    exact hr _ _ _ h1

theorem Kept.enq (hs : KeptByStatus P) (e : EpId) (h : P s) : P (enq e s) := by
  unfold Machine.enq
  split
  · rename_i hp
    exact hs _ _ (hP.append _ _ _ hp h)
  · exact hs _ _ h

theorem Kept.send (hs : KeptByStatus P) (e : EpId) (h : P s) : P (send e s) := by
  have h1 := hP.prep s (.memory s.dataAddr) s.dataLen s.dataCallback trivial h
  unfold Machine.send
  split
  · rename_i t ht
    rw [ht] at h1
    exact hs _ _ h1
  · rename_i a t ht
    rw [ht] at h1
    exact hs _ _ (hP.append _ _ _ (prepNode_isPrepared ht) h1)

theorem Kept.trysend (hs : KeptByStatus P) (e : EpId) (h : P s) : P (trysend e s) := by
  unfold Machine.trysend
  split
  · exact hP.send hs e h
  · exact hs _ _ h

theorem Kept.cancel (hs : KeptByStatus P) (e : EpId) (h : P s) : P (cancel e s) := hs _ _ (hP.cancelQueue e h)

theorem Kept.qbusy (hr : KeptByReturn P) (e : EpId) (h : P s) : P (qbusy e s) := hr _ _ _ (hP.txInProgress e h)

theorem Kept.cfgepStepB (hl : KeptByLatch P) (l : CfgLatch) (h : P s) : P (cfgepStepB l s) := by
  have h1 := hP.record _ l.id (fun r => { r with maxpkt := l.mps, flags := l.flags, rxcb := l.cb })
    (fun _ => ⟨rfl, rfl, rfl⟩) (hP.setEpctl l.id 0#4 h)
  unfold Machine.cfgepStepB
  refine hl _ _ _ (hP.setEpctl _ _ ?_)
  split
  · exact hP.armRx _ h1
  · exact h1

theorem Kept.cfgepContinue (hl : KeptByLatch P) (l : CfgLatch) (h : P s) : P (cfgepContinue l s) := by
  have h1 : P (cfgepGuard l s).2 := hP.txInProgress l.id h
  unfold Machine.cfgepContinue
  dsimp only
  split
  · exact hP.cfgepStepB hl l h1
  · exact h1

theorem Kept.cfgep (hs : KeptByStatus P) (hl : KeptByLatch P) (mps : BitVec 16) (e : EpId) (h : P s) :
    P (cfgep mps e s) := by
  have h1 := hP.cfgepStepA e mps s.cfgFlags h
  unfold Machine.cfgep
  dsimp only
  split
  · exact hP.cfgepContinue hl _ (hl _ _ _ h1)
  · exact hs _ _ h1

omit hP in
theorem onEndpoint_keeps_of (hs : KeptByStatus P) {run : EpId → State → State} (hr : ∀ e t, P t → P (run e t))
    (ep : BitVec 8) : ∀ t, P t → P (onEndpoint ep run t) := by
  intro t h
  unfold onEndpoint
  split
  · exact hs _ _ h
  · exact hr _ _ h

/-! ### `I.RESET` -/

theorem Kept.resetEndpoint (hr : KeptByReset P) (e : EpId) (h : P s) : P (resetEndpoint e s) := by
  have h1 := hP.reclaimRx e .odd (hP.reclaimRx e .even (hP.setEpctl e 0#4 (hP.cancelQueue e h)))
  exact hr.parity _ _ (hr.txCtl _ _ _ (hP.tick _ (hr.txCtl _ _ _ (hP.tick _ h1))))

theorem Kept.establishControl (h : P s) : P (establishControl s) :=
  hP.setEpctl _ _ (hP.armRx _ (hP.record _ _ _ (fun _ => ⟨rfl, rfl, rfl⟩) h))

theorem Kept.resetAll (hr : KeptByReset P) (h : P s) : P (resetAll s) := by
  have h1 : P (epIds.foldl (fun t e => Machine.resetEndpoint e t) s) :=
    foldl_keeps (fun _ e ht => hP.resetEndpoint hr e ht) _ h
  unfold Machine.resetAll
  dsimp only
  split
  · exact hP.establishControl h1
  · rename_i hn
    split
    · rename_i t ht
      have := hP.allocFails (by rw [ht]) h1
      rw [ht] at this
      exact hP.fault _ this
    · rename_i p t ht
      have := hP.newPair _ 0 p _ hn (by rw [ht]) h1
      rw [ht] at this
      have hp : t.params = (epIds.foldl (fun t e => Machine.resetEndpoint e t) s).params := by
        obtain ⟨x, -, -, -, hx⟩ := alloc_some (by rw [ht])
        rw [ht] at hx
        simp only at hx
        rw [hx, State.withPool_params, State.withEnv_params]
      refine hP.establishControl ?_
      rw [hp]
      exact this

theorem Kept.iReset (hr : KeptByReset P) (h : P s) : P (iReset s) := by
  have h1 := hr.regs _ (hP.resetAll hr h)
  unfold Machine.iReset
  generalize Machine.resetAll s = u at h1 ⊢
  exact hr.release _ (hP.config _ 0#8 h1)

/-! ### Every instruction -/

/-- Every instruction that completes keeps what the changes it is made of keep. -/
theorem Kept.exec (i : Instr) (hx : Extra P i) {t : State} (h : P s) (ht : exec i s = .next t) : P t := by
  cases i with
  | cfgep ep mps => exact command_keeps (onEndpoint_keeps_of hx.1 (fun e _ => hP.cfgep hx.1 hx.2 mps e) ep) h ht
  | prep => exact copyingCommand_keeps (P := P) (fun _ => hP.prepCommand hx.1 hx.2) h ht
  | enq ep => exact command_keeps (onEndpoint_keeps_of hx (fun e _ => hP.enq hx e) ep) h ht
  | send ep => exact copyingCommand_keeps (onEndpoint_keeps_of hx (fun e _ => hP.send hx e) ep) h ht
  | trysend ep => exact copyingCommand_keeps (onEndpoint_keeps_of hx (fun e _ => hP.trysend hx e) ep) h ht
  | cancel ep => exact command_keeps (onEndpoint_keeps_of hx (fun e _ => hP.cancel hx e) ep) h ht
  | qpend ep => exact command_keeps (onEndpoint_keeps_of hx.1 (fun _ _ => hx.2 _ _ _) ep) h ht
  | qbusy ep => exact command_keeps (onEndpoint_keeps_of hx.1 (fun e _ => hP.qbusy hx.2 e) ep) h ht
  | iReset => exact Host.Outcome.next.inj ht ▸ hP.iReset hx h
  | iError => exact Host.Outcome.next.inj ht ▸ hP.acknowledgeErrors h
  | iSof => exact Host.Outcome.next.inj ht ▸ hP.iSof h
  | iTokdne st =>
    refine Host.Outcome.next.inj ht ▸ ?_
    unfold iTokdne
    split
    · rename_i hd
      exact hP.tIn (hx.1 hd) h
    · rename_i hd
      exact hP.receiveDone (hx.2 hd) _ _ h
  | iSleep => exact Host.Outcome.next.inj ht ▸ h
  | iResume => exact Host.Outcome.next.inj ht ▸ h
  | iAttach => exact Host.Outcome.next.inj ht ▸ h
  | iStall => exact Host.Outcome.next.inj ht ▸ h
  | tIn e slot => exact Host.Outcome.next.inj ht ▸ hP.tIn hx h
  | tSetup e d payload => exact Host.Outcome.next.inj ht ▸ hP.tSetup hx e payload h
  | tOut e d payload => exact Host.Outcome.next.inj ht ▸ hP.tOut e payload h
  | getStatus => exact Host.Outcome.next.inj ht ▸ hP.replyBytes _ h
  | setAddress => exact Host.Outcome.next.inj ht ▸ hP.acknowledge h
  | getDescriptor => exact Host.Outcome.next.inj ht ▸ hP.describe h
  | getDescriptorIf => exact Host.Outcome.next.inj ht ▸ hP.describe h
  | getConfiguration => exact Host.Outcome.next.inj ht ▸ hP.replyBytes _ h
  | setConfiguration => exact Host.Outcome.next.inj ht ▸ hP.setConfiguration h
  | vendorReboot => exact Host.Outcome.next.inj ht ▸ hP.acknowledge h
  | stallDefault key => exact Host.Outcome.next.inj ht ▸ hP.stall0 h
  | pReset => exact Host.Outcome.next.inj ht ▸ hx .reset rfl _ h
  | pSof => exact Host.Outcome.next.inj ht ▸ hx .sof rfl _ h
  | pErr bits => exact Host.Outcome.next.inj ht ▸ hx (.err bits) rfl _ h
  | pSleep => exact Host.Outcome.next.inj ht ▸ hx .sleep rfl _ h
  | pResume => exact Host.Outcome.next.inj ht ▸ hx .resume rfl _ h
  | pAttach => exact Host.Outcome.next.inj ht ▸ hx .attach rfl _ h
  | pSetup e bytes => exact Host.Outcome.next.inj ht ▸ hx (.setup e bytes) rfl _ h
  | pIn e => exact Host.Outcome.next.inj ht ▸ hx (.inTok e) rfl _ h
  | pOut e tg bytes => exact Host.Outcome.next.inj ht ▸ hx (.out e tg bytes) rfl _ h
  | pStalled e => exact Host.Outcome.next.inj ht ▸ hx (.stalled e) rfl _ h

end

end Sys2Proof.Machine
end


section
/-! What one step of the machine can be, said once. -/

namespace Sys2Proof.Machine

/-- What an input can do, on the state that has it taken out of the schedule. -/
inductive Move (s : State) : State → Prop where
  /-- the input is not accepted, or no step -/
  | idle : Move s s
  /-- an operand is written, or a reserved code is refused by `STATUS` -/
  | port (x : Port) : Move s (s.withPort x)
  /-- a command is issued -/
  | command (w : Word) (i : Instr) (t : State) : decode s.params.rebootKey .cmd (bytesOfWord w) = .ok i →
      exec i (s.withPort { s.port with cmd := w }) = .next t → Move s t
  /-- the client writes its own memory -/
  | bytes (a : Word) (bytes : List Byte) :
      (∀ i < bytes.length, inTable s.params (a + BitVec.ofNat 32 i) = false) → Move s (s.pokeBytes a bytes)
  /-- the peripheral takes a step -/
  | line (h : HostStep) : Move s (hostStep h s)
  /-- an invocation runs its routines -/
  | irq (t : State) :
      runAll (routinesOf (takeInterrupt s).1.snap (takeInterrupt s).1.st) (takeInterrupt s).2 = .next t → Move s t
  /-- a held `CFGEP` goes on -/
  | cont (l : CfgLatch) : s.port.cfgPend = some l → Move s (cfgepContinue l s)

theorem issue_move {s t : State} {w : Word} (ht : issue w s = .next t) : Move s t := by
  unfold issue at ht
  dsimp only at ht
  split at ht
  · rename_i i hi
    exact .command w i t hi ht
  · unfold command at ht
    split at ht
    · cases ht
    · split at ht
      · cases ht
      · cases ht
        exact .port _

theorem registerWrite_move {s t : State} {off : Nat} {v : Word} (ht : registerWrite off v s = .next t) : Move s t := by
  unfold registerWrite at ht
  split at ht
  · exact issue_move ht
  · cases ht; exact .port _
  · cases ht; exact .port _
  · cases ht; exact .port _
  · cases ht; exact .idle

theorem clientBytes_move {s t : State} {a : Word} {bytes : List Byte} (ht : clientBytes a bytes s = .next t) :
    Move s t := by
  unfold clientBytes at ht
  split at ht
  · cases ht
  · split at ht
    · cases ht
    · rename_i ho
      cases ht
      refine .bytes a bytes fun i hi => ?_
      simp only [List.any_eq_true, List.mem_range, not_exists, not_and, Bool.not_eq_true] at ho
      have := ho i hi
      simp only [State.owned, Bool.or_eq_false_iff] at this
      exact this.1

/-- A line of the environment names a peripheral step. -/
theorem decodeHost_hostStep {line : List Byte} {i : Instr} (hi : decodeHost line = .ok i) :
    ∃ h, hostStepOf i = some h := by
  have ofEp : ∀ {f : EpId → Instr} {b : Byte}, (lineEp b).map f = .ok i → ∃ e, f e = i := by
    intro f b h
    cases he : lineEp b with
    | error r => rw [he] at h; cases h
    | ok e => rw [he] at h; exact ⟨e, Except.ok.inj h⟩
  unfold decodeHost at hi
  split at hi
  · cases hi
  · split at hi
    · cases hi; exact ⟨_, rfl⟩
    · split at hi
      · cases hi; exact ⟨_, rfl⟩
      · cases hi
    · cases hi; exact ⟨_, rfl⟩
    · cases hi; exact ⟨_, rfl⟩
    · cases hi; exact ⟨_, rfl⟩
    · cases hi; exact ⟨_, rfl⟩
    · obtain ⟨e, rfl⟩ := ofEp hi; exact ⟨_, rfl⟩
    · split at hi
      · cases hi
      · obtain ⟨e, rfl⟩ := ofEp hi; exact ⟨_, rfl⟩
    · obtain ⟨e, rfl⟩ := ofEp hi; exact ⟨_, rfl⟩
    · split at hi
      · cases hi
      · obtain ⟨e, rfl⟩ := ofEp hi; exact ⟨_, rfl⟩
    all_goals cases hi

theorem runInput_move {s t : State} {x : Input} (ht : runInput x s = .next t) : Move s t := by
  cases x with
  | write a v =>
    simp only [runInput, clientWrite] at ht
    split at ht
    · exact registerWrite_move ht
    · exact clientBytes_move ht
  | store a b => exact clientBytes_move ht
  | host line =>
    simp only [runInput, runLine] at ht
    split at ht
    · rename_i i hi
      obtain ⟨h, hh⟩ := decodeHost_hostStep hi
      rw [exec_hostStep hh] at ht
      cases ht
      exact .line h
    · cases ht
      exact .idle
  | irq =>
    simp only [runInput, dispatch] at ht
    split at ht
    · split at ht
      · rename_i u hu
        cases ht
        exact .irq _ hu
      · cases ht
      · cases ht
    · cases ht
      exact .idle
  | cont =>
    simp only [runInput, continueHeld] at ht
    split at ht
    · rename_i l hl
      cases ht
      exact .cont l hl
    · cases ht
      exact .idle

/-- A step is no move at all or takes the next input out of the schedule and does what it can do, while the run is not over. -/
theorem step_move {s t : State} (ht : step s = .next t) :
    s.sess.reboot = false ∧ (t = s ∨ ∃ rest, Move (s.withEnv { s.env with inbox := rest }) t) := by
  unfold step nextMove at ht
  split at ht
  · cases ht
  · rename_i hr
    refine ⟨by simpa using hr, ?_⟩
    split at ht
    · cases ht
      exact .inl rfl
    · exact .inr ⟨_, runInput_move ht⟩

/-- A command word decodes to a command. -/
theorem decode_cmd {rk : BitVec 16} {w : Word} {i : Instr} (hi : decode rk .cmd (bytesOfWord w) = .ok i) :
    IsCommand i := by
  simp only [decode, bytesOfWord, decodeCmd] at hi
  split at hi <;> cases hi <;> exact ⟨0, rfl⟩

/-- A command is neither `I.RESET` nor a step of the peripheral. -/
theorem IsCommand.ne {i : Instr} (h : IsCommand i) : i ≠ .iReset ∧ hostStepOf i = none := by
  obtain ⟨rk, h⟩ := h
  cases i <;> simp [encode, hostStepOf] at h ⊢

/-- Running a list of instructions keeps what each of them keeps. -/
theorem runAll_keeps_of {P : State → Prop} : ∀ {l : List Instr},
    (∀ i ∈ l, ∀ {s t : State}, P s → exec i s = .next t → P t) → ∀ {s t : State}, P s → runAll l s = .next t → P t
  | [], _, _, _, h, ht => by cases ht; exact h
  | i :: rest, hl, s, t, h, ht => by
    unfold runAll at ht
    split at ht
    · rename_i u hu
      exact runAll_keeps_of (fun j hj => hl j (List.mem_cons_of_mem _ hj)) (hl i (List.mem_cons_self ..) h hu) ht
    · cases ht
    · cases ht

end Sys2Proof.Machine
end


section
/-! Invariants of the node pool, the queues, the heap and the receive pairs. Such a property depends on the pool, the queues and
the pairs alone (`PoolRule.congr`), so it is enough to look at the seven ways in which the machine changes them. -/

namespace Sys2Proof.Machine

/-- The seven changes of nodes, queues, blocks and pairs (41_txqueue.md R140 to R146, 40_registry.md R124), each where the
machine makes it. -/
structure PoolRule (P : State → Prop) : Prop where
  congr : ∀ {s t : State}, P s → t.params = s.params → t.pool = s.pool →
    (∀ e, (t.endpoint e).txq = (s.endpoint e).txq ∧ (t.endpoint e).rxbuf = (s.endpoint e).rxbuf) → P t
  emptyNode : ∀ s h n, s.nodeGrantable h = true → n.cursor = 0#32 → n.owns = false → n.st = .prepared → P s →
    P (s.putNode h n)
  dataNode : ∀ s h n, s.nodeGrantable h = true → s.blockGrantable n.buf.toNat n.total.toNat = true → n.cursor = 0#32 →
    n.owns = true → n.st = .prepared → P s →
    P ((s.withPool { s.pool with live := insertBlock (nodeBlock n) s.pool.live }).putNode h n)
  append : ∀ s e h, s.isPrepared h = true → P s → P (appendNode e h s)
  complete : ∀ s e h rest, (s.endpoint e).txq = h :: rest → P s → P (complete e h s)
  cursor : ∀ s e h rest mps, (s.endpoint e).txq = h :: rest → P s → P (s.putNode h
    { s.node h with cursor := (s.node h).cursor + (chunkSize (s.node h) mps).setWidth 32 })
  newPair : ∀ s e p mps, (s.endpoint e).rxbuf = none → s.blockGrantable p.toNat (pairSize mps).toNat = true → P s →
    P ((s.withPool { s.pool with live := insertBlock (p.toNat, (pairSize mps).toNat) s.pool.live }).setPair e p mps)
  dropPair : ∀ s e b0 b1, (s.endpoint e).rxbuf = some (b0, b1) → P s → P (s.dropPair e b0 b1)

theorem updEp_links {f : EpRec → EpRec} (hf : ∀ r, (f r).txq = r.txq ∧ (f r).rxbuf = r.rxbuf) (s : State) (e i : EpId) :
    ((s.updEp e f).endpoint i).txq = (s.endpoint i).txq ∧ ((s.updEp e f).endpoint i).rxbuf = (s.endpoint i).rxbuf := by
  rw [State.updEp_endpoint]
  split
  · rename_i h
    subst h
    exact hf _
  · exact ⟨rfl, rfl⟩

section
variable {P : State → Prop} (hP : PoolRule P) {s : State}
include hP

/-- A change of other parts of the state keeps the invariant. -/
theorem PoolRule.same {t : State} (h : P s) (hp : t.params = s.params := by rfl) (hl : t.pool = s.pool := by rfl)
    (he : t.ep = s.ep := by rfl) : P t :=
  hP.congr h hp hl fun e => by rw [State.endpoint_congr he e]; exact ⟨rfl, rfl⟩

/-- What the peripheral does keeps the invariant. -/
theorem PoolRule.ofPrivate {t : State} (ht : Private s t) (h : P s) : P t := hP.same h ht.params ht.pool ht.ep

theorem PoolRule.record (e : EpId) {f : EpRec → EpRec} (hf : KeepsLinks f) (h : P s) : P (s.updEp e f) :=
  hP.congr h rfl rfl (updEp_links (fun r => ⟨(hf r).1, (hf r).2.1⟩) s e)

/-- Building a node, or failing to. -/
theorem PoolRule.prep (src : TxSource) (len cb : Word) (h : P s) : P (prepNode src len cb s).2 := by
  by_cases hf : AllocationFails s len
  · obtain ⟨x, hx, -, -⟩ := prepNode_fails src len cb hf
    rw [hx]
    exact hP.same h
  · obtain ⟨hn, hb⟩ := not_or.mp hf
    obtain ⟨a, ha⟩ := Option.ne_none_iff_exists'.mp hn
    obtain ⟨x, -, -, hg, hx⟩ := allocNode_some ha
    by_cases hl : len = 0#32
    · subst hl
      rw [prepNode_empty src cb ha, hx, State.putNode_putNode]
      exact hP.same (hP.emptyNode s a ⟨0#32, 0#32, cb, false, 0#32, .prepared⟩ hg rfl rfl rfl h)
    · obtain ⟨b, hb⟩ := Option.ne_none_iff_exists'.mp fun k => hb ⟨hl, k⟩
      obtain ⟨y, -, -, hgb, hy⟩ := alloc_some hb
      rw [prepNode_data src cb hl ha hb]
      have hu := (fillFrom_untouched src len b (s.allocNode.2.alloc len).2).toPrivate
      rw [hy, hx] at hu ⊢
      rw [hx] at hgb
      refine hP.same (hP.dataNode s a ⟨len, 0#32, cb, true, b, .prepared⟩ hg hgb rfl rfl rfl h) hu.params ?_ hu.ep
      rw [State.putNode, hu.pool]
      simp [State.putNode, insertKey_insertKey, nodeBlock]

/-- Arming the next chunk of the head node moves its cursor. -/
theorem PoolRule.armChunk (e : EpId) (f : Slot) {a : Word} {rest : List Word} (hq : (s.endpoint e).txq = a :: rest)
    (h : P s) : P (armChunk e a f s) := by
  have hu := (armBd_untouched e .tx f (chunkAddr (s.node a)) (chunkSize (s.node a) (s.endpoint e).maxpkt)
    (s.endpoint e).txtoggle s).toPrivate
  unfold Machine.armChunk
  dsimp only
  refine hP.congr (hP.cursor s e a rest (s.endpoint e).maxpkt hq h) hu.params ?_ fun i => ?_
  · rw [State.putNode, State.updEp_pool, hu.pool]
    rfl
  · rw [State.putNode_endpoint, State.putNode_endpoint, ← hu.endpoint i]
    exact updEp_links (f := fun r => { r with txtoggle := !r.txtoggle, txodd := r.txodd.flip }) (fun _ => ⟨rfl, rfl⟩) _ e i

omit hP in
theorem armChunk_txq (e : EpId) (a : Word) (f : Slot) (s : State) :
    ((armChunk e a f s).endpoint e).txq = (s.endpoint e).txq := by
  unfold Machine.armChunk
  dsimp only
  rw [State.putNode_endpoint, State.updEp_same, (armBd_untouched _ _ _ _ _ _ s).toPrivate.endpoint e]

theorem PoolRule.pump (e : EpId) (h : P s) : P (pump e s) := by
  unfold Machine.pump
  split
  · exact h
  · rename_i a rest hq
    have hu := ((tick_untouched s).trans (tick_untouched _)).toPrivate
    have h1 := hP.ofPrivate hu h
    have hq1 := hq
    rw [← hu.endpoint e] at hq1
    dsimp only
    split
    · exact h1
    · split
      · split
        · exact h1
        · exact hP.complete _ _ _ _ hq1 h1
      · have h2 := fun f => hP.armChunk e f hq1 h1
        split
        · exact hP.complete _ _ _ rest (by rw [armChunk_txq, hq1]) (h2 _)
        · exact h2 _

/-- The changes of every operation keep it. -/
theorem PoolRule.kept : Kept P where
  tick _ h := hP.ofPrivate (tick_untouched _).toPrivate h
  draw _ _ _ _ h := hP.same h
  fault _ h := hP.same h
  config _ _ h := hP.same h
  reboot _ h := hP.same h
  emit _ _ h := hP.same h
  record _ e _ hf h := hP.record e hf h
  rxCtl _ _ _ _ h := hP.same h
  rxBuf _ _ _ _ h := hP.same h
  epctl _ _ _ h := hP.same h
  err _ _ h := hP.same h
  prep _ src len cb _ h := hP.prep src len cb h
  append := hP.append
  complete := hP.complete
  pump _ e h := hP.pump e h
  newPair s e p mps hr ha h := by
    obtain ⟨x, -, -, hg, hx⟩ := alloc_some ha
    rw [hx]
    exact hP.same (hP.newPair s e p mps hr hg h)
  dropPair := hP.dropPair

/-- No instruction does more to them than these changes. -/
theorem PoolRule.extra (i : Instr) : Extra P i :=
  extra_of (fun _ _ _ h => hP.same h) (fun _ _ _ _ h => hP.same h) (fun _ _ _ _ h => hP.same h)
    (fun _ =>
      { txCtl := fun _ _ _ h => hP.same h
        parity := fun s e h => hP.congr h rfl rfl
          (updEp_links (f := fun r => { r with txtoggle := false, txodd := .even }) (fun _ => ⟨rfl, rfl⟩) s e)
        regs := fun _ h => hP.same h
        release := fun s h => hP.same (hP.ofPrivate ((tick_untouched s).trans (tick_untouched _)).toPrivate h) })
    (fun _ _ _ h => hP.same h) (fun _ _ _ h => hP.same h)
    fun x _ s h => hP.ofPrivate (hostStep_untouched x s).toPrivate h

theorem PoolRule.exec (i : Instr) {t : State} (h : P s) (ht : exec i s = .next t) : P t :=
  hP.kept.exec i (hP.extra i) h ht

omit hP in
theorem takeInterrupt_private (s : State) : Private s (takeInterrupt s).2 := by
  have ack : ∀ u v, Private u (u.withRegs (u.regs.writeIstat v)) := by
    intro u v
    unfold Regs.writeIstat
    dsimp only
    split <;> exact ⟨rfl, rfl, rfl, rfl, rfl, rfl, rfl, rfl, rfl, rfl, rfl, rfl⟩
  unfold takeInterrupt
  dsimp only
  refine Private.trans ?_ (ack _ _)
  split
  · exact (((tick_untouched s).trans (tick_untouched _)).trans (tick_untouched _)).toPrivate
  · exact ((tick_untouched s).trans (tick_untouched _)).toPrivate

/-- Every step keeps it. -/
theorem PoolRule.step {t : State} (h : P s) (ht : step s = .next t) : P t := by
  obtain ⟨-, rfl | ⟨rest, hm⟩⟩ := step_move ht
  · exact h
  · have h1 : P (s.withEnv { s.env with inbox := rest }) := hP.same h
    generalize s.withEnv { s.env with inbox := rest } = u at hm h1
    cases hm with
    | idle => exact h1
    | port x => exact hP.same h1
    | command w i _ _ he => exact hP.exec i (hP.same h1 (t := u.withPort { u.port with cmd := w })) he
    | bytes a bytes _ => exact hP.same h1 (by simp) (by simp) (by simp)
    | line x => exact hP.ofPrivate (hostStep_untouched x u).toPrivate h1
    | irq _ hr => exact runAll_keeps_of (fun i _ {_ _} => hP.exec i) (hP.ofPrivate (takeInterrupt_private u) h1) hr
    | cont l _ => exact hP.kept.cfgepContinue (fun _ _ _ h => hP.same h) l h1

end

end Sys2Proof.Machine
end


section
/-! The three invariants of the pool: queues and nodes agree (O15), the live blocks lie apart in the heap (O16), every live block
has one owner (O17). -/

namespace Sys2Proof.Machine

/-! ### Queues and nodes -/

/-- One queue: its nodes are QUEUED in it, each once. -/
abbrev QueueOf (s : State) (e : EpId) : Prop :=
  (s.endpoint e).txq.Nodup ∧ ∀ h ∈ (s.endpoint e).txq, (s.node? h).map (·.st) = some (.queued e)

/-- A node of the pool is numbered `1 .. NODE_CAP` and its cursor is within its bytes. -/
abbrev NodeInv (p : Params) (x : Nat × Node) : Prop :=
  1 ≤ x.1 ∧ x.1 ≤ p.nodeCap.toNat ∧ x.2.cursor.toNat ≤ x.2.total.toNat

theorem nodeGrantable_iff {s : State} {h : Word} :
    s.nodeGrantable h = true ↔ 1 ≤ h.toNat ∧ h.toNat ≤ s.params.nodeCap.toNat ∧ s.node? h = none := by
  simp [State.nodeGrantable, and_assoc]

theorem isPrepared_iff {s : State} {h : Word} :
    s.isPrepared h = true ↔ h ≠ 0#32 ∧ h.toNat ≤ s.params.nodeCap.toNat ∧ ∃ n, s.node? h = some n ∧ n.st = .prepared := by
  unfold State.isPrepared
  cases s.node? h <;> simp [and_assoc]

theorem mem_nodes_of_node? {s : State} {h : Word} {n : Node} (hn : s.node? h = some n) : (h.toNat, n) ∈ s.pool.nodes :=
  mem_of_lookupKey hn

section
variable {s : State} (hi : QueueInv s)
include hi

/-- A node in a queue is in the pool. -/
theorem QueueInv.head {e : EpId} {h : Word} {rest : List Word} (hq : (s.endpoint e).txq = h :: rest) :
    s.node? h = some (s.node h) ∧ (s.node h).st = .queued e := by
  have := (hi.2.2.1 e).2 h (by simp [hq])
  unfold State.node
  cases hn : s.node? h with
  | none => rw [hn] at this; cases this
  | some n =>
    rw [hn] at this
    exact ⟨rfl, by simpa using this⟩

/-- A node whose number, cursor and queue stay legal may be written, if it is in no queue or stays in its own. -/
theorem QueueInv.putNode {h : Word} {n : Node} (hn : NodeInv s.params (h.toNat, n))
    (hsame : ∀ e, (s.node? h).map (·.st) = some (.queued e) ↔ n.st = .queued e) : QueueInv (s.putNode h n) := by
  obtain ⟨hr, hb, hf, hbk⟩ := hi
  refine ⟨hr.insertKey n, ?_, fun e => ⟨(hf e).1, fun k hk => ?_⟩, ?_⟩
  · intro p hp
    rcases mem_insertKey hp with rfl | hp
    · exact hn
    · exact hb p hp
  · by_cases hkh : k = h
    · subst hkh
      rw [State.putNode_node?_same]
      exact congrArg some ((hsame e).mp ((hf e).2 k hk))
    · rw [State.putNode_node?_ne _ _ _ _ hkh]
      exact (hf e).2 k hk
  · intro p hp e hst
    rcases mem_insertKey hp with rfl | hp
    · have hq := (hsame e).mpr hst
      cases hm : s.node? h with
      | none => rw [hm] at hq; cases hq
      | some m =>
        rw [hm] at hq
        exact hbk _ (mem_nodes_of_node? hm) e (by simpa using hq)
    · exact hbk p hp e hst

theorem QueueInv.append {e : EpId} {h : Word} (hp : s.isPrepared h = true) : QueueInv (appendNode e h s) := by
  obtain ⟨hr, hb, hf, hbk⟩ := hi
  obtain ⟨-, -, n, hn, hst⟩ := isPrepared_iff.mp hp
  have free : ∀ i, h ∉ (s.endpoint i).txq := by
    intro i hh
    have := (hf i).2 h hh
    rw [hn] at this
    simp [hst] at this
  have hnode : s.node h = n := State.node_of_node? hn
  have others : ∀ i, ((appendNode e h s).endpoint i).txq =
      if i = e then (s.endpoint e).txq ++ [h] else (s.endpoint i).txq := by
    intro i
    unfold appendNode
    rw [State.updEp_endpoint]
    split <;> rfl
  have same : ∀ k, k ≠ h → (appendNode e h s).node? k = s.node? k := fun k hk => State.putNode_node?_ne _ _ _ _ hk
  have own : (appendNode e h s).node? h = some { n with st := .queued e } := by
    rw [← hnode]
    exact State.putNode_node?_same _ _ _
  refine ⟨KeysRise.insertKey _ hr, ?_, fun i => ?_, ?_⟩
  · intro p hpm
    rcases mem_insertKey hpm with rfl | hpm
    · rw [hnode]
      exact hb (h.toNat, n) (mem_nodes_of_node? hn)
    · exact hb p hpm
  · rw [others i]
    split
    · rename_i hie
      subst hie
      refine ⟨List.nodup_append.mpr ⟨(hf i).1, by simp, ?_⟩, fun k hk => ?_⟩
      · intro a ha b hb' hab
        rw [List.mem_singleton] at hb'
        exact free i (hb' ▸ hab ▸ ha)
      · rcases List.mem_append.mp hk with hk | hk
        · rw [same k (fun hh => free i (hh ▸ hk))]
          exact (hf i).2 k hk
        · rw [List.mem_singleton.mp hk, own]
          rfl
    · refine ⟨(hf i).1, fun k hk => ?_⟩
      rw [same k (fun hh => free i (hh ▸ hk))]
      exact (hf i).2 k hk
  · intro p hpm i hs
    rw [others i]
    rcases mem_insertKey hpm with rfl | hpm
    · have : e = i := by simpa using hs
      simp [this]
    · have := hbk p hpm i hs
      split
      · rename_i hie
        subst hie
        exact List.mem_append_left _ this
      · exact this

theorem QueueInv.complete {e : EpId} {h : Word} {rest : List Word} (hq : (s.endpoint e).txq = h :: rest) :
    QueueInv (complete e h s) := by
  have hhead := hi.head hq
  obtain ⟨hr, hb, hf, hbk⟩ := hi
  obtain ⟨hnd, -⟩ := List.nodup_cons.mp (hq ▸ (hf e).1)
  have nodes : (Machine.complete e h s).pool.nodes = eraseKey h.toNat s.pool.nodes := by
    unfold Machine.complete
    dsimp only
    split <;> split <;> rfl
  have params : (Machine.complete e h s).params = s.params := by
    obtain ⟨ev, pool, hs⟩ := complete_shape e h s
    rw [hs]
    rfl
  have others : ∀ i, ((Machine.complete e h s).endpoint i).txq = if i = e then rest else (s.endpoint i).txq := by
    intro i
    obtain ⟨ev, pool, hs⟩ := complete_shape e h s
    rw [hs, State.updEp_endpoint]
    split
    · simp [hq]
    · rfl
  have gone : ∀ i, i ≠ e → h ∉ (s.endpoint i).txq := by
    intro i hie hh
    have := (hf i).2 h hh
    rw [hhead.1] at this
    exact hie (by simpa [hhead.2] using this.symm)
  refine ⟨by rw [nodes]; exact hr.eraseKey, ?_, fun i => ?_, ?_⟩
  · intro p hp
    rw [nodes] at hp
    rw [params]
    exact hb p (mem_of_eraseKey hp)
  · rw [others i]
    split
    · rename_i hie
      subst hie
      refine ⟨(List.nodup_cons.mp (hq ▸ (hf i).1)).2, fun k hk => ?_⟩
      rw [complete_node?_ne i s (by rintro rfl; exact hnd hk)]
      exact (hf i).2 k (by rw [hq]; exact List.mem_cons_of_mem _ hk)
    · rename_i hie
      refine ⟨(hf i).1, fun k hk => ?_⟩
      rw [complete_node?_ne e s (by rintro rfl; exact gone i hie hk)]
      exact (hf i).2 k hk
  · intro p hp i hs
    rw [nodes, mem_eraseKey_iff hr] at hp
    rw [others i]
    have hin := hbk p hp.1 i hs
    split
    · rename_i hie
      subst hie
      rw [hq] at hin
      refine (List.mem_cons.mp hin).resolve_left fun hh => hp.2 ?_
      have hcap := (hb p hp.1).2.1
      have hlt := s.params.nodeCap.isLt
      rw [← hh, BitVec.toNat_ofNat, Nat.mod_eq_of_lt (by omega)]
    · exact hin

end

/-- A chunk fits what is left of its node. -/
theorem cursor_add_chunk {n : Node} (mps : BitVec 16) (h : n.cursor.toNat ≤ n.total.toNat) :
    (n.cursor + (chunkSize n mps).setWidth 32).toNat ≤ n.total.toNat := by
  have hsub : (n.total - n.cursor).toNat = n.total.toNat - n.cursor.toNat := BitVec.toNat_sub_of_le h
  have hc : (chunkSize n mps).toNat ≤ n.total.toNat - n.cursor.toNat := by
    rw [chunkSize, BitVec.toNat_ofNat, ← hsub]
    exact (Nat.mod_le _ _).trans (Nat.min_le_left _ _)
  have hw : ((chunkSize n mps).setWidth 32).toNat = (chunkSize n mps).toNat := by
    rw [BitVec.toNat_setWidth]
    exact Nat.mod_eq_of_lt (by have := (chunkSize n mps).isLt; omega)
  rw [BitVec.toNat_add, hw]
  exact (Nat.mod_le _ _).trans (by omega)

theorem updEp_txq {f : EpRec → EpRec} (hf : ∀ r, (f r).txq = r.txq) (s : State) (e i : EpId) :
    ((s.updEp e f).endpoint i).txq = (s.endpoint i).txq := by
  rw [State.updEp_endpoint]
  split
  · rename_i h
    subst h
    exact hf _
  · rfl

/-- `QueueInv` depends on the parameters, the nodes and the queues alone. -/
theorem QueueInv.congr {s t : State} (hi : QueueInv s) (hp : t.params = s.params) (hn : t.pool.nodes = s.pool.nodes)
    (hq : ∀ e, (t.endpoint e).txq = (s.endpoint e).txq) : QueueInv t := by
  unfold QueueInv State.node? at hi ⊢
  simp only [hp, hn, hq]
  exact hi

theorem queueInv_rule : PoolRule QueueInv where
  congr h hp hl he := h.congr hp (congrArg _ hl) fun e => (he e).1
  emptyNode s h n hg hc _ hst hi := by
    obtain ⟨hpos, hcap, hfree⟩ := nodeGrantable_iff.mp hg
    exact hi.putNode ⟨hpos, hcap, by simp [hc]⟩ (by simp [hfree, hst])
  dataNode s h n hg _ hc _ hst hi := by
    obtain ⟨hpos, hcap, hfree⟩ := nodeGrantable_iff.mp hg
    exact (hi.putNode (n := n) ⟨hpos, hcap, by simp [hc]⟩ (by simp [hfree, hst])).congr rfl rfl fun _ => rfl
  append _ _ _ hp hi := hi.append hp
  complete _ _ _ _ hq hi := hi.complete hq
  cursor s e h rest mps hq hi := by
    obtain ⟨hnode, -⟩ := hi.head hq
    obtain ⟨hpos, hcap, hcur⟩ := hi.2.1 _ (mem_nodes_of_node? hnode)
    exact hi.putNode ⟨hpos, hcap, cursor_add_chunk mps hcur⟩ (by simp [hnode])
  newPair s e p mps _ _ hi :=
    hi.congr rfl rfl (updEp_txq (f := fun r => { r with rxbuf := some (p, secondHalf p mps) }) (fun _ => rfl) _ e)
  dropPair s e b0 b1 _ hi :=
    hi.congr rfl rfl (updEp_txq (f := fun r => { r with rxbuf := none }) (fun _ => rfl) (s.freeBlock b0 _) e)

/-- Settles O15: each of the seven changes of the pool keeps it (`queueInv_rule`), and a step makes no other. -/
theorem stepKeepsQueues : Obligations.StepKeepsQueues :=
  fun _ _ hi ht => queueInv_rule.step hi ht

/-! ### The heap -/

theorem apart_comm {a b c d : Nat} (h : apart a b c d = true) : apart c d a b = true := by
  simp only [apart, Bool.or_eq_true, decide_eq_true_eq] at h ⊢
  omega

/-- A block the oracle may grant keeps the live blocks apart. -/
theorem HeapInv.insert {s : State} (hi : HeapInv s) {p n : Nat} (hg : s.blockGrantable p n = true) :
    HeapInv (s.withPool { s.pool with live := insertBlock (p, n) s.pool.live }) := by
  obtain ⟨hr, hl, ha, hb⟩ := hi
  simp only [State.blockGrantable, Bool.and_eq_true, decide_eq_true_eq, List.all_eq_true] at hg
  obtain ⟨⟨⟨⟨⟨glo, ghi⟩, gfit⟩, gapart⟩, gtab⟩, greg⟩ := hg
  refine ⟨hr.insertBlock _, ?_, ?_, ?_⟩
  · simp only [State.withPool_pool, State.withPool_params, liveBytes_insertBlock]
    omega
  · refine ((insertBlock_perm (p, n) s.pool.live).pairwise_iff fun h => apart_comm h).mpr ?_
    exact List.pairwise_cons.mpr ⟨gapart, ha⟩
  · intro b hbm
    rcases mem_insertBlock.mp hbm with rfl | hbm
    · exact ⟨glo, ghi, gtab, greg⟩
    · exact hb b hbm

/-- Fewer live blocks are still apart. -/
theorem HeapInv.erase {s : State} (hi : HeapInv s) (b : Nat × Nat) :
    HeapInv (s.withPool { s.pool with live := s.pool.live.erase b }) := by
  obtain ⟨hr, hl, ha, hb⟩ := hi
  exact ⟨hr.erase b, (liveBytes_erase_le b _).trans hl, ha.sublist List.erase_sublist,
    fun c hc => hb c (List.mem_of_mem_erase hc)⟩

/-- `HeapInv` depends on the parameters and the live blocks alone. -/
theorem HeapInv.congr {s t : State} (hi : HeapInv s) (hp : t.params = s.params) (hl : t.pool.live = s.pool.live) :
    HeapInv t := by
  unfold HeapInv
  rw [hp, hl]
  exact hi

theorem heapInv_rule : PoolRule HeapInv where
  congr h hp hl _ := h.congr hp (congrArg _ hl)
  emptyNode _ _ _ _ _ _ _ h := h.congr rfl rfl
  dataNode _ _ _ _ hg _ _ _ h := (h.insert hg).congr rfl rfl
  append _ _ _ _ h := h.congr rfl rfl
  complete s e a _ _ h := by
    have hp : (complete e a s).params = s.params := by
      obtain ⟨ev, pool, hs⟩ := complete_shape e a s
      rw [hs]
      rfl
    have hl := complete_live e a s
    split at hl
    · exact (h.erase _).congr hp hl
    · exact h.congr hp hl
  cursor _ _ _ _ _ _ h := h.congr rfl rfl
  newPair _ _ _ _ _ hg h := (h.insert hg).congr rfl rfl
  dropPair _ _ _ _ _ h := (h.erase _).congr rfl rfl

/-- Settles O16: a granted block lies in the heap apart from the live ones, and the other changes add no block. -/
theorem stepKeepsHeap : Obligations.StepKeepsHeap :=
  fun _ _ hi ht => heapInv_rule.step hi ht

end Sys2Proof.Machine
end


section
/-! Every live block has one owner: the changes of the pool give a new block its owner and take a dead one's away. -/

namespace Sys2Proof.Machine

/-! ### Keyed lists as multisets -/

section
variable {α : Type}

theorem eraseKey_perm {k : Nat} {v : α} : ∀ {l : List (Nat × α)}, lookupKey k l = some v → ((k, v) :: eraseKey k l).Perm l
  | [], h => by simp [lookupKey] at h
  | (j, w) :: rest, h => by
    by_cases hj : j = k
    · subst hj
      simp only [lookupKey, if_true, Option.some.injEq] at h
      subst h
      simp [eraseKey]
    · simp only [lookupKey, hj, if_false] at h
      simp only [eraseKey, hj, if_false]
      exact (List.Perm.swap _ _ _).trans ((eraseKey_perm h).cons _)

theorem eraseKey_of_lookupKey_none {k : Nat} : ∀ {l : List (Nat × α)}, lookupKey k l = none → eraseKey k l = l
  | [], _ => rfl
  | (j, w) :: rest, h => by
    by_cases hj : j = k
    · simp [lookupKey, hj] at h
    · simp only [lookupKey, hj, if_false] at h
      simp [eraseKey, hj, eraseKey_of_lookupKey_none h]

theorem insertKey_perm {k : Nat} (v : α) : ∀ {l : List (Nat × α)}, KeysRise l →
    (insertKey k v l).Perm ((k, v) :: eraseKey k l)
  | [], _ => .refl _
  | (j, w) :: rest, hr => by
    obtain ⟨h1, h2⟩ := KeysRise.cons_iff.mp hr
    by_cases hlt : k < j
    · have hne : ¬ j = k := by omega
      have hnone : lookupKey k rest = none := lookupKey_none_of_below fun p hp => by have := h1 p hp; simp at this; omega
      simp only [insertKey, hlt, if_true, eraseKey, hne, if_false]
      rw [eraseKey_of_lookupKey_none hnone]
    · by_cases heq : k = j
      · subst heq
        simp [insertKey, eraseKey]
      · have hne : ¬ j = k := fun h => heq h.symm
        simp only [insertKey, hlt, heq, if_false, eraseKey, hne]
        exact ((insertKey_perm v h2).cons _).trans (List.Perm.swap _ _ _)

end

/-! ### Owned blocks -/

/-- The blocks of the nodes that own one. -/
def nodeBlocks (nodes : List (Nat × Node)) : List (Nat × Nat) :=
  (nodes.filter fun p => p.2.owns).map fun p => nodeBlock p.2

/-- The blocks of the receive pairs. -/
def pairBlocks (s : State) : List (Nat × Nat) := epIds.filterMap fun e => (s.endpoint e).rxbuf.map pairBlock

theorem ownedBlocks_eq (s : State) : ownedBlocks s = nodeBlocks s.pool.nodes ++ pairBlocks s := rfl

theorem nodeBlocks_perm {l l' : List (Nat × Node)} (h : l.Perm l') : (nodeBlocks l).Perm (nodeBlocks l') :=
  (h.filter _).map _

theorem nodeBlocks_cons (k : Nat) (n : Node) (l : List (Nat × Node)) :
    nodeBlocks ((k, n) :: l) = if n.owns then nodeBlock n :: nodeBlocks l else nodeBlocks l := by
  unfold nodeBlocks
  cases h : n.owns <;> simp [h]

theorem pairBlocks_congr {s t : State} (h : ∀ e, (t.endpoint e).rxbuf = (s.endpoint e).rxbuf) :
    pairBlocks t = pairBlocks s := by
  unfold pairBlocks
  simp only [h]

/-- The pairs but that of `e`. -/
def otherPairs (s : State) (e : EpId) : List (Nat × Nat) :=
  (epIds.erase e).filterMap fun i => (s.endpoint i).rxbuf.map pairBlock

theorem pairBlocks_perm (s : State) (e : EpId) :
    (pairBlocks s).Perm (((s.endpoint e).rxbuf.map pairBlock).toList ++ otherPairs s e) := by
  have h := (List.perm_cons_erase (mem_epIds e)).filterMap fun i => (s.endpoint i).rxbuf.map pairBlock
  refine h.trans (.of_eq ?_)
  rw [List.filterMap_cons]
  cases (s.endpoint e).rxbuf <;> rfl

theorem pairBlocks_updEp (s : State) (e : EpId) (f : EpRec → EpRec) :
    (pairBlocks (s.updEp e f)).Perm (((f (s.endpoint e)).rxbuf.map pairBlock).toList ++ otherPairs s e) := by
  refine (pairBlocks_perm _ e).trans (.of_eq ?_)
  rw [State.updEp_same]
  refine congrArg _ (List.filterMap_congr fun i hi => ?_)
  have hne : i ≠ e := by
    rintro rfl
    exact (List.Nodup.not_mem_erase (by decide)) hi
  rw [State.updEp_other _ _ hne]

/-- `OwnerInv` depends on the nodes' blocks, the pairs and the live blocks, up to order. -/
theorem OwnerInv.congr {s t : State} (hi : OwnerInv s) (hn : (nodeBlocks t.pool.nodes).Perm (nodeBlocks s.pool.nodes))
    (hp : ∀ e, (t.endpoint e).rxbuf = (s.endpoint e).rxbuf) (hl : t.pool.live = s.pool.live) : OwnerInv t := by
  unfold OwnerInv
  rw [hl, ownedBlocks_eq, pairBlocks_congr hp]
  exact (hn.append_right _).trans hi

section
variable {s : State} {h : Word} {n : Node}

/-- A new node's block, if it has one, joins those of the others. -/
theorem nodeBlocks_putNode_free (hr : KeysRise s.pool.nodes) (hf : s.node? h = none) :
    (nodeBlocks (s.putNode h n).pool.nodes).Perm
      (if n.owns then nodeBlock n :: nodeBlocks s.pool.nodes else nodeBlocks s.pool.nodes) := by
  refine (nodeBlocks_perm (insertKey_perm n hr)).trans (.of_eq ?_)
  rw [nodeBlocks_cons, eraseKey_of_lookupKey_none hf]

/-- The block of a node of the pool, and those of the others. -/
theorem nodeBlocks_split {m : Node} (hm : s.node? h = some m) :
    (nodeBlocks s.pool.nodes).Perm
      (if m.owns then nodeBlock m :: nodeBlocks (s.freeNode h).pool.nodes else nodeBlocks (s.freeNode h).pool.nodes) :=
  (nodeBlocks_perm (eraseKey_perm hm)).symm.trans (.of_eq (nodeBlocks_cons _ _ _))

/-- A node written over one with the same block leaves the blocks. -/
theorem nodeBlocks_putNode_same {m : Node} (hr : KeysRise s.pool.nodes) (hm : s.node? h = some m)
    (ho : n.owns = m.owns) (hb : nodeBlock n = nodeBlock m) :
    (nodeBlocks (s.putNode h n).pool.nodes).Perm (nodeBlocks s.pool.nodes) := by
  refine (nodeBlocks_perm (insertKey_perm n hr)).trans (.trans (.of_eq ?_) (nodeBlocks_perm (eraseKey_perm hm)))
  rw [nodeBlocks_cons, nodeBlocks_cons, ho, hb]

end

section
variable {s : State} (hi : QueueInv s) (ho : OwnerInv s)
include hi ho

theorem OwnerInv.emptyNode {h : Word} {n : Node} (hg : s.nodeGrantable h = true) (hn : n.owns = false) :
    OwnerInv (s.putNode h n) := by
  have hp := nodeBlocks_putNode_free (n := n) hi.1 (nodeGrantable_iff.mp hg).2.2
  rw [hn] at hp
  exact ho.congr hp (fun _ => rfl) rfl

/-- A node that owns the block made live for it. -/
theorem OwnerInv.dataNode {h : Word} {n : Node} (hg : s.nodeGrantable h = true) (hn : n.owns = true) :
    OwnerInv ((s.withPool { s.pool with live := insertBlock (nodeBlock n) s.pool.live }).putNode h n) := by
  have hp := nodeBlocks_putNode_free (n := n) hi.1 (nodeGrantable_iff.mp hg).2.2
  rw [hn, if_pos rfl] at hp
  exact (hp.append_right (pairBlocks s)).trans ((ho.cons _).trans (insertBlock_perm _ _).symm)

theorem OwnerInv.append {e : EpId} {h : Word} (hp : s.isPrepared h = true) : OwnerInv (appendNode e h s) := by
  obtain ⟨-, -, n, hn, -⟩ := isPrepared_iff.mp hp
  refine ho.congr (nodeBlocks_putNode_same hi.1 hn ?_ ?_) (fun i => ?_) rfl
  · rw [State.node_of_node? hn]
  · rw [State.node_of_node? hn]
    rfl
  · unfold appendNode
    rw [State.updEp_endpoint]
    split
    · rename_i hie
      subst hie
      rfl
    · rfl

theorem OwnerInv.cursor {e : EpId} {h : Word} {rest : List Word} (c : Word) (hq : (s.endpoint e).txq = h :: rest) :
    OwnerInv (s.putNode h { s.node h with cursor := c }) :=
  ho.congr (nodeBlocks_putNode_same hi.1 (hi.head hq).1 rfl rfl) (fun _ => rfl) rfl

/-- A completed node's block dies with it. -/
theorem OwnerInv.complete {e : EpId} {h : Word} {rest : List Word} (hq : (s.endpoint e).txq = h :: rest) :
    OwnerInv (complete e h s) := by
  have hsplit := nodeBlocks_split (hi.head hq).1
  have nodes : (Machine.complete e h s).pool.nodes = (s.freeNode h).pool.nodes := by
    unfold Machine.complete
    dsimp only
    split <;> split <;> rfl
  have pairs : pairBlocks (Machine.complete e h s) = pairBlocks s := by
    refine pairBlocks_congr fun i => ?_
    obtain ⟨ev, pool, hs⟩ := complete_shape e h s
    rw [hs, State.updEp_endpoint]
    split
    · rename_i hie
      subst hie
      rfl
    · rfl
  have owned : (ownedBlocks s).Perm _ := hsplit.append_right (pairBlocks s)
  unfold OwnerInv
  rw [ownedBlocks_eq, nodes, pairs, complete_live]
  split at owned
  · rename_i hown
    rw [if_pos hown]
    have := (ho.symm.trans owned).erase (nodeBlock (s.node h))
    rw [List.cons_append, List.erase_cons_head] at this
    exact this.symm
  · rename_i hown
    rw [if_neg hown]
    exact owned.symm.trans ho

omit hi in
/-- The block of a new pair is owned by it. -/
theorem OwnerInv.newPair {e : EpId} {p : Word} {mps : BitVec 16} (hr : (s.endpoint e).rxbuf = none) :
    OwnerInv ((s.withPool { s.pool with live := insertBlock (p.toNat, (pairSize mps).toNat) s.pool.live }).setPair
      e p mps) := by
  have before := pairBlocks_perm s e
  have after := pairBlocks_updEp s e fun r => { r with rxbuf := some (p, secondHalf p mps) }
  rw [hr] at before
  simp only [Option.map_some, Option.toList_some, pairBlock, pairBytes_secondHalf] at after
  have owned := (before.append_left (nodeBlocks s.pool.nodes)).symm.trans ho
  exact ((after.append_left _).trans List.perm_middle).trans ((owned.cons _).trans (insertBlock_perm _ _).symm)

omit hi in
/-- A dropped pair's block dies with it. -/
theorem OwnerInv.dropPair {e : EpId} {b0 b1 : Word} (hr : (s.endpoint e).rxbuf = some (b0, b1)) :
    OwnerInv (s.dropPair e b0 b1) := by
  have before := pairBlocks_perm s e
  have after := pairBlocks_updEp s e fun r => { r with rxbuf := none }
  rw [hr] at before
  have owned := ho.symm.trans ((before.append_left (nodeBlocks s.pool.nodes)).trans List.perm_middle)
  have left := owned.erase (pairBlock (b0, b1))
  rw [List.erase_cons_head] at left
  exact (after.append_left _).trans left.symm

end

theorem ownerInv_rule : PoolRule fun s => QueueInv s ∧ OwnerInv s where
  congr h hp hl he := ⟨queueInv_rule.congr h.1 hp hl he, h.2.congr (by rw [hl]) (fun e => (he e).2) (congrArg _ hl)⟩
  emptyNode s h n hg hc hn hst hi := ⟨queueInv_rule.emptyNode s h n hg hc hn hst hi.1, hi.2.emptyNode hi.1 hg hn⟩
  dataNode s h n hg hb hc hn hst hi := ⟨queueInv_rule.dataNode s h n hg hb hc hn hst hi.1, hi.2.dataNode hi.1 hg hn⟩
  append s e h hp hi := ⟨hi.1.append hp, hi.2.append hi.1 hp⟩
  complete s e h rest hq hi := ⟨hi.1.complete hq, hi.2.complete hi.1 hq⟩
  cursor s e h rest mps hq hi := ⟨queueInv_rule.cursor s e h rest mps hq hi.1, hi.2.cursor hi.1 _ hq⟩
  newPair s e p mps hr hg hi := ⟨queueInv_rule.newPair s e p mps hr hg hi.1, hi.2.newPair hr⟩
  dropPair s e b0 b1 hr hi := ⟨queueInv_rule.dropPair s e b0 b1 hr hi.1, hi.2.dropPair hr⟩

/-- Settles O17: every new block gets its owner where it is made live, every block dies with its owner. -/
theorem stepKeepsOwners : Obligations.StepKeepsOwners :=
  fun _ _ hi ht => (ownerInv_rule.step ⟨hi.1, hi.2.2⟩ ht).2

end Sys2Proof.Machine
end


section
/-! `STATQ` with its flag, and the meaning of `CTL.HOLD` (10_state.md R26, R28): what a step of the peripheral can do to the
registers, said once, and the two invariants as properties closed under every change. -/

namespace Sys2Proof.Machine

/-! ### Pending sources -/

theorem sourceMask_getLsbD (x y : Source) : (sourceMask x).getLsbD y.bit = decide (x = y) := by
  cases x <;> cases y <;> decide

@[simp] theorem Regs.setSource_pending (r : Regs) (x y : Source) :
    (r.setSource x).pending y = (r.pending y || decide (x = y)) := by
  simp [Regs.setSource, Regs.pending, sourceMask_getLsbD]

theorem Regs.pushStat_pending (r : Regs) (x : StatEntry) (y : Source) :
    (r.pushStat x).pending y = (r.pending y || decide (Source.tokdne = y)) := Regs.setSource_pending r .tokdne y

/-- A source pending after a write of `ISTAT` was pending before, or is `TOKDNE` with an entry left. -/
theorem Regs.writeIstat_pending {r : Regs} {v : BitVec 8} {y : Source} (h : (r.writeIstat v).pending y = true) :
    r.pending y = true ∨ y = .tokdne ∧ r.statq.tail ≠ [] := by
  unfold Regs.writeIstat at h
  dsimp only at h
  have cleared : ∀ w : BitVec 8, (w &&& ~~~v).getLsbD y.bit = true → w.getLsbD y.bit = true := by
    intro w hw
    rw [BitVec.getLsbD_and, Bool.and_eq_true] at hw
    exact hw.1
  split at h
  · unfold Regs.pending at h ⊢
    dsimp only at h
    split at h
    · exact .inl (cleared _ h)
    · rename_i ht
      rw [BitVec.getLsbD_or, Bool.or_eq_true, sourceMask_getLsbD, decide_eq_true_eq] at h
      rcases h with h | rfl
      · exact .inl (cleared _ h)
      · exact .inr ⟨rfl, by simpa using ht⟩
  · exact .inl (cleared _ h)

/-! ### The registers after a step of the peripheral -/

/-- The regs of a state the peripheral has reset. -/
def Regs.busReset (r : Regs) : Regs :=
  { r with
    ctl := r.ctl ||| holdMask
    statq := []
    istat := (r.istat &&& ~~~(sourceMask .tokdne)) ||| sourceMask .usbrst }

/-- What a step of the peripheral can do to the registers and the slot pointers (44_peripheral.md R202 to R211). -/
inductive RegStep (s : State) (r : Regs) (x : Sie) : Prop where
  /-- no step -/
  | same : r = s.regs → x = s.sie → RegStep s r x
  /-- the bus is reset -/
  | reset : r = s.regs.busReset → x = { txodd := Vector.replicate 16 .even, rxodd := Vector.replicate 16 .even } →
      RegStep s r x
  /-- a source that is neither `USBRST` nor `TOKDNE` fires -/
  | fire (y : Source) (err : BitVec 5) : y ≠ .usbrst → y ≠ .tokdne →
      r = { s.regs with errstat := err }.setSource y → x = s.sie → RegStep s r x
  /-- a token step completes, off `HOLD` and with room in `STATQ` -/
  | push (y : StatEntry) : s.regs.hold = false → s.regs.statq.length < s.params.statDepth →
      r = s.regs.pushStat y → RegStep s r x

theorem tokenEnabled_off {s : State} (h : s.tokenEnabled = true) :
    s.regs.hold = false ∧ s.regs.statq.length < s.params.statDepth := by
  simp only [State.tokenEnabled, Bool.and_eq_true, Bool.not_eq_true', decide_eq_true_eq] at h
  exact ⟨h.1.2, h.2⟩

theorem rxDone_regStep {s : State} (h : s.tokenEnabled = true) (e : EpId) (x : Slot) (tok : BitVec 4) (tg : Bool)
    (bytes : List Byte) : RegStep s (s.rxDone e x tok tg bytes).regs (s.rxDone e x tok tg bytes).sie := by
  obtain ⟨hh, hl⟩ := tokenEnabled_off h
  refine .push ⟨e, .rx, x⟩ hh hl ?_
  unfold State.rxDone
  dsimp only
  split <;> simp

theorem hostStep_regStep (h : HostStep) (s : State) : RegStep s (hostStep h s).regs (hostStep h s).sie := by
  have none : RegStep s s.regs s.sie := .same rfl rfl
  have fires : ∀ y, y ≠ .usbrst → y ≠ .tokdne → RegStep s (s.fire y).regs (s.fire y).sie :=
    fun y h1 h2 => .fire y s.regs.errstat h1 h2 rfl rfl
  cases h with
  | reset =>
    simp only [hostStep, pReset]
    split
    · exact .reset rfl rfl
    · exact none
  | sof =>
    simp only [hostStep, pSof]
    split
    · exact fires _ (by decide) (by decide)
    · exact none
  | err bits =>
    simp only [hostStep, pErr]
    split
    · exact .fire .error (s.regs.errstat ||| bits) (by decide) (by decide) rfl rfl
    · exact none
  | sleep =>
    simp only [hostStep, pSleep]
    split
    · exact fires _ (by decide) (by decide)
    · exact none
  | resume =>
    simp only [hostStep, pResume]
    split
    · exact fires _ (by decide) (by decide)
    · exact none
  | attach =>
    simp only [hostStep, pAttach]
    split
    · exact fires _ (by decide) (by decide)
    · exact none
  | setup e bytes =>
    simp only [hostStep, pSetup]
    split
    · rename_i he
      simp only [State.setupEnabled, Bool.and_eq_true] at he
      exact rxDone_regStep he.1.1.1.1 _ _ _ _ _
    · exact none
  | inTok e =>
    simp only [hostStep, pIn]
    split
    · rename_i he
      simp only [State.inEnabled, Bool.and_eq_true] at he
      obtain ⟨hh, hl⟩ := tokenEnabled_off he.1.1.1
      exact .push ⟨e, .tx, s.sie.txAt e⟩ hh hl rfl
    · exact none
  | out e tg bytes =>
    simp only [hostStep, pOut]
    split
    · rename_i he
      simp only [State.outEnabled, Bool.and_eq_true] at he
      exact rxDone_regStep he.1.1.1.1 _ _ _ _ _
    · exact none
  | stalled e =>
    simp only [hostStep, pStalled]
    split
    · exact fires _ (by decide) (by decide)
    · exact none

/-! ### `STATQ` with `TOKDNE` -/

/-- `StatInv` depends on the queue, its flag and its depth alone. -/
theorem StatInv.congr {s t : State} (hi : StatInv s) (hp : t.params = s.params) (hq : t.regs.statq = s.regs.statq)
    (ht : s.regs.pending .tokdne = true → t.regs.pending .tokdne = true) : StatInv t := by
  unfold StatInv
  rw [hp, hq]
  exact ⟨fun h => ht (hi.1 h), hi.2⟩

theorem hostStep_statInv (h : HostStep) {s : State} (hi : StatInv s) : StatInv (hostStep h s) := by
  have hp := (hostStep_untouched h s).params
  cases hostStep_regStep h s with
  | same hr _ => exact hi.congr hp (by rw [hr]) (by rw [hr]; exact id)
  | reset hr _ => exact ⟨fun hq => absurd (by rw [hr]; rfl) hq, by rw [hr]; exact Nat.zero_le _⟩
  | fire y err _ _ hr _ =>
    refine hi.congr hp (by rw [hr]; rfl) fun ht => ?_
    rw [hr, Regs.setSource_pending, Bool.or_eq_true]
    exact .inl ht
  | push y _ hl hr =>
    refine ⟨fun _ => ?_, ?_⟩
    · rw [hr, Regs.pushStat_pending]
      simp
    · rw [hr, hp]
      simp only [Regs.pushStat, List.length_append, List.length_singleton]
      omega

theorem writeIstat_statInv {s : State} (v : BitVec 8) (hi : StatInv s) : StatInv (s.withRegs (s.regs.writeIstat v)) := by
  unfold StatInv Regs.writeIstat
  dsimp only [State.withRegs_regs, State.withRegs_params]
  split
  · refine ⟨fun hq => ?_, ?_⟩
    · have : s.regs.statq.tail.isEmpty = false := by simpa using hq
      simp [this, Regs.pending, Source.bit, sourceMask]
    · have := hi.2
      simp only [List.length_tail]
      omega
  · rename_i hv
    refine ⟨fun hq => ?_, hi.2⟩
    have := hi.1 hq
    simp only [Regs.pending, Source.bit] at this ⊢
    rw [BitVec.getLsbD_and, this, BitVec.getLsbD_not, Bool.eq_false_iff.mpr hv]
    rfl

theorem statInv_closed : Closed StatInv where
  host h _ hi := hostStep_statInv h hi
  env _ _ _ hi := hi
  port _ _ hi := hi
  sess _ _ _ _ hi := hi
  emit _ _ hi := hi
  ep _ _ hi := hi
  pool _ _ hi := hi
  ctl _ _ _ _ _ hi := hi
  buf _ _ _ _ _ hi := hi
  byte s a b hi := hi.congr (by simp) (by simp) (by simp)
  epctl _ _ _ hi := hi
  err _ _ hi := hi
  addr _ _ hi := hi
  inten _ hi := hi
  hold s v _ hi := by
    unfold Regs.writeCtl
    split <;> exact hi
  ack _ v hi := writeIstat_statInv v hi

/-! ### `CTL.HOLD` -/

theorem Regs.busReset_hold (r : Regs) : r.busReset.hold = true := by
  simp [Regs.busReset, Regs.hold, holdMask]

theorem Regs.busReset_tokdne (r : Regs) : r.busReset.pending .tokdne = false := by
  simp [Regs.busReset, Regs.pending, Source.bit, sourceMask]

/-- `HoldInv` depends on these registers and the slot pointers alone. -/
theorem HoldInv.congr {s t : State} (hi : HoldInv s) (hh : t.regs.hold = s.regs.hold) (hq : t.regs.statq = s.regs.statq)
    (hu : t.regs.pending .usbrst = s.regs.pending .usbrst) (ht : t.regs.pending .tokdne = s.regs.pending .tokdne)
    (hx : t.sie = s.sie) : HoldInv t := by
  unfold HoldInv
  rw [hh, hq, hu, ht, hx]
  exact hi

theorem hostStep_holdInv (h : HostStep) {s : State} (hi : HoldInv s) : HoldInv (hostStep h s) := by
  cases hostStep_regStep h s with
  | same hr hx => exact hi.congr (by rw [hr]) (by rw [hr]) (by rw [hr]) (by rw [hr]) hx
  | reset hr hx =>
    unfold HoldInv
    rw [hr, hx]
    refine ⟨fun _ => Regs.busReset_hold _, fun _ => ⟨rfl, Regs.busReset_tokdne _, fun e => ?_⟩⟩
    simp [Sie.txAt, Sie.rxAt]
  | fire y err hu ht hr hx =>
    refine hi.congr (by rw [hr]; rfl) (by rw [hr]; rfl) ?_ ?_ hx
    · rw [hr, Regs.setSource_pending, decide_eq_false hu, Bool.or_false]
      rfl
    · rw [hr, Regs.setSource_pending, decide_eq_false ht, Bool.or_false]
      rfl
  | push y hh _ hr =>
    have off : (hostStep h s).regs.hold = false := by rw [hr]; exact hh
    refine ⟨fun hu => ?_, fun h1 => absurd h1 (by simp [off])⟩
    rw [hr, Regs.pushStat_pending] at hu
    have := hi.1 (by simpa using hu)
    rw [hh] at this
    cases this

/-- A write of `CTL` that clears `HOLD` is ignored where a bus reset is pending (10_state.md R28). -/
theorem writeCtl_holdInv {s : State} {v : BitVec 2} (hv : v.getLsbD 1 = false) (hi : HoldInv s) :
    HoldInv (s.withRegs (s.regs.writeCtl v)) := by
  unfold Regs.writeCtl
  split
  · have hold : ((v &&& ~~~holdMask) ||| (s.regs.ctl &&& holdMask)).getLsbD 1 = s.regs.ctl.getLsbD 1 := by
      simp [holdMask]
    exact hi.congr hold rfl rfl rfl rfl
  · rename_i hu
    refine ⟨fun h => ?_, fun h => ?_⟩
    · have : s.regs.istat.getLsbD 0 = true := h
      rw [this, hv] at hu
      exact absurd rfl hu
    · have : v.getLsbD 1 = true := h
      rw [hv] at this
      cases this

theorem writeIstat_holdInv {s : State} (v : BitVec 8) (hi : HoldInv s) : HoldInv (s.withRegs (s.regs.writeIstat v)) := by
  have hold : (s.regs.writeIstat v).hold = s.regs.hold := by
    unfold Regs.writeIstat
    dsimp only
    split <;> rfl
  refine ⟨fun h => ?_, fun h => ?_⟩
  · rcases Regs.writeIstat_pending h with hu | ⟨hu, -⟩
    · exact hold.trans (hi.1 hu)
    · cases hu
  · obtain ⟨hq, ht, he⟩ := hi.2 (hold.symm.trans h)
    refine ⟨?_, Bool.eq_false_iff.mpr fun hp => ?_, he⟩
    · simp only [State.withRegs_regs, Regs.writeIstat]
      split
      · simp [hq]
      · exact hq
    · rcases Regs.writeIstat_pending hp with hp | ⟨-, hp⟩
      · rw [ht] at hp
        cases hp
      · exact hp (by simp [hq])

theorem holdInv_closed : Closed HoldInv where
  host h _ hi := hostStep_holdInv h hi
  env _ _ _ hi := hi
  port _ _ hi := hi
  sess _ _ _ _ hi := hi
  emit _ _ hi := hi
  ep _ _ hi := hi
  pool _ _ hi := hi
  ctl _ _ _ _ _ hi := hi
  buf _ _ _ _ _ hi := hi
  byte s a b hi := hi.congr (by simp) (by simp) (by simp) (by simp) (by simp)
  epctl _ _ _ hi := hi
  err _ _ hi := hi
  addr _ _ hi := hi
  inten _ hi := hi
  hold _ _ hv hi := writeCtl_holdInv hv hi
  ack _ v hi := writeIstat_holdInv v hi

end Sys2Proof.Machine
end


section
/-! Parity agreement (41_txqueue.md R153). Of an endpoint it says: the parity slot is armed only together with the other one, and
the peripheral's pointer is the parity slot unless exactly the other one is armed (`agree_iff`). A pump then arms the parity slot
(R144), an IN takes the slot at the pointer (R209), and nothing else touches the transmit side but `I.RESET`. -/

namespace Sys2Proof.Machine

/-! ### Agreement of one endpoint -/

/-- The agreement of one endpoint's armed transmit slots, pointer and parity, as `ParityInv` words it. -/
def Agree (own : Slot → Bool) (ptr p : Slot) : Prop :=
  (own .even = false → own .odd = false → ptr = p) ∧
  (∀ x ∈ [Slot.even, Slot.odd], own x = true → own x.flip = false → x = ptr ∧ ptr = p.flip) ∧
  (own .even = true → own .odd = true → ptr = p)

theorem agree_iff {own : Slot → Bool} {ptr p : Slot} :
    Agree own ptr p ↔ (own p = true → own p.flip = true) ∧ ptr = if own p.flip = own p then p else p.flip := by
  unfold Agree
  cases p <;> cases ptr <;> cases h0 : own .even <;> cases h1 : own .odd <;> simp [Slot.flip, h0, h1]

/-- The slots with one of them armed or taken. -/
def setOwn (own : Slot → Bool) (x : Slot) (v : Bool) : Slot → Bool := fun y => if y = x then v else own y

/-- Arming the free parity slot and flipping the parity keeps the agreement. -/
theorem Agree.arm {own : Slot → Bool} {ptr p : Slot} (h : Agree own ptr p) (hf : own p = false) :
    Agree (setOwn own p true) ptr p.flip := by
  rw [agree_iff] at h ⊢
  obtain ⟨-, hptr⟩ := h
  rw [hf] at hptr
  refine ⟨fun _ => by simp [setOwn], ?_⟩
  rw [hptr]
  cases ho : own p.flip <;> simp [setOwn, ho]

/-- An IN that takes the armed slot at the pointer keeps the agreement. -/
theorem Agree.take {own : Slot → Bool} {ptr p : Slot} (h : Agree own ptr p) (ha : own ptr = true) :
    Agree (setOwn own ptr false) ptr.flip p := by
  rw [agree_iff] at h ⊢
  obtain ⟨himp, hptr⟩ := h
  cases hp : own p
  · cases ho : own p.flip
    · rw [hp, ho, if_pos rfl] at hptr
      rw [hptr, hp] at ha
      cases ha
    · rw [hp, ho] at hptr
      subst hptr
      simp [setOwn, hp, (Slot.flip_ne p).symm]
  · have ho := himp hp
    rw [hp, ho, if_pos rfl] at hptr
    subst hptr
    simp [setOwn, ho]

/-- A pump that finds a free slot finds the parity slot free. -/
theorem Agree.free {own : Slot → Bool} {ptr p : Slot} (h : Agree own ptr p) (hf : (own p && own p.flip) = false) :
    own p = false := by
  cases hp : own p
  · rfl
  · rw [hp, (agree_iff.mp h).1 hp] at hf
    cases hf

theorem parityInv_iff {s : State} : ParityInv s ↔ (s.regs.hold = false → ∀ e : EpId, hookOf s.params e = 0#32 →
    Agree (s.bdOwn e .tx) (s.sie.txAt e) (s.endpoint e).txodd) := Iff.rfl

/-! ### What leaves the transmit side -/

/-- The transmit side is the same: the armed slots, the pointers, the parities, `CTL.HOLD` and the hooks. -/
structure SameTx (s t : State) : Prop where
  params : t.params = s.params
  hold : t.regs.hold = s.regs.hold
  ptr : ∀ e, t.sie.txAt e = s.sie.txAt e
  odd : ∀ e, (t.endpoint e).txodd = (s.endpoint e).txodd
  own : ∀ e x, t.bdOwn e .tx x = s.bdOwn e .tx x

theorem SameTx.trans {s t u : State} (h : SameTx s t) (k : SameTx t u) : SameTx s u where
  params := k.params.trans h.params
  hold := k.hold.trans h.hold
  ptr e := (k.ptr e).trans (h.ptr e)
  odd e := (k.odd e).trans (h.odd e)
  own e x := (k.own e x).trans (h.own e x)

theorem ParityInv.congr {s t : State} (h : SameTx s t) (hi : ParityInv s) : ParityInv t := by
  rw [parityInv_iff] at hi ⊢
  intro hh e he
  have := hi (h.hold ▸ hh) e (h.params ▸ he)
  rw [← h.ptr e, ← h.odd e] at this
  have own : t.bdOwn e .tx = s.bdOwn e .tx := funext (h.own e)
  rwa [own]

/-- A change that leaves memory, records, pointers and `CTL` leaves the transmit side. -/
theorem SameTx.of_eq {s t : State} (hp : t.params = s.params := by rfl) (hm : t.mem = s.mem := by rfl)
    (hc : t.regs.ctl = s.regs.ctl := by rfl) (hx : t.sie = s.sie := by rfl)
    (he : ∀ e, (t.endpoint e).txodd = (s.endpoint e).txodd := by intro _; rfl) : SameTx s t where
  params := hp
  hold := by rw [Regs.hold, hc]; rfl
  ptr e := by rw [hx]
  odd := he
  own e x := by rw [State.bdOwn, State.bdCtl_congr hm hp]; rfl

/-- A change of memory that leaves the descriptor table leaves the transmit side. -/
theorem SameTx.of_table {s : State} {m : Memory} (h : ∀ a, inTable s.params a = true → m.read a = s.mem.read a) :
    SameTx s (s.withMem m) where
  params := rfl
  hold := rfl
  ptr _ := rfl
  odd _ := rfl
  own e x := by
    have : (s.withMem m).bdCtl e .tx x = s.bdCtl e .tx x := by
      refine Memory.read32_congr fun c hc => h c ?_
      by_contra hn
      have := outside_ctl (e := e) (d := .tx) (x := x) hn
      have hc : (c - bdAddr s.params e .tx x).toNat < 4 := hc
      omega
    rw [State.bdOwn, this]
    rfl

theorem SameTx.rxCtl (s : State) (e : EpId) (x : Slot) (w : Word) : SameTx s (s.setBdCtl e .rx x w) where
  params := rfl
  hold := rfl
  ptr _ := rfl
  odd _ := rfl
  own _ _ := congrArg ctlOwn (State.bdCtl_setBdCtl_ne _ _ _ _ _ _ _ _ (by simp))

theorem SameTx.rxBuf (s : State) (e : EpId) (x : Slot) (w : Word) : SameTx s (s.setBdBuf e .rx x w) where
  params := rfl
  hold := rfl
  ptr _ := rfl
  odd _ := rfl
  own _ _ := congrArg ctlOwn (State.bdCtl_setBdBuf ..)

theorem updEp_txodd {f : EpRec → EpRec} (hf : ∀ r, (f r).txodd = r.txodd) (s : State) (e i : EpId) :
    ((s.updEp e f).endpoint i).txodd = (s.endpoint i).txodd := by
  rw [State.updEp_endpoint]
  split
  · rename_i h
    subst h
    exact hf _
  · rfl

/-! ### Writing a node's bytes -/

theorem eq_add_of_inRun {b a : Word} : a = b + BitVec.ofNat 32 (a - b).toNat := by
  rw [BitVec.ofNat_toNat, BitVec.setWidth_eq]
  bv_omega

/-- Filling a block writes its bytes alone. -/
theorem fillFrom_spec {s : State} (hq : Quiet s) (hm : MemInv s) {src : TxSource} {len dst : Word} (hf : src.Fits len)
    (hw : dst.toNat + len.toNat ≤ 2 ^ 32) (hr : ∀ i < len.toNat, inRegs s.params (dst + BitVec.ofNat 32 i) = false) :
    SameMem (inRun dst len.toNat) s (fillFrom src len dst s) ∧
      fillFrom src len dst s = s.withMem (fillFrom src len dst s).mem := by
  cases src with
  | memory a => exact (copyBytes_spec len.toNat a dst hq hm hw hr).2
  | literal bytes =>
    have hl : bytes.length = len.toNat := hf
    simp only [fillFrom, fillBytes_quiet bytes hq]
    refine ⟨fun a ha => State.read_pokeBytes_ne bytes s dst ?_, State.pokeBytes_eq bytes s dst⟩
    rw [hl]
    exact Nat.le_of_not_lt ha

/-- Building a node changes the pool, the draws, and memory outside the descriptor table. -/
theorem prepNode_shape {s : State} (hq : Quiet s) (hm : MemInv s) (hp : Params.ok s.params) {src : TxSource} {len : Word}
    (hf : src.Fits len) (cb : Word) : ∃ x pool m, (prepNode src len cb s).2 = ((s.withEnv x).withPool pool).withMem m ∧
      ∀ a, inTable s.params a = true → m.read a = s.mem.read a := by
  by_cases hfail : AllocationFails s len
  · obtain ⟨x, hx, -, -⟩ := prepNode_fails src len cb hfail
    exact ⟨x, s.pool, s.mem, by rw [hx]; rfl, fun _ _ => rfl⟩
  · obtain ⟨hn, hb⟩ := not_or.mp hfail
    obtain ⟨h, hh⟩ := Option.ne_none_iff_exists'.mp hn
    obtain ⟨x, -, hxb, -, hx⟩ := allocNode_some hh
    by_cases hl : len = 0#32
    · subst hl
      rw [prepNode_empty src cb hh, hx, State.putNode_putNode]
      exact ⟨x, ((s.withEnv x).putNode h ⟨0#32, 0#32, cb, false, 0#32, .prepared⟩).pool, s.mem, rfl, fun _ _ => rfl⟩
    · obtain ⟨b, hb⟩ := Option.ne_none_iff_exists'.mp fun k => hb ⟨hl, k⟩
      obtain ⟨y, -, hyb, hg, hy⟩ := alloc_some hb
      rw [prepNode_data src cb hl hh hb]
      rw [hx] at hg hyb
      obtain ⟨pool, hv⟩ : ∃ pool, (s.allocNode.2.alloc len).2 = (s.withEnv y).withPool pool := ⟨_, by rw [hy, hx]; rfl⟩
      rw [hv]
      obtain ⟨hw, hclear⟩ := granted_clear (s := (s.withEnv x).putNode h Node.blank) hp hg
      obtain ⟨hsame, hshape⟩ := fillFrom_spec (s := (s.withEnv y).withPool pool) (dst := b) (hyb.trans (hxb.trans hq)) hm hf
        hw fun i hi => (hclear i hi).1
      rw [hshape]
      refine ⟨y, (((s.withEnv y).withPool pool).putNode h ⟨len, 0#32, cb, true, b, .prepared⟩).pool, _, rfl,
        fun a ha => hsame a fun hrun => ?_⟩
      have := (hclear _ hrun).2
      rw [← eq_add_of_inRun] at this
      rw [show inTable s.params a = false from this] at ha
      cases ha

/-! ### The pump -/

/-- Arming a chunk in the parity slot, where that is the free one, keeps the agreement. -/
theorem armChunk_parity {s : State} (hq : Quiet s) (hm : MemInv s) (hi : ParityInv s) (e : EpId) (h : Word) (f : Slot)
    (hf : s.regs.hold = false → hookOf s.params e = 0#32 → f = (s.endpoint e).txodd ∧ s.bdOwn e .tx f = false) :
    ParityInv (armChunk e h f s) := by
  obtain ⟨hctl, -, hother, -, hshape⟩ := armBd_spec hq hm e .tx f (chunkAddr (s.node h))
    (chunkSize (s.node h) (s.endpoint e).maxpkt) (s.endpoint e).txtoggle
  unfold armChunk
  dsimp only
  generalize armBd e .tx f (chunkAddr (s.node h)) (chunkSize (s.node h) (s.endpoint e).maxpkt) (s.endpoint e).txtoggle s
    = u at hctl hother hshape
  obtain ⟨m, rfl⟩ : ∃ m, u = s.withMem m := ⟨_, hshape⟩
  rw [parityInv_iff] at hi ⊢
  intro hh i hk
  by_cases hie : i = e
  · subst hie
    obtain ⟨rfl, hfree⟩ := hf hh hk
    have own : (s.withMem m).bdOwn i .tx = setOwn (s.bdOwn i .tx) (s.endpoint i).txodd true := by
      funext y
      unfold setOwn
      split
      · rename_i hy
        rw [hy, State.bdOwn, hctl]
        exact ctlWord_own _ _ _ _
      · rename_i hy
        rw [State.bdOwn, (hother i .tx y (by simpa using hy)).1]
        rfl
    have := (hi hh i hk).arm hfree
    rw [← own] at this
    rw [State.putNode_endpoint, State.updEp_same]
    exact this
  · have own : (s.withMem m).bdOwn i .tx = s.bdOwn i .tx :=
      funext fun y => congrArg ctlOwn (hother i .tx y (by simp [hie])).1
    have := hi hh i hk
    rw [← own] at this
    rw [State.putNode_endpoint, State.updEp_other _ _ hie]
    exact this

/-- Completing a node leaves the transmit side. -/
theorem SameTx.complete (s : State) (e : EpId) (h : Word) : SameTx s (complete e h s) := by
  obtain ⟨ev, pool, hs⟩ := complete_shape e h s
  rw [hs]
  exact .of_eq (he := updEp_txodd (f := fun r => { r with txq := r.txq.tail }) (fun _ => rfl) _ e)

theorem pump_parity {s : State} (hq : Quiet s) (hm : MemInv s) (hi : ParityInv s) (e : EpId) : ParityInv (pump e s) := by
  unfold pump
  split
  · exact hi
  · rename_i h rest _
    simp only [tick_quiet hq]
    split
    · exact hi
    · rename_i hboth
      split
      · split
        · exact hi
        · exact hi.congr (.complete _ _ _)
      · have free : s.regs.hold = false → hookOf s.params e = 0#32 →
            s.bdOwn e .tx (s.endpoint e).txodd = false :=
          fun hh hk => (parityInv_iff.mp hi hh e hk).free (by simpa using hboth)
        have armed := armChunk_parity hq hm hi e h
          (if s.bdOwn e .tx (s.endpoint e).txodd then (s.endpoint e).txodd.flip else (s.endpoint e).txodd)
          (fun hh hk => by simp [free hh hk])
        split
        · exact armed.congr (.complete _ _ _)
        · exact armed

/-! ### The operations -/

/-- No change of the state writes a parameter. -/
theorem params_closed (p : Params) : Closed fun s => s.params = p where
  host x s h := (hostStep_untouched x s).params.trans h
  env _ _ _ h := h
  port _ _ h := h
  sess _ _ _ _ h := h
  emit _ _ h := h
  ep _ _ h := h
  pool _ _ h := h
  ctl _ _ _ _ _ h := h
  buf _ _ _ _ _ h := h
  byte s a b h := (State.writeByte_params s a b).trans h
  epctl _ _ _ h := h
  err _ _ h := h
  addr _ _ h := h
  inten _ h := h
  hold _ _ _ h := h
  ack _ _ h := h

/-- The agreement, with what it takes for the operations to keep it. -/
structure ParityCtx (s : State) : Prop where
  quiet : Quiet s
  wf : MemInv s
  ok : Params.ok s.params
  parity : ParityInv s

/-- A change that leaves the transmit side keeps the agreement. -/
theorem ParityCtx.same {s t : State} (h : ParityCtx s) (k : SameTx s t) (hw : t.mem.wf = true)
    (hq : t.env.between = s.env.between := by rfl) : ParityCtx t :=
  ⟨hq.trans h.quiet, hw, k.params ▸ h.ok, h.parity.congr k⟩

theorem parityCtx_kept : Kept ParityCtx where
  tick s h := by
    rw [tick_quiet h.quiet]
    exact h
  draw _ _ _ hb h := h.same .of_eq h.wf hb
  fault _ h := h.same .of_eq h.wf
  config _ _ h := h.same .of_eq h.wf
  reboot _ h := h.same .of_eq h.wf
  emit _ _ h := h.same .of_eq h.wf
  record s e f hf h := h.same (.of_eq (he := updEp_txodd (fun r => (hf r).2.2) s e)) h.wf
  rxCtl s e x w h := h.same (.rxCtl s e x w) (State.wf_setBdCtl _ _ _ _ _ h.wf)
  rxBuf s e x w h := h.same (.rxBuf s e x w) (State.wf_setBdBuf _ _ _ _ _ h.wf)
  epctl _ _ _ h := h.same .of_eq h.wf
  err _ _ h := h.same .of_eq h.wf
  prep s src len cb hf h := by
    have hq := prepNode_keeps quiet_closed.toStable src len cb h.quiet
    have hw := prepNode_keeps memInv_closed.toStable src len cb h.wf
    obtain ⟨x, pool, m, hs, htab⟩ := prepNode_shape h.quiet h.wf h.ok hf cb
    rw [hs] at hq hw ⊢
    exact ⟨hq, hw, h.ok, h.parity.congr ((SameTx.of_table htab).trans .of_eq)⟩
  append s e a _ h :=
    h.same (.of_eq (he := updEp_txodd (f := fun r => { r with txq := r.txq ++ [a] }) (fun _ => rfl) _ e)) h.wf
  complete s e a _ _ h :=
    ⟨complete_keeps quiet_closed.toStable e a h.quiet, complete_keeps memInv_closed.toStable e a h.wf,
      (SameTx.complete s e a).params ▸ h.ok, h.parity.congr (.complete s e a)⟩
  pump s e h := by
    have hp : (pump e s).params = s.params := pump_keeps (params_closed s.params).toStable e rfl
    exact ⟨pump_keeps quiet_closed.toStable e h.quiet, pump_keeps memInv_closed.toStable e h.wf, hp ▸ h.ok,
      pump_parity h.quiet h.wf h.parity e⟩
  newPair s e p mps _ ha h := by
    obtain ⟨x, -, hb, -, hx⟩ := alloc_some ha
    rw [hx]
    exact h.same (.of_eq (he := updEp_txodd (f := fun r => { r with rxbuf := some (p, secondHalf p mps) })
      (fun _ => rfl) _ e)) h.wf hb
  dropPair s e b0 b1 _ h :=
    h.same (.of_eq (he := updEp_txodd (f := fun r => { r with rxbuf := none }) (fun _ => rfl) (s.freeBlock b0 _) e)) h.wf

end Sys2Proof.Machine
end


section
/-! The agreement over a whole step: the peripheral's steps, the routines of an invocation with `I.RESET` first, and the
client's own writes. -/

namespace Sys2Proof.Machine

/-! ### The steps of the peripheral -/

/-- An armed receive buffer clear of the table: writing a packet that fits it leaves the table. -/
theorem read_poke_table {s : State} (hr : ReceivesOutsideTable s) {e : EpId} {x : Slot} (ha : s.armedRx e x = true)
    {bytes : List Byte} (hl : bytes.length ≤ (ctlBc (s.bdCtl e .rx x)).toNat) {a : Word}
    (ht : inTable s.params a = true) : (s.pokeBytes (s.bdBuf e .rx x) bytes).mem.read a = s.mem.read a := by
  refine State.read_pokeBytes_ne bytes s _ (Nat.le_of_not_lt fun hlt => ?_)
  have hmeet := hr e x (by cases x <;> simp) ha
  rw [Bool.eq_false_iff, Ne, runsMeet_iff (by have := (ctlBc (s.bdCtl e .rx x)).isLt; omega) (by decide)] at hmeet
  refine hmeet ⟨(a - s.bdBuf e .rx x).toNat, by omega, ?_⟩
  rw [← eq_add_of_inRun]
  simpa [inTable] using ht

/-- A receive transaction leaves the transmit side. -/
theorem SameTx.rxDone {s : State} (hr : ReceivesOutsideTable s) {e : EpId} {x : Slot} (ha : s.armedRx e x = true)
    {bytes : List Byte} (hl : bytes.length ≤ (ctlBc (s.bdCtl e .rx x)).toNat) (tok : BitVec 4) (tg : Bool) :
    SameTx s (s.rxDone e x tok tg bytes) := by
  have poke : SameTx s (s.pokeBytes (s.bdBuf e .rx x) bytes) := by
    rw [State.pokeBytes_eq]
    exact .of_table fun _ ht => read_poke_table hr ha hl ht
  have done := poke.trans (.rxCtl _ e x (ctlWord (BitVec.ofNat 10 bytes.length) false tg tok))
  refine done.trans ?_
  unfold State.rxDone
  dsimp only
  split
  · exact { params := rfl, hold := rfl, ptr := fun _ => rfl, odd := fun _ => rfl, own := fun _ _ => rfl }
  · exact { params := rfl, hold := rfl, ptr := fun _ => rfl, odd := fun _ => rfl, own := fun _ _ => rfl }

/-- An IN takes the slot at the pointer and turns the pointer. -/
theorem pIn_parity {s : State} (hm : MemInv s) (hi : ParityInv s) (e : EpId) : ParityInv (pIn e s) := by
  unfold pIn
  split
  · rename_i he
    simp only [State.inEnabled, Bool.and_eq_true] at he
    have hown : s.bdOwn e .tx (s.sie.txAt e) = true := he.2
    rw [parityInv_iff] at hi ⊢
    dsimp only
    generalize hw : ctlWord (ctlBc (s.bdCtl e .tx (s.sie.txAt e))) false _ tokIn = w
    have hfree : ctlOwn w = false := by rw [← hw]; exact ctlWord_own _ _ _ _
    intro hh i hk
    have agree := hi hh i hk
    by_cases hie : i = e
    · subst hie
      have own : (s.setBdCtl i .tx (s.sie.txAt i) w).bdOwn i .tx = setOwn (s.bdOwn i .tx) (s.sie.txAt i) false := by
        funext y
        unfold setOwn
        split
        · rename_i hy
          rw [hy, State.bdOwn, State.bdCtl_setBdCtl_same _ _ _ _ _ hm, hfree]
        · rename_i hy
          rw [State.bdOwn, State.bdCtl_setBdCtl_ne _ _ _ _ _ _ _ _ (by simpa using hy)]
          rfl
      have taken := agree.take hown
      rw [← own] at taken
      rw [State.withSie_sie, Sie.setTx_txAt, if_pos rfl]
      exact taken
    · have own : (s.setBdCtl e .tx (s.sie.txAt e) w).bdOwn i .tx = s.bdOwn i .tx :=
        funext fun y => congrArg ctlOwn (State.bdCtl_setBdCtl_ne _ _ _ _ _ _ _ _ (by simp [hie]))
      rw [← own] at agree
      rw [State.withSie_sie, Sie.setTx_txAt, if_neg hie]
      exact agree
  · exact hi

/-- A step of the peripheral keeps the agreement where no receive buffer reaches into the table. -/
theorem hostStep_parity {s : State} (hm : MemInv s) (hr : ReceivesOutsideTable s) (hi : ParityInv s) (h : HostStep) :
    ParityInv (hostStep h s) := by
  have fires : ∀ y, ParityInv (s.fire y) := fun y => hi.congr .of_eq
  cases h with
  | reset =>
    simp only [hostStep, pReset]
    split
    · intro hh
      exact absurd hh (by simp [Regs.hold, holdMask])
    · exact hi
  | sof =>
    simp only [hostStep, pSof]
    split
    · exact fires _
    · exact hi
  | err bits =>
    simp only [hostStep, pErr]
    split
    · exact hi.congr .of_eq
    · exact hi
  | sleep =>
    simp only [hostStep, pSleep]
    split
    · exact fires _
    · exact hi
  | resume =>
    simp only [hostStep, pResume]
    split
    · exact fires _
    · exact hi
  | attach =>
    simp only [hostStep, pAttach]
    split
    · exact fires _
    · exact hi
  | setup e bytes =>
    simp only [hostStep, pSetup]
    split
    · rename_i he
      simp only [State.setupEnabled, Bool.and_eq_true, decide_eq_true_eq, beq_iff_eq] at he
      obtain ⟨⟨⟨⟨-, hx⟩, ho⟩, hbc⟩, hlen⟩ := he
      exact hi.congr (.rxDone hr (by rw [State.armedRx, hx]; exact ho) (by omega) _ _)
    · exact hi
  | inTok e => exact pIn_parity hm hi e
  | out e tg bytes =>
    simp only [hostStep, pOut]
    split
    · rename_i he
      simp only [State.outEnabled, Bool.and_eq_true, decide_eq_true_eq] at he
      obtain ⟨⟨⟨⟨-, hx⟩, -⟩, ho⟩, hlen⟩ := he
      exact hi.congr (.rxDone hr (by rw [State.armedRx, hx]; exact ho) hlen _ _)
    · exact hi
  | stalled e =>
    simp only [hostStep, pStalled]
    split
    · exact hi.congr .of_eq
    · exact hi

/-! ### `I.RESET` -/

/-- The transmit side of a bus reset: no slot is armed, every pointer and every parity is `EVEN`. -/
structure TxCleared (s : State) : Prop where
  ptr : ∀ e, s.sie.txAt e = .even
  odd : ∀ e, (s.endpoint e).txodd = .even
  own : ∀ e x, s.bdOwn e .tx x = false

theorem TxCleared.congr {s t : State} (h : TxCleared s) (k : SameTx s t) : TxCleared t where
  ptr e := (k.ptr e).trans (h.ptr e)
  odd e := (k.odd e).trans (h.odd e)
  own e x := (k.own e x).trans (h.own e x)

theorem TxCleared.parity {s : State} (h : TxCleared s) : ParityInv s := by
  rw [parityInv_iff]
  intro _ e _
  rw [agree_iff, h.ptr e, h.odd e, h.own e, h.own e]
  simp

theorem releaseHold_quiet {s : State} (hq : Quiet s) :
    releaseHold s = s.withRegs (s.regs.writeCtl (s.regs.ctl &&& ~~~holdMask)) := by
  unfold releaseHold
  simp only [tick_quiet hq]

theorem TxCleared.releaseHold {s : State} (hq : Quiet s) (h : TxCleared s) : TxCleared (releaseHold s) := by
  rw [releaseHold_quiet hq]
  exact ⟨h.ptr, h.odd, h.own⟩

/-- Endpoint 0 as the control endpoint again leaves the transmit side. -/
theorem SameTx.establishControl {s : State} (hq : Quiet s) (hm : MemInv s) {b0 b1 : Word}
    (hb : (s.endpoint 0).rxbuf = some (b0, b1)) : SameTx s (establishControl s) := by
  obtain ⟨m, hs, -, -, -, -, hother, -⟩ := establishControl_spec hq hm hb
  rw [hs]
  exact {
    params := rfl
    hold := rfl
    ptr := fun _ => rfl
    odd := updEp_txodd (f := fun r => { r with maxpkt := s.params.ep0Size, flags := 0b111#3, rxcb := cbEp0 })
      (fun _ => rfl) s 0
    own := fun e x => congrArg ctlOwn (hother e .tx x (by simp)).1 }

/-- `RESETALL` where the pointers are `EVEN` clears the transmit side. -/
theorem resetAll_txCleared {s : State} (hq : Quiet s) (hm : MemInv s) (hx : ∀ e, s.sie.txAt e = .even) :
    TxCleared (resetAll s) := by
  have c := cleared_all hq hm
  unfold resetAll
  dsimp only
  generalize epIds.foldl (fun t e => resetEndpoint e t) s = u at c ⊢
  have cleared : TxCleared u := {
    ptr := fun e => by rw [c.sie]; exact hx e
    odd := fun e => by rw [c.record e (mem_epIds e)]
    own := fun e x => by rw [State.bdOwn, c.ctl e (mem_epIds e)]; rfl }
  split
  · rename_i b hb
    exact cleared.congr (.establishControl c.quiet c.wf hb)
  · obtain ⟨x, -, hxb, hf | ⟨p, -, hp⟩⟩ := u.alloc_cases (pairSize u.params.ep0Size)
    · rw [hf]
      exact cleared.congr .of_eq
    · rw [hp]
      dsimp only
      generalize hv : ((u.withEnv x).withPool _).updEp 0 _ = v
      have huv : SameTx u v := by
        rw [← hv]
        exact .of_eq (he := updEp_txodd (f := fun r => { r with rxbuf := some (p, secondHalf p u.params.ep0Size) })
          (fun _ => rfl) ((u.withEnv x).withPool _) 0)
      have hpair : (v.endpoint 0).rxbuf = some (p, secondHalf p u.params.ep0Size) := by
        rw [← hv, State.updEp_same]
        rfl
      refine cleared.congr (huv.trans (.establishControl ?_ ?_ hpair))
      · rw [← hv]
        exact hxb.trans c.quiet
      · rw [← hv]
        exact c.wf

/-- `I.RESET` under `HOLD` restores the agreement. -/
theorem iReset_parityCtx {s : State} (h : ParityCtx s) (hi : HoldInv s) (hh : s.regs.hold = true) :
    ParityCtx (iReset s) := by
  have hq := iReset_keeps quiet_closed h.quiet
  have hw := iReset_keeps memInv_closed h.wf
  have hp : (iReset s).params = s.params := iReset_keeps (params_closed s.params) rfl
  refine ⟨hq, hw, by rw [hp]; exact h.ok, ?_⟩
  have cleared := resetAll_txCleared h.quiet h.wf fun e => ((hi.2 hh).2.2 e).1
  have hq' := resetAll_keeps quiet_closed.toStable h.quiet
  unfold iReset
  generalize resetAll s = u at cleared hq' ⊢
  refine TxCleared.parity (TxCleared.releaseHold ?_ ?_)
  · exact hq'
  · exact ⟨cleared.ptr, cleared.odd, cleared.own⟩

/-! ### An invocation -/

theorem takeInterrupt_quiet {s : State} (hq : Quiet s) :
    (takeInterrupt s).1.snap = s.regs.istat ∧ (takeInterrupt s).2 = s.withRegs (s.regs.writeIstat s.regs.istat) := by
  unfold takeInterrupt
  simp only [tick_quiet hq, ite_self, and_self]

theorem writeIstat_ctl (r : Regs) (v : BitVec 8) : (r.writeIstat v).ctl = r.ctl := by
  unfold Regs.writeIstat
  dsimp only
  split <;> rfl

/-- The sources served after `USBRST`, in order. -/
def laterSources : List Source := [.error, .softok, .tokdne, .sleep, .resume, .attach, .stall]

/-- `I.RESET` is the first routine where `USBRST` was seen. -/
theorem routinesOf_reset (snap st : BitVec 8) :
    routinesOf snap st = (if snap.getLsbD 0 then [Instr.iReset] else []) ++
      (laterSources.filter fun x => snap.getLsbD x.bit).map (Source.routine st) := by
  have order : sourcesOf snap = (.usbrst :: laterSources).filter fun x => snap.getLsbD x.bit := rfl
  rw [routinesOf, order, List.filter_cons, show Source.usbrst.bit = 0 from rfl]
  split <;> rfl

/-- The later routines are neither `I.RESET` nor a step of the peripheral. -/
theorem later_routine {x : Source} (hx : x ∈ laterSources) (st : BitVec 8) :
    x.routine st ≠ .iReset ∧ hostStepOf (x.routine st) = none := by
  have hne : x ≠ .usbrst := by
    rintro rfl
    exact absurd hx (by decide)
  cases x <;> simp [Source.routine, hostStepOf] at hne ⊢

/-- The instructions that keep the agreement whatever state they start in: all but `I.RESET` and the peripheral's steps. -/
theorem parity_extra {i : Instr} (hr : i ≠ .iReset) (hh : hostStepOf i = none) : Extra ParityCtx i :=
  extra_of (fun _ _ _ h => h.same .of_eq h.wf) (fun _ _ _ _ h => h.same .of_eq h.wf)
    (fun _ _ _ _ h => h.same .of_eq h.wf) (fun hi => absurd hi hr) (fun _ _ _ h => h.same .of_eq h.wf)
    (fun _ _ _ h => h.same .of_eq h.wf) fun _ hx => by rw [hh] at hx; cases hx

theorem runAll_append {l r : List Instr} : ∀ {s t : State}, runAll (l ++ r) s = .next t →
    ∃ u, runAll l s = .next u ∧ runAll r u = .next t := by
  induction l with
  | nil => intro s t h; exact ⟨s, rfl, h⟩
  | cons i l ih =>
    intro s t h
    simp only [List.cons_append, runAll] at h ⊢
    split at h
    · exact ih h
    · cases h
    · cases h

/-- An invocation keeps the agreement. -/
theorem invocation_parityCtx {s t : State} (h : ParityCtx s) (hi : HoldInv s)
    (ht : runAll (routinesOf (takeInterrupt s).1.snap (takeInterrupt s).1.st) (takeInterrupt s).2 = .next t) :
    ParityCtx t := by
  obtain ⟨hsnap, hstate⟩ := takeInterrupt_quiet h.quiet
  have entered : ParityCtx (takeInterrupt s).2 := by
    rw [hstate]
    exact h.same (.of_eq (hc := writeIstat_ctl _ _)) h.wf
  have held : HoldInv (takeInterrupt s).2 := takeInterrupt_keeps holdInv_closed hi
  rw [routinesOf_reset] at ht
  obtain ⟨u, hfirst, hrest⟩ := runAll_append ht
  have reset : ParityCtx u := by
    split at hfirst
    · rename_i hb
      rw [show runAll [Instr.iReset] (takeInterrupt s).2 = .next (iReset (takeInterrupt s).2) from rfl] at hfirst
      refine Host.Outcome.next.inj hfirst ▸ iReset_parityCtx entered held ?_
      rw [hstate, State.withRegs_regs, Regs.hold, writeIstat_ctl]
      exact hi.1 (by rw [hsnap] at hb; exact hb)
    · cases hfirst
      exact entered
  refine runAll_keeps_of (fun i hmem v w hs he => ?_) reset hrest
  obtain ⟨x, hx, rfl⟩ := List.mem_map.mp hmem
  obtain ⟨hne, hnone⟩ := later_routine (List.mem_filter.mp hx).1 (takeInterrupt s).1.st
  exact parityCtx_kept.exec _ (parity_extra hne hnone) hs he

/-! ### A step -/

/-- The client's own writes miss the table. -/
theorem SameTx.poke {s : State} {a : Word} {bytes : List Byte}
    (h : ∀ i < bytes.length, inTable s.params (a + BitVec.ofNat 32 i) = false) : SameTx s (s.pokeBytes a bytes) := by
  rw [State.pokeBytes_eq]
  refine .of_table fun c hc => State.read_pokeBytes_ne bytes s a (Nat.le_of_not_lt fun hlt => ?_)
  have := h _ hlt
  rw [← eq_add_of_inRun, hc] at this
  cases this

theorem step_parity {s t : State} (ht : step s = .next t) (h : ParityCtx s) (hi : HoldInv s)
    (hr : ReceivesOutsideTable s) : ParityInv t := by
  obtain ⟨-, rfl | ⟨rest, hm⟩⟩ := step_move ht
  · exact h.parity
  · have h1 : ParityCtx (s.withEnv { s.env with inbox := rest }) := h.same .of_eq h.wf
    have hi1 : HoldInv (s.withEnv { s.env with inbox := rest }) := hi
    have hr1 : ReceivesOutsideTable (s.withEnv { s.env with inbox := rest }) := hr
    generalize s.withEnv { s.env with inbox := rest } = u at hm h1 hi1 hr1
    cases hm with
    | idle => exact h1.parity
    | port x => exact h1.parity.congr .of_eq
    | command w i _ hd he =>
      obtain ⟨hne, hnone⟩ := (decode_cmd hd).ne
      have issued : ParityCtx (u.withPort { u.port with cmd := w }) := h1.same .of_eq h1.wf
      exact (parityCtx_kept.exec i (parity_extra hne hnone) issued he).parity
    | bytes a bytes hout => exact h1.parity.congr (.poke hout)
    | line x => exact hostStep_parity h1.wf hr1 h1.parity x
    | irq _ hrun => exact (invocation_parityCtx h1 hi1 hrun).parity
    | cont l _ => exact (parityCtx_kept.cfgepContinue (fun _ _ _ h => h.same .of_eq h.wf) l h1).parity

/-- Settles O14: `STATQ` and `HOLD` are closed under every change (`statInv_closed`, `holdInv_closed`), the agreement under every
move of a quiet peripheral (`step_parity`). -/
theorem stepKeepsStatusAndHold : Obligations.StepKeepsStatusAndHold :=
  fun _ _ ht => ⟨fun hi => step_keeps statInv_closed hi ht, fun hi => step_keeps holdInv_closed hi ht,
    fun hq hm hp hi hr hpar => step_parity ht ⟨hq, hm, hp, hpar⟩ hi hr⟩

end Sys2Proof.Machine
end


section
/-! What an invocation's entry does, what stops a run, what a step never undoes, and who writes which register. -/

namespace Sys2Proof.Machine

/-! ### The entry of an invocation -/

/-- `ISTAT` after the bits seen are cleared: `TOKDNE` alone, where an entry is left. -/
theorem writeIstat_self {s : State} (hi : StatInv s) :
    (s.regs.writeIstat s.regs.istat).istat = (if s.regs.statq.tail = [] then 0x00#8 else 0x08#8) ∧
    (s.regs.writeIstat s.regs.istat).statq =
      (if s.regs.pending .tokdne then s.regs.statq.tail else s.regs.statq) := by
  unfold Regs.writeIstat
  have clear : s.regs.istat &&& ~~~s.regs.istat = 0#8 := by simp
  dsimp only
  rw [clear, show s.regs.pending .tokdne = s.regs.istat.getLsbD 3 from rfl]
  split
  · refine ⟨?_, rfl⟩
    cases s.regs.statq.tail <;> rfl
  · rename_i hb
    have empty : s.regs.statq = [] := by
      by_contra hq
      exact hb (hi.1 hq)
    rw [empty]
    exact ⟨rfl, rfl⟩

/-- A write of `ISTAT` changes `ISTAT` and `STATQ` alone. -/
theorem writeIstat_frame (r : Regs) (v : BitVec 8) :
    r.writeIstat v = { r with istat := (r.writeIstat v).istat, statq := (r.writeIstat v).statq } := by
  unfold Regs.writeIstat
  dsimp only
  split <;> rfl

/-- Settles O6: with the peripheral quiet the entry is one write of `ISTAT` with the bits seen (`takeInterrupt_quiet`). -/
theorem interruptEntry : Obligations.InterruptEntry := by
  intro s hq hi
  obtain ⟨hsnap, hstate⟩ := takeInterrupt_quiet hq
  obtain ⟨hist, hstq⟩ := writeIstat_self hi
  dsimp only
  rw [hstate]
  refine ⟨hsnap, fun ht => ⟨?_, ?_⟩, fun ht => ?_, hist, ?_⟩
  · have hb : s.regs.istat.getLsbD 3 = true := ht
    unfold takeInterrupt
    simp only [tick_quiet hq, hb, if_true]
  · exact hstq.trans (by rw [ht]; rfl)
  · exact hstq.trans (by rw [ht]; rfl)
  · exact congrArg s.withRegs (writeIstat_frame _ _)

/-! ### What stops a run -/

/-- While the run is over no step of the peripheral is enabled. -/
theorem hostStep_over {s : State} (hr : s.sess.reboot = true) (h : HostStep) : hostStep h s = s := by
  have off : s.stepEnabled = false := by simp [State.stepEnabled, hr]
  have token : s.tokenEnabled = false := by simp [State.tokenEnabled, off]
  cases h with
  | reset => simp [hostStep, pReset, off]
  | sof => simp [hostStep, pSof, off]
  | err bits => simp [hostStep, pErr, off]
  | sleep => simp [hostStep, pSleep, off]
  | resume => simp [hostStep, pResume, off]
  | attach => simp [hostStep, pAttach, off]
  | setup e bytes => simp [hostStep, pSetup, State.setupEnabled, token]
  | inTok e => simp [hostStep, pIn, State.inEnabled, token]
  | out e t bytes => simp [hostStep, pOut, State.outEnabled, token]
  | stalled e => simp [hostStep, pStalled, State.stalledEnabled, token]

/-- A command is taken by `command`, or by `copyingCommand` which asks it first. -/
theorem exec_command {i : Instr} (hi : IsCommand i) (s : State) :
    ∃ copies run, exec i s = command run s ∨ exec i s = copyingCommand copies run s := by
  cases i with
  | cfgep ep mps => exact ⟨fun _ => false, _, .inl rfl⟩
  | prep => exact ⟨_, _, .inr rfl⟩
  | enq ep => exact ⟨fun _ => false, _, .inl rfl⟩
  | send ep => exact ⟨_, _, .inr rfl⟩
  | trysend ep => exact ⟨_, _, .inr rfl⟩
  | cancel ep => exact ⟨fun _ => false, _, .inl rfl⟩
  | qpend ep => exact ⟨fun _ => false, _, .inl rfl⟩
  | qbusy ep => exact ⟨fun _ => false, _, .inl rfl⟩
  | _ =>
    obtain ⟨rk, h⟩ := hi
    cases h

theorem command_over {s : State} (run : State → State) (hr : s.sess.reboot = true) :
    command run s = .fault .runOver := by
  simp [command, hr]

theorem command_held {s : State} (run : State → State) (hr : s.sess.reboot = false) (hp : s.port.cfgPend ≠ none) :
    command run s = .refused .commandWhilePending := by
  simp [command, hr, Option.isSome_iff_ne_none.mpr hp]

/-- Settles O7: `nextMove`, `command` and every enabling condition ask `REBOOT` first, a command then the latch. -/
theorem runOverOrPortHeld : Obligations.RunOverOrPortHeld := by
  intro s
  refine ⟨fun hr => ⟨by simp [step, nextMove, hr], hostStep_over hr⟩, fun w i hi => ?_⟩
  obtain ⟨copies, run, he | he⟩ := exec_command (decode_cmd hi) s
  · rw [he]
    exact ⟨command_over run, command_held run⟩
  · rw [he, copyingCommand]
    exact ⟨fun hr => by rw [command_over run hr], fun hr hp => by rw [command_held run hr hp]⟩

/-! ### History -/

/-- What a run never undoes: parameters, the entries of the two traces, `FAULT`. -/
structure Extends (s t : State) : Prop where
  params : t.params = s.params
  evt : s.trace.evt <+: t.trace.evt
  wire : s.trace.wire <+: t.trace.wire
  fault : s.sess.isrAlloc = true → t.sess.isrAlloc = true

theorem Extends.of_wire {s t u : State} (h : Extends s t) (hp : u.params = t.params := by rfl)
    (he : u.trace.evt = t.trace.evt := by rfl) (hs : u.sess.isrAlloc = t.sess.isrAlloc := by rfl)
    (hw : t.trace.wire <+: u.trace.wire := by exact List.prefix_refl _) : Extends s u where
  params := hp.trans h.params
  evt := he ▸ h.evt
  wire := h.wire.trans hw
  fault := fun hf => hs ▸ h.fault hf

/-- A step of the peripheral adds to the wire. -/
theorem hostStep_wire (h : HostStep) (s : State) : s.trace.wire <+: (hostStep h s).trace.wire := by
  have rx : ∀ e x tok tg bytes, s.trace.wire <+: (s.rxDone e x tok tg bytes).trace.wire := by
    intro e x tok tg bytes
    unfold State.rxDone
    dsimp only
    split <;> simp
  cases h <;>
    simp only [hostStep, pReset, pSof, pErr, pSleep, pResume, pAttach, pSetup, pIn, pOut, pStalled] <;> split
  case setup.isTrue => exact rx _ _ _ _ _
  case out.isTrue => exact rx _ _ _ _ _
  all_goals simp

theorem extends_closed (s : State) : Closed (Extends s) where
  host h t ht :=
    ht.of_wire (hostStep_untouched h t).params (hostStep_untouched h t).evt (by rw [(hostStep_untouched h t).sess])
      (hostStep_wire h t)
  env _ _ _ h := h.of_wire
  port _ _ h := h.of_wire
  sess _ _ hf _ h := ⟨h.params, h.evt, h.wire, fun hs => hf (h.fault hs)⟩
  emit t x h := ⟨h.params, h.evt.trans (List.prefix_append _ _), h.wire, h.fault⟩
  ep _ _ h := h.of_wire
  pool _ _ h := h.of_wire
  ctl _ _ _ _ _ h := h.of_wire
  buf _ _ _ _ _ h := h.of_wire
  byte _ _ _ h := h.of_wire (by simp) (by simp) (by simp) (by simp)
  epctl _ _ _ h := h.of_wire
  err _ _ h := h.of_wire
  addr _ _ h := h.of_wire
  inten _ h := h.of_wire
  hold _ _ _ h := h.of_wire
  ack _ _ h := h.of_wire

/-- Settles O18: every change the machine makes only extends the state's history (`extends_closed`). -/
theorem stepKeepsHistory : Obligations.StepKeepsHistory := by
  intro s t ht
  have h : Extends s t := step_keeps (extends_closed s) ⟨rfl, List.prefix_refl _, List.prefix_refl _, id⟩ ht
  exact ⟨h.params, h.evt, h.wire, h.fault, (step_move ht).1⟩

/-! ### The hook -/

/-- What an IN on `e` commits: on endpoint 0 the pending address, elsewhere nothing (43_control.md R192). -/
theorem commit_eq (e : EpId) (s : State) :
    (if e = 0 then ctrlIn s else s) = s.withRegs { s.regs with addr := committedAddr s e } := by
  unfold committedAddr
  by_cases he : e = 0
  · unfold ctrlIn Session.pendingAddr Session.key requestKey
    by_cases hk : s.sess.lastSetup.extractLsb' 0 16 = 0x0500#16
    · simp [he, hk]
    · simp only [he, hk, if_true, and_false, if_false, beq_iff_eq]
      rfl
  · simp only [he, false_and, if_false]
    rfl

theorem hookOrPump_hook {s : State} {e : EpId} (hk : hookOf s.params e ≠ 0#32) :
    hookOrPump e s = s.emit (.manualTx e (hookOf s.params e)) := by
  simp [hookOrPump, hk]

/-- Settles O37: `hookOrPump` asks for the hook, after the address commit of endpoint 0. -/
theorem hookReplacesPump : Obligations.HookReplacesPump := by
  intro s e x hk
  rw [exec_tIn, tIn, commit_eq, hookOrPump_hook]
  · rfl
  · exact hk

end Sys2Proof.Machine
end


section
/-! Who writes which register. `INTEN`, `ADDR` and `CTL` are kept by every change of `Stable`; the command port and `LASTSETUP` by
every change of `Kept`. What is left is what `Extra` names of an instruction. -/

namespace Sys2Proof.Machine

/-- What the coarse changes keep, the fine ones keep. -/
theorem Stable.kept {P : State → Prop} (hP : Stable P) : Kept P where
  tick _ h := tick_keeps hP h
  draw s x _ hb h := hP.env s x (hb ▸ List.suffix_refl _) h
  fault s h := hP.sess s _ (fun _ => rfl) id h
  config s _ h := hP.sess s _ id id h
  reboot s h := hP.sess s _ id (fun _ => rfl) h
  emit := hP.emit
  record _ e f _ h := updEp_keeps hP e f h
  rxCtl s e x w h := hP.ctl s e .rx x w h
  rxBuf s e x w h := hP.buf s e .rx x w h
  epctl := hP.epctl
  err := hP.err
  prep _ src len cb _ h := prepNode_keeps hP src len cb h
  append _ e a _ h := appendNode_keeps hP e a h
  complete _ e a _ _ h := complete_keeps hP e a h
  pump _ e h := pump_keeps hP e h
  newPair _ e _ _ _ _ h := updEp_keeps hP e _ (alloc_keeps hP _ h)
  dropPair _ e _ _ _ h := updEp_keeps hP e _ (freeBlock_keeps hP _ _ h)

/-- The fine changes of `I.RESET` are coarse ones, but for its writes of registers. -/
theorem Stable.keptByReset {P : State → Prop} (hP : Stable P)
    (regs : ∀ s, P s → P (s.withRegs { s.regs with addr := 0#7, inten := 0xFF#8 }))
    (release : ∀ s, P s → P (releaseHold s)) : KeptByReset P where
  txCtl s e x h := hP.ctl s e .tx x _ h
  parity _ e h := updEp_keeps hP e _ h
  regs := regs
  release := release

/-- An instruction keeps what the coarse changes keep, if `I.RESET` and an address commit do where it is one that makes them. -/
theorem Stable.exec {P : State → Prop} (hP : Stable P) {i : Instr} (reset : i = .iReset → KeptByReset P)
    (address : CommitsAddress i → KeptByAddress P) {s t : State} (h : P s) (ht : exec i s = .next t) : P t :=
  hP.kept.exec i (extra_of (fun _ _ c => setStatus_keeps hP c) (fun _ s _ _ => hP.port s _) (fun _ s _ _ => hP.port s _) reset
    address (fun _ s _ => hP.sess s _ id id) fun x _ s => hP.host x s) h ht

/-- A field of the registers that the peripheral and the writes of `EPCTL` and `ERRSTAT` leave alone is kept by every coarse
change. -/
theorem field_stable {α : Type} {f : Regs → α} (host : ∀ x s, f (hostStep x s).regs = f s.regs)
    (epctl : ∀ r e v, f (Regs.setEpc r e v) = f r) (err : ∀ r v, f (Regs.writeErrstat r v) = f r) (c : α) :
    Stable fun s => f s.regs = c where
  host x s h := (host x s).trans h
  env _ _ _ h := h
  port _ _ h := h
  sess _ _ _ _ h := h
  emit _ _ h := h
  ep _ _ h := h
  pool _ _ h := h
  ctl _ _ _ _ _ h := h
  buf _ _ _ _ _ h := h
  byte s a b h := by rw [State.writeByte_regs]; exact h
  epctl _ _ _ h := (epctl _ _ _).trans h
  err _ _ h := (err _ _).trans h

theorem inten_stable (v : BitVec 8) : Stable fun s => s.regs.inten = v :=
  field_stable (fun x s => (hostStep_untouched x s).inten) (fun _ _ _ => rfl) (fun _ _ => rfl) v

theorem addr_stable (v : BitVec 7) : Stable fun s => s.regs.addr = v :=
  field_stable (fun x s => (hostStep_untouched x s).addr) (fun _ _ _ => rfl) (fun _ _ => rfl) v

/-! ### `CTL.USBEN` -/

theorem hostStep_usben (x : HostStep) (s : State) : (hostStep x s).regs.usben = s.regs.usben := by
  cases hostStep_regStep x s with
  | same hr _ => rw [hr]
  | reset hr _ =>
    rw [hr]
    simp [Regs.busReset, Regs.usben, holdMask]
  | fire y err _ _ hr _ => rw [hr]; rfl
  | push y _ _ hr => rw [hr]; rfl

theorem usben_stable (v : Bool) : Stable fun s => s.regs.usben = v :=
  field_stable hostStep_usben (fun _ _ _ => rfl) (fun _ _ => rfl) v

/-- `CTL` is written with the `USBEN` it had. -/
theorem releaseHold_usben {s : State} {v : Bool} (h : s.regs.usben = v) : (releaseHold s).regs.usben = v := by
  have h1 : (tick s).regs.usben = v := tick_keeps (usben_stable v) h
  have write : ∀ (r : Regs) (w : BitVec 2), (r.writeCtl w).usben = w.getLsbD 0 := by
    intro r w
    unfold Regs.writeCtl
    split
    · simp [Regs.usben, holdMask]
    · rfl
  rw [← h1]
  refine (write _ _).trans ?_
  simp [Regs.usben, holdMask]

/-! ### The command port and `LASTSETUP` -/

/-- The command port and `LASTSETUP` are the same. -/
structure SamePort (s t : State) : Prop where
  port : t.port = s.port
  setup : t.sess.lastSetup = s.sess.lastSetup

theorem SamePort.trans {s t u : State} (h : SamePort s t) (k : SamePort t u) : SamePort s u :=
  ⟨k.port.trans h.port, k.setup.trans h.setup⟩

theorem Private.samePort {s t : State} (h : Private s t) : SamePort s t := ⟨h.port, by rw [h.sess]⟩

theorem prepNode_samePort (src : TxSource) (len cb : Word) (s : State) : SamePort s (prepNode src len cb s).2 := by
  by_cases hf : AllocationFails s len
  · obtain ⟨x, hx, -, -⟩ := prepNode_fails src len cb hf
    rw [hx]
    exact ⟨rfl, rfl⟩
  · obtain ⟨hn, hb⟩ := not_or.mp hf
    obtain ⟨a, ha⟩ := Option.ne_none_iff_exists'.mp hn
    obtain ⟨x, -, -, -, hx⟩ := allocNode_some ha
    by_cases hl : len = 0#32
    · subst hl
      rw [prepNode_empty src cb ha, hx]
      exact ⟨rfl, rfl⟩
    · obtain ⟨b, hb⟩ := Option.ne_none_iff_exists'.mp fun k => hb ⟨hl, k⟩
      obtain ⟨y, -, -, -, hy⟩ := alloc_some hb
      rw [prepNode_data src cb hl ha hb]
      have fill := (fillFrom_untouched src len b (s.allocNode.2.alloc len).2).toPrivate.samePort
      have drawn : SamePort s (s.allocNode.2.alloc len).2 := by
        rw [hy, hx]
        exact ⟨rfl, rfl⟩
      exact (drawn.trans fill).trans ⟨rfl, rfl⟩

theorem complete_samePort (e : EpId) (a : Word) (s : State) : SamePort s (complete e a s) := by
  obtain ⟨ev, pool, hs⟩ := complete_shape e a s
  rw [hs]
  exact ⟨rfl, rfl⟩

theorem pump_samePort (e : EpId) (s : State) : SamePort s (pump e s) := by
  have read := ((tick_untouched s).trans (tick_untouched _)).toPrivate.samePort
  have arm : ∀ a f u, SamePort u (armChunk e a f u) := fun a f u =>
    (armBd_untouched e .tx f (chunkAddr (u.node a)) (chunkSize (u.node a) (u.endpoint e).maxpkt)
      (u.endpoint e).txtoggle u).toPrivate.samePort.trans ⟨rfl, rfl⟩
  unfold pump
  split
  · exact ⟨rfl, rfl⟩
  · dsimp only
    split
    · exact read
    · split
      · split
        · exact read
        · exact read.trans (complete_samePort _ _ _)
      · split
        · exact (read.trans (arm _ _ _)).trans (complete_samePort _ _ _)
        · exact read.trans (arm _ _ _)

/-- Whatever depends on the command port and `LASTSETUP` alone is kept by every operation. -/
theorem samePort_kept {P : State → Prop} (hP : ∀ {s t : State}, SamePort s t → P s → P t) : Kept P where
  tick s := hP (tick_untouched s).toPrivate.samePort
  draw _ _ _ _ := hP ⟨rfl, rfl⟩
  fault _ := hP ⟨rfl, rfl⟩
  config _ _ := hP ⟨rfl, rfl⟩
  reboot _ := hP ⟨rfl, rfl⟩
  emit _ _ := hP ⟨rfl, rfl⟩
  record _ _ _ _ := hP ⟨rfl, rfl⟩
  rxCtl _ _ _ _ := hP ⟨rfl, rfl⟩
  rxBuf _ _ _ _ := hP ⟨rfl, rfl⟩
  epctl _ _ _ := hP ⟨rfl, rfl⟩
  err _ _ := hP ⟨rfl, rfl⟩
  prep s src len cb _ := hP (prepNode_samePort src len cb s)
  append _ _ _ _ := hP ⟨rfl, rfl⟩
  complete s e a _ _ := hP (complete_samePort e a s)
  pump s e := hP (pump_samePort e s)
  newPair s e p mps _ ha := by
    obtain ⟨x, -, -, -, hx⟩ := alloc_some ha
    rw [hx]
    exact hP ⟨rfl, rfl⟩
  dropPair _ _ _ _ _ := hP ⟨rfl, rfl⟩

/-- An instruction keeps what depends on them alone, if the commands' answers and a Setup packet do where it makes them. -/
theorem samePort_exec {P : State → Prop} (hP : ∀ {s t : State}, SamePort s t → P s → P t) {i : Instr}
    (status : IsCommand i → KeptByStatus P) (latch : IsCommand i → KeptByLatch P) (ret : Returns i → KeptByReturn P)
    (setup : StoresSetup i → KeptBySetup P) {s t : State} (h : P s) (ht : exec i s = .next t) : P t := by
  have release : ∀ u, SamePort u (releaseHold u) := fun u =>
    ((tick_untouched u).trans (tick_untouched _)).toPrivate.samePort.trans ⟨rfl, rfl⟩
  exact (samePort_kept hP).exec i (extra_of status latch ret
    (fun _ =>
      { txCtl := fun _ _ _ => hP ⟨rfl, rfl⟩
        parity := fun _ _ => hP ⟨rfl, rfl⟩
        regs := fun _ => hP ⟨rfl, rfl⟩
        release := fun u => hP (release u) })
    (fun _ _ _ => hP ⟨rfl, rfl⟩) setup fun x _ s => hP (hostStep_untouched x s).toPrivate.samePort) h ht

theorem isCommand_iff (rk : BitVec 16) (i : Instr) : IsCommand i ↔ (encode rk i).1 = .cmd := by
  refine ⟨fun ⟨rk', h⟩ => ?_, fun h => ⟨rk, h⟩⟩
  cases i <;> exact h

/-- Settles O19: each register is kept by the changes all instructions share, and the statement's exceptions are the instructions
whose `Extra` writes it. -/
theorem registerWriters : Obligations.RegisterWriters := by
  intro i s t ht
  refine ⟨fun hr => ?_, fun hr hin htok => ?_, ?_, ?_, fun hp hq hb => ?_, fun hc => ?_, fun hs htok => ?_⟩
  · exact (inten_stable s.regs.inten).exec (fun h => absurd h hr) (fun _ _ _ h => h) rfl ht
  · refine (addr_stable s.regs.addr).exec (fun h => absurd h hr) ?_ rfl ht
    rintro (⟨x, rfl⟩ | ⟨st, he, hd, rfl⟩)
    · exact absurd rfl (hin x)
    · exact absurd rfl (htok st he hd)
  · exact (usben_stable s.regs.usben).exec
      (fun _ => (usben_stable _).keptByReset (fun _ h => h) fun _ => releaseHold_usben) (fun _ _ _ h => h) rfl ht
  · have keep := @samePort_exec (fun u => u.port.cmd = s.port.cmd ∧ u.port.arg0 = s.port.arg0 ∧
      u.port.arg1 = s.port.arg1 ∧ u.port.arg2 = s.port.arg2) (fun k h => by rw [k.port]; exact h) i
    exact keep (fun _ _ _ h => h) (fun _ _ _ _ h => h) (fun _ _ _ _ h => h) (fun _ _ _ h => h) ⟨rfl, rfl, rfl, rfl⟩ ht
  · refine samePort_exec (P := fun u => u.port.ret = s.port.ret) (fun k h => by rw [k.port]; exact h)
      (fun _ _ _ h => h) (fun _ _ _ _ h => h) ?_ (fun _ _ _ h => h) rfl ht
    rintro (rfl | ⟨ep, rfl⟩ | ⟨ep, rfl⟩)
    · exact absurd rfl hp
    · exact absurd rfl (hq ep)
    · exact absurd rfl (hb ep)
  · have none : ¬ IsCommand i := fun h => hc ((isCommand_iff _ i).mp h)
    refine samePort_exec (P := fun u => u.port = s.port) (fun k h => k.port.trans h)
      (fun h => absurd h none) (fun h => absurd h none) (fun h => absurd ?_ none) (fun _ _ _ h => h) rfl ht
    rcases h with rfl | ⟨ep, rfl⟩ | ⟨ep, rfl⟩ <;> exact ⟨0, rfl⟩
  · refine samePort_exec (P := fun u => u.sess.lastSetup = s.sess.lastSetup) (fun k h => k.setup.trans h)
      (fun _ _ _ h => h) (fun _ _ _ _ h => h) (fun _ _ _ _ h => h) ?_ rfl ht
    rintro (⟨e, d, payload, rfl⟩ | ⟨st, hd, rfl⟩)
    · exact absurd rfl (hs e d payload)
    · exact absurd rfl (htok st hd)

end Sys2Proof.Machine
end


section
/-! `CFGEP` with the peripheral quiet (40_registry.md R122 to R124): the guard of step B, what step B leaves, what step A leaves in
each of its cases, and the command as step A followed by step B or the hold. -/

namespace Sys2Proof.Machine

/-! ### Records and registers written twice, or as they were -/

theorem updEp_self {s : State} {e : EpId} {f : EpRec → EpRec} (h : f (s.endpoint e) = s.endpoint e) : s.updEp e f = s := by
  unfold State.updEp
  rw [h]
  unfold State.endpoint
  rw [Vector.set_getElem_self]
  rfl

theorem Regs.setEpc_setEpc (r : Regs) (e : EpId) (v w : BitVec 4) : (r.setEpc e v).setEpc e w = r.setEpc e w := by
  simp [Regs.setEpc]

/-- A transmission is in progress in both or neither of two states with the same queue and transmit slots. -/
theorem transmitting_congr {s t : State} {e : EpId} (hq : (t.endpoint e).txq = (s.endpoint e).txq)
    (ho : ∀ x, t.bdOwn e .tx x = s.bdOwn e .tx x) : transmitting t e ↔ transmitting s e := by
  unfold transmitting
  rw [hq, ho, ho]

/-! ### The guard -/

/-- Step B has to wait: transmit is being disabled and a transmission is in progress. -/
def MustHold (l : CfgLatch) (s : State) : Prop :=
  flagTx (s.endpoint l.id).flags = true ∧ flagTx l.flags = false ∧ transmitting s l.id

theorem cfgepGuard_quiet {s : State} (hq : Quiet s) (l : CfgLatch) :
    (cfgepGuard l s).2 = s ∧ ((cfgepGuard l s).1 = false ↔ MustHold l s) := by
  obtain ⟨hstate, htx⟩ := txInProgress_quiet hq l.id
  unfold cfgepGuard
  dsimp only
  rw [hstate]
  refine ⟨rfl, ?_⟩
  unfold MustHold
  rw [← htx]
  cases flagTx (s.endpoint l.id).flags <;> cases flagTx l.flags <;> simp

theorem cfgepContinue_holds {s : State} (hq : Quiet s) {l : CfgLatch} (h : MustHold l s) : cfgepContinue l s = s := by
  obtain ⟨hstate, hguard⟩ := cfgepGuard_quiet hq l
  unfold cfgepContinue
  dsimp only
  rw [hguard.mpr h, hstate]
  rfl

theorem cfgepContinue_goes {s : State} (hq : Quiet s) {l : CfgLatch} (h : ¬ MustHold l s) :
    cfgepContinue l s = cfgepStepB l s := by
  obtain ⟨hstate, hguard⟩ := cfgepGuard_quiet hq l
  unfold cfgepContinue
  dsimp only
  rw [hstate, if_pos (by simpa using fun k => h (hguard.mp k))]

/-! ### Step B -/

/-- Both receive slots of `e` are armed on the pair `b0`, `b1` with packets of `mps`. -/
structure ArmedPair (s : State) (e : EpId) (mps : BitVec 16) (b0 b1 : Word) : Prop where
  evenCtl : s.bdCtl e .rx .even = controlWord (min mps.toNat 1023) true false 0
  evenBuf : s.bdBuf e .rx .even = b0
  oddCtl : s.bdCtl e .rx .odd = controlWord (min mps.toNat 1023) true true 0
  oddBuf : s.bdBuf e .rx .odd = b1

/-- The slots of `e` are armed and nothing outside its receive descriptors is written. -/
def Armed (s : State) (e : EpId) (mps : BitVec 16) (b0 b1 : Word) (m : Memory) : Prop :=
  ArmedPair (s.withMem m) e mps b0 b1 ∧
    SameMem (fun a => inBd s.params e .rx .even a ∨ inBd s.params e .rx .odd a) s (s.withMem m)

/-- `ARMRX` changes memory alone. -/
theorem armRx_shape {s : State} (hq : Quiet s) (hm : MemInv s) (e : EpId) : ∃ m, armRx e s = s.withMem m ∧
    ∀ b0 b1, (s.endpoint e).rxbuf = some (b0, b1) → Armed s e (s.endpoint e).maxpkt b0 b1 m := by
  cases hb : (s.endpoint e).rxbuf with
  | none => exact ⟨s.mem, armRx_none hb, fun _ _ h => by cases h⟩
  | some b =>
    obtain ⟨c1, f1, c2, f2, -, hsame, hshape⟩ := armRx_spec hq hm hb
    refine ⟨(armRx e s).mem, hshape, fun b0 b1 h => ?_⟩
    cases h
    unfold Armed
    rw [← hshape]
    exact ⟨⟨c1, f1, c2, f2⟩, hsame⟩

/-- The state after step B with the latch `l`, memory apart: the record and `EPCTL` take the operands, the latch is empty. -/
def State.configured (s : State) (l : CfgLatch) (m : Memory) : State :=
  (((s.updEp l.id fun r => { r with maxpkt := l.mps, flags := l.flags, rxcb := l.cb }).withMem m).withRegs
    (s.regs.setEpc l.id (l.flags.setWidth 4))).withPort { s.port with cfgPend := none, status := statusOk }

theorem State.configured_endpoint (s : State) (l : CfgLatch) (m : Memory) : (s.configured l m).endpoint l.id =
    { s.endpoint l.id with maxpkt := l.mps, flags := l.flags, rxcb := l.cb } := by
  unfold State.configured
  rw [State.withPort_endpoint, State.withRegs_endpoint, State.withMem_endpoint, State.updEp_same]

theorem State.configured_others (s : State) (l : CfgLatch) (m : Memory) : SameOthers l.id s (s.configured l m) := by
  intro i hi
  unfold State.configured
  rw [State.withPort_endpoint, State.withRegs_endpoint, State.withMem_endpoint, State.updEp_other _ _ hi]

/-- What step B writes: the record, `EPCTL`, the port, and the receive descriptors in memory. -/
theorem cfgepStepB_spec {s : State} (hq : Quiet s) (hm : MemInv s) (l : CfgLatch) : ∃ m,
    cfgepStepB l s = s.configured l m ∧
    (flagRx l.flags = false → m = s.mem) ∧
    ∀ b0 b1, flagRx l.flags = true → (s.endpoint l.id).rxbuf = some (b0, b1) → Armed s l.id l.mps b0 b1 m := by
  unfold cfgepStepB
  dsimp only
  rw [setEpctl_quiet hq]
  generalize hv : (s.withRegs (s.regs.setEpc l.id 0#4)).updEp l.id
    (fun r => { r with maxpkt := l.mps, flags := l.flags, rxcb := l.cb }) = v
  have vq : Quiet v := by rw [← hv]; exact hq
  have vm : MemInv v := by rw [← hv]; exact hm
  have vrec : v.endpoint l.id = { s.endpoint l.id with maxpkt := l.mps, flags := l.flags, rxcb := l.cb } := by
    rw [← hv, State.updEp_same]
    rfl
  have finish : ∀ m, (setEpctl l.id (l.flags.setWidth 4) (v.withMem m)).withPort
      { (setEpctl l.id (l.flags.setWidth 4) (v.withMem m)).port with cfgPend := none, status := statusOk } =
      s.configured l m := by
    intro m
    unfold State.configured
    rw [setEpctl_quiet (s := v.withMem m) vq, ← hv, ← Regs.setEpc_setEpc s.regs l.id 0#4 (l.flags.setWidth 4)]
    rfl
  cases hf : flagRx l.flags
  · refine ⟨s.mem, ?_, fun _ => rfl, by simp⟩
    rw [if_neg (by simp), ← finish s.mem, show v.withMem s.mem = v by rw [← hv]; rfl]
  · obtain ⟨m, hshape, harm⟩ := armRx_shape vq vm l.id
    refine ⟨m, ?_, by simp, fun b0 b1 _ hb => ?_⟩
    · rw [if_pos rfl, hshape]
      exact finish m
    · have := harm b0 b1 (by rw [vrec]; exact hb)
      rw [vrec, ← hv] at this
      exact ⟨⟨this.1.evenCtl, this.1.evenBuf, this.1.oddCtl, this.1.oddBuf⟩, this.2⟩

/-! ### Step A -/

/-- Step A with receive enabled keeps the pair there is. -/
theorem cfgepStepA_keeps_pair {s : State} {e : EpId} {f : BitVec 3} {b : Word × Word} (mps : BitVec 16)
    (hf : flagRx f = true) (hb : (s.endpoint e).rxbuf = some b) : cfgepStepA e mps f s = (true, s) := by
  unfold cfgepStepA
  rw [hb, hf]

/-- Step A with receive disabled and no pair does nothing. -/
theorem cfgepStepA_no_pair {s : State} {e : EpId} {f : BitVec 3} (mps : BitVec 16) (hf : flagRx f = false)
    (hb : (s.endpoint e).rxbuf = none) : cfgepStepA e mps f s = (true, s) := by
  unfold cfgepStepA
  rw [hb, hf]

/-- Step A with receive enabled and no pair makes one of a new block. -/
theorem cfgepStepA_new_pair {s : State} {e : EpId} {f : BitVec 3} {mps : BitVec 16} {p : Word} (hf : flagRx f = true)
    (hb : (s.endpoint e).rxbuf = none) (ha : (s.alloc (pairSize mps)).1 = some p) :
    ∃ x : Env, x.inbox = s.env.inbox ∧ x.between = s.env.between ∧ cfgepStepA e mps f s =
      (true, ((s.withEnv x).withPool
        { s.pool with live := insertBlock (p.toNat, 2 * mps.toNat) s.pool.live }).setPair e p mps) := by
  obtain ⟨x, hi, hbt, -, hx⟩ := alloc_some ha
  refine ⟨x, hi, hbt, ?_⟩
  have size : (pairSize mps).toNat = 2 * mps.toNat := by
    have := mps.isLt
    rw [pairSize, BitVec.toNat_ofNat, Nat.mod_eq_of_lt (by omega)]
  rw [size] at hx
  unfold cfgepStepA
  rw [hb, hf]
  rcases hal : s.alloc (pairSize mps) with ⟨o, u⟩
  rw [hal] at ha hx
  simp only at ha hx
  subst ha hx
  rfl

/-- `EPCTL.RXEN` of `e` cleared, then both its receive control words. -/
def State.quitRx (s : State) (e : EpId) : State :=
  ((s.withRegs (s.regs.setEpc e (s.regs.epc e &&& ~~~rxenMask))).setBdCtl e .rx .even 0#32).setBdCtl e .rx .odd 0#32

theorem reclaimRx_quiet {s : State} (hq : Quiet s) (e : EpId) : reclaimBd e .rx .odd (reclaimBd e .rx .even s) =
    (s.setBdCtl e .rx .even 0#32).setBdCtl e .rx .odd 0#32 := by
  rw [reclaimBd_quiet hq, reclaimBd_quiet (s := s.setBdCtl e .rx .even 0#32) hq]

/-- Step A with receive disabled drops the pair there is. -/
theorem cfgepStepA_drop_pair {s : State} (hq : Quiet s) {e : EpId} {f : BitVec 3} {b0 b1 : Word} (mps : BitVec 16)
    (hf : flagRx f = false) (hb : (s.endpoint e).rxbuf = some (b0, b1)) :
    cfgepStepA e mps f s = (true, (s.quitRx e).dropPair e b0 b1) := by
  unfold cfgepStepA
  rw [hb, hf]
  dsimp only
  rw [clearEpctl_quiet hq, reclaimRx_quiet]
  · rfl
  · exact hq

/-- Both receive control words are 0 and nothing else in memory is written. -/
theorem quitRx_mem {s : State} (hm : MemInv s) (e : EpId) :
    (s.quitRx e).bdCtl e .rx .even = 0#32 ∧ (s.quitRx e).bdCtl e .rx .odd = 0#32 ∧
    (∀ x, (s.quitRx e).bdCtl e .tx x = s.bdCtl e .tx x) ∧
    SameMem (fun a => inCtl s.params e .rx .even a ∨ inCtl s.params e .rx .odd a) s (s.quitRx e) := by
  unfold State.quitRx
  generalize hv : s.withRegs (s.regs.setEpc e (s.regs.epc e &&& ~~~rxenMask)) = v
  have vm : MemInv v := by rw [← hv]; exact hm
  have vp : v.params = s.params := by rw [← hv]; rfl
  have vmem : v.mem = s.mem := by rw [← hv]; rfl
  refine ⟨?_, ?_, fun x => ?_, fun a ha => ?_⟩
  · rw [State.bdCtl_setBdCtl_ne _ _ _ _ _ _ _ _ (by simp), State.bdCtl_setBdCtl_same _ _ _ _ _ vm]
  · rw [State.bdCtl_setBdCtl_same _ _ _ _ _ (State.wf_setBdCtl _ _ _ _ _ vm)]
  · rw [State.bdCtl_setBdCtl_ne _ _ _ _ _ _ _ _ (by simp), State.bdCtl_setBdCtl_ne _ _ _ _ _ _ _ _ (by simp),
      State.bdCtl_congr vmem vp]
  · rw [not_or] at ha
    rw [State.read_setBdCtl_ne _ _ _ _ _ (by rw [State.setBdCtl_params, vp]; exact Nat.le_of_not_lt ha.2),
      State.read_setBdCtl_ne _ _ _ _ _ (by rw [vp]; exact Nat.le_of_not_lt ha.1), vmem]

/-! ### The command -/

/-- The latch of a `CFGEP` with its operands in the port. -/
def cfgLatch (s : State) (e : EpId) (mps : BitVec 16) : CfgLatch :=
  { id := e, mps := mps, flags := s.cfgFlags, cb := s.cfgCallback }

/-- The state after step A with the operands latched. -/
def State.latched (u : State) (l : CfgLatch) : State :=
  u.withPort { u.port with cfgPend := some l, status := statusPending }

/-- A `CFGEP` whose step A succeeds latches its operands and goes on with step B. -/
theorem exec_cfgep_stepA {s u : State} {e : EpId} {mps : BitVec 16} (hr : Ready s)
    (hu : cfgepStepA e mps s.cfgFlags s = (true, u)) :
    exec (.cfgep (epByte e) mps) s = .next (cfgepContinue (cfgLatch s e mps) (u.latched (cfgLatch s e mps))) := by
  rw [exec_cfgep, command_ready _ hr.1 hr.2, onEndpoint_some (epOfByte_epByte e), cfgep]
  dsimp only
  rw [hu]
  rfl

theorem flagRx_cfgFlags (s : State) : flagRx s.cfgFlags = s.port.arg0.getLsbD 0 := by
  simp [flagRx, State.cfgFlags, rxenBit]

theorem flagTx_cfgFlags (s : State) : flagTx s.cfgFlags = s.port.arg0.getLsbD 1 := by
  simp [flagTx, State.cfgFlags, txenBit]

theorem port_unlatched {p : Port} (h : p.cfgPend = none) (c : BitVec 8) :
    { p with cfgPend := none, status := c } = { p with status := c } := by
  rw [← h]

/-- With receive enabled and a pair there or granted, step A leaves the pair, a granted block and the draws. -/
theorem cfgepStepA_receive {s : State} {e : EpId} {f : BitVec 3} {mps : BitVec 16} {b0 b1 : Word} (hf : flagRx f = true)
    (hb : (s.endpoint e).rxbuf = some (b0, b1) ∨ ((s.endpoint e).rxbuf = none ∧
      (s.alloc (pairSize mps)).1 = some b0 ∧ b1 = secondHalf b0 mps)) :
    ∃ (x : Env) (live : List (Nat × Nat)), x.inbox = s.env.inbox ∧ x.between = s.env.between ∧
      live = (if (s.endpoint e).rxbuf = none then insertBlock (b0.toNat, 2 * mps.toNat) s.pool.live else s.pool.live) ∧
      cfgepStepA e mps f s = (true, ((s.withEnv x).withPool { s.pool with live := live }).updEp e
        fun r => { r with rxbuf := some (b0, b1) }) := by
  rcases hb with hb | ⟨hb, ha, rfl⟩
  · refine ⟨s.env, s.pool.live, rfl, rfl, by simp [hb], ?_⟩
    rw [cfgepStepA_keeps_pair mps hf hb]
    exact congrArg _ (updEp_self (by rw [← hb])).symm
  · obtain ⟨x, hi, hbt, hx⟩ := cfgepStepA_new_pair hf hb ha
    exact ⟨x, _, hi, hbt, by rw [if_pos hb], hx⟩

/-- Settles O22: step A keeps or makes the pair (`cfgepStepA_receive`), step B arms it (`cfgepStepB_spec`). -/
theorem cfgepWithReceive : Obligations.CfgepWithReceive := by
  intro s e mps b0 b1 hr hq hm hrx hno hb
  obtain ⟨x, live, hi, hbt, hlive, hA⟩ := cfgepStepA_receive (f := s.cfgFlags) ((flagRx_cfgFlags s).trans hrx) hb
  rw [exec_cfgep_stepA hr hA]
  generalize hu : ((s.withEnv x).withPool { s.pool with live := live }).updEp e
    (fun r => { r with rxbuf := some (b0, b1) }) = u
  have urec : u.endpoint e = { s.endpoint e with rxbuf := some (b0, b1) } := by
    rw [← hu, State.updEp_same]
    rfl
  have uothers : SameOthers e s u := fun i hie => by rw [← hu, State.updEp_other _ _ hie]; rfl
  have uq : Quiet (u.latched (cfgLatch s e mps)) := by rw [← hu]; exact hbt.trans hq
  have um : MemInv (u.latched (cfgLatch s e mps)) := by rw [← hu]; exact hm
  have goes : ¬ MustHold (cfgLatch s e mps) (u.latched (cfgLatch s e mps)) := by
    rintro ⟨htx, hoff, hbusy⟩
    have htx : flagTx (u.endpoint e).flags = true := htx
    rw [urec] at htx
    refine hno ⟨htx, (flagTx_cfgFlags s).symm.trans hoff, (transmitting_congr (t := u) ?_ fun y => ?_).mp hbusy⟩
    · rw [urec]
    · rw [← hu]
      rfl
  rw [cfgepContinue_goes uq goes]
  obtain ⟨m, hB, -, harm⟩ := cfgepStepB_spec uq um (cfgLatch s e mps)
  obtain ⟨⟨c1, f1, c2, f2⟩, hsame⟩ := harm b0 b1 ((flagRx_cfgFlags s).trans hrx) (by
    show (u.endpoint e).rxbuf = _
    rw [urec])
  rw [hB]
  refine ⟨_, rfl, ?_, fun i hie => ((u.latched _).configured_others _ _ i hie).trans (uothers i hie), c1, f1, c2, f2, ?_⟩
  · refine (State.configured_endpoint _ (cfgLatch s e mps) m).trans ?_
    rw [show (u.latched (cfgLatch s e mps)).endpoint (cfgLatch s e mps).id = u.endpoint e from rfl, urec]
    rfl
  · subst hu
    exact ⟨hsame, rfl, port_unlatched hr.2 _, rfl, rfl, rfl, rfl, hi, hbt, rfl, hlive⟩

/-- A `CFGEP` that has to wait ends with step A done and the latch set. -/
theorem exec_cfgep_holds {s u : State} {e : EpId} {mps : BitVec 16} (hr : Ready s)
    (hA : cfgepStepA e mps s.cfgFlags s = (true, u)) (hq : Quiet u) (hf : (u.endpoint e).flags = (s.endpoint e).flags)
    (ht : (u.endpoint e).txq = (s.endpoint e).txq) (ho : ∀ x, u.bdOwn e .tx x = s.bdOwn e .tx x)
    (hon : flagTx (s.endpoint e).flags = true) (hoff : s.port.arg0.getLsbD 1 = false) (hbusy : transmitting s e) :
    exec (.cfgep (epByte e) mps) s = .next (u.latched (cfgLatch s e mps)) := by
  rw [exec_cfgep_stepA hr hA, cfgepContinue_holds (by exact hq)]
  exact ⟨(congrArg flagTx hf).trans hon, (flagTx_cfgFlags s).trans hoff, (transmitting_congr ht ho).mpr hbusy⟩

/-- Settles O23: by the four cases of step A, receive enabled or not, with a pair or without. -/
theorem cfgepHolds : Obligations.CfgepHolds := by
  intro s e mps hr hq hm hon hoff hbusy halloc
  have hflag := flagRx_cfgFlags s
  cases hrx : s.port.arg0.getLsbD 0 <;> cases hb : (s.endpoint e).rxbuf
  case false.none =>
    have hA := cfgepStepA_no_pair mps (hflag.trans hrx) hb
    refine ⟨_, exec_cfgep_holds hr hA hq rfl rfl (fun _ => rfl) hon hoff hbusy, rfl, fun _ _ => rfl, rfl, rfl, rfl, rfl, rfl,
      rfl, rfl, fun _ _ => ⟨rfl, rfl, rfl, rfl⟩, ?_, ?_, ?_⟩ <;> simp
  case false.some b =>
    obtain ⟨b0, b1⟩ := b
    have hA := cfgepStepA_drop_pair hq mps (hflag.trans hrx) hb
    obtain ⟨z0, z1, htx, hsame⟩ := quitRx_mem hm e
    have hrec : ((s.quitRx e).dropPair e b0 b1).endpoint e = { s.endpoint e with rxbuf := none } := State.updEp_same _ _ _
    have hothers : SameOthers e s ((s.quitRx e).dropPair e b0 b1) := fun i hie => State.updEp_other _ _ hie
    refine ⟨_, exec_cfgep_holds hr hA hq (by rw [hrec]) (by rw [hrec]) (fun x => congrArg ctlOwn (htx x)) hon hoff hbusy, rfl,
      hothers, rfl, rfl, rfl, rfl, rfl, rfl, rfl, by simp, ?_, by simp, by simp⟩
    intro c0 c1 _ hc
    cases hc
    exact ⟨hrec, rfl, z0, z1, hsame, rfl⟩
  case true.some b =>
    have hA := cfgepStepA_keeps_pair mps (hflag.trans hrx) hb
    refine ⟨_, exec_cfgep_holds hr hA hq rfl rfl (fun _ => rfl) hon hoff hbusy, rfl, fun _ _ => rfl, rfl, rfl, rfl, rfl, rfl,
      rfl, rfl, by simp, by simp, fun _ _ _ _ => ⟨rfl, rfl, rfl, rfl⟩, by simp⟩
  case true.none =>
    obtain ⟨p, ha⟩ := Option.ne_none_iff_exists'.mp (halloc hrx hb)
    obtain ⟨x, hi, hbt, hA⟩ := cfgepStepA_new_pair (hflag.trans hrx) hb ha
    have hrec : ∀ v : State, (v.setPair e p mps).endpoint e = { v.endpoint e with rxbuf := some (p, secondHalf p mps) } :=
      fun v => State.updEp_same _ _ _
    have hothers : ∀ v : State, SameOthers e v (v.setPair e p mps) := fun v i hie => State.updEp_other _ _ hie
    refine ⟨_, exec_cfgep_holds hr hA (hbt.trans hq) (by rw [hrec]; rfl) (by rw [hrec]; rfl) (fun _ => rfl) hon hoff hbusy, rfl,
      hothers _, rfl, rfl, rfl, rfl, rfl, hi, hbt, by simp, by simp, by simp, ?_⟩
    intro b0 _ _ hb0
    cases ha.symm.trans hb0
    exact ⟨hrec _, rfl, rfl, rfl⟩

/-- The next move of a held `CFGEP`. -/
theorem step_cont {s : State} {rest : List Input} {l : CfgLatch} (hr : s.sess.reboot = false)
    (hp : s.port.cfgPend = some l) (hi : s.env.inbox = .cont :: rest) :
    step s = .next (cfgepContinue l (s.withEnv { s.env with inbox := rest })) := by
  simp [step, nextMove, hr, hi, runInput, continueHeld, hp]

/-- Settles O24: the guard is `MustHold`; step B is `cfgepStepB_spec`. -/
theorem heldCfgepContinues : Obligations.HeldCfgepContinues := by
  intro s rest l hr hq hm hp hi
  rw [step_cont hr hp hi]
  have uq : Quiet (s.withEnv { s.env with inbox := rest }) := hq
  refine ⟨fun h => by rw [cfgepContinue_holds uq h], fun h => ?_⟩
  rw [cfgepContinue_goes uq h]
  obtain ⟨m, hB, hoff, harm⟩ := cfgepStepB_spec uq hm l
  rw [hB]
  refine ⟨_, rfl, State.configured_endpoint _ _ _, State.configured_others _ _ _, rfl, rfl, rfl, rfl, rfl, rfl,
    fun hf => hoff hf, fun b0 b1 hf hb => ?_⟩
  obtain ⟨⟨c1, f1, c2, f2⟩, hsame⟩ := harm b0 b1 hf hb
  exact ⟨c1, f1, c2, f2, hsame⟩

end Sys2Proof.Machine
end


section
/-! Memory over a step: its canonical form, and a transmit descriptor that the peripheral owns (20_memory.md R67, R68). With the
peripheral quiet the sequencer arms a transmit slot only where it read `OWN` = 0, and it writes no byte of a node outside the
node's block, which is clear of the table. The second does not rest on the first: no frame here needs a canonical memory. -/

namespace Sys2Proof.Machine

/-- Settles O13: each change the machine makes to memory keeps its canonical form (`memInv_closed`). -/
theorem stepKeepsMemory : Obligations.StepKeepsMemory := fun _ _ hm ht => step_keeps memInv_closed hm ht

/-! ### Node bytes stay out of the table -/

theorem copyBytes_sameMem (n : Nat) : ∀ {s : State} (src dst : Word), Quiet s →
    SameMem (inRun dst n) s (copyBytes n src dst s) := by
  induction n with
  | zero => intro s _ _ _ _ _; rfl
  | succ n ih =>
    intro s src dst hq a ha
    have hne : a ≠ dst := by
      rintro rfl
      exact ha (by show (a - a).toNat < n + 1; simp)
    have hrest : ¬ inRun (dst + 1#32) n a := by
      simp only [inRun] at ha ⊢
      bv_omega
    simp only [copyBytes, tick_quiet hq]
    rw [ih _ _ (by rw [Quiet, State.writeByte_env]; exact hq) a hrest, State.read_writeByte_ne _ _ hne]

theorem fillFrom_sameMem {s : State} (hq : Quiet s) {src : TxSource} {len : Word} (hf : src.Fits len) (dst : Word) :
    SameMem (inRun dst len.toNat) s (fillFrom src len dst s) := by
  cases src with
  | memory a => exact copyBytes_sameMem _ _ _ hq
  | literal bytes =>
    intro a ha
    rw [fillFrom, fillBytes_quiet bytes hq]
    exact State.read_pokeBytes_ne bytes s dst (hf ▸ Nat.le_of_not_lt ha)

/-- Building a node leaves every byte of the table. -/
theorem prepNode_table {s : State} (hq : Quiet s) (hp : Params.ok s.params) {src : TxSource} {len : Word}
    (hf : src.Fits len) (cb : Word) {a : Word} (ha : inTable s.params a = true) :
    (prepNode src len cb s).2.mem.read a = s.mem.read a := by
  by_cases hfail : AllocationFails s len
  · obtain ⟨x, hx, -, -⟩ := prepNode_fails src len cb hfail
    rw [hx]
    rfl
  · obtain ⟨hn, hb⟩ := not_or.mp hfail
    obtain ⟨h, hh⟩ := Option.ne_none_iff_exists'.mp hn
    obtain ⟨x, -, hxb, -, hx⟩ := allocNode_some hh
    by_cases hl : len = 0#32
    · subst hl
      rw [prepNode_empty src cb hh, hx]
      rfl
    · obtain ⟨b, hb⟩ := Option.ne_none_iff_exists'.mp fun k => hb ⟨hl, k⟩
      obtain ⟨y, -, hyb, hg, hy⟩ := alloc_some hb
      rw [prepNode_data src cb hl hh hb, hy, hx]
      rw [hx] at hg hyb
      have hclear : ∀ i < len.toNat, inTable s.params (b + BitVec.ofNat 32 i) = false :=
        fun i hi => ((granted_clear (s := (s.withEnv x).putNode h Node.blank) hp hg).2 i hi).2
      refine fillFrom_sameMem (hyb.trans (hxb.trans hq)) hf b a fun hrun => ?_
      have := hclear _ hrun
      rw [← eq_add_of_inRun, ha] at this
      cases this

theorem inTable_of_inBd {p : Params} {e : EpId} {d : Dir} {x : Slot} {a : Word} (h : inBd p e d x a) :
    inTable p a = true := by
  have hi := (bdIndex e d x).isLt
  have h8 : (8#32 * (bdIndex e d x).setWidth 32).toNat = 8 * (bdIndex e d x).toNat := by
    simp [BitVec.toNat_mul]; omega
  simp only [inBd, inRun, bdAddr] at h
  simp only [inTable, decide_eq_true_eq]
  generalize 8#32 * (bdIndex e d x).setWidth 32 = u at h h8
  bv_omega

/-- Equal tables have equal descriptors. -/
theorem bd_congr_table {s t : State} (hp : t.params = s.params)
    (h : ∀ a, inTable s.params a = true → t.mem.read a = s.mem.read a) (e : EpId) (d : Dir) (x : Slot) :
    t.bdCtl e d x = s.bdCtl e d x ∧ t.bdBuf e d x = s.bdBuf e d x := by
  unfold State.bdCtl State.bdBuf
  rw [hp]
  constructor <;> refine Memory.read32_congr fun c hc => h c (inTable_of_inBd (e := e) (d := d) (x := x) ?_)
  · exact Nat.lt_trans hc (by decide)
  · show (c - bdAddr s.params e d x).toNat < 8
    bv_omega

/-! ### A descriptor as it was -/

/-- The transmit descriptor of `e` and `x` has both words as in `o`, and no step of the peripheral is to fall. -/
structure TxAsIn (o : State) (e : EpId) (x : Slot) (s : State) : Prop where
  quiet : Quiet s
  params : s.params = o.params
  ctl : s.bdCtl e .tx x = o.bdCtl e .tx x
  buf : s.bdBuf e .tx x = o.bdBuf e .tx x

section
variable {o s t : State} {e : EpId} {x : Slot}

/-- A change that leaves memory leaves the descriptor. -/
theorem TxAsIn.of_mem (h : TxAsIn o e x s) (hm : t.mem = s.mem := by rfl) (hp : t.params = s.params := by rfl)
    (hb : t.env.between = s.env.between := by rfl) : TxAsIn o e x t where
  quiet := hb.trans h.quiet
  params := hp.trans h.params
  ctl := (State.bdCtl_congr hm hp e .tx x).trans h.ctl
  buf := (State.bdBuf_congr hm hp e .tx x).trans h.buf

/-- A write of the control word of another descriptor. -/
theorem TxAsIn.setBdCtl (h : TxAsIn o e x s) {i : EpId} {d : Dir} {y : Slot} (hne : (e, Dir.tx, x) ≠ (i, d, y)) (w : Word) :
    TxAsIn o e x (s.setBdCtl i d y w) where
  quiet := h.quiet
  params := h.params
  ctl := (State.bdCtl_setBdCtl_ne _ _ _ _ _ _ _ _ hne).trans h.ctl
  buf := (State.bdBuf_setBdCtl ..).trans h.buf

/-- A write of the address word of another descriptor. -/
theorem TxAsIn.setBdBuf (h : TxAsIn o e x s) {i : EpId} {d : Dir} {y : Slot} (hne : (e, Dir.tx, x) ≠ (i, d, y)) (w : Word) :
    TxAsIn o e x (s.setBdBuf i d y w) where
  quiet := h.quiet
  params := h.params
  ctl := (State.bdCtl_setBdBuf ..).trans h.ctl
  buf := (State.bdBuf_setBdBuf_ne _ _ _ _ _ _ _ _ hne).trans h.buf

theorem TxAsIn.complete (h : TxAsIn o e x s) (i : EpId) (a : Word) : TxAsIn o e x (complete i a s) := by
  obtain ⟨ev, pool, hs⟩ := complete_shape i a s
  rw [hs]
  exact h.of_mem

/-- Arming a chunk in a FirmwareOwned slot leaves a HardwareOwned descriptor. -/
theorem TxAsIn.armChunk (h : TxAsIn o e x s) (ho : o.bdOwn e .tx x = true) {i : EpId} {f : Slot} (a : Word)
    (hf : s.bdOwn i .tx f = false) : TxAsIn o e x (armChunk i a f s) := by
  have hne : (e, Dir.tx, x) ≠ (i, Dir.tx, f) := by
    rintro ⟨⟩
    rw [State.bdOwn, h.ctl, show ctlOwn (o.bdCtl e .tx x) = true from ho] at hf
    cases hf
  unfold Machine.armChunk
  dsimp only
  rw [armBd_quiet h.quiet]
  exact ((h.setBdBuf hne _).setBdCtl hne _).of_mem

/-- A pump arms a slot only where it read `OWN` = 0. -/
theorem TxAsIn.pump (h : TxAsIn o e x s) (ho : o.bdOwn e .tx x = true) (i : EpId) : TxAsIn o e x (pump i s) := by
  unfold Machine.pump
  split
  · exact h
  · rename_i a rest _
    simp only [tick_quiet h.quiet]
    split
    · exact h
    · rename_i hboth
      have hfree : s.bdOwn i .tx (if s.bdOwn i .tx (s.endpoint i).txodd then (s.endpoint i).txodd.flip
          else (s.endpoint i).txodd) = false := by
        cases hp : s.bdOwn i .tx (s.endpoint i).txodd
        · exact hp
        · simpa [hp] using hboth
      split
      · split
        · exact h
        · exact h.complete i a
      · split
        · exact (h.armChunk ho a hfree).complete i a
        · exact h.armChunk ho a hfree

/-- Every operation of the sequencer but `RESETALL` leaves a HardwareOwned transmit descriptor. -/
theorem txAsIn_kept (hok : Params.ok o.params) (ho : o.bdOwn e .tx x = true) : Kept (TxAsIn o e x) where
  tick s h := by
    rw [tick_quiet h.quiet]
    exact h
  draw _ _ _ hb h := h.of_mem (hb := hb)
  fault _ h := h.of_mem
  config _ _ h := h.of_mem
  reboot _ h := h.of_mem
  emit _ _ h := h.of_mem
  record _ _ _ _ h := h.of_mem
  rxCtl _ _ _ _ h := h.setBdCtl (by simp) _
  rxBuf _ _ _ _ h := h.setBdBuf (by simp) _
  epctl _ _ _ h := h.of_mem
  err _ _ h := h.of_mem
  prep s src len cb hf h := by
    have hp : (prepNode src len cb s).2.params = s.params :=
      prepNode_keeps (params_closed s.params).toStable src len cb rfl
    obtain ⟨hctl, hbuf⟩ := bd_congr_table hp (fun a => prepNode_table h.quiet (h.params ▸ hok) hf cb) e .tx x
    exact ⟨prepNode_keeps quiet_closed.toStable src len cb h.quiet, hp.trans h.params, hctl.trans h.ctl, hbuf.trans h.buf⟩
  append _ _ _ _ h := h.of_mem
  complete _ i a _ _ h := h.complete i a
  pump _ i h := h.pump ho i
  newPair _ _ _ _ _ ha h := by
    obtain ⟨y, -, hb, -, hy⟩ := alloc_some ha
    rw [hy]
    exact h.of_mem (hb := hb)
  dropPair _ _ _ _ _ h := h.of_mem

end

/-- An instruction whose encoding is no line of the environment is no step of the peripheral. -/
theorem hostStepOf_eq_none {rk : BitVec 16} {i : Instr} (h : (encode rk i).1 ≠ .host) : hostStepOf i = none := by
  cases i <;> simp [encode, hostStepOf] at h ⊢

/-- Settles O20: no operation of the sequencer but those of `I.RESET` writes the descriptor (`txAsIn_kept`), and what an
instruction does beyond them leaves memory. -/
theorem ownedTransmitDescriptorsKept : Obligations.OwnedTransmitDescriptorsKept := by
  intro i s t e x hq hok hreset hhost ht ho
  have extra : Extra (TxAsIn s e x) i :=
    extra_of (fun _ _ _ h => h.of_mem) (fun _ _ _ _ h => h.of_mem) (fun _ _ _ _ h => h.of_mem)
      (fun hi => absurd hi hreset) (fun _ _ _ h => h.of_mem) (fun _ _ _ h => h.of_mem)
      fun y hy => by rw [hostStepOf_eq_none hhost] at hy; cases hy
  have h := (txAsIn_kept hok ho).exec i extra ⟨hq, rfl, rfl, rfl⟩ ht
  exact ⟨h.ctl, h.buf⟩

end Sys2Proof.Machine
end


section
/-! The pump where it arms a chunk (41_txqueue.md R144 step 4): which slot, what is written, and that it is the same where an IN
falls between the write of the address word and the write of the control word (20_memory.md R70). -/

namespace Sys2Proof.Machine

/-- The slot a pump may arm, as `PUMP` picks it from the two control words it read. -/
theorem freeSlot_some {s : State} {e : EpId} {f : Slot} (hf : freeSlot s e = some f) :
    (s.bdOwn e .tx (s.endpoint e).txodd && s.bdOwn e .tx (s.endpoint e).txodd.flip) = false ∧
    (if s.bdOwn e .tx (s.endpoint e).txodd then (s.endpoint e).txodd.flip else (s.endpoint e).txodd) = f := by
  unfold freeSlot at hf
  split at hf
  · rename_i hp
    rw [hp]
    exact ⟨rfl, Option.some.inj hf⟩
  · rename_i hp
    split at hf
    · rename_i hq
      rw [Bool.not_eq_false] at hp
      rw [hp, hq]
      exact ⟨rfl, Option.some.inj hf⟩
    · cases hf

/-- With a free slot and a head node not drained, a pump arms the next chunk, and completes the node if it is empty. -/
theorem pump_arms {s : State} (hq : Quiet s) {e : EpId} {h : Word} {rest : List Word} {f : Slot}
    (hx : (s.endpoint e).txq = h :: rest) (hf : freeSlot s e = some f)
    (hn : ¬ ((s.node h).cursor = (s.node h).total ∧ (s.node h).total ≠ 0#32)) :
    pump e s = if (s.node h).total = 0#32 then complete e h (armChunk e h f s) else armChunk e h f s := by
  obtain ⟨hboth, rfl⟩ := freeSlot_some hf
  unfold pump
  simp only [hx, tick_quiet hq, hboth, Bool.false_eq_true, if_false, hn]

/-- What arming a chunk leaves: the two words of the slot, the toggle and the parity flipped, the cursor moved. -/
theorem armChunk_spec {s : State} (hq : Quiet s) (hm : MemInv s) {e : EpId} {h : Word} {n : Node} (hn : s.node? h = some n)
    (f : Slot) :
    let c := min (n.total - n.cursor).toNat (min (s.endpoint e).maxpkt.toNat 1023)
    ∃ m, armChunk e h f s =
        ((s.withMem m).updEp e fun r => { r with txtoggle := !r.txtoggle, txodd := r.txodd.flip }).putNode h
          { n with cursor := n.cursor + BitVec.ofNat 32 c } ∧
      (s.withMem m).bdCtl e .tx f = controlWord c true (s.endpoint e).txtoggle 0 ∧
      (s.withMem m).bdBuf e .tx f = chunkAddr n ∧ SameMem (inBd s.params e .tx f) s (s.withMem m) := by
  have count : (chunkSize n (s.endpoint e).maxpkt).setWidth 32 =
      BitVec.ofNat 32 (min (n.total - n.cursor).toNat (min (s.endpoint e).maxpkt.toNat 1023)) := by
    apply BitVec.eq_of_toNat_eq
    simp only [chunkSize, BitVec.toNat_setWidth, BitVec.toNat_ofNat]
    omega
  obtain ⟨hctl, hbuf, -, hsame, hshape⟩ := armBd_spec hq hm e .tx f (chunkAddr n) (chunkSize n (s.endpoint e).maxpkt)
    (s.endpoint e).txtoggle
  unfold armChunk
  dsimp only
  rw [State.node_of_node? hn, count]
  generalize armBd e .tx f (chunkAddr n) (chunkSize n (s.endpoint e).maxpkt) (s.endpoint e).txtoggle s = u at *
  obtain ⟨m, rfl⟩ : ∃ m, u = s.withMem m := ⟨_, hshape⟩
  exact ⟨m, rfl, hctl.trans (armedWord_chunk ..), hbuf, hsame⟩

/-- A pump that arms a chunk does not tell a quiet peripheral from an IN between its two writes. -/
theorem pump_as_quiet {s : State} {e : EpId} {h : Word} {rest : List Word}
    (hq : Quiet s ∨
      s.env.between = [[], [], [], [.inTok e]] ∧ s.bdOwn e .tx .even = false ∧ s.bdOwn e .tx .odd = false)
    (hx : (s.endpoint e).txq = h :: rest) (hn : ¬ ((s.node h).cursor = (s.node h).total ∧ (s.node h).total ≠ 0#32)) :
    pump e s = pump e (s.withEnv { s.env with between := [] }) := by
  rcases hq with hq | ⟨hb, he, ho⟩
  · rw [← hq]
    rfl
  · exact pump_publishes hb he ho hx hn

/-- The state a `T.IN` pumps in: the address committed (43_control.md R192), no step of the peripheral left to fall. -/
def State.committed (s : State) (e : EpId) : State :=
  (s.withRegs { s.regs with addr := committedAddr s e }).withEnv { s.env with between := [] }

/-- `T.IN` on an endpoint without a hook, with a free slot and bytes of the head node left, arms the next chunk. -/
theorem tIn_arms {s : State} {e : EpId} {f : Slot} {h : Word} {rest : List Word}
    (hq : Quiet s ∨
      s.env.between = [[], [], [], [.inTok e]] ∧ s.bdOwn e .tx .even = false ∧ s.bdOwn e .tx .odd = false)
    (hk : hookOf s.params e = 0#32) (hx : (s.endpoint e).txq = h :: rest) (hf : freeSlot s e = some f)
    (htotal : (s.node h).total ≠ 0#32) (hcursor : (s.node h).cursor ≠ (s.node h).total) :
    tIn e s = armChunk e h f (s.committed e) := by
  have left : ¬ ((s.node h).cursor = (s.node h).total ∧ (s.node h).total ≠ 0#32) := fun k => hcursor k.1
  calc tIn e s = pump e (s.withRegs { s.regs with addr := committedAddr s e }) := by
        rw [tIn, commit_eq]
        exact if_pos hk
    _ = pump e (s.committed e) := pump_as_quiet (s := s.withRegs { s.regs with addr := committedAddr s e }) hq hx left
    _ = _ := pump_arms (s := s.committed e) rfl hx hf left
    _ = armChunk e h f (s.committed e) := if_neg htotal

/-- Settles O33: `T.IN` is one `armChunk` in the free slot (`tIn_arms`), also where an IN falls before its last write
(`pump_as_quiet`). -/
theorem pumpArmsNextChunk : Obligations.PumpArmsNextChunk := by
  intro s e x f h rest n hm hq hk hx hn hf htotal hcursor c
  have hnode : s.node h = n := State.node_of_node? hn
  rw [exec_tIn, tIn_arms hq hk hx hf (hnode ▸ htotal) (hnode ▸ hcursor)]
  obtain ⟨m, arm, hctl, hbuf, hsame⟩ := armChunk_spec (s := s.committed e) rfl hm (e := e) hn f
  rw [arm]
  refine ⟨_, rfl, hctl, hbuf.trans (if_neg htotal), hsame, ?_, fun i hi => ?_, State.putNode_node?_same _ _ _,
    fun i hi => State.putNode_node?_ne _ _ _ _ hi, fun hp hh => freeSlot_eq_parity hp hh hk hf,
    rfl, rfl, rfl, rfl, rfl, rfl, rfl, rfl⟩
  · rw [State.putNode_endpoint, State.updEp_same]
    rfl
  · rw [State.putNode_endpoint, State.updEp_other _ _ hi]
    rfl

end Sys2Proof.Machine
end


section
/-! The encodings (30_encoding.md R90 to R111): what the decoder of each format reads from the bytes the encoder writes. A field
that a decoder reads is a slice of the word the encoder appended it to. -/

namespace Sys2Proof.Machine

/-! ### Command words (R91) -/

@[simp] theorem cmdWord_op (op ep : BitVec 8) (imm : BitVec 16) : (cmdWord op ep imm).extractLsb' 0 8 = op :=
  BitVec.extractLsb'_append_eq_right

@[simp] theorem cmdWord_ep (op ep : BitVec 8) (imm : BitVec 16) : (cmdWord op ep imm).extractLsb' 8 8 = ep :=
  (BitVec.extractLsb'_append_eq_of_le (Nat.le_refl 8)).trans BitVec.extractLsb'_append_eq_right

@[simp] theorem cmdWord_imm (op ep : BitVec 8) (imm : BitVec 16) : (cmdWord op ep imm).extractLsb' 16 16 = imm :=
  (BitVec.extractLsb'_append_eq_of_le (by decide)).trans BitVec.extractLsb'_append_eq_left

/-- The bytes of a word decode as that word. -/
theorem decode_bytesOfWord (rk : BitVec 16) (w : Word) : decode rk .cmd (bytesOfWord w) = decodeCmd w := by
  rw [bytesOfWord, decode, word_of_its_bytes]

/-! ### Interrupt and `STAT` words (R100, R102) -/

/-- A `STAT` byte with its reserved bits 0 is captured as it stands. -/
theorem and_fc_of_reserved : ∀ st : BitVec 8, st.extractLsb' 0 2 = 0#2 → st &&& 0xFC#8 = st := by decide

theorem decode_istat_tokdne (rk : BitVec 16) (st : BitVec 8) :
    decode rk .istat [0x08#8, st] = .ok (.iTokdne (st &&& 0xFC#8)) := rfl

theorem decode_statByte_tx (rk : BitVec 16) (e : EpId) (x : Slot) :
    decode rk .stat [statByte e .tx x] = .ok (.tIn e x) := by
  simp [decode, decodeStat]

/-! ### Receive control words (R97, R109) -/

/-- A written-back control word with its payload: the byte count is read back, so the whole payload is taken. -/
theorem decode_bdBytes (rk : BitVec 16) (tok : BitVec 4) (e : EpId) (data1 : Bool) {payload : List Byte}
    (hlen : payload.length ≤ 1023) :
    decode rk .bd (bdBytes tok e data1 payload) =
      decodeBd (ctlWord (BitVec.ofNat 10 payload.length) false data1 tok) e payload := by
  have count : (BitVec.ofNat 10 payload.length).toNat = payload.length := by
    rw [BitVec.toNat_ofNat, Nat.mod_eq_of_lt (by omega)]
  simp only [bdBytes, bytesOfWord, List.cons_append, List.nil_append, decode, word_of_its_bytes, ctlWord_bc, count,
    statEp_statByte, List.take_length, Nat.lt_irrefl, if_false]

theorem tokenOf_setup (bc : BitVec 10) (data1 : Bool) : tokenOf (ctlWord bc false data1 tokSetup) = .ok .setup := by
  simp [tokenOf]

theorem tokenOf_out (bc : BitVec 10) (data1 : Bool) : tokenOf (ctlWord bc false data1 tokOut) = .ok .out := by
  simp [tokenOf, tokOut, tokSetup]

/-! ### Setup packets (R107, R108) -/

/-- The request key is the first two bytes of the packet, the second one high. -/
theorem requestKey_packSetup (b0 b1 b2 b3 b4 b5 b6 b7 : Byte) :
    requestKey (packSetup [b0, b1, b2, b3, b4, b5, b6, b7]) = b1 ++ b0 :=
  (congrArg (BitVec.extractLsb' 0 16) (BitVec.append_assoc (x₂ := b1))).trans BitVec.extractLsb'_append_eq_right

/-- A Setup packet decodes to the row its key selects. -/
theorem decode_setup (rk : BitVec 16) (b0 b1 b2 b3 b4 b5 b6 b7 : Byte) :
    decode rk .setup [b0, b1, b2, b3, b4, b5, b6, b7] = .ok ((requestOf rk (b1 ++ b0)).instr (b1 ++ b0)) := by
  rw [decode, decodeSetup, requestKey_packSetup]

theorem decode_setupBytes (rk key : BitVec 16) :
    decode rk .setup (setupBytes key) = .ok ((requestOf rk key).instr key) := by
  have hkey : key.extractLsb' 8 8 ++ key.extractLsb' 0 8 = key := BitVec.extractLsb'_append_extractLsb'
  rw [setupBytes, decode_setup, hkey]

/-- A key that is none of the standard ones selects one of the last two rows. -/
theorem requestOf_of_not_standard (rk : BitVec 16) {key : BitVec 16} (h : key ∉ standardKeys) :
    requestOf rk key = if key = rk then .vendorReboot else .stall := by
  simp only [standardKeys, List.mem_cons, List.not_mem_nil, or_false, not_or] at h
  obtain ⟨h1, h2, h3, h4, h5, h6⟩ := h
  simp [requestOf, h1, h2, h3, h4, h5, h6]

theorem requestOf_rebootKey {rk : BitVec 16} (h : rk ∉ standardKeys) : requestOf rk rk = .vendorReboot := by
  rw [requestOf_of_not_standard rk h, if_pos rfl]

theorem requestOf_default {rk key : BitVec 16} (h : key ∉ standardKeys) (hne : key ≠ rk) : requestOf rk key = .stall := by
  rw [requestOf_of_not_standard rk h, if_neg hne]

/-! ### Lines of the environment (R111) -/

@[simp] theorem lineEp_epByte (e : EpId) : lineEp (epByte e) = .ok e := by
  rw [lineEp, epOfByte_epByte]

/-- The flags of an error line: its three high bits are 0, the others are the flags. -/
theorem errorFlags_byte : ∀ bits : BitVec 5,
    (bits.setWidth 8).extractLsb' 5 3 = 0#3 ∧ (bits.setWidth 8).extractLsb' 0 5 = bits := by decide

theorem decode_errorLine (rk : BitVec 16) {bits : BitVec 5} (h : bits ≠ 0#5) :
    decode rk .host [0x11#8, bits.setWidth 8] = .ok (.pErr bits) := by
  obtain ⟨hhigh, hlow⟩ := errorFlags_byte bits
  simp [decode, decodeHost, hhigh, hlow, h]

theorem decode_setupLine (rk : BitVec 16) (e : EpId) {bytes : List Byte} (h : bytes.length = 8) :
    decode rk .host (0x0D#8 :: epByte e :: bytes) = .ok (.pSetup e bytes) := by
  have whole : bytes.take 8 = bytes := by rw [← h, List.take_length]
  simp [decode, decodeHost, h, whole, Except.map]

theorem decode_outLine (rk : BitVec 16) (e : EpId) (t : Bool) (bytes : List Byte) :
    decode rk .host (0x01#8 :: epByte e :: (if t then 1#8 else 0#8) :: bytes) = .ok (.pOut e t bytes) := by
  cases t <;> simp [decode, decodeHost, Except.map]

theorem decode_inLine (rk : BitVec 16) (e : EpId) : decode rk .host [0x09#8, epByte e] = .ok (.pIn e) := by
  simp [decode, decodeHost, Except.map]

theorem decode_stalledLine (rk : BitVec 16) (e : EpId) : decode rk .host [0x17#8, epByte e] = .ok (.pStalled e) := by
  simp [decode, decodeHost, Except.map]

/-! ### The round trip, the request table and the words of the spec -/

/-- Settles O1, format by format: each case is what the decoder of its format reads from the encoder's bytes. -/
theorem decodeOfEncode : Obligations.DecodeOfEncode := by
  intro rk i hi
  cases i with
  | cfgep ep mps | prep | enq ep | send ep | trysend ep | cancel ep | qpend ep | qbusy ep =>
    rw [encode, decode_bytesOfWord]
    simp [decodeCmd]
  | iReset | iError | iSof | iSleep | iResume | iAttach | iStall => rfl
  | iTokdne st => rw [encode, decode_istat_tokdne, and_fc_of_reserved st (by simpa [WellFormed] using hi)]
  | tIn e x => exact decode_statByte_tx rk e x
  | tSetup e data1 payload =>
    rw [encode, decode_bdBytes rk tokSetup e data1 (by simpa [WellFormed] using hi), decodeBd, tokenOf_setup, ctlWord_data1]
  | tOut e data1 payload =>
    rw [encode, decode_bdBytes rk tokOut e data1 (by simpa [WellFormed] using hi), decodeBd, tokenOf_out, ctlWord_data1]
  | getStatus | setAddress | getDescriptor | getDescriptorIf | getConfiguration | setConfiguration =>
    exact decode_setupBytes rk _
  | vendorReboot =>
    rw [encode, decode_setupBytes, requestOf_rebootKey (by simpa [WellFormed] using hi), Request.instr]
  | stallDefault key =>
    obtain ⟨hstd, hne⟩ : key ∉ standardKeys ∧ key ≠ rk := by simpa [WellFormed] using hi
    rw [encode, decode_setupBytes, requestOf_default hstd hne, Request.instr]
  | pReset | pSof | pSleep | pResume | pAttach => rfl
  | pErr bits => exact decode_errorLine rk (by simpa [WellFormed] using hi)
  | pSetup e bytes => exact decode_setupLine rk e (by simpa [WellFormed] using hi)
  | pIn e => exact decode_inLine rk e
  | pOut e t bytes => exact decode_outLine rk e t bytes
  | pStalled e => exact decode_stalledLine rk e

/-- Settles O3: the packet decodes to the row of its key (`decode_setup`), and the standard rows come first. -/
theorem requestTable : Obligations.RequestTable := by
  intro rk b0 b1 b2 b3 b4 b5 b6 b7 hrk key row
  have hrow : row = .ok ((requestOf rk key).instr key) := decode_setup rk b0 b1 b2 b3 b4 b5 b6 b7
  rw [hrow]
  generalize key = k
  refine ⟨?_, ?_, ?_, ?_, ?_, ?_, ?_, ?_⟩
  iterate 6
    rintro rfl
    rfl
  · rintro rfl
    rw [requestOf_rebootKey hrk, Request.instr]
  · intro hstd hne
    rw [requestOf_default hstd hne, Request.instr]

/-- Settles O2: each word is closed, and the decoder computes. -/
theorem specWordsDecode : Obligations.SpecWordsDecode :=
  ⟨rfl, rfl, rfl, rfl, rfl, rfl, rfl, rfl, rfl, rfl⟩

end Sys2Proof.Machine
end


section
/-! The next input of the schedule (log entry 6): a step takes it out and does what it says. Then the register block as the client
sees it (30_encoding.md R110): every word is read byte by byte at its offset, and a word written there is a register write. -/

namespace Sys2Proof.Machine

/-! ### What a step runs -/

/-- A step takes the next input out of the schedule and runs it, while the run is not over. -/
theorem step_input {s : State} {x : Input} {rest : List Input} (hr : s.sess.reboot = false)
    (hi : s.env.inbox = x :: rest) : step s = runInput x (s.withEnv { s.env with inbox := rest }) := by
  simp [step, nextMove, hr, hi]

/-- A word that decodes is issued as the command it stands for, with `CMD` holding the word. -/
theorem issue_decoded {s : State} {w : Word} {i : Instr} (hi : decode s.params.rebootKey .cmd (bytesOfWord w) = .ok i) :
    issue w s = exec i (s.withPort { s.port with cmd := w }) := by
  simp only [issue, State.withPort_params, hi]

theorem runLine_decoded {s : State} {line : List Byte} {i : Instr} (hi : decode s.params.rebootKey .host line = .ok i) :
    runLine line s = exec i s := by
  simp only [runLine, hi]

/-- An invocation is the routines of its snapshot, since nothing is restored at its end. -/
theorem dispatch_runs {s : State} (hr : s.sess.reboot = false) (hreq : s.regs.istat &&& s.regs.inten ≠ 0#8) :
    dispatch s =
      runAll (routinesOf (takeInterrupt s).1.snap (takeInterrupt s).1.st) (takeInterrupt s).2 := by
  have enabled : s.irqEnabled = true := by simp [State.irqEnabled, Regs.request, hr, hreq]
  rw [dispatch, if_pos enabled]
  cases runAll (routinesOf (takeInterrupt s).1.snap (takeInterrupt s).1.st) (takeInterrupt s).2 <;> rfl

/-- An offset below 256 in the register block. -/
theorem sub_regBase (p : Params) {off : Nat} (h : off < 0x100) :
    (p.regBase + BitVec.ofNat 32 off - p.regBase).toNat = off := by
  bv_omega

theorem inRegs_regBase (p : Params) {off : Nat} (h : off < 0x100) : inRegs p (p.regBase + BitVec.ofNat 32 off) = true := by
  rw [inRegs, sub_regBase p h, decide_eq_true h]

/-- An aligned word written in the register block is a write of the register there. -/
theorem clientWrite_register (s : State) {off : Nat} (v : Word) (h4 : off % 4 = 0) (h : off < 0x100) :
    clientWrite (s.params.regBase + BitVec.ofNat 32 off) v s = registerWrite off v s := by
  rw [clientWrite, inRegs_regBase s.params h, sub_regBase s.params h, h4]
  rfl

/-- A step whose input is an aligned write in the register block is the register write. -/
theorem step_register {s : State} {off : Nat} {v : Word} {rest : List Input} (hr : s.sess.reboot = false)
    (hi : s.env.inbox = .write (s.params.regBase + BitVec.ofNat 32 off) v :: rest) (h4 : off % 4 = 0) (h : off < 0x100) :
    step s = registerWrite off v (s.withEnv { s.env with inbox := rest }) :=
  (step_input hr hi).trans (clientWrite_register (s.withEnv { s.env with inbox := rest }) v h4 h)

/-- A step whose input is a write of `CMD` issues the word. -/
theorem step_cmd {s : State} {w : Word} {rest : List Input} (hr : s.sess.reboot = false)
    (hi : s.env.inbox = .write (cmdAddr s.params) w :: rest) :
    step s = issue w (s.withEnv { s.env with inbox := rest }) :=
  step_register (off := 0x80) hr hi rfl (by decide)

/-- Settles O5: the three inputs that run instructions, each by the lemma of what it runs. -/
theorem stepRunsDecodedInstruction : Obligations.StepRunsDecodedInstruction := by
  intro s rest hr
  refine ⟨fun w i hi hd => ?_, fun line i hi hd => ?_, fun hi hreq => ?_⟩
  · rw [step_cmd hr hi]
    exact issue_decoded (s := s.withEnv { s.env with inbox := rest }) hd
  · rw [step_input hr hi]
    exact runLine_decoded (s := s.withEnv { s.env with inbox := rest }) hd
  · rw [step_input hr hi]
    exact dispatch_runs (s := s.withEnv { s.env with inbox := rest }) hr hreq

/-! ### Reserved operation codes (R96) -/

theorem decodeCmd_reserved {w : Word} (h : w.extractLsb' 0 8 = 0x00#8 ∨ 0x09 ≤ (w.extractLsb' 0 8).toNat) :
    decodeCmd w = .error .reservedOp := by
  have hop : (w.extractLsb' 0 8).toNat = 0 ∨ 9 ≤ (w.extractLsb' 0 8).toNat := h.imp_left fun k => by rw [k]; rfl
  unfold decodeCmd
  split
  case h_9 => rfl
  all_goals omega

/-- A word that does not decode is refused by `STATUS` alone, with `CMD` holding the word. -/
theorem issue_rejected {s : State} {w : Word} {r : Reject} (hs : Ready s)
    (hw : decode s.params.rebootKey .cmd (bytesOfWord w) = .error r) :
    issue w s = .next (s.withPort { s.port with cmd := w, status := errBadop }) := by
  simp only [issue, State.withPort_params, hw]
  exact command_ready _ hs.1 hs.2

/-- Settles O8: a reserved code does not decode. -/
theorem reservedOpRefused : Obligations.ReservedOpRefused := by
  intro s w rest hs hi hop
  rw [step_cmd hs.1 hi]
  exact issue_rejected (s := s.withEnv { s.env with inbox := rest }) hs
    ((decode_bytesOfWord _ _).trans (decodeCmd_reserved hop))

/-! ### The register map (R110) -/

/-- A byte in the register block is a byte of the register word there. -/
theorem readByte_register (s : State) {off i : Nat} (h4 : off % 4 = 0) (h : off < 0x100) (hi : i < 4) :
    s.readByte (s.params.regBase + BitVec.ofNat 32 (off + i)) = byteOfWord (s.regRead off) i := by
  have hlt : off + i < 0x100 := by omega
  have hword : (off + i) / 4 * 4 = off := by omega
  have hbyte : (off + i) % 4 = i := by omega
  rw [State.readByte, if_pos (inRegs_regBase s.params hlt), sub_regBase s.params hlt, hword, hbyte]

/-- A client's read at an aligned offset of the register block gives the register there. -/
theorem clientRead_register (s : State) {off : Nat} (h4 : off % 4 = 0) (h : off < 0x100) :
    s.clientRead (s.params.regBase + BitVec.ofNat 32 off) = s.regRead off := by
  have byteAt : ∀ i < 4, s.readByte (s.params.regBase + BitVec.ofNat 32 off + BitVec.ofNat 32 i) =
      byteOfWord (s.regRead off) i := by
    intro i hi
    rw [BitVec.add_assoc, ← BitVec.ofNat_add]
    exact readByte_register s h4 h hi
  have b0 := byteAt 0 (by decide)
  rw [show BitVec.ofNat 32 0 = 0#32 from rfl, BitVec.add_zero] at b0
  rw [State.clientRead, b0, byteAt 1 (by decide), byteAt 2 (by decide), byteAt 3 (by decide), word_of_its_bytes]

theorem regRead_fault (s : State) : s.regRead 0x1C = if s.sess.isrAlloc then 1#32 else 0#32 := by
  rw [State.regRead, Session.faultByte]
  cases s.sess.isrAlloc <;> rfl

theorem regRead_epctl (s : State) (e : EpId) : s.regRead (0x40 + 4 * e.val) = (s.regs.epc e).setWidth 32 := by
  have hin : 64 + 4 * e.val < 128 := by omega
  unfold State.regRead
  split
  case h_17 => simp [Regs.epc, hin]
  all_goals omega

/-- A reserved offset reads 0. -/
theorem regRead_reserved (s : State) {off : Nat} (h : 0x2C ≤ off ∧ off < 0x40 ∨ 0x98 ≤ off ∧ off < 0x100) :
    s.regRead off = 0#32 := by
  have hout : ¬ (0x40 ≤ off ∧ off < 0x80) := by omega
  unfold State.regRead
  split
  case h_17 => rw [dif_neg hout]
  all_goals omega

/-- A register the client may not write, and a reserved offset, ignore the write. -/
theorem registerWrite_ignored (s : State) {off : Nat} (v : Word) (h : off ∉ [0x80, 0x84, 0x88, 0x8C]) :
    registerWrite off v s = .next s := by
  unfold registerWrite
  split
  case h_5 => rfl
  all_goals simp at h

/-- Settles O10: reads are `regRead` at the offset (`clientRead_register`), writes are `registerWrite` (`step_register`). -/
theorem registerMap : Obligations.RegisterMap := by
  intro s reg
  have hreg : ∀ off, off % 4 = 0 ∧ off < 0x100 → reg off = s.regRead off := fun off h => clientRead_register s h.1 h.2
  refine ⟨hreg _ (by decide), hreg _ (by decide), hreg _ (by decide), hreg _ (by decide), hreg _ (by decide),
    hreg _ (by decide), hreg _ (by decide), ?_, hreg _ (by decide), hreg _ (by decide), hreg _ (by decide), fun e => ?_,
    hreg _ (by decide), hreg _ (by decide), hreg _ (by decide), hreg _ (by decide), hreg _ (by decide), hreg _ (by decide),
    fun off h4 hoff => ?_, ?_⟩
  · exact (hreg _ (by decide)).trans (regRead_fault s)
  · exact (hreg _ (by omega)).trans (regRead_epctl s e)
  · exact (hreg off (by omega)).trans (regRead_reserved s hoff)
  · intro off v rest h4 hlt hr hi u
    rw [step_register hr hi h4 hlt]
    refine ⟨?_, ?_, ?_, ?_, fun hoff => registerWrite_ignored _ v hoff⟩
    · rintro rfl i hd
      exact issue_decoded (s := u) hd
    · rintro rfl
      rfl
    · rintro rfl
      rfl
    · rintro rfl
      rfl

end Sys2Proof.Machine
end


section
/-! `I.TOKDNE` of an entry that needs no receive (42_dispatcher.md R166), and the commands that build a node and queue it in one
(41_txqueue.md R142, R143). `NodeBuilt` is what building leaves of the state; appending then changes the queue and the node. -/

namespace Sys2Proof.Machine

/-- Settles O43: the entry's fields read back from its byte; with the peripheral quiet the stale slot is only read. -/
theorem tokenDoneTransmitOrStale : Obligations.TokenDoneTransmitOrStale := by
  intro s e x
  refine ⟨by simp [iTokdne], fun hq hown => ?_⟩
  have stale : receiveDone e x s = s := by
    rw [receiveDone, tick_quiet hq]
    exact if_pos hown
  simp [iTokdne, stale]

/-! ### Building a node, and appending it -/

/-- `u` is `s` with `n` as the node of `h`; the live blocks, memory and the draws are left open. -/
structure NodeBuilt (h : Word) (n : Node) (s u : State) : Prop where
  node : u.node? h = some n
  others : SameNodes h s u
  ep : u.ep = s.ep
  control : SameControl s u

/-- The node appended: the queue of `e` is longer by it, and it is QUEUED(e). -/
theorem NodeBuilt.append {h : Word} {n : Node} {s u : State} (hb : NodeBuilt h n s u) (e : EpId) :
    (appendNode e h u).endpoint e = { s.endpoint e with txq := (s.endpoint e).txq ++ [h] } ∧
      SameOthers e s (appendNode e h u) ∧ (appendNode e h u).node? h = some { n with st := .queued e } ∧
      SameNodes h s (appendNode e h u) ∧ SameControl s (appendNode e h u) := by
  obtain ⟨hnode, hothers, hep, hcontrol⟩ := hb
  have record : ∀ i, u.endpoint i = s.endpoint i := fun i => State.endpoint_congr hep i
  refine ⟨?_, fun i hi => ?_, ?_, fun i hi => ?_, hcontrol⟩
  · rw [← record]
    exact State.updEp_same _ _ _
  · rw [← record]
    exact State.updEp_other _ _ hi
  · rw [← State.node_of_node? hnode]
    exact State.putNode_node?_same _ _ _
  · rw [← hothers i hi]
    exact State.putNode_node?_ne _ _ _ _ hi

/-- Building a node of no bytes. -/
theorem prepNode_empty_built {s : State} {h : Word} (src : TxSource) (cb : Word) (ha : s.allocNode.1 = some h) :
    ∃ u, prepNode src 0#32 cb s = (some h, u) ∧
      NodeBuilt h { total := 0#32, cursor := 0#32, cb := cb, owns := false, buf := 0#32, st := .prepared } s u ∧
      u.pool.live = s.pool.live ∧ u.mem = s.mem := by
  obtain ⟨x, hi, hb, -, hx⟩ := allocNode_some ha
  rw [prepNode_empty src cb ha, hx, State.putNode_putNode]
  exact ⟨_, rfl, ⟨State.putNode_node?_same _ _ _, fun i hi => State.putNode_node?_ne _ _ _ _ hi, rfl,
    rfl, rfl, rfl, rfl, rfl, rfl, hi, hb⟩, rfl, rfl⟩

/-- The block drawn for a new node neither wraps nor meets the register block. -/
theorem drawnBlock_clear {s : State} (hp : Params.ok s.params) {h b len : Word} (ha : s.allocNode.1 = some h)
    (hb : (s.allocNode.2.alloc len).1 = some b) :
    b.toNat + len.toNat ≤ 2 ^ 32 ∧ ∀ i < len.toNat, inRegs s.params (b + BitVec.ofNat 32 i) = false := by
  obtain ⟨x, -, -, -, hx⟩ := allocNode_some ha
  obtain ⟨y, -, -, hg, -⟩ := alloc_some hb
  rw [hx] at hg
  obtain ⟨hw, hclear⟩ := granted_clear (s := (s.withEnv x).putNode h Node.blank) hp hg
  exact ⟨hw, fun i hi => (hclear i hi).1⟩

/-- Building a node of some bytes: memory is what filling its block leaves, from a state that differs in pool and draws. -/
theorem prepNode_data_built {s : State} (hq : Quiet s) (hm : MemInv s) (hp : Params.ok s.params) {src : TxSource}
    {h b len : Word} (hf : src.Fits len) (cb : Word) (hl : len ≠ 0#32) (ha : s.allocNode.1 = some h)
    (hb : (s.allocNode.2.alloc len).1 = some b) :
    ∃ x pool u, x.between = s.env.between ∧ prepNode src len cb s = (some h, u) ∧
      NodeBuilt h { total := len, cursor := 0#32, cb := cb, owns := true, buf := b, st := .prepared } s u ∧
      u.pool.live = insertBlock (b.toNat, len.toNat) s.pool.live ∧ SameMem (inRun b len.toNat) s u ∧
      u.mem = (fillFrom src len b ((s.withEnv x).withPool pool)).mem := by
  obtain ⟨hw, hclear⟩ := drawnBlock_clear hp ha hb
  obtain ⟨x, hxi, hxb, -, hx⟩ := allocNode_some ha
  obtain ⟨y, hyi, hyb, -, hy⟩ := alloc_some hb
  rw [prepNode_data src cb hl ha hb, hy]
  rw [hx] at hyi hyb ⊢
  have between : y.between = s.env.between := hyb.trans hxb
  generalize hpool : ({ ((s.withEnv x).putNode h Node.blank).pool with
    live := insertBlock (b.toNat, len.toNat) ((s.withEnv x).putNode h Node.blank).pool.live } : Pool) = pool
  have start : (((s.withEnv x).putNode h Node.blank).withEnv y).withPool pool = (s.withEnv y).withPool pool := rfl
  rw [start]
  obtain ⟨hsame, hshape⟩ := fillFrom_spec (s := (s.withEnv y).withPool pool) (between.trans hq) hm hf hw hclear
  have others : ∀ i, i ≠ h → ((s.withEnv y).withPool pool).node? i = s.node? i := by
    subst hpool
    exact fun i hi => State.putNode_node?_ne (s.withEnv x) h i Node.blank hi
  have live : pool.live = insertBlock (b.toNat, len.toNat) s.pool.live := by
    subst hpool
    rfl
  refine ⟨y, pool, _, between, rfl, ?_, ?_, hsame, rfl⟩
  · rw [hshape]
    exact ⟨State.putNode_node?_same _ _ _, fun i hi => (State.putNode_node?_ne _ _ _ _ hi).trans (others i hi), rfl,
      rfl, rfl, rfl, rfl, rfl, rfl, hyi.trans hxi, between⟩
  · rw [State.putNode_live, hshape]
    exact live

/-! ### `SEND` and `TRYSEND` -/

/-- `SEND`, and `TRYSEND` on an empty list, are the body of `SEND`, copying where `PREP` copies. -/
theorem exec_send_or_trysend {s : State} {e : EpId} {i : Instr}
    (hi : i = .send (epByte e) ∨ i = .trysend (epByte e) ∧ (s.endpoint e).txq = []) :
    ∃ copies run, exec i s = copyingCommand copies run s ∧ copies s = prepCopies s ∧ run s = send e s := by
  rcases hi with rfl | ⟨rfl, hempty⟩
  · exact ⟨_, _, exec_send s _, by simp [sendCopies], onEndpoint_some (epOfByte_epByte e) _ s⟩
  · refine ⟨_, _, exec_trysend s _, by simp [trysendCopies, hempty], ?_⟩
    rw [onEndpoint_some (epOfByte_epByte e), trysend, hempty]
    rfl

/-- Once its node is built, `SEND` appends it and answers `OK`. -/
theorem send_built {s u : State} {h : Word} (e : EpId)
    (hu : prepNode (.memory s.port.arg0) s.port.arg1 s.port.arg2 s = (some h, u)) :
    send e s = (appendNode e h u).setStatus statusOk := by
  rw [send, State.dataAddr, State.dataLen, State.dataCallback, hu]

/-- Settles O28: `send_built` on a node of no bytes (`prepNode_empty_built`) or of some (`prepNode_data_built`). -/
theorem sendQueuesNode : Obligations.SendQueuesNode := by
  intro s e i h hr ha hi
  obtain ⟨copies, run, hexec, hcopies, hrun⟩ := exec_send_or_trysend hi
  rw [hexec]
  refine ⟨fun hlen => ?_, fun b hlen hb => ⟨fun hd => ?_, fun hq hm hp hd => ?_⟩⟩
  case refine_1 =>
    have clear : ¬ DataMayBeWritten s := by
      rintro ⟨k, hk, -⟩
      rw [hlen] at hk
      exact absurd hk (Nat.not_lt_zero k)
    obtain ⟨u, hu, hbuilt, hlive, hmem⟩ := prepNode_empty_built (.memory s.port.arg0) s.port.arg2 ha
    obtain ⟨hqe, hqs, hn, hns, hparams, hport, hregs, hsess, htrace, hsie, hinbox, hbetween⟩ := hbuilt.append e
    rw [copyingCommand_ready run hr clear, hrun, send_built e (hlen ▸ hu)]
    exact ⟨_, rfl, ⟨hqe, hqs, hn, hns, hlive, hmem⟩, by rw [State.setStatus_port, hport]; rfl, hparams, hregs, hsess, htrace,
      hsie, hinbox, hbetween⟩
  case refine_2 =>
    refine copyingCommand_refused run hr ?_ hd
    simp [hcopies, prepCopies, ha, State.dataLen, hb]
  case refine_3 =>
    obtain ⟨x, pool, u, hx, hu, hbuilt, hlive, hsame, hmem⟩ :=
      prepNode_data_built hq hm hp (src := .memory s.port.arg0) trivial s.port.arg2 hlen ha hb
    obtain ⟨hqe, hqs, hn, hns, hparams, hport, hregs, hsess, htrace, hsie, hinbox, hbetween⟩ := hbuilt.append e
    obtain ⟨hw, hclear⟩ := drawnBlock_clear hp ha hb
    have copied : Copied s.port.arg0 b s.port.arg1.toNat s u := by
      rw [Copied, hmem]
      exact (copyBytes_spec s.port.arg1.toNat (s := (s.withEnv x).withPool pool) s.port.arg0 b (hx.trans hq) hm hw hclear).1
    rw [copyingCommand_ready run hr hd, hrun, send_built e hu]
    exact ⟨_, rfl, ⟨hqe, hqs, hn, hns, hlive, hsame⟩, copied, by rw [State.setStatus_port, hport]; rfl, hparams, hregs,
      hsess, htrace, hsie, hinbox, hbetween⟩

end Sys2Proof.Machine
end


section
/-! The endpoint commands that build nothing (40_registry.md R123, R124; 41_txqueue.md R140, R150): `QBUSY`, `CFGEP` with receive
disabled, and the commands whose allocation fails. -/

namespace Sys2Proof.Machine

/-! ### `QBUSY` -/

/-- With the peripheral quiet `QBUSY` only answers. -/
theorem qbusy_quiet {s : State} (hq : Quiet s) (e : EpId) :
    qbusy e s = s.withPort { s.port with ret := if (txInProgress e s).1 then 1#32 else 0#32, status := statusOk } := by
  unfold qbusy
  dsimp only
  rw [(txInProgress_quiet hq e).1]

/-- Settles O32: with the peripheral quiet the answer is `transmitting` (`txInProgress_quiet`). -/
theorem qbusyReportsTransmission : Obligations.QbusyReportsTransmission := by
  intro s ep hr
  rw [exec_qbusy, command_ready _ hr.1 hr.2]
  refine ⟨fun h => ?_, ?_⟩
  · rw [onEndpoint, epOfByte_none h]
    rfl
  · rintro e rfl hq
    obtain ⟨-, hiff⟩ := txInProgress_quiet hq e
    rw [onEndpoint_some (epOfByte_epByte e), qbusy_quiet hq]
    refine ⟨fun h => ?_, fun h => ?_⟩
    · rw [if_pos (hiff.mpr h)]
      rfl
    · rw [if_neg fun k => h (hiff.mp k)]
      rfl

/-! ### Failed allocations -/

/-- Step A whose pair cannot be allocated leaves nothing but the draw. -/
theorem cfgepStepA_fails {s : State} {e : EpId} {f : BitVec 3} {mps : BitVec 16} (hf : flagRx f = true)
    (hb : (s.endpoint e).rxbuf = none) (ha : (s.alloc (pairSize mps)).1 = none) :
    ∃ x : Env, x.inbox = s.env.inbox ∧ x.between = s.env.between ∧ cfgepStepA e mps f s = (false, s.withEnv x) := by
  obtain ⟨x, hi, hbt, hx | ⟨p, -, hx⟩⟩ := s.alloc_cases (pairSize mps)
  · refine ⟨x, hi, hbt, ?_⟩
    unfold cfgepStepA
    rw [hb, hf]
    dsimp only
    rw [hx]
  · rw [hx] at ha
    cases ha

/-- `PREP` copies no byte where an allocation fails. -/
theorem prepCopies_of_fails {s : State} (hf : AllocationFails s s.port.arg1) : prepCopies s = false := by
  rcases hf with hn | ⟨-, hb⟩
  · rw [prepCopies, hn]
    rfl
  · rw [prepCopies, State.dataLen, hb, Bool.and_comm]
    rfl

theorem prep_fails {s : State} (hf : AllocationFails s s.port.arg1) : ∃ x : Env,
    prep s = (s.withEnv x).setStatus errNomem ∧ x.inbox = s.env.inbox ∧ x.between = s.env.between := by
  obtain ⟨x, hx, hrest⟩ := prepNode_fails (.memory s.dataAddr) s.dataLen s.dataCallback hf
  exact ⟨x, by rw [prep, hx]; rfl, hrest⟩

theorem send_fails {s : State} (e : EpId) (hf : AllocationFails s s.port.arg1) : ∃ x : Env,
    send e s = (s.withEnv x).setStatus errNomem ∧ x.inbox = s.env.inbox ∧ x.between = s.env.between := by
  obtain ⟨x, hx, hrest⟩ := prepNode_fails (.memory s.dataAddr) s.dataLen s.dataCallback hf
  exact ⟨x, by rw [send, hx]; rfl, hrest⟩

/-- A copying command that copies nothing is its body. -/
theorem copyingCommand_idle {copies : State → Bool} {run : State → State} {s : State} (hr : Ready s)
    (hc : copies s = false) : copyingCommand copies run s = .next (run s) := by
  rw [copyingCommand_free run (by rw [hc]; rfl), command_ready run hr.1 hr.2]

/-- Settles O26: `cfgepStepA_fails` and `prepNode_fails` leave the draws alone, then the code is put in `STATUS`. -/
theorem allocationFailureLeavesNothing : Obligations.AllocationFailureLeavesNothing := by
  intro s e i mps hr hi
  suffices h : ∃ x : Env, exec i s = .next ((s.withEnv x).setStatus errNomem) ∧ x.inbox = s.env.inbox ∧
      x.between = s.env.between by
    obtain ⟨x, hx, hrest⟩ := h
    exact ⟨_, hx, rfl, hrest⟩
  rcases hi with ⟨rfl, hrx, hb, ha⟩ | ⟨hf, rfl | hsend⟩
  · obtain ⟨x, hi, hbt, hx⟩ := cfgepStepA_fails ((flagRx_cfgFlags s).trans hrx) hb ha
    refine ⟨x, ?_, hi, hbt⟩
    rw [exec_cfgep, command_ready _ hr.1 hr.2, onEndpoint_some (epOfByte_epByte e), cfgep]
    dsimp only
    rw [hx]
    rfl
  · obtain ⟨x, hx, hrest⟩ := prep_fails hf
    exact ⟨x, by rw [exec_prep, copyingCommand_idle hr (prepCopies_of_fails hf), hx], hrest⟩
  · obtain ⟨copies, run, hexec, hcopies, hrun⟩ := exec_send_or_trysend hsend
    obtain ⟨x, hx, hrest⟩ := send_fails e hf
    exact ⟨x, by rw [hexec, copyingCommand_idle hr (hcopies.trans (prepCopies_of_fails hf)), hrun, hx], hrest⟩

/-! ### `CFGEP` with receive disabled -/

/-- What step A with receive disabled leaves of `s`: the record has no pair; nothing else has changed where there was none, and
where there was one, `RXEN`, both receive control words and the live blocks have. -/
structure ReceiveGone (e : EpId) (s u : State) : Prop where
  record : u.endpoint e = { s.endpoint e with rxbuf := none }
  others : SameOthers e s u
  regs : ∀ v, u.regs.setEpc e v = s.regs.setEpc e v
  sending : ∀ x, u.bdOwn e .tx x = s.bdOwn e .tx x
  wf : MemInv u
  rest : u.params = s.params ∧ u.port = s.port ∧ u.sess = s.sess ∧ u.trace = s.trace ∧ u.sie = s.sie ∧ u.env = s.env ∧
    u.pool.nodes = s.pool.nodes
  none : (s.endpoint e).rxbuf = none → u.mem = s.mem ∧ u.pool.live = s.pool.live
  some : ∀ b0 b1, (s.endpoint e).rxbuf = some (b0, b1) → u.bdCtl e .rx .even = 0#32 ∧ u.bdCtl e .rx .odd = 0#32 ∧
    u.pool.live = s.pool.live.erase (pairBlock (b0, b1)) ∧
    SameMem (fun a => inCtl s.params e .rx .even a ∨ inCtl s.params e .rx .odd a) s u

theorem cfgepStepA_noReceive {s : State} (hq : Quiet s) (hm : MemInv s) {e : EpId} {f : BitVec 3} (mps : BitVec 16)
    (hf : flagRx f = false) : ∃ u, cfgepStepA e mps f s = (true, u) ∧ ReceiveGone e s u := by
  cases hb : (s.endpoint e).rxbuf with
  | none =>
    refine ⟨s, cfgepStepA_no_pair mps hf hb, ?_⟩
    exact {
      record := by rw [← hb]
      others := fun _ _ => rfl
      regs := fun _ => rfl
      sending := fun _ => rfl
      wf := hm
      rest := ⟨rfl, rfl, rfl, rfl, rfl, rfl, rfl⟩
      none := fun _ => ⟨rfl, rfl⟩
      some := by simp [hb] }
  | some b =>
    obtain ⟨b0, b1⟩ := b
    obtain ⟨even, odd, tx, same⟩ := quitRx_mem hm e
    refine ⟨_, cfgepStepA_drop_pair hq mps hf hb, ?_⟩
    exact {
      record := State.updEp_same _ _ _
      others := fun i hi => State.updEp_other _ _ hi
      regs := Regs.setEpc_setEpc s.regs e _
      sending := fun x => congrArg ctlOwn (tx x)
      wf := State.wf_setBdCtl _ _ _ _ _ (State.wf_setBdCtl _ _ _ _ _ hm)
      rest := ⟨rfl, rfl, rfl, rfl, rfl, rfl, rfl⟩
      none := by simp [hb]
      some := fun c0 c1 hc => by
        cases hb.symm.trans hc
        exact ⟨even, odd, rfl, same⟩ }

/-- Settles O21: step A drops the pair (`cfgepStepA_noReceive`), and step B with receive disabled writes no memory. -/
theorem cfgepWithoutReceive : Obligations.CfgepWithoutReceive := by
  intro s e mps hr hq hm hrx hno
  have off : flagRx s.cfgFlags = false := (flagRx_cfgFlags s).trans hrx
  obtain ⟨u, hA, gone⟩ := cfgepStepA_noReceive hq hm mps off
  obtain ⟨hparams, hport, hsess, htrace, hsie, henv, hnodes⟩ := gone.rest
  rw [exec_cfgep_stepA hr hA]
  have uq : Quiet (u.latched (cfgLatch s e mps)) := by
    show u.env.between = []
    rw [henv]
    exact hq
  have goes : ¬ MustHold (cfgLatch s e mps) (u.latched (cfgLatch s e mps)) := by
    rintro ⟨htx, hoff, hbusy⟩
    have htx : flagTx (u.endpoint e).flags = true := htx
    rw [gone.record] at htx
    exact hno ⟨htx, (flagTx_cfgFlags s).symm.trans hoff,
      (transmitting_congr (t := u) (by rw [gone.record]) gone.sending).mp hbusy⟩
  rw [cfgepContinue_goes uq goes]
  obtain ⟨m, hB, hmem, -⟩ := cfgepStepB_spec uq gone.wf (cfgLatch s e mps)
  obtain rfl : m = u.mem := hmem off
  rw [hB]
  refine ⟨_, rfl, ?_, fun i hi => ((u.latched _).configured_others _ _ i hi).trans (gone.others i hi), gone.regs _, ?_,
    hparams, hsess, htrace, hsie, henv, hnodes, gone.none, gone.some⟩
  · refine (State.configured_endpoint _ (cfgLatch s e mps) u.mem).trans ?_
    rw [show (u.latched (cfgLatch s e mps)).endpoint (cfgLatch s e mps).id = u.endpoint e from rfl, gone.record]
    rfl
  · refine Eq.trans ?_ (port_unlatched hr.2 statusOk)
    rw [← hport]
    rfl

end Sys2Proof.Machine
end


section
/-! `I.RESET` whatever the peripheral does meanwhile (40_registry.md R125; 42_dispatcher.md R163): what completing a queue
raises and frees, what the loop of `RESETALL` leaves, and what can follow it on endpoint 0. -/

namespace Sys2Proof.Machine

/-! ### Completing a queue -/

/-- The event that completing `h` in the queue of `e` raises, if its callback is set (41_txqueue.md R145). -/
def completionOf (s : State) (e : EpId) (h : Word) : Option Event :=
  if (s.node h).cb = 0#32 then none else some (.complete e (s.node h).cb)

theorem complete_evt (e : EpId) (h : Word) (s : State) :
    (complete e h s).trace.evt = s.trace.evt ++ (completionOf s e h).toList := by
  unfold complete completionOf
  by_cases hc : (s.node h).cb = 0#32
  · simp only [hc, if_true, Option.toList_none, List.append_nil]
    split <;> rfl
  · simp only [hc, if_false, Option.toList_some]
    split <;> rfl

theorem complete_nodes (e : EpId) (h : Word) (s : State) :
    (complete e h s).pool.nodes = eraseKey h.toNat s.pool.nodes := by
  unfold complete
  dsimp only
  split <;> split <;> rfl

/-- Completing nodes one after another raises the event of each, as the nodes stood at the start. -/
theorem completeAll_evt (e : EpId) : ∀ (l : List Word) {s : State}, l.Nodup →
    (l.foldl (fun t h => complete e h t) s).trace.evt = s.trace.evt ++ l.filterMap (completionOf s e)
  | [], _, _ => by simp
  | h :: rest, s, hn => by
    obtain ⟨hh, hrest⟩ := List.nodup_cons.mp hn
    have same : ∀ k ∈ rest, completionOf (complete e h s) e k = completionOf s e k := fun k hk => by
      unfold completionOf
      rw [complete_node_ne e s (by rintro rfl; exact hh hk)]
    rw [List.foldl_cons, completeAll_evt e rest hrest, complete_evt, List.filterMap_congr same, List.append_assoc,
      List.filterMap_cons]
    cases completionOf s e h <;> rfl

theorem completeAll_keysRise (e : EpId) : ∀ (l : List Word) {s : State}, KeysRise s.pool.nodes →
    KeysRise (l.foldl (fun t h => complete e h t) s).pool.nodes
  | [], _, hk => hk
  | h :: rest, s, hk => completeAll_keysRise e rest (by rw [complete_nodes]; exact hk.eraseKey)

/-- Completing nodes one after another frees each of them. -/
theorem completeAll_node?_mem (e : EpId) : ∀ (l : List Word) {s : State}, KeysRise s.pool.nodes → ∀ k ∈ l,
    (l.foldl (fun t h => complete e h t) s).node? k = none
  | h :: rest, s, hr, k, hk => by
    rw [List.foldl_cons]
    by_cases hrest : k ∈ rest
    · exact completeAll_node?_mem e rest (by rw [complete_nodes]; exact hr.eraseKey) k hrest
    · obtain rfl : k = h := (List.mem_cons.mp hk).resolve_right hrest
      rw [completeAll_node?_ne e rest _ k hrest, State.node?, complete_nodes]
      exact lookupKey_eraseKey_same _ hr

theorem cancelQueue_evt {s : State} (e : EpId) (hn : (s.endpoint e).txq.Nodup) :
    (cancelQueue e s).trace.evt = s.trace.evt ++ completions s e := completeAll_evt e _ hn

/-- `CANCELQ` frees the nodes of the queue and no other. -/
theorem cancelQueue_node? {s : State} (e : EpId) (hr : KeysRise s.pool.nodes) (k : Word) :
    (cancelQueue e s).node? k = if k ∈ (s.endpoint e).txq then none else s.node? k := by
  split
  · rename_i hk
    exact completeAll_node?_mem e _ hr k hk
  · rename_i hk
    exact completeAll_node?_ne e _ s k hk

theorem cancelQueue_endpoint (e i : EpId) (s : State) :
    (cancelQueue e s).endpoint i = if i = e then { s.endpoint e with txq := [] } else s.endpoint i := by
  obtain ⟨ev, pool, hs⟩ := cancelQueue_shape e s
  rw [hs, State.updEp_endpoint]
  rfl

/-! ### A loop over endpoints -/

/-- A relation between a state and the endpoints that have had their turn, kept by each turn, holds after the loop. -/
theorem foldl_turns {R : List EpId → State → Prop} {f : EpId → State → State}
    (turn : ∀ l e u, e ∉ l → R l u → R (l ++ [e]) (f e u)) : ∀ (r l : List EpId) {u : State}, (l ++ r).Nodup → R l u →
    R (l ++ r) (r.foldl (fun t e => f e t) u)
  | [], l, u, _, h => by simpa using h
  | e :: r, l, u, hn, h => by
    have he : e ∉ l := fun k => List.disjoint_of_nodup_append hn k (List.mem_cons_self ..)
    simpa using foldl_turns turn r (l ++ [e]) (by simpa using hn) (turn l e u he h)

/-! ### The loop of `RESETALL`, whatever the peripheral does -/

/-- The loop of `RESETALL` (40_registry.md R125). -/
def resetLoop (s : State) : State := epIds.foldl (fun t e => resetEndpoint e t) s

/-- The queues of the endpoints `l` are cancelled, `s` the state before: their events are raised, their nodes are FREE, their
records have toggle and parity cleared, and the other records and nodes are as they were. -/
structure Cancelled (s : State) (l : List EpId) (u : State) : Prop where
  keys : KeysRise u.pool.nodes
  evt : u.trace.evt = s.trace.evt ++ l.flatMap (completions s)
  record : ∀ e ∈ l, u.endpoint e = { s.endpoint e with txq := [], txtoggle := false, txodd := .even }
  rest : ∀ e, e ∉ l → u.endpoint e = s.endpoint e
  gone : ∀ e ∈ l, ∀ k ∈ (s.endpoint e).txq, u.node? k = none
  node : ∀ k, (∀ e ∈ l, k ∉ (s.endpoint e).txq) → u.node? k = s.node? k

theorem cancelled_nil {s : State} (hr : KeysRise s.pool.nodes) : Cancelled s [] s where
  keys := hr
  evt := by simp
  record := by simp
  rest _ _ := rfl
  gone := by simp
  node _ _ := rfl

/-- No node is in two queues. -/
theorem QueueInv.disjoint {s : State} (hi : QueueInv s) {e i : EpId} (h : e ≠ i) {k : Word}
    (hk : k ∈ (s.endpoint e).txq) : k ∉ (s.endpoint i).txq := by
  intro hk'
  have hst := (hi.2.2.1 e).2 k hk
  rw [(hi.2.2.1 i).2 k hk'] at hst
  exact h (by simpa using hst.symm)

/-- After `CANCELQ` a turn of the loop changes `EPCTL`, descriptors, toggle and parity alone. -/
theorem resetEndpoint_private (e : EpId) (s : State) : ∃ w, Private (cancelQueue e s) w ∧
    resetEndpoint e s = w.updEp e fun r => { r with txtoggle := false, txodd := .even } :=
  ⟨_, (setEpctl_private e 0#4 _).trans ((reclaimBd_untouched e .rx .even _).trans ((reclaimBd_untouched e .rx .odd _).trans
    ((reclaimBd_untouched e .tx .even _).trans (reclaimBd_untouched e .tx .odd _)))).toPrivate, rfl⟩

theorem Cancelled.turn {s u : State} {l : List EpId} (hi : QueueInv s) (e : EpId) (he : e ∉ l) (c : Cancelled s l u) :
    Cancelled s (l ++ [e]) (resetEndpoint e u) := by
  obtain ⟨w, hw, hturn⟩ := resetEndpoint_private e u
  have own : (u.endpoint e).txq = (s.endpoint e).txq := by rw [c.rest e he]
  have nodes : ∀ k, (resetEndpoint e u).node? k = if k ∈ (s.endpoint e).txq then none else u.node? k := by
    intro k
    rw [hturn, ← own, ← cancelQueue_node? e c.keys]
    exact hw.node? k
  have records : ∀ i, (resetEndpoint e u).endpoint i =
      if i = e then { s.endpoint e with txq := [], txtoggle := false, txodd := .even } else u.endpoint i := by
    intro i
    rw [hturn, State.updEp_endpoint, hw.endpoint, hw.endpoint, cancelQueue_endpoint, cancelQueue_endpoint,
      if_pos (rfl : e = e), c.rest e he]
    split <;> rfl
  have events : completions u e = completions s e := by
    unfold completions
    rw [own]
    refine List.filterMap_congr fun k hk => ?_
    rw [show u.node k = s.node k by
      unfold State.node
      rw [c.node k fun i hil => hi.disjoint (by rintro rfl; exact he hil) hk]]
  constructor
  case keys =>
    rw [hturn, State.updEp_pool, hw.pool]
    exact completeAll_keysRise e _ c.keys
  case evt =>
    rw [hturn, State.updEp_trace, hw.evt, cancelQueue_evt e (own ▸ (hi.2.2.1 e).1), c.evt, events]
    simp
  case record =>
    intro i hil
    rw [records i]
    split
    · rename_i h
      rw [h]
    · rename_i h
      exact c.record i (by simpa [h] using hil)
  case rest =>
    intro i hil
    rw [List.mem_append, List.mem_singleton, not_or] at hil
    rw [records i, if_neg hil.2, c.rest i hil.1]
  case gone =>
    intro i hil k hk
    rw [nodes k]
    split
    · rfl
    · rename_i h
      refine c.gone i ?_ k hk
      rcases List.mem_append.mp hil with hil | hil
      · exact hil
      · rw [List.mem_singleton.mp hil] at hk
        exact absurd hk h
  case node =>
    intro k hk
    rw [nodes k, if_neg (hk e (by simp))]
    exact c.node k fun i hil => hk i (by simp [hil])

theorem cancelled_all {s : State} (hi : QueueInv s) : Cancelled s epIds (resetLoop s) :=
  foldl_turns (R := Cancelled s) (fun _ e _ he c => c.turn hi e he) epIds [] (by decide) (cancelled_nil hi.1)

/-! ### Endpoint 0 after the loop -/

/-- After the loop of `RESETALL`: endpoint 0 is re-established with the pair it has, or with a new one; where the pair cannot be
allocated only `FAULT.ISRALLOC` is set. -/
theorem resetAll_cases (s : State) :
    ((∃ b, ((resetLoop s).endpoint 0).rxbuf = some b) ∧ resetAll s = establishControl (resetLoop s)) ∨
    (((resetLoop s).endpoint 0).rxbuf = none ∧ ∃ x : Env, x.between = (resetLoop s).env.between ∧
      (((resetLoop s).alloc (pairSize (resetLoop s).params.ep0Size)).1 = none ∧
          resetAll s = ((resetLoop s).withEnv x).withSess { (resetLoop s).sess with isrAlloc := true } ∨
        ∃ p, ((resetLoop s).alloc (pairSize (resetLoop s).params.ep0Size)).1 = some p ∧
          resetAll s = establishControl ((((resetLoop s).withEnv x).withPool { (resetLoop s).pool with
            live := insertBlock (p.toNat, (pairSize (resetLoop s).params.ep0Size).toNat) (resetLoop s).pool.live }).setPair 0 p
              (resetLoop s).params.ep0Size))) := by
  unfold resetAll
  dsimp only
  rw [show epIds.foldl (fun t e => resetEndpoint e t) s = resetLoop s from rfl]
  generalize resetLoop s = v
  cases hb : (v.endpoint 0).rxbuf with
  | some b => exact .inl ⟨⟨b, rfl⟩, rfl⟩
  | none =>
    obtain ⟨x, -, hxb, ha | ⟨p, -, ha⟩⟩ := v.alloc_cases (pairSize v.params.ep0Size)
    · exact .inr ⟨rfl, x, hxb, .inl ⟨by rw [ha], by rw [ha]; rfl⟩⟩
    · exact .inr ⟨rfl, x, hxb, .inr ⟨p, by rw [ha], by rw [ha]; rfl⟩⟩

/-- Re-establishing endpoint 0 changes its record, and beyond it what the peripheral may change and `EPCTL`. -/
theorem establishControl_private (s : State) : Private
    (s.updEp 0 fun r => { r with maxpkt := s.params.ep0Size, flags := 0b111#3, rxcb := cbEp0 }) (establishControl s) :=
  (armRx_untouched 0 _).toPrivate.trans (setEpctl_private 0 0x7#4 _)

/-- The registers that `I.RESET` sets once `RESETALL` is done (42_dispatcher.md R163). -/
def State.unaddressed (s : State) : State :=
  (s.withRegs { s.regs with addr := 0#7, inten := 0xFF#8 }).withSess { s.sess with config := 0#8 }

theorem iReset_eq (s : State) : iReset s = releaseHold (resetAll s).unaddressed := by
  unfold iReset
  generalize resetAll s = u
  rfl

theorem releaseHold_private (s : State) : Private s (releaseHold s) := by
  have write : ∀ (u : State) (v : BitVec 2), Private u (u.withRegs (u.regs.writeCtl v)) := by
    intro u v
    unfold Regs.writeCtl
    split <;> exact ⟨rfl, rfl, rfl, rfl, rfl, rfl, rfl, rfl, rfl, rfl, rfl, rfl⟩
  exact ((tick_untouched s).trans (tick_untouched _)).toPrivate.trans (write _ _)

/-! ### Every transmission cancelled -/

/-- What a bus reset leaves of `s`, whatever the peripheral does: no queue, the completions raised, the PREPARED nodes, and the
records of endpoints 1 and up. -/
structure AllCancelled (s t : State) : Prop where
  queue : ∀ e, (t.endpoint e).txq = []
  evt : t.trace.evt = s.trace.evt ++ epIds.flatMap (completions s)
  prepared : ∀ (h : Word) (n : Node), t.node? h = some n ↔ s.node? h = some n ∧ n.st = .prepared
  others : ∀ e, e ≠ 0 → t.endpoint e = { s.endpoint e with txq := [], txtoggle := false, txodd := .even }

/-- `AllCancelled` depends on the events, the nodes and the records alone, of endpoint 0 on the queue alone. -/
theorem AllCancelled.congr {s t u : State} (h : AllCancelled s t) (hevt : u.trace.evt = t.trace.evt)
    (hnodes : u.pool.nodes = t.pool.nodes) (hzero : (u.endpoint 0).txq = (t.endpoint 0).txq)
    (hothers : ∀ e, e ≠ 0 → u.endpoint e = t.endpoint e) : AllCancelled s u where
  queue e := by
    by_cases he : e = 0
    · rw [he, hzero]
      exact h.queue 0
    · rw [hothers e he]
      exact h.queue e
  evt := hevt.trans h.evt
  prepared k n := by
    rw [State.node?, hnodes]
    exact h.prepared k n
  others e he := (hothers e he).trans (h.others e he)

theorem AllCancelled.ofPrivate {s t u : State} (h : AllCancelled s t) (k : Private t u) : AllCancelled s u :=
  h.congr k.evt (by rw [k.pool]) (by rw [k.endpoint]) fun e _ => k.endpoint e

theorem AllCancelled.establishControl {s t : State} (h : AllCancelled s t) : AllCancelled s (establishControl t) :=
  (h.congr (u := t.updEp 0 fun r => { r with maxpkt := t.params.ep0Size, flags := 0b111#3, rxcb := cbEp0 }) rfl rfl
    (by rw [State.updEp_same]) fun _ he => State.updEp_other _ _ he).ofPrivate (establishControl_private t)

/-- With every queue cancelled the nodes that are left are those that were PREPARED. -/
theorem Cancelled.all {s u : State} (hi : QueueInv s) (c : Cancelled s epIds u) : AllCancelled s u where
  queue e := by rw [c.record e (mem_epIds e)]
  evt := c.evt
  others e _ := c.record e (mem_epIds e)
  prepared k n := by
    by_cases hk : ∃ e, k ∈ (s.endpoint e).txq
    · obtain ⟨e, hk⟩ := hk
      have hst := (hi.2.2.1 e).2 k hk
      rw [c.gone e (mem_epIds e) k hk]
      refine ⟨by simp, fun ⟨hn, hp⟩ => ?_⟩
      rw [hn] at hst
      simp [hp] at hst
    · have free : ∀ e, k ∉ (s.endpoint e).txq := fun e h => hk ⟨e, h⟩
      rw [c.node k fun e _ => free e]
      refine ⟨fun hn => ⟨hn, ?_⟩, fun h => h.1⟩
      cases hst : n.st with
      | prepared => rfl
      | queued e =>
        have := hi.2.2.2 _ (mem_nodes_of_node? hn) e hst
        rw [BitVec.ofNat_toNat, BitVec.setWidth_eq] at this
        exact absurd this (free e)

theorem resetAll_allCancelled {s : State} (hi : QueueInv s) : AllCancelled s (resetAll s) := by
  have h := (cancelled_all hi).all hi
  have hcases := resetAll_cases s
  generalize resetLoop s = v at h hcases
  rcases hcases with ⟨-, hs⟩ | ⟨-, x, -, ⟨-, hs⟩ | ⟨p, -, hs⟩⟩ <;> rw [hs]
  · exact h.establishControl
  · exact h.congr rfl rfl rfl fun _ _ => rfl
  · refine AllCancelled.establishControl (h.congr rfl rfl ?_ fun e he => State.updEp_other _ _ he)
    rw [State.setPair, State.updEp_same]
    rfl

/-- Settles O40: the loop cancels every queue (`cancelled_all`), and nothing after it touches nodes, events or other records. -/
theorem busResetCancelsAll : Obligations.BusResetCancelsAll := by
  intro s hi
  have h : AllCancelled s (iReset s) := by
    have reset := resetAll_allCancelled hi
    rw [iReset_eq]
    generalize resetAll s = u at reset ⊢
    have set : AllCancelled s u.unaddressed := reset.congr rfl rfl rfl fun _ _ => rfl
    exact set.ofPrivate (releaseHold_private _)
  exact ⟨_, exec_iReset s, h.queue, h.evt, h.prepared, h.others⟩

end Sys2Proof.Machine
end


section
/-! The state a bus reset leaves where the peripheral is quiet (70_reset_and_hazards.md R252): what is the same whether endpoint 0 is
re-established or not (`ResetLeft`), and endpoint 0 in each of the three cases of `resetAll_cases`. -/

namespace Sys2Proof.Machine

/-- What `RESETALL` leaves of `s` but for the record, the enables and the receive descriptors of endpoint 0, `FAULT` and the pool. -/
structure ResetLeft (s u : State) : Prop where
  regs : u.regs = { s.regs with epctl := u.regs.epctl }
  sess : u.sess = { s.sess with isrAlloc := u.sess.isrAlloc }
  port : u.port = s.port
  sie : u.sie = s.sie
  wire : u.trace.wire = s.trace.wire
  queue : ∀ e, (u.endpoint e).txq = [] ∧ (u.endpoint e).txtoggle = false ∧ (u.endpoint e).txodd = .even
  tx : ∀ e x, u.bdCtl e .tx x = 0#32 ∧ u.bdBuf e .tx x = s.bdBuf e .tx x
  epc : ∀ e, e ≠ 0 → u.regs.epc e = 0#4
  rx : ∀ e, e ≠ 0 → ∀ x, u.bdCtl e .rx x = 0#32 ∧ u.bdBuf e .rx x = s.bdBuf e .rx x
  same : SameMem (fun a => inTable s.params a = true) s u

theorem ResetLeft.pending {s u : State} (h : ResetLeft s u) (x : Source) : u.regs.pending x = s.regs.pending x := by
  rw [h.regs]
  rfl

theorem Cleared.left {s v : State} (c : Cleared s epIds v) : ResetLeft s v where
  regs := c.regs
  sess := by rw [c.sess]
  port := c.port
  sie := c.sie
  wire := c.wire
  queue e := by rw [c.record e (mem_epIds e)]; exact ⟨rfl, rfl, rfl⟩
  tx e x := ⟨c.ctl e (mem_epIds e) .tx x, c.buf e .tx x⟩
  epc e _ := c.epc e (mem_epIds e)
  rx e _ x := ⟨c.ctl e (mem_epIds e) .rx x, c.buf e .rx x⟩
  same := c.same

/-- Endpoint 0 re-established on the pair in its record. -/
theorem ResetLeft.established {s w : State} (h : ResetLeft s w) (hp : w.params = s.params) (hq : Quiet w) (hm : MemInv w)
    {b0 b1 : Word} (hs : w.sess = s.sess)
    (hr : w.endpoint 0 = { s.endpoint 0 with rxbuf := some (b0, b1), txq := [], txtoggle := false, txodd := .even }) :
    ResetLeft s (establishControl w) ∧ ControlEstablished b0 b1 s (establishControl w) ∧
      (establishControl w).pool = w.pool := by
  obtain ⟨m, hshape, c1, f1, c2, f2, hother, hsame⟩ := establishControl_spec hq hm (b0 := b0) (b1 := b1) (by rw [hr])
  rw [hshape]
  generalize hw : w.updEp 0 (fun r => { r with maxpkt := w.params.ep0Size, flags := 0b111#3, rxcb := cbEp0 }) = w'
  have others : ∀ i, i ≠ 0 → w'.endpoint i = w.endpoint i := fun i hi => by rw [← hw, State.updEp_other _ _ hi]
  have zero : w'.endpoint 0 = { w.endpoint 0 with maxpkt := s.params.ep0Size, flags := 0b111#3, rxcb := cbEp0 } := by
    rw [← hw, State.updEp_same, hp]
  refine ⟨?_, ?_, by rw [← hw]; rfl⟩
  · constructor
    case regs =>
      show w.regs.setEpc 0 0x7#4 = { s.regs with epctl := (w.regs.setEpc 0 0x7#4).epctl }
      rw [h.regs]
      rfl
    case sess => rw [← hw]; exact h.sess
    case port => rw [← hw]; exact h.port
    case sie => rw [← hw]; exact h.sie
    case wire => rw [← hw]; exact h.wire
    case queue =>
      intro e
      show (w'.endpoint e).txq = [] ∧ (w'.endpoint e).txtoggle = false ∧ (w'.endpoint e).txodd = .even
      by_cases he : e = 0
      · subst he
        rw [zero, hr]
        exact ⟨rfl, rfl, rfl⟩
      · rw [others e he]
        exact h.queue e
    case tx =>
      intro e x
      subst hw
      obtain ⟨hctl, hbuf⟩ := hother e .tx x (by simp)
      exact ⟨hctl.trans (h.tx e x).1, hbuf.trans (h.tx e x).2⟩
    case epc =>
      intro e he
      show (w.regs.setEpc 0 0x7#4).epc e = 0#4
      rw [Regs.setEpc_epc, if_neg he]
      exact h.epc e he
    case rx =>
      intro e he x
      subst hw
      obtain ⟨hctl, hbuf⟩ := hother e .rx x (by simp [he])
      exact ⟨hctl.trans (h.rx e he x).1, hbuf.trans (h.rx e he x).2⟩
    case same =>
      intro a ha
      refine (hsame a ?_).trans (h.same a ha)
      rw [hp]
      rintro (k | k)
      · exact ha (inTable_of_inBd k)
      · exact ha (inTable_of_inBd k)
  · rw [hp] at c1 c2
    subst hw
    refine ⟨?_, ?_, ?_, c1, f1, c2, f2⟩
    · refine zero.trans ?_
      rw [hr]
      rfl
    · rw [← hs]
      rfl
    · show (w.regs.setEpc 0 0x7#4).epc 0 = 0x7#4
      rw [Regs.setEpc_epc, if_pos rfl]

/-- `Alloc(n)` answers by the parameters, the draws and the live blocks alone. -/
theorem alloc_answer_congr {s t : State} (hp : t.params = s.params) (he : t.env = s.env)
    (hl : t.pool.live = s.pool.live) (n : Word) : (t.alloc n).1 = (s.alloc n).1 := by
  have draw : t.drawBlock.1 = s.drawBlock.1 := by
    unfold State.drawBlock
    rw [he]
    split <;> rfl
  rw [State.alloc_fst, State.alloc_fst, draw]
  unfold State.blockGrantable
  rw [hp, hl]

theorem pairSize_toNat (mps : BitVec 16) : (pairSize mps).toNat = 2 * mps.toNat := by
  have := mps.isLt
  rw [pairSize, BitVec.toNat_ofNat, Nat.mod_eq_of_lt (by omega)]

/-- With no bus reset pending the release of `HOLD` is not ignored (10_state.md R28). -/
theorem releaseHold_released {s : State} (hq : Quiet s) (hp : s.regs.pending .usbrst = false) :
    releaseHold s = s.withRegs { s.regs with ctl := s.regs.ctl &&& ~~~holdMask } := by
  rw [releaseHold_quiet hq, Regs.writeCtl, show s.regs.istat.getLsbD 0 = false from hp]
  rfl

/-- What the oracle answers to the `Alloc(2 * EP0_SIZE)` of `RESETALL`, once the blocks of the cancelled queues are free. -/
def controlAnswer (s : State) (live : List (Nat × Nat)) : Option Word :=
  ((s.withPool { s.pool with live := live }).alloc (BitVec.ofNat 32 (2 * s.params.ep0Size.toNat))).1

/-- Endpoint 0 after a bus reset, `live` the blocks left by the cancelled queues: established on the pair it had or on a new one,
or disabled where none could be allocated (40_registry.md R125). -/
def ControlReset (s : State) (live : List (Nat × Nat)) (u : State) : Prop :=
  (∀ b0 b1, (s.endpoint 0).rxbuf = some (b0, b1) → ControlEstablished b0 b1 s u ∧ u.pool.live = live) ∧
  ((s.endpoint 0).rxbuf = none →
    (controlAnswer s live = none → ControlDisabled s u ∧ u.pool.live = live) ∧
    ∀ b0, controlAnswer s live = some b0 → ControlEstablished b0 (b0 + s.params.ep0Size.setWidth 32) s u ∧
      u.pool.live = insertBlock (b0.toNat, 2 * s.params.ep0Size.toNat) live)

/-- A new pair of endpoint 0 leaves the rest. -/
theorem ResetLeft.newPair {s v : State} (h : ResetLeft s v) (x : Env) (pool : Pool) (p : Word) (mps : BitVec 16) :
    ResetLeft s (((v.withEnv x).withPool pool).setPair 0 p mps) := by
  refine { h with queue := fun e => ?_ }
  rw [State.setPair, State.updEp_endpoint]
  split
  · exact h.queue 0
  · exact h.queue e

/-- `RESETALL` with the peripheral quiet, in the three cases of `resetAll_cases`. -/
theorem resetAll_quiet {s : State} (hq : Quiet s) (hm : MemInv s) : ResetLeft s (resetAll s) ∧
    ∃ live, (QueueInv s → live = freed (epIds.flatMap (queueBlocks s)) s.pool.live) ∧ ControlReset s live (resetAll s) := by
  have c : Cleared s epIds (resetLoop s) := cleared_all hq hm
  have hcases := resetAll_cases s
  generalize resetLoop s = v at c hcases
  have zero := c.record 0 (mem_epIds 0)
  have pair : (v.endpoint 0).rxbuf = (s.endpoint 0).rxbuf := by rw [zero]
  have answer : controlAnswer s v.pool.live = (v.alloc (pairSize v.params.ep0Size)).1 := by
    rw [c.params]
    exact (alloc_answer_congr (s := s.withPool { s.pool with live := v.pool.live }) c.params c.env rfl _).symm
  rw [pair] at hcases
  suffices h : ResetLeft s (resetAll s) ∧ ControlReset s v.pool.live (resetAll s) from
    ⟨h.1, v.pool.live, c.live, h.2⟩
  unfold ControlReset
  rcases hcases with ⟨⟨⟨b0, b1⟩, hb⟩, hs⟩ | ⟨hb, x, hx, ⟨ha, hs⟩ | ⟨p, ha, hs⟩⟩ <;> rw [hs, hb]
  case inl =>
    obtain ⟨left, est, pool⟩ := c.left.established c.params c.quiet c.wf (b0 := b0) (b1 := b1) c.sess
      (by rw [zero, ← hb])
    refine ⟨left, ?_, by simp⟩
    rintro c0 c1 ⟨⟩
    exact ⟨est, by rw [pool]⟩
  case inr.inl =>
    refine ⟨?_, by simp, fun _ => ⟨fun _ => ⟨?_, rfl⟩, by simp [answer, ha]⟩⟩
    · exact { c.left with sess := by rw [State.withSess_sess, c.sess] }
    · exact ⟨zero, rfl, c.epc 0 (mem_epIds 0), fun y => ⟨c.ctl 0 (mem_epIds 0) .rx y, c.buf 0 .rx y⟩⟩
  case inr.inr =>
    rw [c.params, pairSize_toNat]
    obtain ⟨left, est, pool⟩ := (c.left.newPair x { v.pool with
      live := insertBlock (p.toNat, 2 * s.params.ep0Size.toNat) v.pool.live } p s.params.ep0Size).established c.params
      (hx.trans c.quiet) c.wf (b0 := p) (b1 := secondHalf p s.params.ep0Size) c.sess (by
        rw [State.setPair, State.updEp_same, State.withPool_endpoint, State.withEnv_endpoint, zero])
    refine ⟨left, by simp, fun _ => ⟨by simp [answer, ha], fun b0 hb0 => ?_⟩⟩
    obtain rfl : p = b0 := Option.some.inj (ha.symm.trans (answer.symm.trans hb0))
    exact ⟨est, by rw [pool]; rfl⟩

/-- The registers of a served bus reset: the release of `HOLD` is not ignored, since no further one is pending. -/
theorem iReset_quiet {s : State} (hq : Quiet s) (hp : (resetAll s).regs.pending .usbrst = false) :
    iReset s = (resetAll s).unaddressed.withRegs
      { (resetAll s).unaddressed.regs with ctl := (resetAll s).regs.ctl &&& ~~~holdMask } := by
  have uq := resetAll_keeps quiet_closed.toStable hq
  rw [iReset_eq]
  generalize resetAll s = u at hp uq ⊢
  exact releaseHold_released (s := u.unaddressed) uq hp

/-- Settles O39: the loop leaves `Cleared`, endpoint 0 is one of three cases (`resetAll_quiet`), and the registers follow. -/
theorem busResetState : Obligations.BusResetState := by
  intro s hq hm hi hh hp
  obtain ⟨left, live, hlive, control⟩ := resetAll_quiet hq hm
  obtain ⟨hstatq, -, hptr⟩ := hi.2 hh
  have released := iReset_quiet hq ((left.pending .usbrst).trans hp)
  rw [exec_iReset, released]
  generalize resetAll s = u at left control
  refine ⟨_, rfl, rfl, rfl, rfl, ?_, ?_, ?_, ?_, ?_, ?_, left.port, left.wire, fun e => ?_,
    fun e he => ⟨left.epc e he, left.rx e he⟩, left.same, live, hlive, control⟩
  · show (u.regs.ctl &&& ~~~holdMask).getLsbD 1 = false
    simp [holdMask]
  · show (u.regs.ctl &&& ~~~holdMask).getLsbD 0 = s.regs.ctl.getLsbD 0
    rw [left.regs]
    simp [holdMask]
  · show u.regs.istat = s.regs.istat
    rw [left.regs]
  · show u.regs.errstat = s.regs.errstat
    rw [left.regs]
  · show u.regs.statq = []
    rw [left.regs]
    exact hstatq
  · show u.sess.lastSetup = s.sess.lastSetup
    rw [left.sess]
  · obtain ⟨hempty, htoggle, hodd⟩ := left.queue e
    refine ⟨hempty, htoggle, hodd, ?_, ?_, left.tx e⟩
    · show u.sie.txAt e = .even
      rw [left.sie]
      exact (hptr e).1
    · show u.sie.rxAt e = .even
      rw [left.sie]
      exact (hptr e).2

end Sys2Proof.Machine
end


section
/-! `SET_CONFIGURATION` with the peripheral quiet (40_registry.md R126; 43_control.md R187): what `REARM` writes for one endpoint, what
the loop over endpoints 1 and up leaves, and the acknowledgement of endpoint 0 after it. -/

namespace Sys2Proof.Machine

/-! ### One endpoint -/

/-- `REARM(e)` writes receive slots: `e` receives and has a pair. -/
def Receives (s : State) (e : EpId) : Prop := flagRx (s.endpoint e).flags = true ∧ (s.endpoint e).rxbuf ≠ none

/-- Memory after the receive slots of `e` are armed where `e` receives: no other descriptor and no other byte is written. -/
structure SlotsRearmed (s : State) (e : EpId) (m : Memory) : Prop where
  wf : m.wf = true
  armed : ∀ b0 b1, flagRx (s.endpoint e).flags = true → (s.endpoint e).rxbuf = some (b0, b1) →
    ArmedPair (s.withMem m) e (s.endpoint e).maxpkt b0 b1
  others : ∀ i d x, (i, d) ≠ (e, Dir.rx) →
    (s.withMem m).bdCtl i d x = s.bdCtl i d x ∧ (s.withMem m).bdBuf i d x = s.bdBuf i d x
  same : SameMem (fun a => Receives s e ∧ ∃ x, inBd s.params e .rx x a) s (s.withMem m)

/-- Memory as it was, for an endpoint that does not receive. -/
theorem slotsRearmed_idle {s : State} (hm : MemInv s) {e : EpId} (h : ¬ Receives s e) : SlotsRearmed s e s.mem where
  wf := hm
  armed b0 b1 hf hb := absurd ⟨hf, by simp [hb]⟩ h
  others _ _ _ _ := ⟨rfl, rfl⟩
  same _ _ := rfl

theorem armRx_slots {s : State} (hq : Quiet s) (hm : MemInv s) (e : EpId) :
    ∃ m, (if flagRx (s.endpoint e).flags then armRx e s else s) = s.withMem m ∧ SlotsRearmed s e m := by
  cases hf : flagRx (s.endpoint e).flags with
  | false => exact ⟨s.mem, rfl, slotsRearmed_idle hm fun h => by simp [Receives, hf] at h⟩
  | true =>
    rw [if_pos rfl]
    cases hb : (s.endpoint e).rxbuf with
    | none => exact ⟨s.mem, armRx_none hb, slotsRearmed_idle hm fun h => h.2 hb⟩
    | some b =>
      obtain ⟨c1, f1, c2, f2, hother, hsame, hshape⟩ := armRx_spec hq hm hb
      have wf := armRx_keeps memInv_closed.toStable e hm
      generalize armRx e s = u at *
      obtain ⟨m, rfl⟩ : ∃ m, u = s.withMem m := ⟨_, hshape⟩
      refine ⟨m, rfl, wf, fun b0 b1 _ h => ?_, hother, fun a ha => hsame a ?_⟩
      · cases hb.symm.trans h
        exact ⟨c1, f1, c2, f2⟩
      · rintro (k | k)
        · exact ha ⟨⟨hf, by simp [hb]⟩, _, k⟩
        · exact ha ⟨⟨hf, by simp [hb]⟩, _, k⟩

/-- What `REARM` writes: the toggle, `EPCTL`, and the receive descriptors where the endpoint receives. -/
theorem rearm_spec {s : State} (hq : Quiet s) (hm : MemInv s) (e : EpId) : ∃ m, SlotsRearmed s e m ∧
    rearm e s = ((s.updEp e fun r => { r with txtoggle := false }).withMem m).withRegs
      (s.regs.setEpc e ((s.endpoint e).flags.setWidth 4)) := by
  obtain ⟨m, hshape, hslots⟩ := armRx_slots (s := s.withRegs (s.regs.setEpc e 0#4)) hq hm e
  refine ⟨m, ⟨hslots.wf, fun b0 b1 hf hb => ?_, hslots.others, hslots.same⟩, ?_⟩
  · obtain ⟨c1, f1, c2, f2⟩ := hslots.armed b0 b1 hf hb
    exact ⟨c1, f1, c2, f2⟩
  · unfold rearm
    dsimp only
    rw [setEpctl_quiet hq, hshape, setEpctl_quiet (by exact hq), State.updEp_same]
    exact congrArg _ (Regs.setEpc_setEpc s.regs e 0#4 _)

/-! ### The loop -/

/-- The endpoints `l` are re-armed, `s` the state before: records, `EPCTL` and descriptors are all that has changed. -/
structure Rearmed (s : State) (l : List EpId) (u : State) : Prop where
  frame : u = ((s.withRegs { s.regs with epctl := u.regs.epctl }).withEp u.ep).withMem u.mem
  wf : MemInv u
  record : ∀ e ∈ l, u.endpoint e = { s.endpoint e with txtoggle := false }
  epc : ∀ e ∈ l, u.regs.epc e = (s.endpoint e).flags.setWidth 4
  armed : ∀ e ∈ l, ∀ b0 b1, flagRx (s.endpoint e).flags = true → (s.endpoint e).rxbuf = some (b0, b1) →
    ArmedPair u e (s.endpoint e).maxpkt b0 b1
  restRecord : ∀ e, e ∉ l → u.endpoint e = s.endpoint e
  restEpc : ∀ e, e ∉ l → u.regs.epc e = s.regs.epc e
  same : SameMem (fun a => ∃ e ∈ l, Receives s e ∧ ∃ x, inBd s.params e .rx x a) s u

theorem rearmed_nil {s : State} (hm : MemInv s) : Rearmed s [] s where
  frame := rfl
  wf := hm
  record := by simp
  epc := by simp
  armed := by simp
  restRecord _ _ := rfl
  restEpc _ _ := rfl
  same _ _ := rfl

theorem Rearmed.turn {s u : State} {l : List EpId} (hq : Quiet s) (e : EpId) (he : e ∉ l) (c : Rearmed s l u) :
    Rearmed s (l ++ [e]) (rearm e u) := by
  have hp : u.params = s.params := by rw [c.frame]; rfl
  have uq : Quiet u := by rw [c.frame]; exact hq
  obtain ⟨m, slots, hturn⟩ := rearm_spec uq c.wf e
  have receives : Receives u e ↔ Receives s e := by rw [Receives, Receives, c.restRecord e he]
  have records : ∀ i, (rearm e u).endpoint i = if i = e then { s.endpoint e with txtoggle := false } else u.endpoint i := by
    intro i
    rw [hturn, State.withRegs_endpoint, State.withMem_endpoint, State.updEp_endpoint, c.restRecord e he]
  have enables : ∀ i, (rearm e u).regs.epc i = if i = e then (s.endpoint e).flags.setWidth 4 else u.regs.epc i := by
    intro i
    rw [hturn, State.withRegs_regs, Regs.setEpc_epc, c.restRecord e he]
  constructor
  case frame =>
    rw [hturn]
    obtain ⟨r, x, y, hu⟩ : ∃ r x y, u = ((s.withRegs { s.regs with epctl := r }).withEp x).withMem y := ⟨_, _, _, c.frame⟩
    rw [hu]
    rfl
  case wf =>
    rw [hturn]
    exact slots.wf
  case record =>
    intro i hi
    rw [records]
    split
    · rename_i h
      rw [h]
    · rename_i h
      exact c.record i (by simpa [h] using hi)
  case epc =>
    intro i hi
    rw [enables]
    split
    · rename_i h
      rw [h]
    · rename_i h
      exact c.epc i (by simpa [h] using hi)
  case armed =>
    intro i hi b0 b1 hf hb
    rw [hturn]
    by_cases h : i = e
    · subst h
      have := slots.armed b0 b1
      rw [c.restRecord i he] at this
      obtain ⟨c1, f1, c2, f2⟩ := this hf hb
      exact ⟨c1, f1, c2, f2⟩
    · obtain ⟨c1, f1, c2, f2⟩ := c.armed i (by simpa [h] using hi) b0 b1 hf hb
      have other := fun x => slots.others i .rx x (by simp [h])
      exact ⟨(other _).1.trans c1, (other _).2.trans f1, (other _).1.trans c2, (other _).2.trans f2⟩
  case restRecord =>
    intro i hi
    rw [List.mem_append, List.mem_singleton, not_or] at hi
    rw [records, if_neg hi.2, c.restRecord i hi.1]
  case restEpc =>
    intro i hi
    rw [List.mem_append, List.mem_singleton, not_or] at hi
    rw [enables, if_neg hi.2, c.restEpc i hi.1]
  case same =>
    intro a ha
    rw [hturn]
    refine (slots.same a fun ⟨hr, x, hx⟩ => ha ⟨e, by simp, receives.mp hr, x, hp ▸ hx⟩).trans (c.same a ?_)
    rintro ⟨i, hi, h⟩
    exact ha ⟨i, by simp [hi], h⟩

theorem rearmed_loop {s : State} (hq : Quiet s) (hm : MemInv s) :
    Rearmed s epIds.tail (epIds.tail.foldl (fun t e => rearm e t) s) :=
  foldl_turns (R := Rearmed s) (fun _ e _ he c => c.turn hq e he) epIds.tail [] (by decide) (rearmed_nil hm)

/-! ### The acknowledgement -/

/-- `AllocNode` answers the next draw if it may grant it. -/
theorem State.allocNode_fst (s : State) : s.allocNode.1 = s.drawNode.1.filter s.nodeGrantable := by
  obtain ⟨x, hx, -⟩ := s.drawNode_state
  unfold State.allocNode
  rcases hd : s.drawNode with ⟨o, t⟩
  rw [hd] at hx
  obtain rfl : t = s.withEnv x := hx
  cases o with
  | none => rfl
  | some h =>
    have : (s.withEnv x).nodeGrantable h = s.nodeGrantable h := rfl
    simp only [Option.filter, this]
    split <;> rfl

/-- `AllocNode` answers by the parameters, the draws and the nodes alone. -/
theorem allocNode_answer_congr {s t : State} (hp : t.params = s.params) (he : t.env = s.env) (hl : t.pool = s.pool) :
    t.allocNode.1 = s.allocNode.1 := by
  have draw : t.drawNode.1 = s.drawNode.1 := by
    unfold State.drawNode
    rw [he]
    split <;> rfl
  have grant : t.nodeGrantable = s.nodeGrantable := by
    funext h
    unfold State.nodeGrantable
    rw [hp, State.node?_congr hl]
  rw [State.allocNode_fst, State.allocNode_fst, draw, grant]

/-- An acknowledgement whose node is granted is a zero-length node in the queue of endpoint 0. -/
theorem acknowledge_granted {s : State} {h : Word} (ha : s.allocNode.1 = some h) :
    QueuedEmpty 0 h 0#32 s (acknowledge s) ∧ SameControl s (acknowledge s) := by
  obtain ⟨u, hu, hbuilt, hlive, hmem⟩ := prepNode_empty_built (.literal []) 0#32 ha
  obtain ⟨hqe, hqs, hn, hns, hcontrol⟩ := hbuilt.append 0
  have shape : acknowledge s = appendNode 0 h u := by
    rw [acknowledge, isend, hu]
  rw [shape]
  exact ⟨⟨hqe, hqs, hn, hns, hlive, hmem⟩, hcontrol⟩

theorem mem_epIds_tail {e : EpId} : e ∈ epIds.tail ↔ e ≠ 0 := by
  revert e
  decide

/-- The low byte of `wValue` (30_encoding.md R106). -/
theorem wValue_low (x : Session) : x.wValue.extractLsb' 0 8 = x.lastSetup.extractLsb' 16 8 := by
  apply BitVec.eq_of_getLsbD_eq
  intro i hi
  simp [Session.wValue, hi, show i < 16 by omega]

/-- `SET_CONFIGURATION` before its acknowledgement: `CONFIG` is written and endpoints 1 and up are re-armed. -/
def State.reconfigured (s : State) : State :=
  epIds.tail.foldl (fun t e => rearm e t) (s.withSess { s.sess with config := s.sess.wValue.extractLsb' 0 8 })

theorem setConfiguration_eq (s : State) : setConfiguration s = acknowledge s.reconfigured := rfl

/-- Settles O52: the loop re-arms (`rearmed_loop`), then the acknowledgement queues a node on endpoint 0 alone
(`acknowledge_granted`). -/
theorem setConfigurationRearms : Obligations.SetConfigurationRearms := by
  intro s h hq hm ha
  have c : Rearmed _ epIds.tail s.reconfigured :=
    rearmed_loop (s := s.withSess { s.sess with config := s.sess.wValue.extractLsb' 0 8 }) hq hm
  rw [exec_setConfiguration, setConfiguration_eq]
  generalize s.reconfigured = u at c
  have frame := c.frame
  have params : u.params = s.params := by rw [frame]; rfl
  have pool : u.pool = s.pool := by rw [frame]; rfl
  have sess : u.sess = { s.sess with config := s.sess.lastSetup.extractLsb' 16 8 } := by
    rw [frame, ← wValue_low]
    rfl
  have answer : u.allocNode.1 = some h := (allocNode_answer_congr params (by rw [frame]; rfl) pool).trans ha
  obtain ⟨⟨hown, hothers, hnode, hnodes, hlive, hmem⟩, tparams, tport, tregs, tsess, ttrace, tsie, -, -⟩ :=
    acknowledge_granted answer
  generalize acknowledge u = t at *
  have regs : t.regs = { s.regs with epctl := u.regs.epctl } := tregs.trans (congrArg State.regs frame)
  have zero : (0 : EpId) ∉ epIds.tail := by decide
  refine ⟨t, rfl, tsess.trans sess, ?_, ?_, hnode, fun i hi => (hnodes i hi).trans (State.node?_congr pool i), ?_,
    fun e he => ⟨?_, ?_, fun b0 b1 hf hb => ?_⟩, fun a ha => ?_, by rw [regs], by rw [regs], by rw [regs], by rw [regs],
    by rw [regs], ?_, ?_, ?_⟩
  · rw [hown, c.restRecord 0 zero]
    rfl
  · rw [tregs]
    exact c.restEpc 0 zero
  · rw [hlive, pool]
  · exact (hothers e he).trans (c.record e (mem_epIds_tail.mpr he))
  · rw [tregs]
    exact c.epc e (mem_epIds_tail.mpr he)
  · obtain ⟨c1, f1, c2, f2⟩ := c.armed e (mem_epIds_tail.mpr he) b0 b1 hf hb
    have ctl := State.bdCtl_congr hmem tparams
    have buf := State.bdBuf_congr hmem tparams
    exact ⟨(ctl ..).trans c1, (buf ..).trans f1, (ctl ..).trans c2, (buf ..).trans f2⟩
  · rw [hmem]
    refine c.same a fun ⟨e, he, hr, x, hx⟩ => ha ⟨e, x, mem_epIds_tail.mp he, hr.1, hr.2, hx⟩
  · rw [tport, frame]
    rfl
  · rw [ttrace, frame]
    rfl
  · rw [tsie, frame]
    rfl

end Sys2Proof.Machine
end


section
/-! The commands of the transmission queue that stay in the foreground (41_txqueue.md R140 to R149): `PREP`, `ENQ`, the test of
`TRYSEND`, `CANCEL` and `QPEND`. -/

namespace Sys2Proof.Machine

/-- An endpoint command whose identifier is out of range ends in `ERR_RANGE` (30_encoding.md R95). -/
theorem onEndpoint_range {ep : BitVec 8} (h : 16 ≤ ep.toNat) (run : EpId → State → State) (s : State) :
    onEndpoint ep run s = s.withPort { s.port with status := 0x01#8 } := by
  rw [onEndpoint, epOfByte_none h]
  rfl

/-! ### `PREP` -/

/-- A range of no bytes is never one the peripheral may be writing. -/
theorem not_dataMayBeWritten_of_empty {s : State} (h : s.port.arg1 = 0#32) : ¬ DataMayBeWritten s := by
  rintro ⟨i, hi, -⟩
  rw [h] at hi
  exact absurd hi (Nat.not_lt_zero i)

/-- Once its node is built, `PREP` answers with the handle. -/
theorem prep_built {s u : State} {h : Word}
    (hu : prepNode (.memory s.port.arg0) s.port.arg1 s.port.arg2 s = (some h, u)) :
    prep s = u.withPort { u.port with ret := h, status := statusOk } := by
  rw [prep, State.dataAddr, State.dataLen, State.dataCallback, hu]

/-- Settles O25: `prep_built` on a node of no bytes (`prepNode_empty_built`) or of some (`prepNode_data_built`); the check of the
data range comes before either. -/
theorem prepMakesNode : Obligations.PrepMakesNode := by
  intro s h hr ha
  rw [exec_prep]
  refine ⟨fun hlen => ?_, fun b hlen hb => ⟨fun hd => ?_, fun hq hm hp hd => ?_⟩⟩
  case refine_1 =>
    obtain ⟨u, hu, ⟨hnode, hothers, hep, hparams, hport, hregs, hsess, htrace, hsie, hinbox, hbetween⟩, hlive, hmem⟩ :=
      prepNode_empty_built (.memory s.port.arg0) s.port.arg2 ha
    rw [copyingCommand_ready prep hr (not_dataMayBeWritten_of_empty hlen), prep_built (hlen ▸ hu), hport]
    exact ⟨_, rfl, rfl, hnode, hothers, hlive, hmem, hep, hparams, hregs, hsess, htrace, hsie, hinbox, hbetween⟩
  case refine_2 =>
    refine copyingCommand_refused prep hr ?_ hd
    simp [prepCopies, ha, State.dataLen, hb]
  case refine_3 =>
    obtain ⟨x, pool, u, hx, hu, hbuilt, hlive, hsame, hmem⟩ :=
      prepNode_data_built hq hm hp (src := .memory s.port.arg0) trivial s.port.arg2 hlen ha hb
    obtain ⟨hnode, hothers, hep, hparams, hport, hregs, hsess, htrace, hsie, hinbox, hbetween⟩ := hbuilt
    obtain ⟨hw, hclear⟩ := drawnBlock_clear hp ha hb
    have copied : Copied s.port.arg0 b s.port.arg1.toNat s u := by
      rw [Copied, hmem]
      exact (copyBytes_spec s.port.arg1.toNat (s := (s.withEnv x).withPool pool) s.port.arg0 b (hx.trans hq) hm hw hclear).1
    rw [copyingCommand_ready prep hr hd, prep_built hu, hport]
    exact ⟨_, rfl, rfl, hnode, hothers, hlive, copied, hsame, hep, hparams, hregs, hsess, htrace, hsie, hinbox, hbetween⟩

/-! ### `ENQ` -/

/-- Settles O27: `isPrepared_iff` splits the handles; a PREPARED node is appended as one just built is (`NodeBuilt.append`). -/
theorem enqAppendsPreparedNode : Obligations.EnqAppendsPreparedNode := by
  intro s ep hr
  rw [exec_enq, command_ready _ hr.1 hr.2]
  refine ⟨fun h => by rw [onEndpoint_range h], ?_⟩
  rintro e rfl
  rw [onEndpoint_some (epOfByte_epByte e), enq, State.nodeArg]
  refine ⟨fun hbad => ?_, fun n hzero hcap hn hst => ?_⟩
  · rw [if_neg]
    · rfl
    · intro hprep
      obtain ⟨hzero, hcap, n, hn, hst⟩ := isPrepared_iff.mp hprep
      rcases hbad with hbad | hbad | hbad
      · exact hzero hbad
      · exact absurd hcap (Nat.not_le.mpr hbad)
      · exact hbad (by rw [hn, ← hst]; rfl)
  · rw [if_pos (isPrepared_iff.mpr ⟨hzero, hcap, n, hn, hst⟩)]
    have asBuilt : NodeBuilt s.port.arg0 n s s := ⟨hn, fun _ _ => rfl, rfl, rfl, rfl, rfl, rfl, rfl, rfl, rfl, rfl⟩
    obtain ⟨hqe, hqs, hnode, hnodes, -⟩ := asBuilt.append e
    exact ⟨_, rfl, hqe, hqs, hnode, hnodes, rfl, rfl, rfl, rfl, rfl, rfl, rfl, rfl, rfl⟩

/-! ### `TRYSEND` -/

/-- Settles O29: an endpoint in range has its list tested before anything is allocated; on an empty one `TRYSEND` copies where
`SEND` copies and runs its body (`exec_send_or_trysend`). -/
theorem trysendTestsListAlone : Obligations.TrysendTestsListAlone := by
  intro s ep hr
  refine ⟨fun h => ?_, ?_⟩
  · have idle : trysendCopies ep s = false := by rw [trysendCopies, epOfByte_none h]
    rw [exec_trysend, copyingCommand_idle hr idle, onEndpoint_range h]
  · rintro e rfl
    refine ⟨fun hbusy => ?_, fun hempty => ?_⟩
    · have busy : (s.endpoint e).txq.isEmpty = false := by simpa using hbusy
      have idle : trysendCopies (epByte e) s = false := by
        rw [trysendCopies, epOfByte_epByte]
        simp only [busy, Bool.false_and]
      rw [exec_trysend, copyingCommand_idle hr idle, onEndpoint_some (epOfByte_epByte e), trysend, busy]
      rfl
    · obtain ⟨copies, run, hexec, hcopies, hrun⟩ := exec_send_or_trysend (s := s) (e := e) (.inr ⟨rfl, hempty⟩)
      obtain ⟨copies', run', hexec', hcopies', hrun'⟩ := exec_send_or_trysend (s := s) (e := e) (.inl rfl)
      rw [hexec, hexec', copyingCommand, copyingCommand, command_ready _ hr.1 hr.2, command_ready _ hr.1 hr.2,
        hcopies, hcopies', hrun, hrun']

/-! ### `CANCEL` -/

/-- `t` is `s` with the queue of `e` cancelled, oldest node first (41_txqueue.md R146). -/
structure QueueCancelled (e : EpId) (s t : State) : Prop where
  record : t.endpoint e = { s.endpoint e with txq := [] }
  others : SameOthers e s t
  trace : t.trace = { s.trace with evt := s.trace.evt ++ completions s e }
  node : ∀ a : Word, t.node? a = if a ∈ (s.endpoint e).txq then none else s.node? a
  live : t.pool.live = freed (queueBlocks s e) s.pool.live
  frame : t = ((s.withTrace t.trace).withPool t.pool).withEp t.ep

/-- `CANCELQ` completes the queue and leaves the rest of the state. -/
theorem cancelQueue_cancelled {s : State} (hi : QueueInv s) (e : EpId) : QueueCancelled e s (cancelQueue e s) := by
  obtain ⟨keys, -, queues, -⟩ := hi
  have nodup : (s.endpoint e).txq.Nodup := (queues e).1
  obtain ⟨evt, pool, shape⟩ := cancelQueue_shape e s
  have events := cancelQueue_evt e nodup
  constructor
  case record => rw [cancelQueue_endpoint, if_pos rfl]
  case others => exact fun i hi => by rw [cancelQueue_endpoint, if_neg hi]
  case trace =>
    rw [shape] at events ⊢
    exact congrArg (fun l => { s.trace with evt := l }) events
  case node => exact cancelQueue_node? e keys
  case live => exact cancelQueue_live e nodup
  case frame =>
    rw [shape]
    rfl

/-- Settles O30: `CANCEL` is `CANCELQ` (`cancelQueue_cancelled`) and the answer `OK`. -/
theorem cancelCompletesQueue : Obligations.CancelCompletesQueue := by
  intro s ep hr
  rw [exec_cancel, command_ready _ hr.1 hr.2]
  refine ⟨fun h => by rw [onEndpoint_range h], ?_⟩
  rintro e rfl hi
  rw [onEndpoint_some (epOfByte_epByte e), cancel]
  obtain ⟨hrecord, hothers, htrace, hnode, hlive, hframe⟩ := cancelQueue_cancelled hi e
  generalize cancelQueue e s = u at *
  have port : (u.setStatus statusOk).port = { s.port with status := statusOk } := by
    rw [hframe]
    rfl
  refine ⟨_, rfl, hrecord, hothers, htrace, hnode, hlive, port, ?_, ?_, ?_, ?_, ?_, ?_⟩ <;> rw [hframe] <;> rfl

/-! ### `QPEND` -/

/-- The sum of R149, as a sum of numbers. -/
theorem pendingBytes_eq (s : State) : ∀ l : List Word,
    pendingBytes s l = BitVec.ofNat 32 (l.map fun h => ((s.node h).total - (s.node h).cursor).toNat).sum
  | [] => rfl
  | h :: rest => by
    rw [pendingBytes, pendingBytes_eq s rest, List.map_cons, List.sum_cons, BitVec.ofNat_add, BitVec.ofNat_toNat,
      BitVec.setWidth_eq]

/-- Settles O31: `pendingBytes_eq`; `QPEND` writes the command port alone. -/
theorem qpendSumsQueue : Obligations.QpendSumsQueue := by
  intro s ep hr
  rw [exec_qpend, command_ready _ hr.1 hr.2]
  refine ⟨fun h => by rw [onEndpoint_range h], ?_⟩
  rintro e rfl
  rw [onEndpoint_some (epOfByte_epByte e), qpend, pendingBytes_eq]
  rfl

end Sys2Proof.Machine
end


section
/-! The pump where it completes or waits (41_txqueue.md R144 steps 1 to 3 and 5, R145): what completing the head node leaves, and
which of its answers a pump takes. -/

namespace Sys2Proof.Machine

/-! ### One node completed -/

/-- Records, memory, pool and events aside, `t` is `s`. -/
structure SameRest (s t : State) : Prop where
  params : t.params = s.params
  port : t.port = s.port
  regs : t.regs = s.regs
  sess : t.sess = s.sess
  wire : t.trace.wire = s.trace.wire
  sie : t.sie = s.sie
  env : t.env = s.env

theorem SameRest.trans {s t u : State} (h : SameRest s t) (k : SameRest t u) : SameRest s u where
  params := k.params.trans h.params
  port := k.port.trans h.port
  regs := k.regs.trans h.regs
  sess := k.sess.trans h.sess
  wire := k.wire.trans h.wire
  sie := k.sie.trans h.sie
  env := k.env.trans h.env

/-- `t` is `s` with the head of the queue of `e`, the node `n` of `h`, completed (41_txqueue.md R145). -/
structure HeadCompleted (e : EpId) (h : Word) (n : Node) (s t : State) : Prop where
  record : t.endpoint e = { s.endpoint e with txq := (s.endpoint e).txq.tail }
  others : SameOthers e s t
  gone : t.node? h = none
  nodes : SameNodes h s t
  live : t.pool.live = if n.owns then s.pool.live.erase (nodeBlock n) else s.pool.live
  trace : t.trace = { s.trace with evt := s.trace.evt ++ if n.cb = 0#32 then [] else [.complete e n.cb] }
  mem : t.mem = s.mem
  rest : SameRest s t

theorem complete_headCompleted {s : State} (hk : KeysRise s.pool.nodes) {h : Word} {n : Node} (hn : s.node? h = some n)
    (e : EpId) : HeadCompleted e h n s (complete e h s) := by
  obtain ⟨evt, pool, shape⟩ := complete_shape e h s
  have node : s.node h = n := State.node_of_node? hn
  have events : (complete e h s).trace.evt = s.trace.evt ++ if n.cb = 0#32 then [] else [.complete e n.cb] := by
    rw [complete_evt, completionOf, node]
    split <;> rfl
  constructor
  case record =>
    rw [shape]
    exact State.updEp_same _ _ _
  case others =>
    rw [shape]
    exact fun i hi => State.updEp_other _ _ hi
  case gone =>
    rw [State.node?, complete_nodes]
    exact lookupKey_eraseKey_same _ hk
  case nodes => exact fun i hi => complete_node?_ne e s hi
  case live => rw [complete_live, node]
  case trace =>
    rw [shape] at events ⊢
    exact congrArg (fun l => { s.trace with evt := l }) events
  case mem =>
    rw [shape]
    rfl
  case rest =>
    rw [shape]
    exact ⟨rfl, rfl, rfl, rfl, rfl, rfl, rfl⟩

/-! ### One chunk armed -/

/-- How many bytes a pump of `e` arms of the node `n` (41_txqueue.md R144 step 4). -/
def chunkOf (s : State) (e : EpId) (n : Node) : Nat := min (n.total - n.cursor).toNat (min (s.endpoint e).maxpkt.toNat 1023)

/-- The node with `c` more bytes armed. -/
def Node.advanced (n : Node) (c : Nat) : Node := { n with cursor := n.cursor + BitVec.ofNat 32 c }

/-- `t` is `s` with `c` bytes of the node `n` of `h` armed in the transmit slot `f` of `e` (41_txqueue.md R144 step 4). -/
structure ChunkArmed (e : EpId) (h : Word) (n : Node) (f : Slot) (c : Nat) (s t : State) : Prop where
  ctl : t.bdCtl e .tx f = controlWord c true (s.endpoint e).txtoggle 0
  buf : t.bdBuf e .tx f = chunkAddr n
  same : SameMem (inBd s.params e .tx f) s t
  record : t.endpoint e =
    { s.endpoint e with txtoggle := !(s.endpoint e).txtoggle, txodd := (s.endpoint e).txodd.flip }
  others : SameOthers e s t
  node : t.node? h = some (n.advanced c)
  nodes : SameNodes h s t
  live : t.pool.live = s.pool.live
  trace : t.trace = s.trace
  rest : SameRest s t

theorem armChunk_chunkArmed {s : State} (hq : Quiet s) (hm : MemInv s) {e : EpId} {h : Word} {n : Node}
    (hn : s.node? h = some n) (f : Slot) : ChunkArmed e h n f (chunkOf s e n) s (armChunk e h f s) := by
  obtain ⟨m, arm, hctl, hbuf, hsame⟩ := armChunk_spec hq hm (e := e) hn f
  rw [arm]
  constructor
  case ctl => exact hctl
  case buf => exact hbuf
  case same => exact hsame
  case record =>
    rw [State.putNode_endpoint, State.updEp_same]
    rfl
  case others =>
    intro i hi
    rw [State.putNode_endpoint, State.updEp_other _ _ hi]
    rfl
  case node => exact State.putNode_node?_same _ _ _
  case nodes => exact fun i hi => State.putNode_node?_ne _ _ _ _ hi
  case live => rfl
  case trace => rfl
  case rest => exact ⟨rfl, rfl, rfl, rfl, rfl, rfl, rfl⟩

/-! ### What a pump answers -/

/-- Where no slot is free the peripheral owns both. -/
theorem freeSlot_none {s : State} {e : EpId} (hf : freeSlot s e = none) (x : Slot) : s.bdOwn e .tx x = true := by
  unfold freeSlot at hf
  split at hf
  · cases hf
  · rename_i hp
    split at hf
    · cases hf
    · rename_i hq
      rcases Slot.eq_or_flip (s.endpoint e).txodd x with rfl | rfl
      · simpa using hp
      · simpa using hq

/-- A pump has nothing to do for an empty queue. -/
theorem pump_empty {s : State} {e : EpId} (hx : (s.endpoint e).txq = []) : pump e s = s := by
  unfold pump
  rw [hx]

/-- A pump waits while the peripheral owns both slots. -/
theorem pump_full {s : State} (hq : Quiet s) {e : EpId} (hf : freeSlot s e = none) : pump e s = s := by
  unfold pump
  simp only [tick_quiet hq, freeSlot_none hf]
  split <;> rfl

/-- With a drained head node a pump arms nothing: the node is completed once no slot is the peripheral's. -/
theorem pump_drained {s : State} (hq : Quiet s) {e : EpId} {h : Word} {rest : List Word} (hx : (s.endpoint e).txq = h :: rest)
    (hcursor : (s.node h).cursor = (s.node h).total) (htotal : (s.node h).total ≠ 0#32) :
    pump e s = if s.bdOwn e .tx .even || s.bdOwn e .tx .odd then s else complete e h s := by
  have either : (s.bdOwn e .tx (s.endpoint e).txodd || s.bdOwn e .tx (s.endpoint e).txodd.flip) =
      (s.bdOwn e .tx .even || s.bdOwn e .tx .odd) := by
    cases (s.endpoint e).txodd
    · rfl
    · exact Bool.or_comm _ _
  have both : (s.bdOwn e .tx (s.endpoint e).txodd && s.bdOwn e .tx (s.endpoint e).txodd.flip) = true →
      (s.bdOwn e .tx .even || s.bdOwn e .tx .odd) = true := fun h => by
    rw [← either, (Bool.and_eq_true_iff.mp h).1, Bool.true_or]
  unfold pump
  simp only [hx, tick_quiet hq, if_pos (And.intro hcursor htotal), either]
  split
  · rename_i h
    rw [if_pos (both h)]
  · rfl

/-! ### `T.IN` -/

theorem committed_env {s : State} (hq : Quiet s) (e : EpId) : (s.committed e).env = s.env := by
  show { s.env with between := [] } = s.env
  rw [← hq]

/-- With the peripheral quiet `T.IN` is the commit of the address, then the hook or the pump (42_dispatcher.md R167). -/
theorem tIn_committed {s : State} (hq : Quiet s) (e : EpId) : tIn e s = hookOrPump e (s.committed e) := by
  rw [tIn, commit_eq, State.committed, ← hq]
  rfl

theorem hookOrPump_pump {s : State} {e : EpId} (hk : hookOf s.params e = 0#32) : hookOrPump e s = pump e s := if_pos hk

/-- Settles O36: `pump_empty`, `pump_full` and `pump_drained`. -/
theorem pumpWaits : Obligations.PumpWaits := by
  intro s e x hq hk hwait
  have idle : pump e (s.committed e) = s.committed e := by
    rcases hwait with hx | hf | ⟨h, rest, hx, hcursor, htotal, hown⟩
    · exact pump_empty (s := s.committed e) hx
    · exact pump_full (s := s.committed e) rfl hf
    · have owned : (s.bdOwn e .tx .even || s.bdOwn e .tx .odd) = true := by simpa using hown
      rw [pump_drained (s := s.committed e) rfl hx hcursor htotal]
      exact if_pos owned
  rw [exec_tIn, tIn_committed hq, hookOrPump_pump (s := s.committed e) hk, idle, State.committed, ← hq]
  rfl

/-- Settles O35: with both slots vacated the pump is `COMPLETE` (`pump_drained`), whose effect is `complete_headCompleted`. -/
theorem pumpCompletesDrainedNode : Obligations.PumpCompletesDrainedNode := by
  intro s e x h rest n hq hi hk hx hn htotal hcursor heven hodd
  have node : s.node h = n := State.node_of_node? hn
  have completes : pump e (s.committed e) = complete e h (s.committed e) := by
    have vacant : ¬ (s.bdOwn e .tx .even || s.bdOwn e .tx .odd) = true := by simp [heven, hodd]
    subst node
    rw [pump_drained (s := s.committed e) rfl hx hcursor htotal]
    exact if_neg vacant
  obtain ⟨hrecord, hothers, hgone, hnodes, hlive, htrace, hmem, hrest⟩ :=
    complete_headCompleted (s := s.committed e) hi.1 hn e
  rw [show (s.committed e).endpoint e = s.endpoint e from rfl, hx] at hrecord
  rw [exec_tIn, tIn_committed hq, hookOrPump_pump (s := s.committed e) hk, completes]
  exact ⟨_, rfl, hrecord, hothers, hgone, hnodes, hlive, htrace, hmem, hrest.regs, hrest.params, hrest.port, hrest.sess,
    hrest.sie, hrest.env.trans (committed_env hq e)⟩

/-- An empty node is armed with an empty packet. -/
theorem chunkOf_empty {s : State} (hi : QueueInv s) (e : EpId) {h : Word} {n : Node} (hn : s.node? h = some n)
    (htotal : n.total = 0#32) : chunkOf s e n = 0 := by
  have within : n.cursor.toNat ≤ n.total.toNat := (hi.2.1 _ (mem_nodes_of_node? hn)).2.2
  rw [chunkOf, BitVec.toNat_sub_of_le within, htotal]
  simp

/-- Settles O34: the pump arms the empty chunk in the free slot (`armChunk_spec`), then completes the node
(`complete_headCompleted`). -/
theorem pumpArmsEmptyPacket : Obligations.PumpArmsEmptyPacket := by
  intro s e x f h rest n hq hm hi hk hx hn hf htotal
  have empty : (s.node h).total = 0#32 := by rw [State.node_of_node? hn, htotal]
  have sends : pump e (s.committed e) = complete e h (armChunk e h f (s.committed e)) := by
    rw [pump_arms (s := s.committed e) rfl hx hf fun k => k.2 empty]
    exact if_pos empty
  have armed := armChunk_chunkArmed (s := s.committed e) rfl hm (e := e) hn f
  have queues : QueueInv (armChunk e h f (s.committed e)) := queueInv_rule.armChunk (s := s.committed e) e f hx hi
  rw [chunkOf_empty (s := s.committed e) hi e hn htotal] at armed
  rw [exec_tIn, tIn_committed hq, hookOrPump_pump (s := s.committed e) hk, sends]
  generalize armChunk e h f (s.committed e) = u at *
  obtain ⟨hrecord, hothers, hgone, hnodes, hlive, htrace, hmem, hrest⟩ := complete_headCompleted queues.1 armed.node e
  generalize complete e h u = t at *
  have rest := armed.rest.trans hrest
  refine ⟨t, rfl, (State.bdCtl_congr hmem hrest.params ..).trans armed.ctl, ?_, ?_, ?_,
    fun i hi => (hothers i hi).trans (armed.others i hi), hgone, fun i hi => (hnodes i hi).trans (armed.nodes i hi),
    ?_, ?_, rest.regs, rest.params, rest.port, rest.sess, rest.sie, rest.env.trans (committed_env hq e)⟩
  · rw [State.bdBuf_congr hmem hrest.params, armed.buf, chunkAddr, if_pos htotal]
  · exact fun a ha => (congrArg (·.read a) hmem).trans (armed.same a ha)
  · rw [hrecord, armed.record, show (s.committed e).endpoint e = s.endpoint e from rfl, hx]
    rfl
  · rw [hlive, armed.live]
    rfl
  · rw [htrace, armed.trace]
    rfl

end Sys2Proof.Machine
end


section
/-! `I.SOF` with the peripheral quiet (41_txqueue.md R144; 42_dispatcher.md R165). What a turn of one endpoint does is a function
of what that endpoint holds (`turnEffect`), so it is the same in the loop as in a `T.IN` alone. -/

namespace Sys2Proof.Machine

/-! ### Descriptors that a write leaves -/

/-- A transmit descriptor: its control word and its address word. -/
def State.txBd (s : State) (e : EpId) (y : Slot) : Word × Word := (s.bdCtl e .tx y, s.bdBuf e .tx y)

/-- Descriptors share no byte. -/
theorem inBd_disjoint {p : Params} {e i : EpId} {d d' : Dir} {x y : Slot} (h : (i, d', y) ≠ (e, d, x)) {a : Word}
    (ha : inBd p i d' y a) : ¬ inBd p e d x a := by
  obtain ⟨hlow, hhigh⟩ := bdAddr_apart p h
  simp only [inBd, inRun] at ha ⊢
  bv_omega

/-- A descriptor none of whose bytes was written is as it was. -/
theorem txBd_congr {P : Word → Prop} {s t : State} (hp : t.params = s.params) (hs : SameMem P s t) {e : EpId} {y : Slot}
    (h : ∀ a, inBd s.params e .tx y a → ¬ P a) : t.txBd e y = s.txBd e y := by
  have kept : ∀ a, inBd s.params e .tx y a → t.mem.read a = s.mem.read a := fun a ha => hs a (h a ha)
  have ctl : t.bdCtl e .tx y = s.bdCtl e .tx y := by
    unfold State.bdCtl
    rw [hp]
    exact Memory.read32_congr fun a ha => kept a (Nat.lt_trans ha (by decide))
  have buf : t.bdBuf e .tx y = s.bdBuf e .tx y := by
    unfold State.bdBuf
    rw [hp]
    refine Memory.read32_congr fun a ha => kept a ?_
    show (a - bdAddr s.params e .tx y).toNat < 8
    bv_omega
  rw [State.txBd, ctl, buf, State.txBd]

/-! ### The effect of a turn -/

/-- What a turn does to an endpoint's record, to the nodes and to the endpoint's transmit descriptors, and what it frees and
raises. -/
structure Effect where
  record : EpRec → EpRec
  node : Word → Option Node → Option Node
  desc : Slot → Word × Word → Word × Word
  blocks : List (Nat × Nat)
  events : List Event

/-- Events and nothing else. -/
def Effect.raising (events : List Event) : Effect where
  record := id
  node _ := id
  desc _ := id
  blocks := []
  events := events

/-- The head of the queue of `e`, the node `n` of `h`, completed. -/
def Effect.completing (e : EpId) (h : Word) (n : Node) : Effect where
  record r := { r with txq := r.txq.tail }
  node k m := if k = h then none else m
  desc _ := id
  blocks := if n.owns then [nodeBlock n] else []
  events := if n.cb = 0#32 then [] else [.complete e n.cb]

/-- `c` bytes of the node `n` of `h` armed in slot `f`. -/
def Effect.arming (h : Word) (n : Node) (f : Slot) (c : Nat) (toggle : Bool) : Effect where
  record r := { r with txtoggle := !r.txtoggle, txodd := r.txodd.flip }
  node k m := if k = h then some (n.advanced c) else m
  desc y d := if y = f then (controlWord c true toggle 0, chunkAddr n) else d
  blocks := []
  events := []

/-- One effect after another. -/
def Effect.andThen (x y : Effect) : Effect where
  record r := y.record (x.record r)
  node k m := y.node k (x.node k m)
  desc f d := y.desc f (x.desc f d)
  blocks := x.blocks ++ y.blocks
  events := x.events ++ y.events

/-- `t` is `s` after a turn of `e` with the effect `x`. -/
structure HasEffect (e : EpId) (x : Effect) (s t : State) : Prop where
  record : t.endpoint e = x.record (s.endpoint e)
  others : SameOthers e s t
  node : ∀ h, t.node? h = x.node h (s.node? h)
  desc : ∀ y, t.txBd e y = x.desc y (s.txBd e y)
  live : t.pool.live = freed x.blocks s.pool.live
  evt : t.trace.evt = s.trace.evt ++ x.events
  same : SameMem (fun a => ∃ y, inBd s.params e .tx y a) s t
  rest : SameRest s t

theorem hasEffect_none (e : EpId) (s : State) : HasEffect e (.raising []) s s where
  record := rfl
  others _ _ := rfl
  node _ := rfl
  desc _ := rfl
  live := rfl
  evt := (List.append_nil _).symm
  same _ _ := rfl
  rest := ⟨rfl, rfl, rfl, rfl, rfl, rfl, rfl⟩

theorem hasEffect_emit (e : EpId) (v : Event) (s : State) : HasEffect e (.raising [v]) s (s.emit v) where
  record := rfl
  others _ _ := rfl
  node _ := rfl
  desc _ := rfl
  live := rfl
  evt := rfl
  same _ _ := rfl
  rest := ⟨rfl, rfl, rfl, rfl, rfl, rfl, rfl⟩

theorem HeadCompleted.hasEffect {e : EpId} {h : Word} {n : Node} {s t : State} (c : HeadCompleted e h n s t) :
    HasEffect e (.completing e h n) s t where
  record := c.record
  others := c.others
  node k := by
    by_cases hk : k = h
    · rw [hk, c.gone]
      exact (if_pos rfl).symm
    · rw [c.nodes k hk]
      exact (if_neg hk).symm
  desc y := by rw [State.txBd, State.bdCtl_congr c.mem c.rest.params, State.bdBuf_congr c.mem c.rest.params]; rfl
  live := by
    rw [c.live, Effect.completing]
    cases n.owns <;> rfl
  evt := by rw [c.trace]; rfl
  same a _ := by rw [c.mem]
  rest := c.rest

theorem ChunkArmed.hasEffect {e : EpId} {h : Word} {n : Node} {f : Slot} {c : Nat} {s t : State}
    (k : ChunkArmed e h n f c s t) : HasEffect e (.arming h n f c (s.endpoint e).txtoggle) s t where
  record := k.record
  others := k.others
  node i := by
    by_cases hi : i = h
    · rw [hi, k.node]
      exact (if_pos rfl).symm
    · rw [k.nodes i hi]
      exact (if_neg hi).symm
  desc y := by
    by_cases hy : y = f
    · rw [hy, State.txBd, k.ctl, k.buf]
      exact (if_pos rfl).symm
    · rw [txBd_congr k.rest.params k.same fun a ha => inBd_disjoint (by simp [hy]) ha]
      exact (if_neg hy).symm
  live := k.live
  evt := by rw [k.trace]; exact (List.append_nil _).symm
  same a ha := k.same a fun hf => ha ⟨f, hf⟩
  rest := k.rest

theorem HasEffect.andThen {e : EpId} {x y : Effect} {s t u : State} (h : HasEffect e x s t) (k : HasEffect e y t u) :
    HasEffect e (x.andThen y) s u where
  record := by rw [k.record, h.record]; rfl
  others i hi := (k.others i hi).trans (h.others i hi)
  node i := by rw [k.node, h.node]; rfl
  desc f := by rw [k.desc, h.desc]; rfl
  live := by rw [k.live, h.live]; exact (freed_append ..).symm
  evt := by rw [k.evt, h.evt, List.append_assoc]; rfl
  same a ha := (k.same a (by rw [h.rest.params]; exact ha)).trans (h.same a ha)
  rest := h.rest.trans k.rest

/-! ### The turn of one endpoint -/

/-- The effect of arming the node `n` of `h` in slot `f`; an empty node is completed at once (41_txqueue.md R144 step 5). -/
def sendEffect (s : State) (e : EpId) (h : Word) (f : Slot) : Effect :=
  let arm := Effect.arming h (s.node h) f (chunkOf s e (s.node h)) (s.endpoint e).txtoggle
  if (s.node h).total = 0#32 then arm.andThen (.completing e h ((s.node h).advanced (chunkOf s e (s.node h)))) else arm

/-- The effect of a pump whose queue has the head `h` (41_txqueue.md R144 steps 2 to 5). -/
def headEffect (s : State) (e : EpId) (h : Word) : Effect :=
  if (s.node h).cursor = (s.node h).total ∧ (s.node h).total ≠ 0#32 then
    if s.bdOwn e .tx .even || s.bdOwn e .tx .odd then .raising [] else .completing e h (s.node h)
  else
    match freeSlot s e with
    | none => .raising []
    | some f => sendEffect s e h f

/-- The effect of the turn of `e`: the hook's event, or the pump. -/
def turnEffect (s : State) (e : EpId) : Effect :=
  if hookOf s.params e = 0#32 then
    match (s.endpoint e).txq with
    | [] => .raising []
    | h :: _ => headEffect s e h
  else .raising [.manualTx e (hookOf s.params e)]

/-- A pump with a head node does what `headEffect` says. -/
theorem pump_headEffect {s : State} (hq : Quiet s) (hm : MemInv s) (hi : QueueInv s) {e : EpId} {h : Word} {rest : List Word}
    (hx : (s.endpoint e).txq = h :: rest) : HasEffect e (headEffect s e h) s (pump e s) := by
  have hn : s.node? h = some (s.node h) := (hi.head hx).1
  unfold headEffect
  split
  · rename_i hdrained
    rw [pump_drained hq hx hdrained.1 hdrained.2]
    split
    · exact hasEffect_none e s
    · exact (complete_headCompleted hi.1 hn e).hasEffect
  · rename_i hleft
    cases hf : freeSlot s e with
    | none =>
      rw [pump_full hq hf]
      exact hasEffect_none e s
    | some f =>
      have armed := armChunk_chunkArmed hq hm hn (e := e) f
      have queues : QueueInv (armChunk e h f s) := queueInv_rule.armChunk e f hx hi
      rw [pump_arms hq hx hf hleft]
      dsimp only [sendEffect]
      split
      · exact armed.hasEffect.andThen (complete_headCompleted queues.1 armed.node e).hasEffect
      · exact armed.hasEffect

/-- A turn does what `turnEffect` says. -/
theorem hookOrPump_turnEffect {s : State} (hq : Quiet s) (hm : MemInv s) (hi : QueueInv s) (e : EpId) :
    HasEffect e (turnEffect s e) s (hookOrPump e s) := by
  unfold turnEffect
  by_cases hk : hookOf s.params e = 0#32
  · rw [if_pos hk, hookOrPump_pump hk]
    cases hx : (s.endpoint e).txq with
    | nil =>
      rw [pump_empty hx]
      exact hasEffect_none e s
    | cons h rest => exact pump_headEffect hq hm hi hx
  · rw [if_neg hk, hookOrPump_hook hk]
    exact hasEffect_emit e _ s

/-- `s` and `t` agree on what the turn of `e` reads. -/
structure SameView (e : EpId) (s t : State) : Prop where
  params : t.params = s.params
  record : t.endpoint e = s.endpoint e
  node : ∀ h ∈ (s.endpoint e).txq, t.node? h = s.node? h
  own : ∀ y, t.bdOwn e .tx y = s.bdOwn e .tx y

/-- The effect of a turn depends on the endpoint alone. -/
theorem turnEffect_congr {e : EpId} {s t : State} (v : SameView e s t) : turnEffect t e = turnEffect s e := by
  have slot : freeSlot t e = freeSlot s e := by
    unfold freeSlot
    rw [v.record, v.own, v.own]
  unfold turnEffect
  rw [v.params, v.record]
  cases hx : (s.endpoint e).txq with
  | nil => rfl
  | cons h rest =>
    have node : t.node h = s.node h := by
      unfold State.node
      rw [v.node h (by rw [hx]; exact List.mem_cons_self ..)]
    have head : headEffect t e h = headEffect s e h := by
      unfold headEffect sendEffect chunkOf
      rw [node, slot, v.record, v.own, v.own]
    dsimp only
    rw [head]

/-- The effect is on the node `n` of `h` alone: no other node changes and no other block is freed. -/
structure Effect.Within (x : Effect) (h : Word) (n : Node) : Prop where
  node : ∀ k m, k ≠ h → x.node k m = m
  blocks : ∀ b ∈ x.blocks, n.owns = true ∧ b = nodeBlock n

theorem within_raising (events : List Event) (h : Word) (n : Node) : (Effect.raising events).Within h n where
  node _ _ _ := rfl
  blocks := by simp [Effect.raising]

theorem within_completing (e : EpId) (h : Word) (n : Node) : (Effect.completing e h n).Within h n where
  node _ _ hk := if_neg hk
  blocks b hb := by
    rw [Effect.completing] at hb
    cases ho : n.owns <;> simp [ho] at hb
    exact ⟨rfl, hb⟩

theorem within_arming (h : Word) (n : Node) (f : Slot) (c : Nat) (toggle : Bool) :
    (Effect.arming h n f c toggle).Within h n where
  node _ _ hk := if_neg hk
  blocks := by simp [Effect.arming]

theorem Effect.Within.andThen {x y : Effect} {h : Word} {n : Node} (hx : x.Within h n) (hy : y.Within h n) :
    (x.andThen y).Within h n where
  node k m hk := (hy.node k _ hk).trans (hx.node k m hk)
  blocks b hb := (List.mem_append.mp hb).elim (hx.blocks b) (hy.blocks b)

/-- An advanced node is the same node with the same block. -/
theorem Effect.Within.of_advanced {x : Effect} {h : Word} {n : Node} {c : Nat} (hx : x.Within h (n.advanced c)) :
    x.Within h n := ⟨hx.node, hx.blocks⟩

/-- A pump touches no node but the head of the queue. -/
theorem headEffect_within (s : State) (e : EpId) (h : Word) : (headEffect s e h).Within h (s.node h) := by
  unfold headEffect
  split
  · split
    · exact within_raising _ _ _
    · exact within_completing _ _ _
  · split
    · exact within_raising _ _ _
    · dsimp only [sendEffect]
      split
      · exact (within_arming ..).andThen (within_completing ..).of_advanced
      · exact within_arming ..

/-- A turn frees blocks of its own queue. -/
theorem turnEffect_blocks {s : State} {e : EpId} : ∀ b ∈ (turnEffect s e).blocks, b ∈ queueBlocks s e := by
  unfold turnEffect
  split
  · cases hx : (s.endpoint e).txq with
    | nil => exact fun b hb => absurd hb List.not_mem_nil
    | cons h rest =>
      intro b hb
      obtain ⟨howns, rfl⟩ := (headEffect_within s e h).blocks b hb
      exact List.mem_filterMap.mpr ⟨h, by rw [hx]; exact List.mem_cons_self .., if_pos howns⟩
  · exact fun b hb => absurd hb List.not_mem_nil

/-- A turn leaves the nodes of the other queues. -/
theorem turnEffect_node {s : State} {e : EpId} {k : Word} (hk : k ∉ (s.endpoint e).txq) (m : Option Node) :
    (turnEffect s e).node k m = m := by
  unfold turnEffect
  split
  · cases hx : (s.endpoint e).txq with
    | nil => rfl
    | cons h rest =>
      refine (headEffect_within s e h).node k m ?_
      rintro rfl
      exact hk (by rw [hx]; exact List.mem_cons_self ..)
  · rfl

/-! ### The loop -/

/-- The endpoints `l` have had their turn, `s` the state before. -/
structure Pumped (s : State) (l : List EpId) (u : State) : Prop where
  wf : MemInv u
  queues : QueueInv u
  record : ∀ e ∈ l, u.endpoint e = (turnEffect s e).record (s.endpoint e)
  restRecord : ∀ e, e ∉ l → u.endpoint e = s.endpoint e
  node : ∀ e ∈ l, ∀ h ∈ (s.endpoint e).txq, u.node? h = (turnEffect s e).node h (s.node? h)
  restNode : ∀ h, (∀ e ∈ l, h ∉ (s.endpoint e).txq) → u.node? h = s.node? h
  desc : ∀ e ∈ l, ∀ y, u.txBd e y = (turnEffect s e).desc y (s.txBd e y)
  restDesc : ∀ e, e ∉ l → ∀ y, u.txBd e y = s.txBd e y
  live : u.pool.live = freed (l.flatMap fun e => (turnEffect s e).blocks) s.pool.live
  evt : u.trace.evt = s.trace.evt ++ l.flatMap fun e => (turnEffect s e).events
  same : SameMem (fun a => ∃ e y, inBd s.params e .tx y a) s u
  rest : SameRest s u

theorem pumped_nil {s : State} (hm : MemInv s) (hi : QueueInv s) : Pumped s [] s where
  wf := hm
  queues := hi
  record := by simp
  restRecord _ _ := rfl
  node := by simp
  restNode _ _ := rfl
  desc := by simp
  restDesc _ _ _ := rfl
  live := rfl
  evt := (List.append_nil _).symm
  same _ _ := rfl
  rest := ⟨rfl, rfl, rfl, rfl, rfl, rfl, rfl⟩

/-- An endpoint whose turn has not come is as its turn would have found it at the start. -/
theorem Pumped.view {s u : State} {l : List EpId} (hi : QueueInv s) (c : Pumped s l u) {e : EpId} (he : e ∉ l) :
    SameView e s u where
  params := c.rest.params
  record := c.restRecord e he
  node h hh := c.restNode h fun i hil => hi.disjoint (by rintro rfl; exact he hil) hh
  own y := by
    have ctl : u.bdCtl e .tx y = s.bdCtl e .tx y := (Prod.mk.inj (c.restDesc e he y)).1
    rw [State.bdOwn, ctl, State.bdOwn]

theorem Pumped.turn {s u : State} {l : List EpId} (hq : Quiet s) (hi : QueueInv s) (e : EpId) (he : e ∉ l)
    (c : Pumped s l u) : Pumped s (l ++ [e]) (hookOrPump e u) := by
  have uq : Quiet u := by rw [Quiet, c.rest.env]; exact hq
  have x := hookOrPump_turnEffect uq c.wf c.queues e
  rw [turnEffect_congr (c.view hi he)] at x
  have mem_snoc : ∀ {i}, i ≠ e → i ∈ l ++ [e] → i ∈ l := fun hne hil => by simpa [hne] using hil
  have not_mem : ∀ {i}, i ∉ l ++ [e] → i ∉ l ∧ i ≠ e := fun hil => by simpa using hil
  have mem_last : e ∈ l ++ [e] := by simp
  have otherDesc : ∀ i, i ≠ e → ∀ y, (hookOrPump e u).txBd i y = u.txBd i y := fun i hne y =>
    txBd_congr x.rest.params x.same fun a ha ⟨z, hz⟩ => inBd_disjoint (by simp [hne]) ha hz
  constructor
  case wf => exact hookOrPump_keeps memInv_closed.toStable e c.wf
  case queues => exact queueInv_rule.kept.hookOrPump e c.queues
  case record =>
    intro i hil
    by_cases h : i = e
    · rw [h, x.record, c.restRecord e he]
    · rw [x.others i h, c.record i (mem_snoc h hil)]
  case restRecord =>
    intro i hil
    rw [x.others i (not_mem hil).2, c.restRecord i (not_mem hil).1]
  case node =>
    intro i hil k hk
    by_cases h : i = e
    · subst h
      rw [x.node, c.restNode k fun j hj => hi.disjoint (by rintro rfl; exact he hj) hk]
    · rw [x.node, turnEffect_node (hi.disjoint h hk), c.node i (mem_snoc h hil) k hk]
  case restNode =>
    intro k hk
    rw [x.node, turnEffect_node (hk e mem_last), c.restNode k fun i hil => hk i (List.mem_append_left _ hil)]
  case desc =>
    intro i hil y
    by_cases h : i = e
    · rw [h, x.desc, c.restDesc e he]
    · rw [otherDesc i h, c.desc i (mem_snoc h hil)]
  case restDesc =>
    intro i hil y
    rw [otherDesc i (not_mem hil).2, c.restDesc i (not_mem hil).1]
  case live =>
    rw [x.live, c.live, List.flatMap_append, freed_append]
    simp
  case evt =>
    rw [x.evt, c.evt, List.flatMap_append]
    simp
  case same =>
    intro a ha
    refine (x.same a ?_).trans (c.same a ha)
    rw [c.rest.params]
    exact fun ⟨y, hy⟩ => ha ⟨e, y, hy⟩
  case rest => exact c.rest.trans x.rest

theorem pumped_all {s : State} (hq : Quiet s) (hm : MemInv s) (hi : QueueInv s) : Pumped s epIds (iSof s) :=
  foldl_turns (R := Pumped s) (fun _ e _ he c => c.turn hq hi e he) epIds [] (by decide) (pumped_nil hm hi)

/-! ### `I.SOF` -/

/-- `T.IN` has the effect of a turn, from the state with the address committed. -/
theorem tIn_turnEffect {s : State} (hq : Quiet s) (hm : MemInv s) (hi : QueueInv s) (e : EpId) :
    HasEffect e (turnEffect s e) (s.committed e) (tIn e s) := by
  have view : SameView e s (s.committed e) := ⟨rfl, rfl, fun _ _ => rfl, fun _ => rfl⟩
  rw [tIn_committed hq, ← turnEffect_congr view]
  exact hookOrPump_turnEffect (s := s.committed e) rfl hm hi e

/-- Settles O38: after the loop (`pumped_all`) and after a `T.IN` alone (`tIn_turnEffect`) an endpoint shows the same effect. -/
theorem sofPumpsEveryEndpoint : Obligations.SofPumpsEveryEndpoint := by
  intro s hq hm hi
  have c := pumped_all hq hm hi
  have alone : ∀ {e x u}, exec (.tIn e x) s = .next u → HasEffect e (turnEffect s e) (s.committed e) u := by
    intro e x u hu
    cases hu
    exact tIn_turnEffect hq hm hi e
  refine ⟨iSof s, rfl, fun e x u hu => ⟨?_, fun h hh => ?_, fun y => ?_⟩, fun h hh => c.restNode h fun e _ => hh e,
    ⟨fun e => (turnEffect s e).blocks, fun e x u hu => ⟨(alone hu).live, turnEffect_blocks⟩, c.live⟩,
    ⟨fun e => (turnEffect s e).events, fun e x u hu => (alone hu).evt, c.evt⟩, c.same,
    c.rest.params, c.rest.port, c.rest.regs, c.rest.sess, c.rest.wire, c.rest.sie, c.rest.env⟩
  · exact (c.record e (mem_epIds e)).trans (alone hu).record.symm
  · exact (c.node e (mem_epIds e) h hh).trans ((alone hu).node h).symm
  · exact Prod.mk.inj ((c.desc e (mem_epIds e) y).trans ((alone hu).desc y).symm)

end Sys2Proof.Machine
end


section
/-! A reply that cannot be allocated (41_txqueue.md R151; 43_control.md R182 to R187; 60_exceptions.md R233): each row that replies
is one `ISEND`, and a failed `ISEND` sets the fault and uses up draws. -/

namespace Sys2Proof.Machine

/-- A reply whose node or block cannot be allocated. -/
theorem isend_fails {s : State} (e : EpId) (src : TxSource) {len : Word} (hf : AllocationFails s len) : ∃ x : Env,
    isend e src len s = (s.withSess { s.sess with isrAlloc := true }).withEnv x ∧ x.inbox = s.env.inbox ∧
      x.between = s.env.between := by
  obtain ⟨x, hx, hrest⟩ := prepNode_fails src len 0#32 hf
  exact ⟨x, by rw [isend, hx]; rfl, hrest⟩

/-- The rows that reply with nothing done before, `n` the length of the reply. -/
def RepliesAtOnce (s : State) (i : Instr) (n : Word) : Prop :=
  (n = 0#32 ∧ (i = .setAddress ∨ i = .vendorReboot)) ∨
    (n = BitVec.ofNat 32 (min 2 (s.sess.lastSetup.extractLsb' 48 16).toNat) ∧ i = .getStatus) ∨
    (n = BitVec.ofNat 32 (min 1 (s.sess.lastSetup.extractLsb' 48 16).toNat) ∧ i = .getConfiguration) ∨
    ∃ a m, resolver s.params (s.sess.lastSetup.extractLsb' 16 16) (s.sess.lastSetup.extractLsb' 32 16) = some (a, m) ∧
      n = BitVec.ofNat 32 (min m.toNat (s.sess.lastSetup.extractLsb' 48 16).toNat) ∧
      (i = .getDescriptor ∨ i = .getDescriptorIf)

theorem replyBytes_isend (bytes : List Byte) (s : State) :
    replyBytes bytes s = isend 0 (.literal (bytes.take (s.sess.lastSetup.extractLsb' 48 16).toNat))
      (BitVec.ofNat 32 (min bytes.length (s.sess.lastSetup.extractLsb' 48 16).toNat)) s := by
  rw [Nat.min_comm, ← List.length_take]
  rfl

theorem describe_isend {s : State} {a m : Word}
    (h : resolver s.params (s.sess.lastSetup.extractLsb' 16 16) (s.sess.lastSetup.extractLsb' 32 16) = some (a, m)) :
    describe s = isend 0 (.memory a) (BitVec.ofNat 32 (min m.toNat (s.sess.lastSetup.extractLsb' 48 16).toNat)) s := by
  unfold describe
  rw [Session.wValue, Session.wIndex, h]
  rfl

/-- Such a row is one `ISEND` on endpoint 0. -/
theorem exec_isend {s : State} {i : Instr} {n : Word} (h : RepliesAtOnce s i n) :
    ∃ src, exec i s = .next (isend 0 src n s) := by
  rcases h with ⟨rfl, rfl | rfl⟩ | ⟨rfl, rfl⟩ | ⟨rfl, rfl⟩ | ⟨a, m, hres, rfl, rfl | rfl⟩
  case inl.inl => exact ⟨_, exec_setAddress s⟩
  case inl.inr => exact ⟨_, exec_vendorReboot s⟩
  case inr.inl => exact ⟨_, by rw [exec_getStatus, replyBytes_isend]; rfl⟩
  case inr.inr.inl => exact ⟨_, by rw [exec_getConfiguration, replyBytes_isend]; rfl⟩
  all_goals exact ⟨_, by rw [← describe_isend hres]; rfl⟩

/-- Settles O53: a failed `ISEND` (`isend_fails`), after the loop of re-arms for `SET_CONFIGURATION` (`rearmed_loop`) and at once
for the other rows (`exec_isend`). -/
theorem replyAllocationFailure : Obligations.ReplyAllocationFailure := by
  refine ⟨fun s hq hm ha => ?_, fun s i n hf hi => ?_⟩
  case refine_1 =>
    have c : Rearmed _ epIds.tail s.reconfigured :=
      rearmed_loop (s := s.withSess { s.sess with config := s.sess.wValue.extractLsb' 0 8 }) hq hm
    rw [exec_setConfiguration, setConfiguration_eq]
    generalize s.reconfigured = u at c
    have frame := c.frame
    have params : u.params = s.params := by rw [frame]; rfl
    have env : u.env = s.env := by rw [frame]; rfl
    have pool : u.pool = s.pool := by rw [frame]; rfl
    have port : u.port = s.port := by rw [frame]; rfl
    have trace : u.trace = s.trace := by rw [frame]; rfl
    have sie : u.sie = s.sie := by rw [frame]; rfl
    have sess : u.sess = { s.sess with config := s.sess.lastSetup.extractLsb' 16 8 } := by
      rw [frame, ← wValue_low]
      rfl
    obtain ⟨x, hx, hinbox, hbetween⟩ :=
      isend_fails 0 (.literal []) (len := 0#32) (.inl ((allocNode_answer_congr params env pool).trans ha))
    have zero : (0 : EpId) ∉ epIds.tail := by decide
    rw [acknowledge, hx]
    refine ⟨_, rfl, ?_, c.restRecord 0 zero, c.restEpc 0 zero, pool, fun e he => ⟨?_, ?_, fun b0 b1 hf hb => ?_⟩,
      fun a ha => ?_, congrArg State.regs frame, params, port, trace, sie, hinbox.trans (by rw [env]),
      hbetween.trans (by rw [env])⟩
    · show { u.sess with isrAlloc := true } = _
      rw [sess]
    · exact c.record e (mem_epIds_tail.mpr he)
    · exact c.epc e (mem_epIds_tail.mpr he)
    · obtain ⟨c1, f1, c2, f2⟩ := c.armed e (mem_epIds_tail.mpr he) b0 b1 hf hb
      exact ⟨c1, f1, c2, f2⟩
    · exact c.same a fun ⟨e, he, hr, y, hy⟩ => ha ⟨e, y, mem_epIds_tail.mp he, hr.1, hr.2, hy⟩
  case refine_2 =>
    obtain ⟨src, hexec⟩ := exec_isend hi
    obtain ⟨x, hx, hrest⟩ := isend_fails 0 src hf
    exact ⟨_, by rw [hexec, hx], rfl, hrest⟩

end Sys2Proof.Machine
end

section
/-! The dispatcher and the routines it runs besides the pump and the reset (42_dispatcher.md R162 to R175): the order of an
invocation, the error acknowledgement, the receive half of `I.TOKDNE`, and the delivery of a packet to its endpoint. -/

namespace Sys2Proof.Machine

/-! ### The order of an invocation (R161, R162) -/

/-- The sources in order, each with its bit and its routine, are the rows of R100. -/
theorem sourceOrder_rows (st : BitVec 8) : sourceOrder.map (fun x => (x.bit, x.routine st)) =
    [(0, .iReset), (1, .iError), (2, .iSof), (3, .iTokdne (st &&& 0xFC#8)), (4, .iSleep), (5, .iResume),
      (6, .iAttach), (7, .iStall)] := rfl

/-- Settles O4: the routines are those of the pending sources in `sourceOrder`, whose rows are `sourceOrder_rows`. -/
theorem dispatchOrder : Obligations.DispatchOrder := by
  intro snap st
  calc routinesOf snap st
      = (sourcesOf snap).filterMap (some ∘ Source.routine st) := by rw [List.filterMap_eq_map]; rfl
    _ = sourceOrder.filterMap fun x => if snap.getLsbD x.bit then some (x.routine st) else none :=
        List.filterMap_filter
    _ = _ := by rw [← sourceOrder_rows, List.filterMap_map]; rfl

/-! ### `I.ERROR` (R164) and the routines that only acknowledge (R172 to R175) -/

/-- The peripheral steps put before an access are taken there. -/
theorem tick_steps {s : State} {steps : List HostStep} {rest : List (List HostStep)}
    (hb : s.env.between = steps :: rest) :
    tick s = steps.foldl (fun t h => hostStep h t) (s.withEnv { s.env with between := rest }) := by
  rw [tick, hb]

/-- An error the peripheral may report sets its flags and `ISTAT.ERROR` (44_peripheral.md R204). -/
theorem pErr_enabled {s : State} {bits : BitVec 5} (hr : s.sess.reboot = false) (hu : s.regs.usben = true)
    (hbits : bits ≠ 0#5) :
    pErr bits s = (s.withRegs { s.regs with errstat := s.regs.errstat ||| bits }).fire .error := by
  have enabled : (s.stepEnabled && bits != 0#5) = true := by simp [State.stepEnabled, hr, hu, hbits]
  rw [pErr, if_pos enabled]

/-- Every flag that was read is cleared by writing it back. -/
theorem writeErrstat_self (r : Regs) : r.writeErrstat r.errstat = { r with errstat := 0#5 } := by
  rw [Regs.writeErrstat, BitVec.and_not_self]
  rfl

/-- Of the flags set before and after the read, writing back what was read leaves the later ones. -/
theorem flags_writtenBack (read later : BitVec 5) : (read ||| later) &&& ~~~read = later &&& ~~~read := by
  ext i
  simp [Bool.and_or_distrib_right]

/-- What the first access reads is what the second one writes back. -/
theorem acknowledgeErrors_eq (s : State) : acknowledgeErrors s =
    (tick (tick s)).withRegs ((tick (tick s)).regs.writeErrstat (tick s).regs.errstat) := rfl

theorem acknowledgeErrors_quiet {s : State} (hq : Quiet s) :
    acknowledgeErrors s = s.withRegs { s.regs with errstat := 0#5 } := by
  rw [acknowledgeErrors_eq, tick_quiet hq, tick_quiet hq, writeErrstat_self]

/-- With an error between the read and the write, what was read before it is written back after it. -/
theorem acknowledgeErrors_interleaved {s : State} {bits : BitVec 5} (hb : s.env.between = [[], [.err bits]]) :
    acknowledgeErrors s =
      let u := pErr bits (s.withEnv { s.env with between := [] })
      u.withRegs (u.regs.writeErrstat s.regs.errstat) := by
  have read : tick s = s.withEnv { s.env with between := [[.err bits]] } := tick_steps hb
  have write : tick (s.withEnv { s.env with between := [[.err bits]] }) =
      pErr bits (s.withEnv { s.env with between := [] }) :=
    tick_steps (s := s.withEnv { s.env with between := [[.err bits]] }) rfl
  rw [acknowledgeErrors_eq, read, write]
  rfl

/-- Settles O41: what was read is written back, on a quiet peripheral (`acknowledgeErrors_quiet`) and with an error in between
(`acknowledgeErrors_interleaved`). -/
theorem errorAcknowledged : Obligations.ErrorAcknowledged := by
  refine fun s => ⟨fun hq => by rw [exec_iError, acknowledgeErrors_quiet hq], fun bits hb hr hu hbits => ?_⟩
  refine ⟨_, exec_iError s, ?_⟩
  rw [acknowledgeErrors_interleaved hb, pErr_enabled (s := s.withEnv { s.env with between := [] }) hr hu hbits]
  exact ⟨flags_writtenBack s.regs.errstat bits, rfl⟩

/-- Settles O42: the meaning of each of the four is the state it is given. -/
theorem acknowledgeOnlyRoutines : Obligations.AcknowledgeOnlyRoutines := by
  intro s i hi
  simp only [List.mem_cons, List.not_mem_nil, or_false] at hi
  rcases hi with rfl | rfl | rfl | rfl
  case inl => exact exec_iSleep s
  case inr.inl => exact exec_iResume s
  case inr.inr.inl => exact exec_iAttach s
  case inr.inr.inr => exact exec_iStall s

/-! ### The receive half of `I.TOKDNE` (R166, R170) -/

/-- The state after the token routine that a control word selects, the payload read (R166). -/
def State.afterToken (s : State) (e : EpId) (w : Word) (payload : List Byte) : State :=
  match tokenOf w with
  | .ok .setup => tSetup e payload s
  | .ok .out => tOut e payload s
  | .error _ => s

theorem afterToken_keeps {P : State → Prop} (hP : Stable P) {s : State} (e : EpId) (w : Word) (payload : List Byte)
    (h : P s) : P (s.afterToken e w payload) := by
  unfold State.afterToken
  split
  · exact tSetup_keeps hP e payload h
  · exact tOut_keeps hP e payload h
  · exact h

/-- With the peripheral quiet a written-back slot runs its token and is re-armed. -/
theorem receiveDone_quiet {s : State} (hq : Quiet s) {e : EpId} {x : Slot} (hown : s.bdOwn e .rx x = false) :
    receiveDone e x s = rxRearm e x (s.bdCtl e .rx x)
      (s.afterToken e (s.bdCtl e .rx x) (s.peekBytes (s.bdBuf e .rx x) (ctlBc (s.bdCtl e .rx x)).toNat)) := by
  have vacated : ctlOwn (s.bdCtl e .rx x) ≠ true := ne_true_of_eq_false hown
  unfold receiveDone
  simp only [tick_quiet hq, readPacket_quiet hq, if_neg vacated]
  rfl

/-- A control word followed by its slot's name and a payload of its count decodes by its token. -/
theorem decode_controlWord (rk : BitVec 16) (w : Word) (e : EpId) (x : Slot) {payload : List Byte}
    (hlen : payload.length = (ctlBc w).toNat) :
    decode rk .bd (bytesOfWord w ++ statByte e .rx x :: payload) = decodeBd w e payload := by
  simp only [bytesOfWord, List.cons_append, List.nil_append, decode, word_of_its_bytes, statEp_statByte, ← hlen,
    List.take_length, Nat.lt_irrefl, if_false]

/-- A written-back control word that selects no token routine has neither token. -/
theorem tokenOf_error {w : Word} {r : Reject} (hown : ctlOwn w = false) (h : tokenOf w = .error r) :
    ctlTok w ≠ 0x1#4 ∧ ctlTok w ≠ 0xD#4 := by
  constructor <;> intro htok <;> simp [tokenOf, hown, htok, tokSetup, tokOut] at h

/-- What runs is the token routine that the control word decodes to, or none. -/
theorem afterToken_decoded (s : State) (e : EpId) {w : Word} (hown : ctlOwn w = false) (payload : List Byte) :
    (∃ i, decodeBd w e payload = .ok i ∧ exec i s = .next (s.afterToken e w payload)) ∨
      (ctlTok w ≠ 0x1#4 ∧ ctlTok w ≠ 0xD#4 ∧ s.afterToken e w payload = s) := by
  unfold decodeBd State.afterToken
  match htok : tokenOf w with
  | .ok .setup => exact .inl ⟨_, rfl, exec_tSetup s e (ctlData1 w) payload⟩
  | .ok .out => exact .inl ⟨_, rfl, exec_tOut s e (ctlData1 w) payload⟩
  | .error r =>
    obtain ⟨hout, hsetup⟩ := tokenOf_error hown htok
    exact .inr ⟨hout, hsetup, rfl⟩

/-- A slot is not re-armed where receive is disabled or the pair is gone (R170). -/
theorem rxRearm_idle {s : State} {e : EpId} (x : Slot) (w : Word)
    (h : flagRx (s.endpoint e).flags = false ∨ (s.endpoint e).rxbuf = none) : rxRearm e x w s = s := by
  unfold rxRearm
  split
  · rfl
  · rename_i hpair
    have off : flagRx (s.endpoint e).flags = false := h.resolve_right (by rw [hpair]; nofun)
    rw [off]
    rfl

/-- A slot is re-armed with its own half of the pair and the toggle opposite to the one received (R170). -/
theorem rxRearm_armed {s : State} {e : EpId} {b0 b1 : Word} (x : Slot) (w : Word)
    (hf : flagRx (s.endpoint e).flags = true) (hb : (s.endpoint e).rxbuf = some (b0, b1)) :
    rxRearm e x w s = armBd e .rx x (if x = .even then b0 else b1) (rxCount (s.endpoint e).maxpkt) (!ctlData1 w) s := by
  unfold rxRearm
  rw [hb, hf]
  cases x <;> rfl

/-- Settles O44: the slot's token runs and its slot is re-armed (`receiveDone_quiet`); the token is what the word decodes to
(`afterToken_decoded`), and re-arming is `ARMBD` of the slot's half (`rxRearm_armed`). -/
theorem tokenDoneRunsTokenAndRearms : Obligations.TokenDoneRunsTokenAndRearms := by
  intro s e x hq hm hown w payload
  have hexec : exec (.iTokdne (statByte e .rx x)) s = .next (rxRearm e x w (s.afterToken e w payload)) := by
    rw [← receiveDone_quiet hq hown, exec_iTokdne, iTokdne, statDir_statByte, statEp_statByte, statSlot_statByte]
  have token := afterToken_decoded s e (w := w) hown payload
  have uq : Quiet (s.afterToken e w payload) := afterToken_keeps quiet_closed.toStable e w payload hq
  have um : MemInv (s.afterToken e w payload) := afterToken_keeps memInv_closed.toStable e w payload hm
  have up : (s.afterToken e w payload).params = s.params :=
    afterToken_keeps (params_closed s.params).toStable e w payload rfl
  rw [decode_controlWord s.params.rebootKey w e x (State.peekBytes_length ..)]
  generalize s.afterToken e w payload = u at *
  refine ⟨u, _, token, hexec, fun h => rxRearm_idle x w h, fun b0 b1 hf hb => ?_⟩
  obtain ⟨hctl, hbuf, -, hsame, hmem⟩ := armBd_spec uq um e .rx x (if x = .even then b0 else b1)
    (rxCount (u.endpoint e).maxpkt) (!ctlData1 w)
  rw [rxRearm_armed x w hf hb]
  exact ⟨hctl.trans (armedWord_rxCount _ _), hbuf, up ▸ hsame, hmem⟩

/-! ### Delivery (R171) -/

/-- Where the built-in handler is not selected, a packet goes to the endpoint's callback, if it has one. -/
theorem handler_callback {s : State} {e : EpId} (h : ¬ (e = 0 ∧ (s.endpoint e).rxcb = cbEp0)) (pid : BitVec 4)
    (payload : List Byte) : handler e pid payload s = s.withTrace { s.trace with
      evt := s.trace.evt ++ if (s.endpoint e).rxcb = 0#32 then [] else [.receive e (s.endpoint e).rxcb pid payload] } := by
  rw [handler, if_neg h]
  split
  · rw [List.append_nil]
    rfl
  · rfl

/-- On endpoint 0 the built-in handler takes an OUT. -/
theorem tOut_builtin {s : State} (h : (s.endpoint 0).rxcb = cbEp0) (payload : List Byte) :
    tOut 0 payload s = ctrlOut payload s := by
  rw [tOut, handler, if_pos ⟨rfl, h⟩, if_neg (by decide)]

/-! ### `T.SETUP` outside the built-in handler (R168) -/

/-- Settles O45: `LASTSETUP` is no part of the queues, so they are cancelled as before it was written
(`cancelQueue_cancelled`); the callback and endpoint the delivery asks for are those of the start. -/
theorem setupDeliveredToCallback : Obligations.SetupDeliveredToCallback := by
  intro s e d payload hi hcb
  obtain ⟨hrecord, hothers, htrace, hnode, hlive, hframe⟩ :=
    cancelQueue_cancelled (s := s.withSess { s.sess with lastSetup := packSetup payload }) hi e
  refine ⟨_, exec_tSetup s e d payload, ?_⟩
  unfold tSetup
  dsimp only
  generalize cancelQueue e (s.withSess { s.sess with lastSetup := packSetup payload }) = u at *
  have record : (u.updEp e fun r => { r with txtoggle := true }).endpoint e =
      { s.endpoint e with txq := [], txtoggle := true } := by
    rw [State.updEp_same, hrecord]
    rfl
  have others : ∀ i, i ≠ e → (u.updEp e fun r => { r with txtoggle := true }).endpoint i = s.endpoint i :=
    fun i hne => (State.updEp_other u _ hne).trans (hothers i hne)
  rw [handler_callback (by rw [record]; exact hcb), record]
  refine ⟨?_, record, others, hnode, hlive, ?trace, ?_, ?_, ?_, ?_, ?_, ?_⟩
  case trace =>
    simp only [State.withTrace_trace, State.updEp_trace, htrace]
    rfl
  all_goals rw [hframe]; rfl

/-! ### `T.OUT` (R169, R193) -/

theorem isSentinel_iff (s : State) (payload : List Byte) : s.isSentinel payload = true ↔
    s.sess.lastSetup.extractLsb' 0 16 = s.params.fwupdKey ∧ payload.head? = some s.params.sentinel := by
  simp [State.isSentinel, Session.key, requestKey]

/-- The sentinel ends the run with `Reboot` raised, and is passed on after that. -/
theorem ctrlOut_sentinel {s : State} (hq : Quiet s) {payload : List Byte} (h : s.isSentinel payload = true) :
    ctrlOut payload s = (s.withSess { s.sess with reboot := true }).withTrace
      { s.trace with evt := s.trace.evt ++ [.reboot, .receive 0 cbEp0 tokOut payload] } := by
  simp only [ctrlOut, if_pos h, tick_quiet hq]
  simp only [State.emit, State.withTrace_trace, State.withSess_trace, State.withTrace_withTrace, List.append_assoc,
    List.cons_append, List.nil_append]

/-- Every other payload is passed on alone. -/
theorem ctrlOut_plain {s : State} {payload : List Byte} (h : ¬ s.isSentinel payload = true) :
    ctrlOut payload s = s.emit (.receive 0 cbEp0 tokOut payload) := by
  rw [ctrlOut, if_neg h]

/-- Settles O47: outside the built-in handler the packet is delivered (`handler_callback`), in it the sentinel is told from
every other payload (`ctrlOut_sentinel`, `ctrlOut_plain`). -/
theorem outDelivered : Obligations.OutDelivered := by
  intro s e d payload hq
  rw [exec_tOut]
  refine ⟨fun hnone => ?_, fun hcb hsome => ?_, ?_⟩
  · have hcb : ¬ (e = 0 ∧ (s.endpoint e).rxcb = cbEp0) := fun ⟨_, h⟩ => absurd (hnone.symm.trans h) (by decide)
    rw [tOut, handler_callback hcb, if_pos hnone, List.append_nil]
    rfl
  · rw [tOut, handler_callback hcb, if_neg hsome]
    rfl
  · rintro rfl hcb key
    rw [tOut_builtin hcb, ← isSentinel_iff]
    exact ⟨fun h => by rw [ctrlOut_sentinel hq h]; rfl, fun h => by rw [ctrlOut_plain h]; rfl⟩

end Sys2Proof.Machine
end

section
/-! The request rows of endpoint 0 (43_control.md R182 to R190) and the way `T.SETUP` to the built-in handler runs one of them
(R181). A row that replies is one `ISEND`: what it leaves is said once, for a reply of no bytes and for one of some. -/

namespace Sys2Proof.Machine

/-! ### A reply that is allocated (41_txqueue.md R151) -/

/-- Once its node is built, `ISEND` appends it. -/
theorem isend_built {s u : State} {h len : Word} (e : EpId) {src : TxSource}
    (hu : prepNode src len 0#32 s = (some h, u)) : isend e src len s = appendNode e h u := by
  rw [isend, hu]

/-- A reply of no bytes is a zero-length node. -/
theorem isend_empty {s : State} {h : Word} (e : EpId) (src : TxSource) (ha : s.allocNode.1 = some h) :
    QueuedEmpty e h 0#32 s (isend e src 0#32 s) ∧ SameControl s (isend e src 0#32 s) := by
  obtain ⟨u, hu, hbuilt, hlive, hmem⟩ := prepNode_empty_built src 0#32 ha
  obtain ⟨hqe, hqs, hn, hns, hcontrol⟩ := hbuilt.append e
  rw [isend_built e hu]
  exact ⟨⟨hqe, hqs, hn, hns, hlive, hmem⟩, hcontrol⟩

section
variable {s : State} (hq : Quiet s) (hm : MemInv s) (hp : Params.ok s.params)
include hq hm hp

/-- A reply of some bytes is a node that owns the block drawn, filled from a state that differs in pool and draws. -/
theorem isend_data {h b len : Word} (e : EpId) {src : TxSource} (hf : src.Fits len) (hl : len ≠ 0#32)
    (ha : s.allocNode.1 = some h) (hb : (s.allocNode.2.alloc len).1 = some b) :
    QueuedData e h b len 0#32 s (isend e src len s) ∧ SameControl s (isend e src len s) ∧
      ∃ x pool, x.between = s.env.between ∧
        (isend e src len s).mem = (fillFrom src len b ((s.withEnv x).withPool pool)).mem := by
  obtain ⟨x, pool, u, hx, hu, hbuilt, hlive, hsame, hmem⟩ := prepNode_data_built hq hm hp hf 0#32 hl ha hb
  obtain ⟨hqe, hqs, hn, hns, hcontrol⟩ := hbuilt.append e
  rw [isend_built e hu]
  exact ⟨⟨hqe, hqs, hn, hns, hlive, hsame⟩, hcontrol, x, pool, hx, hmem⟩

/-- A reply of literal bytes has them in its block. -/
theorem isend_literal {h b : Word} (e : EpId) {bytes : List Byte} (hne : bytes ≠ []) (hlt : bytes.length < 2 ^ 32)
    (ha : s.allocNode.1 = some h) (hb : (s.allocNode.2.alloc (BitVec.ofNat 32 bytes.length)).1 = some b) :
    let t := isend e (.literal bytes) (BitVec.ofNat 32 bytes.length) s
    QueuedData e h b (BitVec.ofNat 32 bytes.length) 0#32 s t ∧ SameControl s t ∧
      ∀ k (hk : k < bytes.length), t.mem.read (b + BitVec.ofNat 32 k) = bytes[k] := by
  have len : (BitVec.ofNat 32 bytes.length).toNat = bytes.length := by
    rw [BitVec.toNat_ofNat, Nat.mod_eq_of_lt hlt]
  have nonempty : BitVec.ofNat 32 bytes.length ≠ 0#32 := fun h0 => by
    rw [h0] at len
    exact hne (List.length_eq_zero_iff.mp len.symm)
  obtain ⟨hqueued, hcontrol, x, pool, hx, hmem⟩ :=
    isend_data hq hm hp e (src := .literal bytes) len.symm nonempty ha hb
  refine ⟨hqueued, hcontrol, fun k hk => ?_⟩
  obtain ⟨-, hclear⟩ := drawnBlock_clear hp ha hb
  rw [hmem, fillFrom, fillBytes_quiet bytes (s := (s.withEnv x).withPool pool) (hx.trans hq)]
  exact State.read_pokeBytes_at bytes (s := (s.withEnv x).withPool pool) b hm hlt k hk (hclear k (len.symm ▸ hk))

/-- A reply from memory has a copy of the bytes in its block. -/
theorem isend_memory {h b len : Word} (e : EpId) (a : Word) (hl : len ≠ 0#32)
    (ha : s.allocNode.1 = some h) (hb : (s.allocNode.2.alloc len).1 = some b) :
    QueuedData e h b len 0#32 s (isend e (.memory a) len s) ∧ SameControl s (isend e (.memory a) len s) ∧
      Copied a b len.toNat s (isend e (.memory a) len s) := by
  obtain ⟨hqueued, hcontrol, x, pool, hx, hmem⟩ := isend_data hq hm hp e (src := .memory a) trivial hl ha hb
  obtain ⟨hw, hclear⟩ := drawnBlock_clear hp ha hb
  refine ⟨hqueued, hcontrol, ?_⟩
  rw [Copied, hmem]
  exact (copyBytes_spec len.toNat (s := (s.withEnv x).withPool pool) a b (hx.trans hq) hm hw hclear).1

end

/-! ### The rows of the request table (R183 to R190) -/

/-- Settles O48: both rows are the acknowledgement (`acknowledge_granted`). -/
theorem acknowledgedRequests : Obligations.AcknowledgedRequests := by
  intro s h ha i hi
  have hexec : exec i s = .next (acknowledge s) := by
    simp only [List.mem_cons, List.not_mem_nil, or_false] at hi
    rcases hi with rfl | rfl
    · exact exec_setAddress s
    · exact exec_vendorReboot s
  exact ⟨_, hexec, acknowledge_granted ha⟩

/-- Settles O49: each row is one `ISEND` of the bytes left by `wLength`, empty (`isend_empty`) or not (`isend_literal`). -/
theorem literalReplies : Obligations.LiteralReplies := by
  intro s i bytes h hq hm hp hi ha
  have hexec : exec i s = .next (isend 0 (.literal bytes) (BitVec.ofNat 32 bytes.length) s) := by
    rcases hi with ⟨rfl, rfl⟩ | ⟨rfl, rfl⟩
    · exact exec_getStatus s
    · exact exec_getConfiguration s
  have hlt : bytes.length < 2 ^ 32 := by
    rcases hi with ⟨-, rfl⟩ | ⟨-, rfl⟩ <;> simp only [List.length_take, List.length_cons, List.length_nil] <;> omega
  refine ⟨?_, fun b hne hb => ⟨_, hexec, isend_literal hq hm hp 0 hne hlt ha hb⟩⟩
  rintro rfl
  exact ⟨_, hexec, isend_empty 0 (.literal []) ha⟩

theorem exec_descriptorRow {i : Instr} (s : State) (hi : i = .getDescriptor ∨ i = .getDescriptorIf) :
    exec i s = .next (describe s) := by
  rcases hi with rfl | rfl
  · exact exec_getDescriptor s
  · exact exec_getDescriptorIf s

/-- Settles O50: both rows are one `ISEND` of the descriptor (`describe_isend`), empty (`isend_empty`) or copied
(`isend_memory`). -/
theorem descriptorReplies : Obligations.DescriptorReplies := by
  intro s a n h hq hm hp i hi hres ha len
  have hexec : exec i s = .next (isend 0 (.memory a) len s) := by
    rw [exec_descriptorRow s (by simpa using hi), describe_isend hres]
  refine ⟨fun hlen => ?_, fun b hlen hb => ⟨_, hexec, isend_memory hq hm hp 0 a hlen ha hb⟩⟩
  rw [hlen] at hexec
  exact ⟨_, hexec, isend_empty 0 (.memory a) ha⟩

/-- `STALL0` with the peripheral quiet (R190). -/
theorem stall0_quiet {s : State} (hq : Quiet s) : stall0 s = s.withRegs (s.regs.setEpc 0 (s.regs.epc 0 ||| 0x8#4)) :=
  raiseEpctl_quiet hq 0 stallMask

/-- A pair the resolver does not find is stalled (R185). -/
theorem describe_unknown {s : State}
    (h : resolver s.params (s.sess.lastSetup.extractLsb' 16 16) (s.sess.lastSetup.extractLsb' 32 16) = none) :
    describe s = stall0 s := by
  rw [describe, Session.wValue, Session.wIndex, h]

/-- Settles O51: all of them are `STALL0` (`stall0_quiet`), the descriptor rows by `describe_unknown`. -/
theorem stalledRequests : Obligations.StalledRequests := by
  intro s i hq hi
  rw [← stall0_quiet hq]
  rcases hi with ⟨key, rfl⟩ | ⟨hrow, hres⟩
  · exact exec_stallDefault s key
  · rw [exec_descriptorRow s hrow, describe_unknown hres]

/-! ### `T.SETUP` to the built-in handler (42_dispatcher.md R168; R181) -/

/-- `CTRL.SETUP` after its first two steps: the stall bit is cleared, and the override's answer is recorded. -/
def State.overrideAsked (s : State) : State :=
  (s.withRegs (s.regs.setEpc 0 (s.regs.epc 0 &&& ~~~stallMask))).emit
    (.override s.sess.lastSetup (overrideOf s.params s.sess.lastSetup))

/-- What `CTRL.SETUP` does with the override's answer. -/
def answerSetup (s : State) : OverrideResult → State
  | .reply bytes => replyBytes bytes s
  | .ack => acknowledge s
  | .stall => stall0 s
  | .declined => runRequest (requestOf s.params.rebootKey s.sess.key) s

theorem ctrlSetup_quiet {s : State} (hq : Quiet s) :
    ctrlSetup s = answerSetup s.overrideAsked (overrideOf s.params s.sess.lastSetup) := by
  rw [ctrlSetup, clearEpctl_quiet hq]
  rfl

/-- The instruction of a request row runs the row's rule. -/
theorem exec_requestInstr (key : BitVec 16) (r : Request) (s : State) :
    exec (r.instr key) s = .next (runRequest r s) := by
  cases r <;> rfl

/-- A packet of eight bytes decodes to the row of its key. -/
theorem decode_setupPacket (rk : BitVec 16) {payload : List Byte} (h : payload.length = 8) :
    decode rk .setup payload = .ok (decodeSetup rk (packSetup payload)) := by
  match payload, h with
  | [_, _, _, _, _, _, _, _], _ => rfl

/-- `T.SETUP` before the packet is delivered: snapshot, discard and toggle. -/
def State.setupTaken (s : State) (e : EpId) (payload : List Byte) : State :=
  (cancelQueue e (s.withSess { s.sess with lastSetup := packSetup payload })).updEp e fun r => { r with txtoggle := true }

/-- On endpoint 0 the built-in handler takes a SETUP. -/
theorem tSetup_builtin {s : State} {payload : List Byte} (h : ((s.setupTaken 0 payload).endpoint 0).rxcb = cbEp0) :
    tSetup 0 payload s = ctrlSetup (s.setupTaken 0 payload) := by
  have taken : tSetup 0 payload s = handler 0 tokSetup payload (s.setupTaken 0 payload) := rfl
  rw [taken, handler, if_pos ⟨rfl, h⟩, if_pos rfl]

/-- `u` is `s` with the queue of `e` discarded, the packet in `LASTSETUP` and the next toggle DATA1 (R168). -/
structure SetupTaken (e : EpId) (payload : List Byte) (s u : State) : Prop where
  node : ∀ a : Word, u.node? a = if a ∈ (s.endpoint e).txq then none else s.node? a
  live : u.pool.live = freed (queueBlocks s e) s.pool.live
  sess : u.sess = { s.sess with lastSetup := packSetup payload }
  record : u.endpoint e = { s.endpoint e with txq := [], txtoggle := true }
  others : SameOthers e s u
  trace : u.trace = { s.trace with evt := s.trace.evt ++ completions s e }
  frame : u = (((s.withSess u.sess).withTrace u.trace).withPool u.pool).withEp u.ep

theorem setupTaken_spec {s : State} (hi : QueueInv s) (e : EpId) (payload : List Byte) :
    SetupTaken e payload s (s.setupTaken e payload) := by
  obtain ⟨hrecord, hothers, htrace, hnode, hlive, hframe⟩ :=
    cancelQueue_cancelled (s := s.withSess { s.sess with lastSetup := packSetup payload }) hi e
  unfold State.setupTaken
  generalize cancelQueue e (s.withSess { s.sess with lastSetup := packSetup payload }) = u at *
  have sess : u.sess = { s.sess with lastSetup := packSetup payload } := by
    rw [hframe]
    rfl
  constructor
  case node => exact hnode
  case live => exact hlive
  case sess => exact sess
  case record =>
    rw [State.updEp_same, hrecord]
    rfl
  case others => exact fun i hne => (State.updEp_other u _ hne).trans (hothers i hne)
  case trace => exact htrace
  case frame =>
    rw [State.updEp_sess, sess, hframe]
    rfl

/-- Settles O46: the state the override is asked in is `setupTaken` (`setupTaken_spec`), and `CTRL.SETUP` goes by the answer
(`ctrlSetup_quiet`); a declined packet runs the row it decodes to (`decode_setupPacket`, `exec_requestInstr`). -/
theorem setupRunsRequestRow : Obligations.SetupRunsRequestRow := by
  intro s d payload hq hi hlen hcb
  obtain ⟨hnode, hlive, hsess, hrecord, hothers, htrace, hframe⟩ := setupTaken_spec hi 0 payload
  have builtin : tSetup 0 payload s = ctrlSetup (s.setupTaken 0 payload) :=
    tSetup_builtin (by rw [hrecord]; exact hcb)
  rw [exec_tSetup, builtin]
  generalize s.setupTaken 0 payload = w at *
  have params : w.params = s.params := by
    rw [hframe]
    rfl
  have regs : w.regs = s.regs := by
    rw [hframe]
    rfl
  have lastSetup : w.sess.lastSetup = packSetup payload := by rw [hsess]
  have quiet : Quiet w := by
    rw [hframe]
    exact hq
  rw [ctrlSetup_quiet quiet, params, lastSetup]
  refine ⟨w.overrideAsked, hnode, hlive, hsess, hrecord, hothers, ?regs, ?trace, ?mem, ?port, params, ?sie, ?env,
    fun hans => ?declined, fun hans => ?ack, fun key hans => ?stall, fun bytes hans => ?reply⟩
  case regs =>
    rw [← regs]
    rfl
  case trace =>
    rw [State.overrideAsked, params, lastSetup, State.emit, State.withRegs_trace, htrace]
    rfl
  case declined =>
    refine ⟨_, decode_setupPacket s.params.rebootKey hlen, ?_⟩
    rw [hans, decodeSetup, exec_requestInstr, ← lastSetup, ← params]
    rfl
  case ack =>
    rw [hans]
    rfl
  case stall =>
    rw [hans]
    rfl
  case reply =>
    rw [hans]
    rfl
  all_goals
    rw [hframe]
    rfl

end Sys2Proof.Machine
end

section
/-! The steps of the peripheral (44_peripheral.md R200 to R215): when each is enabled, what an enabled step leaves, and what no step
writes. -/

namespace Sys2Proof.Machine

/-! ### Enabling conditions -/

theorem stepEnabled_iff {s : State} : s.stepEnabled = true ↔ s.sess.reboot = false ∧ s.regs.usben = true := by
  simp [State.stepEnabled]

theorem tokenEnabled_iff {s : State} : s.tokenEnabled = true ↔
    s.stepEnabled = true ∧ s.regs.hold = false ∧ s.regs.statq.length < s.params.statDepth := by
  simp [State.tokenEnabled, and_assoc]

theorem setupEnabled_iff {s : State} {e : EpId} {bytes : List Byte} : s.setupEnabled e bytes = true ↔
    s.tokenEnabled = true ∧ ctlRx (s.regs.epc e) = true ∧ s.bdOwn e .rx (s.sie.rxAt e) = true ∧
      8 ≤ (ctlBc (s.bdCtl e .rx (s.sie.rxAt e))).toNat ∧ bytes.length = 8 := by
  simp [State.setupEnabled, State.bdOwn, and_assoc]

theorem outEnabled_iff {s : State} {e : EpId} {bytes : List Byte} : s.outEnabled e bytes = true ↔
    s.tokenEnabled = true ∧ ctlRx (s.regs.epc e) = true ∧ ctlStall (s.regs.epc e) = false ∧
      s.bdOwn e .rx (s.sie.rxAt e) = true ∧ bytes.length ≤ (ctlBc (s.bdCtl e .rx (s.sie.rxAt e))).toNat := by
  simp [State.outEnabled, State.bdOwn, and_assoc]

theorem inEnabled_iff {s : State} {e : EpId} : s.inEnabled e = true ↔
    s.tokenEnabled = true ∧ ctlTx (s.regs.epc e) = true ∧ ctlStall (s.regs.epc e) = false ∧
      s.bdOwn e .tx (s.sie.txAt e) = true := by
  simp [State.inEnabled, State.bdOwn, and_assoc]

theorem stalledEnabled_iff {s : State} {e : EpId} : s.stalledEnabled e = true ↔
    s.tokenEnabled = true ∧ ctlStall (s.regs.epc e) = true ∧
      (ctlRx (s.regs.epc e) = true ∨ ctlTx (s.regs.epc e) = true) := by
  simp [State.stalledEnabled, and_assoc]

/-! ### Steps that are not enabled (R212) -/

theorem exec_pSetup_disabled {s : State} {e : EpId} {bytes : List Byte} (h : ¬ s.setupEnabled e bytes = true) :
    exec (.pSetup e bytes) s = .next s := congrArg Host.Outcome.next (if_neg h)

theorem exec_pOut_disabled {s : State} {e : EpId} {toggle : Bool} {bytes : List Byte}
    (h : ¬ s.outEnabled e bytes = true) : exec (.pOut e toggle bytes) s = .next s :=
  congrArg Host.Outcome.next (if_neg h)

theorem exec_pIn_disabled {s : State} {e : EpId} (h : ¬ s.inEnabled e = true) : exec (.pIn e) s = .next s :=
  congrArg Host.Outcome.next (if_neg h)

theorem exec_pStalled_disabled {s : State} {e : EpId} (h : ¬ s.stalledEnabled e = true) :
    exec (.pStalled e) s = .next s := congrArg Host.Outcome.next (if_neg h)

/-- Settles O59: each clause falsifies a conjunct of an enabling condition, the first one that of all four token steps. -/
theorem noStepChangesNothing : Obligations.NoStepChangesNothing := by
  intro s e toggle bytes
  refine ⟨fun h i hi => ?token, fun h => exec_pSetup_disabled fun he => ?setup, fun h => exec_pOut_disabled fun he => ?out,
    fun h => exec_pIn_disabled fun he => ?inTok, fun h => exec_pStalled_disabled fun he => ?stalled⟩
  case token =>
    have off : ¬ s.tokenEnabled = true := by
      intro ht
      obtain ⟨hs, hhold, hroom⟩ := tokenEnabled_iff.mp ht
      have husb := (stepEnabled_iff.mp hs).2
      rcases h with h | h | h
      · simp [husb] at h
      · simp [hhold] at h
      · omega
    simp only [List.mem_cons, List.not_mem_nil, or_false] at hi
    rcases hi with rfl | rfl | rfl | rfl
    · exact exec_pSetup_disabled fun he => off (setupEnabled_iff.mp he).1
    · exact exec_pIn_disabled fun he => off (inEnabled_iff.mp he).1
    · exact exec_pOut_disabled fun he => off (outEnabled_iff.mp he).1
    · exact exec_pStalled_disabled fun he => off (stalledEnabled_iff.mp he).1
  case setup =>
    obtain ⟨-, hrx, hown, hcount, -⟩ := setupEnabled_iff.mp he
    rcases h with h | h | h
    · simp [hrx] at h
    · simp [hown] at h
    · omega
  case out =>
    obtain ⟨-, hrx, hstall, hown, hcount⟩ := outEnabled_iff.mp he
    rcases h with h | h | h | h
    · simp [hrx] at h
    · simp [hstall] at h
    · simp [hown] at h
    · omega
  case inTok =>
    obtain ⟨-, htx, hstall, hown⟩ := inEnabled_iff.mp he
    simp [htx, hstall, hown] at h
  case stalled =>
    obtain ⟨-, hstall, hdir⟩ := stalledEnabled_iff.mp he
    rcases h with h | ⟨hrx, htx⟩
    · simp [hstall] at h
    · simp [hrx, htx] at hdir

/-! ### A packet received (R208, R210) -/

section
variable (s : State) (e : EpId) (x : Slot) (tok : BitVec 4) (toggle : Bool) (bytes : List Byte)

theorem State.rxDone_mem : (s.rxDone e x tok toggle bytes).mem =
    ((s.pokeBytes (s.bdBuf e .rx x) bytes).setBdCtl e .rx x
      (ctlWord (BitVec.ofNat 10 bytes.length) false toggle tok)).mem := by
  unfold State.rxDone
  dsimp only
  split <;> rfl

/-- A receive transaction, the groups of state it writes one by one. -/
theorem State.rxDone_eq : s.rxDone e x tok toggle bytes =
    ((((s.withMem (s.rxDone e x tok toggle bytes).mem).withRegs
      (s.regs.pushStat { ep := e, dir := .rx, slot := x })).withSie (s.sie.setRx e (s.sie.rxAt e).flip)).withTrace
      { s.trace with wire := s.trace.wire ++ if ctlHshk (s.regs.epc e) then [.ack e] else [] }) := by
  rw [State.rxDone_mem]
  unfold State.rxDone
  rw [State.pokeBytes_eq]
  by_cases handshake : ctlHshk (s.regs.epc e) = true
  · rw [if_pos handshake]
    exact if_pos handshake
  · rw [if_neg handshake, List.append_nil]
    exact if_neg handshake

/-- The control word is written back with the length of the packet and `OWN` 0. -/
theorem State.rxDone_bdCtl (hm : MemInv s) : (s.rxDone e x tok toggle bytes).bdCtl e .rx x =
    ctlWord (BitVec.ofNat 10 bytes.length) false toggle tok := by
  have hparams : (s.rxDone e x tok toggle bytes).params = (s.pokeBytes (s.bdBuf e .rx x) bytes).params :=
    (rxDone_untouched ..).params.trans (State.pokeBytes_params ..).symm
  rw [State.bdCtl_congr (State.rxDone_mem ..) hparams]
  exact State.bdCtl_setBdCtl_same _ _ _ _ _ (State.wf_pokeBytes bytes _ hm)

/-- The write-back leaves the bytes outside the control word as storing the packet left them. -/
theorem State.read_rxDone {c : Word} (hc : ¬ inCtl s.params e .rx x c) :
    (s.rxDone e x tok toggle bytes).mem.read c = (s.pokeBytes (s.bdBuf e .rx x) bytes).mem.read c := by
  rw [State.rxDone_mem]
  refine State.read_setBdCtl_ne _ _ _ _ _ ?_
  rw [State.pokeBytes_params]
  exact Nat.le_of_not_lt hc

/-- Memory changes in the packet's bytes and in the control word alone. -/
theorem State.rxDone_sameMem : SameMem (fun c => inRun (s.bdBuf e .rx x) bytes.length c ∨ inCtl s.params e .rx x c) s
    (s.rxDone e x tok toggle bytes) := by
  intro c hc
  obtain ⟨hrun, hctl⟩ := not_or.mp hc
  exact (State.read_rxDone s e x tok toggle bytes hctl).trans (State.read_pokeBytes_ne bytes s _ (Nat.le_of_not_lt hrun))

end

theorem exec_pSetup_enabled {s : State} {e : EpId} {bytes : List Byte} (h : s.setupEnabled e bytes = true) :
    exec (.pSetup e bytes) s = .next (s.rxDone e (s.sie.rxAt e) tokSetup false bytes) :=
  congrArg Host.Outcome.next (if_pos h)

theorem exec_pOut_enabled {s : State} {e : EpId} {toggle : Bool} {bytes : List Byte} (h : s.outEnabled e bytes = true) :
    exec (.pOut e toggle bytes) s = .next (s.rxDone e (s.sie.rxAt e) tokOut toggle bytes) :=
  congrArg Host.Outcome.next (if_pos h)

/-- Settles O56: both steps are one receive transaction (`exec_pSetup_enabled`, `exec_pOut_enabled`), whose memory is that of
`rxDone_bdCtl`, `read_rxDone` and `rxDone_sameMem` and whose other writes are those of `rxDone_eq`. -/
theorem packetReceived : Obligations.PacketReceived := by
  intro s e i bytes toggle tok hm hreboot husb hhold hroom hrx x a hown hi
  have token : s.tokenEnabled = true := tokenEnabled_iff.mpr ⟨stepEnabled_iff.mpr ⟨hreboot, husb⟩, hhold, hroom⟩
  have runs : exec i s = .next (s.rxDone e x (BitVec.ofNat 4 tok) toggle bytes) ∧ bytes.length < 1024 ∧ tok < 16 := by
    have count := (ctlBc (s.bdCtl e .rx x)).isLt
    rcases hi with ⟨rfl, hlen, hcount, rfl, rfl⟩ | ⟨rfl, hlen, hstall, rfl⟩
    · exact ⟨exec_pSetup_enabled (setupEnabled_iff.mpr ⟨token, hrx, hown, hcount, hlen⟩), by omega, by decide⟩
    · exact ⟨exec_pOut_enabled (outEnabled_iff.mpr ⟨token, hrx, hstall, hown, hlen⟩), by omega, by decide⟩
  obtain ⟨hexec, hlen, htok⟩ := runs
  have frame := State.rxDone_eq s e x (BitVec.ofNat 4 tok) toggle bytes
  refine ⟨_, hexec, fun k hk hregs hctl => ?stored, ?control, State.rxDone_sameMem _ _ _ _ _ _, ?_, ?_, ?_, ?_, ?_,
    ?_, ?_, ?_, ?_⟩
  case stored => rw [State.read_rxDone _ _ _ _ _ _ hctl, State.read_pokeBytes_at bytes a hm (by omega) k hk hregs]
  case control => rw [State.rxDone_bdCtl _ _ _ _ _ _ hm, ctlWord_eq hlen htok]
  all_goals
    rw [frame]
    rfl

/-! ### A packet sent (R209) -/

/-- The bytes seen are those at the addresses from `a` on. -/
theorem State.peekBytes_getElem (s : State) (n : Nat) : ∀ (a : Word) (k : Nat) (hk : k < (s.peekBytes a n).length),
    (s.peekBytes a n)[k] = s.readByte (a + BitVec.ofNat 32 k) := by
  induction n with
  | zero => intro a k hk; simp at hk
  | succ n ih =>
    intro a k hk
    cases k with
    | zero => simp [State.peekBytes]
    | succ j =>
      have ha : a + BitVec.ofNat 32 (j + 1) = a + 1#32 + BitVec.ofNat 32 j := by bv_omega
      rw [ha]
      exact ih (a + 1#32) j _

/-- The armed bytes that an IN of `e` sends. -/
def State.armedBytes (s : State) (e : EpId) : List Byte :=
  s.peekBytes (s.bdBuf e .tx (s.sie.txAt e)) (ctlBc (s.bdCtl e .tx (s.sie.txAt e))).toNat

/-- The control word that an IN of `e` writes back: count and toggle kept, `OWN` 0, the IN token. -/
def State.sentWord (s : State) (e : EpId) : Word :=
  ctlWord (ctlBc (s.bdCtl e .tx (s.sie.txAt e))) false (ctlData1 (s.bdCtl e .tx (s.sie.txAt e))) tokIn

/-- The state after an IN of `e`. -/
def State.inDone (s : State) (e : EpId) : State :=
  (((s.wire (.data e (ctlData1 (s.bdCtl e .tx (s.sie.txAt e))) (s.armedBytes e))).setBdCtl e .tx (s.sie.txAt e)
    (s.sentWord e)).withRegs (s.regs.pushStat { ep := e, dir := .tx, slot := s.sie.txAt e })).withSie
    (s.sie.setTx e (s.sie.txAt e).flip)

theorem exec_pIn_enabled {s : State} {e : EpId} (h : s.inEnabled e = true) : exec (.pIn e) s = .next (s.inDone e) :=
  congrArg Host.Outcome.next (if_pos h)

theorem State.sentWord_eq (s : State) (e : EpId) : s.sentWord e =
    controlWord (ctlBc (s.bdCtl e .tx (s.sie.txAt e))).toNat false (ctlData1 (s.bdCtl e .tx (s.sie.txAt e))) 0x9 := by
  have hword := ctlWord_eq (ctlBc (s.bdCtl e .tx (s.sie.txAt e))).isLt (show 9 < 16 by decide) false
    (ctlData1 (s.bdCtl e .tx (s.sie.txAt e)))
  rw [BitVec.ofNat_toNat, BitVec.setWidth_eq] at hword
  exact hword

/-- Settles O57: the enabled step is `inDone`; the bytes sent are read one by one (`peekBytes_getElem`), and the one write of memory
is that of the control word. -/
theorem packetSent : Obligations.PacketSent := by
  intro s e hm hreboot husb hhold hroom htx hstall x w hown
  have token : s.tokenEnabled = true := tokenEnabled_iff.mpr ⟨stepEnabled_iff.mpr ⟨hreboot, husb⟩, hhold, hroom⟩
  refine ⟨s.inDone e, s.armedBytes e, exec_pIn_enabled (inEnabled_iff.mpr ⟨token, htx, hstall, hown⟩),
    State.peekBytes_length .., fun k hk => State.peekBytes_getElem _ _ _ k hk, rfl, ?control, fun c hc => ?memory,
    rfl, rfl, rfl, rfl, rfl, rfl, rfl, rfl⟩
  case control => exact (State.bdCtl_setBdCtl_same _ _ _ _ _ hm).trans (State.sentWord_eq s e)
  case memory => exact State.read_setBdCtl_ne _ _ _ _ _ (Nat.le_of_not_lt hc)

/-! ### The steps that only raise a source (R203 to R207, R211) -/

/-- Settles O58: the enabled step is its two writes. -/
theorem stallAnswered : Obligations.StallAnswered := by
  intro s e hreboot husb hhold hroom hstall hdir
  have token : s.tokenEnabled = true := tokenEnabled_iff.mpr ⟨stepEnabled_iff.mpr ⟨hreboot, husb⟩, hhold, hroom⟩
  exact congrArg Host.Outcome.next (if_pos (stalledEnabled_iff.mpr ⟨token, hstall, hdir⟩))

/-- Settles O55: `stepEnabled` is the whole condition of these steps, but for the flags of `P.ERR`. -/
theorem eventSteps : Obligations.EventSteps := by
  intro s bits hreboot husb
  have enabled : s.stepEnabled = true := stepEnabled_iff.mpr ⟨hreboot, husb⟩
  have fires : ∀ y, (if s.stepEnabled then s.fire y else s) = s.fire y := fun y => if_pos enabled
  refine ⟨congrArg _ (fires .softok), congrArg _ (fires .sleep), congrArg _ (fires .resume), congrArg _ (fires .attach),
    fun hbits => ?err⟩
  case err =>
    have flagged : (s.stepEnabled && bits != 0#5) = true := by simp [enabled, hbits]
    exact congrArg Host.Outcome.next (if_pos flagged)

/-! ### The bus reset (R202) -/

/-- The state the peripheral has reset, but for the wire. -/
def State.busReset (s : State) : State :=
  (s.withRegs s.regs.busReset).withSie { txodd := Vector.replicate 16 .even, rxodd := Vector.replicate 16 .even }

theorem exec_pReset_enabled {s : State} (h : s.stepEnabled = true) : exec .pReset s = .next (s.busReset.wire .reset) :=
  congrArg Host.Outcome.next (if_pos h)

theorem Regs.busReset_istat (r : Regs) : r.busReset.istat = (r.istat &&& 0xF7#8) ||| 0x01#8 := rfl

@[simp] theorem Regs.busReset_usben (r : Regs) : r.busReset.usben = r.usben := by
  simp [Regs.busReset, Regs.usben, holdMask]

/-- A second bus reset finds the registers as the first left them. -/
theorem Regs.busReset_busReset (r : Regs) : r.busReset.busReset = r.busReset := by
  have hctl : r.busReset.busReset.ctl = r.busReset.ctl := by
    simp [Regs.busReset, BitVec.or_assoc]
  have histat : r.busReset.busReset.istat = r.busReset.istat := by
    simp only [Regs.busReset_istat]
    generalize r.istat = v
    revert v
    decide
  calc r.busReset.busReset
    _ = { r.busReset with ctl := r.busReset.busReset.ctl, istat := r.busReset.busReset.istat } := rfl
    _ = r.busReset := by rw [hctl, histat]

/-- A second bus reset changes nothing of what the first left. -/
theorem State.busReset_wire_busReset (s : State) (y : WireEntry) : (s.busReset.wire y).busReset = s.busReset.wire y := by
  have hregs : (s.busReset.wire y).regs.busReset = (s.busReset.wire y).regs := Regs.busReset_busReset s.regs
  unfold State.busReset at hregs ⊢
  rw [hregs]
  rfl

/-- Settles O54: the step is `busReset` with its entry on the wire, and a second `busReset` changes nothing. -/
theorem busResetStep : Obligations.BusResetStep := by
  intro s hreboot husb
  have again : (s.busReset.wire .reset).stepEnabled = true :=
    stepEnabled_iff.mpr ⟨hreboot, (Regs.busReset_usben s.regs).trans husb⟩
  refine ⟨_, exec_pReset_enabled (stepEnabled_iff.mpr ⟨hreboot, husb⟩), rfl, fun e => ?pointers, rfl, rfl, rfl, rfl, rfl, rfl,
    rfl, rfl, ?second⟩
  case pointers => simp [State.busReset, Sie.txAt, Sie.rxAt]
  case second =>
    rw [exec_pReset_enabled again, State.busReset_wire_busReset]
    rfl

/-! ### What no step writes (R215) -/

theorem Regs.setSource_istat_kept (r : Regs) (y : Source) {k : Nat} (h : r.istat.getLsbD k = true) :
    (r.setSource y).istat.getLsbD k = true := by
  simp [Regs.setSource, h]

/-- A bus reset clears no bit of `ISTAT` but `TOKDNE`. -/
theorem Regs.busReset_istat_kept (r : Regs) {k : Nat} (hk : k < 8) (h3 : k ≠ 3) (h : r.istat.getLsbD k = true) :
    r.busReset.istat.getLsbD k = true := by
  have hmask : (0xF7#8).getLsbD k = true := by
    clear h
    revert k
    decide
  rw [Regs.busReset_istat, BitVec.getLsbD_or, BitVec.getLsbD_and, h, hmask]
  rfl

/-- But for `P.RESET`, a step fires a source or leaves the registers, and besides writes `ERRSTAT` and `STATQ` at most. -/
theorem hostStep_regs {h : HostStep} (hne : h ≠ .reset) (s : State) : (hostStep h s).regs = s.regs ∨
    ∃ err q y, (hostStep h s).regs = { s.regs with errstat := err, statq := q }.setSource y := by
  cases h
  case reset => exact absurd rfl hne
  case sof | err | sleep | resume | attach | stalled =>
    simp only [hostStep, pSof, pErr, pSleep, pResume, pAttach, pStalled]
    split
    · exact .inr ⟨_, _, _, rfl⟩
    · exact .inl rfl
  case inTok e =>
    simp only [hostStep, pIn]
    split
    · exact .inr ⟨s.regs.errstat, s.regs.statq ++ [⟨e, .tx, s.sie.txAt e⟩], .tokdne, rfl⟩
    · exact .inl rfl
  case setup e _ | out e _ _ =>
    simp only [hostStep, pSetup, pOut]
    split
    · rw [State.rxDone_eq]
      exact .inr ⟨s.regs.errstat, s.regs.statq ++ [⟨e, .rx, s.sie.rxAt e⟩], .tokdne, rfl⟩
    · exact .inl rfl

theorem pReset_regs (s : State) : (pReset s).regs = s.regs ∨ (pReset s).regs = s.regs.busReset := by
  unfold pReset
  split
  · exact .inr rfl
  · exact .inl rfl

theorem hostStep_ctl {h : HostStep} (hne : h ≠ .reset) (s : State) : (hostStep h s).regs.ctl = s.regs.ctl := by
  rcases hostStep_regs hne s with hr | ⟨err, q, y, hr⟩
  · rw [hr]
  · rw [hr]
    rfl

/-- A step clears no bit of `ISTAT`, but for `TOKDNE` in `P.RESET`. -/
theorem hostStep_istat_kept (h : HostStep) (s : State) {k : Nat} (hk : k < 8) (hexc : k ≠ 3 ∨ h ≠ .reset)
    (hset : s.regs.istat.getLsbD k = true) : (hostStep h s).regs.istat.getLsbD k = true := by
  by_cases hreset : h = .reset
  · subst hreset
    have h3 : k ≠ 3 := hexc.resolve_right (fun hne => hne rfl)
    rcases pReset_regs s with hr | hr
    · simpa [hostStep, hr] using hset
    · simpa [hostStep, hr] using Regs.busReset_istat_kept s.regs hk h3 hset
  · rcases hostStep_regs hreset s with hr | ⟨err, q, y, hr⟩
    · rw [hr]
      exact hset
    · rw [hr]
      exact Regs.setSource_istat_kept _ y hset

/-- Only the three transactions with a buffer write memory. -/
theorem hostStep_mem {h : HostStep} (hsetup : ∀ e b, h ≠ .setup e b) (hin : ∀ e, h ≠ .inTok e)
    (hout : ∀ e g b, h ≠ .out e g b) (s : State) : (hostStep h s).mem = s.mem := by
  cases h
  case setup e b => exact absurd rfl (hsetup e b)
  case inTok e => exact absurd rfl (hin e)
  case out e g b => exact absurd rfl (hout e g b)
  case reset | sof | err | sleep | resume | attach | stalled =>
    simp only [hostStep, pReset, pSof, pErr, pSleep, pResume, pAttach, pStalled]
    split <;> rfl

theorem hostStep_env (h : HostStep) (s : State) : (hostStep h s).env = s.env := by
  have priv := (hostStep_untouched h s).toPrivate
  calc (hostStep h s).env
    _ = ⟨(hostStep h s).env.inbox, (hostStep h s).env.between, (hostStep h s).env.nodeDraws,
          (hostStep h s).env.blockDraws, (hostStep h s).env.drawCount⟩ := rfl
    _ = s.env := by rw [priv.inbox, hostStep_between, priv.nodeDraws, priv.blockDraws, priv.drawCount]

/-- Settles O60: `hostStep_untouched` holds most of it; the bits of `ISTAT`, `CTL` and memory have a lemma each. -/
theorem peripheralNeverWrites : Obligations.PeripheralNeverWrites := by
  intro h s t
  have same := hostStep_untouched h s
  refine ⟨same.params, same.port, same.ep, same.pool, same.sess, hostStep_env h s, same.evt, same.inten, same.addr,
    same.epctl, hostStep_usben h s, fun k hk => hostStep_istat_kept h s hk, fun hne => ?hold,
    fun hsetup hin hout => hostStep_mem hsetup hin hout s⟩
  case hold => exact congrArg (fun c : BitVec 2 => c.getLsbD 1) (hostStep_ctl hne s)

end Sys2Proof.Machine
end


section
/-! The endpoint commands on an identifier that names no endpoint (60_exceptions.md R221, R222): five run their body at once, `SEND`
and `TRYSEND` check their data range first, but copy nothing then. -/

namespace Sys2Proof.Machine

/-- A command without a data range ends in `ERR_RANGE`. -/
theorem command_onEndpoint_range {s : State} {ep : BitVec 8} (hr : Ready s) (h : 16 ≤ ep.toNat) (run : EpId → State → State) :
    command (onEndpoint ep run) s = .next (s.withPort { s.port with status := 0x01#8 }) := by
  rw [command_ready _ hr.1 hr.2, onEndpoint_range h]

/-- A copying command that copies nothing does so too. -/
theorem copyingCommand_onEndpoint_range {copies : State → Bool} {s : State} {ep : BitVec 8} (hr : Ready s) (h : 16 ≤ ep.toNat)
    (idle : copies s = false) (run : EpId → State → State) :
    copyingCommand copies (onEndpoint ep run) s = .next (s.withPort { s.port with status := 0x01#8 }) := by
  rw [copyingCommand_idle hr idle, onEndpoint_range h]

theorem sendCopies_range {ep : BitVec 8} (h : 16 ≤ ep.toNat) (s : State) : sendCopies ep s = false := by
  rw [sendCopies, epOfByte_none h]
  rfl

theorem trysendCopies_range {ep : BitVec 8} (h : 16 ≤ ep.toNat) (s : State) : trysendCopies ep s = false := by
  rw [trysendCopies, epOfByte_none h]

/-- Settles O9: each command is `onEndpoint` under `command`, or under `copyingCommand` with nothing to copy. -/
theorem rangeErrors : Obligations.RangeErrors := by
  intro s ep mps hr h
  have plain := command_onEndpoint_range hr h
  have sends := copyingCommand_onEndpoint_range hr h (sendCopies_range h s) send
  have trysends := copyingCommand_onEndpoint_range hr h (trysendCopies_range h s) trysend
  simp only [List.forall_mem_cons]
  exact ⟨plain (cfgep mps), plain enq, sends, trysends, plain cancel, plain qpend, plain qbusy, List.forall_mem_nil _⟩

end Sys2Proof.Machine
end


section
/-! Power-on reset (70_reset_and_hazards.md R250): what an endpoint, a slot pointer and a descriptor read as, and that the state
meets every invariant: nothing is queued, live or owned, and `CTL.HOLD` is up over `EVEN` slot pointers. -/

namespace Sys2Proof.Machine

theorem Memory.read32_empty (a : Word) : (Memory.mk []).read32 a = 0#32 :=
  show wordOfBytes 0#8 0#8 0#8 0#8 = 0#32 by decide

section

variable (p : Params) (drawn : Memory)

/-! ### What the entries of the power-on state are -/

@[simp] theorem State.powerOn_epc (e : EpId) : (State.powerOn p drawn).regs.epc e = 0#4 := Vector.getElem_replicate _

@[simp] theorem State.powerOn_endpoint (e : EpId) : (State.powerOn p drawn).endpoint e = EpRec.reset :=
  Vector.getElem_replicate _

@[simp] theorem State.powerOn_rxAt (e : EpId) : (State.powerOn p drawn).sie.rxAt e = .even := Vector.getElem_replicate _

@[simp] theorem State.powerOn_txAt (e : EpId) : (State.powerOn p drawn).sie.txAt e = .even := Vector.getElem_replicate _

theorem State.powerOn_hold : (State.powerOn p drawn).regs.hold = true :=
  show (0x3#2).getLsbD 1 = true by decide

theorem State.powerOn_not_pending (x : Source) : (State.powerOn p drawn).regs.pending x = false := BitVec.getLsbD_zero

/-- Outside the table the memory is as drawn. -/
theorem State.powerOn_read {a : Word} (ha : inTable p a = false) : (State.powerOn p drawn).mem.read a = drawn.read a := by
  calc (State.powerOn p drawn).mem.read a
    _ = if inTable p a then 0#8 else drawn.read a := Memory.read_zeroTable p drawn a
    _ = drawn.read a := by rw [ha]; rfl

/-- Inside the table every draw reads as the draw that lists no byte, and so do the descriptors. -/
theorem State.powerOn_bd (e : EpId) (d : Dir) (x : Slot) :
    (State.powerOn p drawn).bdCtl e d x = 0#32 ∧ (State.powerOn p drawn).bdBuf e d x = 0#32 := by
  have table : ∀ a, inTable p a = true →
      (State.powerOn p drawn).mem.read a = (State.powerOn p { cells := [] }).mem.read a := fun a ha =>
    calc (drawn.zeroTable p).read a
      _ = 0#8 := by rw [Memory.read_zeroTable, if_pos ha]
      _ = (Memory.zeroTable p { cells := [] }).read a := rfl
  have ⟨hctl, hbuf⟩ := bd_congr_table (s := State.powerOn p { cells := [] }) (t := State.powerOn p drawn) rfl table e d x
  exact ⟨hctl.trans (Memory.read32_empty _), hbuf.trans (Memory.read32_empty _)⟩

/-! ### The invariants -/

theorem powerOn_memInv {drawn : Memory} (hd : drawn.wf = true) : MemInv (State.powerOn p drawn) :=
  Memory.wf_zeroTable p hd

theorem powerOn_statInv : StatInv (State.powerOn p drawn) :=
  ⟨fun hq => absurd rfl hq, Nat.zero_le _⟩

theorem powerOn_holdInv : HoldInv (State.powerOn p drawn) :=
  ⟨fun _ => State.powerOn_hold p drawn, fun _ => ⟨rfl, State.powerOn_not_pending p drawn .tokdne, fun e =>
    ⟨State.powerOn_txAt p drawn e, State.powerOn_rxAt p drawn e⟩⟩⟩

theorem powerOn_queueInv : QueueInv (State.powerOn p drawn) := by
  refine ⟨.nil, List.forall_mem_nil _, fun e => ?queue, List.forall_mem_nil _⟩
  rw [State.powerOn_endpoint]
  exact ⟨.nil, List.forall_mem_nil _⟩

theorem powerOn_heapInv : HeapInv (State.powerOn p drawn) :=
  ⟨.nil, Nat.zero_le _, .nil, List.forall_mem_nil _⟩

theorem powerOn_ownerInv : OwnerInv (State.powerOn p drawn) := by
  have noPair : ∀ e ∈ epIds, ((State.powerOn p drawn).endpoint e).rxbuf.map pairBlock = none := fun e _ => by
    rw [State.powerOn_endpoint]
    rfl
  have nothingOwned : ownedBlocks (State.powerOn p drawn) = [] := List.filterMap_eq_nil_iff.mpr noPair
  exact .of_eq nothingOwned

/-- The agreement speaks of `CTL.HOLD` = 0 alone, and power-on leaves it 1. -/
theorem powerOn_parityInv : ParityInv (State.powerOn p drawn) := fun released =>
  absurd (State.powerOn_hold p drawn) (Bool.eq_false_iff.mp released)

end

/-- Settles O11: the fields are the reset sequence's; the endpoints, the descriptors and the memory have a lemma each. -/
theorem resetValues : Obligations.ResetValues := by
  intro p drawn s
  refine ⟨rfl, rfl, rfl, rfl, rfl, rfl, rfl, rfl, rfl, rfl, rfl, rfl, rfl, rfl, fun e => ?endpoint,
    fun a ha => State.powerOn_read p drawn ha, fun _ => rfl, rfl, rfl, rfl, rfl, rfl, rfl, rfl⟩
  case endpoint =>
    have record : s.endpoint e = EpRec.reset := State.powerOn_endpoint p drawn e
    rw [record]
    exact ⟨State.powerOn_epc p drawn e, rfl, rfl, rfl, rfl, rfl, rfl, rfl, State.powerOn_rxAt p drawn e,
      State.powerOn_txAt p drawn e, State.powerOn_bd p drawn e⟩

/-- Settles O12: each invariant has its lemma, and the parameters of the test vectors are checked by evaluation. -/
theorem resetInvariants : Obligations.ResetInvariants :=
  ⟨fun p drawn => ⟨powerOn_memInv p, powerOn_statInv p drawn, powerOn_holdInv p drawn, powerOn_queueInv p drawn,
    powerOn_heapInv p drawn, powerOn_ownerInv p drawn, powerOn_parityInv p drawn⟩,
    rfl, powerOn_memInv Params.vectors Memory.wf_empty, by decide⟩

end Sys2Proof.Machine
end
